-- ==== Sys2Proof/Word.lean ====
section
/-! DEFINITION. The machine word and the other plain bit widths of the engine (spec/00_scope.md R9, R13, R16). -/

namespace Sys2Proof

/-- `Word` of R16: a 32-bit value; register values, operands, results, addresses and program counters (`XLEN`, R9). -/
abbrev Word := BitVec 32

/-- One byte of memory (R63). -/
abbrev Byte := BitVec 8

/-- A micro-op record: 128 bits, `w3_w2_w1_w0` with `w0` the least significant word (R80). -/
abbrev Record := BitVec 128

/-- A register field of a record: 0 to 15 (R81). -/
abbrev Reg := BitVec 4

end Sys2Proof
end

