-- ==== Sys2Proof/Syntax.lean ====
section
/-! DEFINITION. The micro-ops of the engine: one constructor of `Instr` per row of spec/opcode_table.json (R84, R99,
R100). A term holds the operand fields its kind reads; the fields a kind ignores (R92) are not part of the term, and
the engine keeps the whole 128-bit record beside it wherever the spec stores a record. -/

namespace Sys2Proof

/-- The four condition flags, in the order N, Z, C, V (R22). -/
inductive Flag where
  | n | z | c | v
deriving DecidableEq, Repr

/-- The four functional-unit classes (R16, R31). -/
inductive FuClass where
  | alu | mul | ls | ctrl
deriving DecidableEq, Repr

/-- The condition codes of a conditional branch (R276); codes 14 and 15 are invalid (R88). -/
inductive Cond where
  | eq | ne | cs | cc | mi | pl | vs | vc | hi | ls | ge | lt | gt | le | invalid14 | invalid15
deriving DecidableEq, Repr

/-- The program-counter increment code `pi` (R81, R91); code 3 is reserved. -/
inductive PcInc where
  | zero | two | four | reserved
deriving DecidableEq, Repr

/-- What the selector `s1` puts in operand slot 1 (R81). -/
inductive Src where
  | absent
  | reg (rm : Reg)
  | uimm (w : Word)
  | simm (w : Word)
deriving DecidableEq, Repr

/-- The micro-ops, one constructor per row of the opcode table (R100). -/
inductive Instr where
  /-- `alu.<sub>{fw} rd, rn|-, src [, c]` (R240): `a` is `rn` when `s0 = 1`, `cin` says that `s2 = 2`. -/
  | alu (sub : BitVec 6) (rd : Reg) (a : Option Reg) (b : Src) (cin : Bool) (fw : BitVec 4) (pi : PcInc)
  /-- `cmp.<sub>{fw} rn|-, src [, c]` (R241). -/
  | cmp (sub : BitVec 6) (a : Option Reg) (b : Src) (cin : Bool) (fw : BitVec 4) (pi : PcInc)
  /-- `mul{fw} rd, rn, src` (R242): `fw` has room for N (bit 0) and Z (bit 1) only. -/
  | mul (rd rn : Reg) (b : Src) (fw : BitVec 2) (pi : PcInc)
  /-- `ldb rd, [rn, off]` (R250). -/
  | ldb (rd rn : Reg) (off : Src) (pi : PcInc)
  /-- `ldsb rd, [rn, off]` (R251). -/
  | ldsb (rd rn : Reg) (off : Src) (pi : PcInc)
  /-- `ldh rd, [rn, off]` (R252). -/
  | ldh (rd rn : Reg) (off : Src) (pi : PcInc)
  /-- `ldsh rd, [rn, off]` (R253). -/
  | ldsh (rd rn : Reg) (off : Src) (pi : PcInc)
  /-- `ldw rd, [rn, off]` (R254). -/
  | ldw (rd rn : Reg) (off : Src) (pi : PcInc)
  /-- `ldsw rd, [rn, off]` (R255). -/
  | ldsw (rd rn : Reg) (off : Src) (pi : PcInc)
  /-- `stb ra, [rn, off]` (R256). -/
  | stb (ra rn : Reg) (off : Src) (pi : PcInc)
  /-- `sth ra, [rn, off]` (R257). -/
  | sth (ra rn : Reg) (off : Src) (pi : PcInc)
  /-- `stw ra, [rn, off]` (R258). -/
  | stw (ra rn : Reg) (off : Src) (pi : PcInc)
  /-- `b #+n` (R270). -/
  | b (simm : Word) (pi : PcInc)
  /-- `bcond.<cc> #+n` (R271). -/
  | bcond (cond : Cond) (simm : Word) (pi : PcInc)
  /-- `bl #+n` (R272). -/
  | bl (simm : Word) (pi : PcInc)
  /-- `bx rn` (R273). -/
  | bx (rn : Reg) (pi : PcInc)
  /-- `blx rn` (R274). -/
  | blx (rn : Reg) (pi : PcInc)
  /-- `setpc rn` (R275). -/
  | setpc (rn : Reg) (pi : PcInc)
  /-- `svc.puts rn` (R278). -/
  | svcPuts (rn : Reg) (pi : PcInc)
  /-- `svc.puti rn` (R279). -/
  | svcPuti (rn : Reg) (pi : PcInc)
  /-- `svc.halt` (R280). -/
  | svcHalt (pi : PcInc)
deriving DecidableEq, Repr

end Sys2Proof
end

