-- ==== Sys2Proof/Config.lean ====
section
/-! DEFINITION. The implementation parameters `CFG` of R10 as plain data, the constants of R9, and the collaborator
functions of R12 that the spec leaves to the platform: each an opaque constant of which nothing can be evaluated. A
machine carries its `Cfg` in its state (no step changes it), so that a statement about every state is a statement about
every configuration (spec/91_not_in_source.md N17). -/

namespace Sys2Proof

/-- One value per functional-unit class (R10: `RS_SIZE[c]`, `UNITS[c]`; R31: the sets `RS[c]`). -/
structure PerClass (α : Type) where
  alu : α
  mul : α
  ls : α
  ctrl : α
deriving DecidableEq, Repr

def PerClass.get {α : Type} (p : PerClass α) : FuClass → α
  | .alu => p.alu
  | .mul => p.mul
  | .ls => p.ls
  | .ctrl => p.ctrl

def PerClass.set {α : Type} (p : PerClass α) (c : FuClass) (x : α) : PerClass α :=
  match c with
  | .alu => { p with alu := x }
  | .mul => { p with mul := x }
  | .ls => { p with ls := x }
  | .ctrl => { p with ctrl := x }

def PerClass.map {α β : Type} (p : PerClass α) (f : α → β) : PerClass β :=
  { alu := f p.alu, mul := f p.mul, ls := f p.ls, ctrl := f p.ctrl }

/-- `POLICY` (R10, R124). -/
inductive Policy where
  | alwaysTaken | neverTaken
deriving DecidableEq, Repr

/-- `BYTE_ORDER` (R64). -/
inductive ByteOrder where
  | little | big
deriving DecidableEq, Repr

/-- `TARGET_FIX` (R10, R231): the identity of the reference configuration, or the platform's own total function. -/
inductive TargetFix where
  | identity | platform
deriving DecidableEq, Repr

/-- The `alu` collaborator (R165): the platform's own total function, or the fixture of spec/95_test_vectors.md part 1
(operation codes 0 to 4; the platform's function on every other code). -/
inductive AluUnit where
  | platform | vectors
deriving DecidableEq, Repr

/-- What the pre-scan recognises in a raw item (R122). -/
inductive ControlFlow where
  | notCF
  | rel (target : Word)
  | exch
  | svc
deriving DecidableEq, Repr, Inhabited

/-- The pre-scan class of a decoder row; a relative branch names its offset from the item's address (R131 premise 4). -/
inductive RowClass where
  | notCF
  | rel (offset : Word)
  | exch
  | svc
deriving DecidableEq, Repr

/-- One row of a decoder collaborator given as data: what `ilen`, `prescan` and `decode_expand` (R121, R122, R130) answer
for the raw item `raw`. `uops = none` is `undefined`. Items with no row are the platform's (the opaque functions below). -/
structure DecoderRow where
  raw : Word
  long : Bool
  cls : RowClass
  uops : Option (List Record)
deriving DecidableEq, Repr

/-- `CFG` of R10, the choice among the collaborators of R12, and the choices R66 and R67 leave to the memory collaborator. -/
structure Cfg where
  robCapacity : Nat
  rsSize : PerClass Nat
  units : PerClass Nat
  cdbWidth : Nat
  fbCap : Nat
  iqCap : Nat
  iqHeadroom : Nat
  lqCap : Nat
  memPorts : Nat
  latLs : Nat
  latCtrl : Nat
  latLoad : Nat
  redirectDelay : Nat
  policy : Policy
  entryPc : Word
  byteOrder : ByteOrder
  targetFix : TargetFix
  /-- the ALU collaborator (R165) -/
  aluUnit : AluUnit
  /-- the decoder collaborator's rows given as data (R121, R122, R130) -/
  decoder : List DecoderRow
  /-- does an access that runs past 0xFFFFFFFF wrap (R67) -/
  memWraps : Bool
  /-- does the memory collaborator refuse misaligned accesses (R66) -/
  memAligned : Bool
deriving DecidableEq, Repr

/-- `CFG_REF` of R10 (spec/92_eei_decisions.md D2), with the platform's collaborators and `ENTRY_PC = 0`. -/
def Cfg.ref : Cfg :=
  { robCapacity := 8
    rsSize := { alu := 4, mul := 2, ls := 4, ctrl := 2 }
    units := { alu := 2, mul := 1, ls := 1, ctrl := 1 }
    cdbWidth := 2
    fbCap := 2
    iqCap := 8
    iqHeadroom := 4
    lqCap := 4
    memPorts := 1
    latLs := 1
    latCtrl := 1
    latLoad := 1
    redirectDelay := 1
    policy := .alwaysTaken
    entryPc := 0#32
    byteOrder := .little
    targetFix := .identity
    aluUnit := .platform
    decoder := []
    memWraps := false
    memAligned := false }

/-- The constraint column of R10. -/
def Cfg.ok (c : Cfg) : Bool :=
  decide (2 ≤ c.robCapacity)
    && decide (1 ≤ c.rsSize.alu) && decide (1 ≤ c.rsSize.mul) && decide (1 ≤ c.rsSize.ls) && decide (1 ≤ c.rsSize.ctrl)
    && decide (1 ≤ c.units.alu) && decide (1 ≤ c.units.mul) && decide (1 ≤ c.units.ls) && decide (1 ≤ c.units.ctrl)
    && decide (1 ≤ c.cdbWidth) && decide (1 ≤ c.fbCap) && decide (1 ≤ c.iqHeadroom) && decide (c.iqHeadroom ≤ c.iqCap)
    && decide (1 ≤ c.lqCap) && decide (1 ≤ c.memPorts)
    && decide (1 ≤ c.latLs) && decide (1 ≤ c.latCtrl) && decide (1 ≤ c.latLoad)

/-- The bound of R337 without which the load queue can lock the machine up. -/
def Cfg.live (c : Cfg) : Bool := decide (c.rsSize.ls ≤ c.lqCap)

/-- `LAT_ALU` (R9). -/
def Config.latAlu : Nat := 1
/-- `LAT_MUL` (R9). -/
def Config.latMul : Nat := 2
/-- `OVERLAP` (R9). -/
def Config.overlap : Nat := 4

/-- The platform's `alu` (R165): result and the flags N, Z, C, V in bits 0 to 3. Nothing is known of it but that it is a
function of the operation code, the two operands and the carry-in. -/
opaque Config.alu : BitVec 6 → Word → Word → Bool → Word × BitVec 4
/-- The platform's `ilen` (R121): true for a 4-byte item, false for a 2-byte item. -/
opaque Config.isLong : Word → Bool
/-- The platform's `prescan` (R122), on the raw item and its address. -/
opaque Config.prescan : Word → Word → ControlFlow
/-- The platform's `decode_expand` (R130); `none` is `undefined`. -/
opaque Config.decodeExpand : Word → Option (List Record)
/-- The platform's `TARGET_FIX` (R10, R231). -/
opaque Config.targetFix : Word → Word
/-- FREE VALUE: the unspecified upper half of a 2-byte item in the last two bytes of what exists (R62). -/
opaque Config.freeHalf : Nat → BitVec 16

end Sys2Proof
end

