-- ==== Sys2Proof/WellFormed.lean ====
section
/-! DEFINITION. `WF` of R92 on a decoded micro-op: the conditions that the masks of the opcode table do not express
(R100: `pi = 3`, register 15, `s1 = 0` where an operand is required, `cond > 13`). A record that belongs to no row of the
table fails `WF` on a condition of its bits: `decode` rejects it (Sys2Proof/Decode.lean). -/

namespace Sys2Proof

/-- One failing condition of `WF` (R92). -/
inductive Defect where
  /-- `pi` is 3 (R91, R92). -/
  | reservedIncrement
  /-- a register named by an active selector, or the destination of an ALU, MUL or LOAD, is 15 (R21, R92). -/
  | register15
  /-- `s1 = 0` in a kind that requires operand 1 (R92). -/
  | missingOperand
  /-- the condition code of a BCOND is 14 or 15 (R88, R92). -/
  | condition
deriving DecidableEq, Repr

/-- What issue reports for a record with `not WF(u)` (R92). -/
inductive IllFormed where
  | badUop | badCond
deriving DecidableEq, Repr

namespace WF

def pi : PcInc → List Defect
  | .reserved => [.reservedIncrement]
  | _ => []

def reg (r : Reg) : List Defect := if r = 15#4 then [.register15] else []

def optReg : Option Reg → List Defect
  | some r => reg r
  | none => []

/-- Operand 1 where the kind admits any selector (ALU, ALUCMP). -/
def src : Src → List Defect
  | .reg r => reg r
  | _ => []

/-- Operand 1 where the kind requires one (MUL, LOAD, STORE). -/
def required : Src → List Defect
  | .absent => [.missingOperand]
  | .reg r => reg r
  | _ => []

def cond : Cond → List Defect
  | .invalid14 => [.condition]
  | .invalid15 => [.condition]
  | _ => []

end WF

/-- Every condition of R92 that the decoded micro-op fails, in the order pi, registers, operands, condition. -/
def Instr.defects : Instr → List Defect
  | .alu _ rd a o _ _ pi => WF.pi pi ++ WF.reg rd ++ WF.optReg a ++ WF.src o
  | .cmp _ a o _ _ pi => WF.pi pi ++ WF.optReg a ++ WF.src o
  | .mul rd rn o _ pi => WF.pi pi ++ WF.reg rd ++ WF.reg rn ++ WF.required o
  | .ldb rd rn off pi => WF.pi pi ++ WF.reg rd ++ WF.reg rn ++ WF.required off
  | .ldsb rd rn off pi => WF.pi pi ++ WF.reg rd ++ WF.reg rn ++ WF.required off
  | .ldh rd rn off pi => WF.pi pi ++ WF.reg rd ++ WF.reg rn ++ WF.required off
  | .ldsh rd rn off pi => WF.pi pi ++ WF.reg rd ++ WF.reg rn ++ WF.required off
  | .ldw rd rn off pi => WF.pi pi ++ WF.reg rd ++ WF.reg rn ++ WF.required off
  | .ldsw rd rn off pi => WF.pi pi ++ WF.reg rd ++ WF.reg rn ++ WF.required off
  | .stb ra rn off pi => WF.pi pi ++ WF.reg ra ++ WF.reg rn ++ WF.required off
  | .sth ra rn off pi => WF.pi pi ++ WF.reg ra ++ WF.reg rn ++ WF.required off
  | .stw ra rn off pi => WF.pi pi ++ WF.reg ra ++ WF.reg rn ++ WF.required off
  | .b _ pi => WF.pi pi
  | .bcond c _ pi => WF.pi pi ++ WF.cond c
  | .bl _ pi => WF.pi pi
  | .bx rn pi => WF.pi pi ++ WF.reg rn
  | .blx rn pi => WF.pi pi ++ WF.reg rn
  | .setpc rn pi => WF.pi pi ++ WF.reg rn
  | .svcPuts rn pi => WF.pi pi ++ WF.reg rn
  | .svcPuti rn pi => WF.pi pi ++ WF.reg rn
  | .svcHalt pi => WF.pi pi

/-- R92: `BAD_COND` when the only failing condition is the condition code of a BCOND, `BAD_UOP` otherwise. -/
def Instr.illFormed (i : Instr) : Option IllFormed :=
  match i.defects with
  | [] => none
  | ds => if ds.all (· == .condition) then some .badCond else some .badUop

/-- `WF(u)` of R92 for a record that belongs to a row of the table. -/
def Instr.wf (i : Instr) : Bool := i.illFormed.isNone

end Sys2Proof
end

