-- ==== Sys2Proof/Decode.lean ====
section
/-! DEFINITION. The 128-bit micro-op record (R80 to R83), its decoding into `Instr` (R84 to R88, R92, R93, R100) and,
after it, the encoder. `decode` is total: a record that belongs to no row of the opcode table is rejected by name. -/

namespace Sys2Proof

/-- The fields of a record (R81, R82, R83). -/
structure Fields where
  kind : BitVec 5
  sub : BitVec 6
  rd : Reg
  rn : Reg
  rm : Reg
  ra : Reg
  s0 : BitVec 1
  s1 : BitVec 2
  pi : BitVec 2
  uimm : Word
  simm : Word
  reglist : BitVec 16
  fw : BitVec 4
  s2 : BitVec 2
  zero : BitVec 10
deriving DecidableEq, Repr

/-- The bit positions of R81 (word 0), R82 (words 1 and 2) and R83 (word 3). -/
def Fields.unpack (r : Record) : Fields :=
  { kind := r.extractLsb' 0 5
    sub := r.extractLsb' 5 6
    rd := r.extractLsb' 11 4
    rn := r.extractLsb' 15 4
    rm := r.extractLsb' 19 4
    ra := r.extractLsb' 23 4
    s0 := r.extractLsb' 27 1
    s1 := r.extractLsb' 28 2
    pi := r.extractLsb' 30 2
    uimm := r.extractLsb' 32 32
    simm := r.extractLsb' 64 32
    reglist := r.extractLsb' 96 16
    fw := r.extractLsb' 112 4
    s2 := r.extractLsb' 116 2
    zero := r.extractLsb' 118 10 }

/-- The flag write mask `fw` of a record (R83, R90). -/
def Record.fw (r : Record) : BitVec 4 := (Fields.unpack r).fw

/-- Why a record belongs to no row of the opcode table; each is a failing condition of `WF` (R92) other than the condition
code of a BCOND, so issue answers `BAD_UOP` (R93). -/
inductive Reject where
  /-- `kind` is 0 or 13 to 31 (R84). -/
  | reservedKind
  /-- bits 127 to 118 are not 0 (R83). -/
  | reservedBits
  /-- `sub` has a value the kind does not admit (R86 to R88). -/
  | badSub
  /-- a selector `s0`, `s1` or `s2` has a value the kind does not admit (R92). -/
  | badSelector
  /-- `fw` has a bit the kind must not write (R92). -/
  | badFlagMask
deriving DecidableEq, Repr

/-- `pi` (R81). -/
def PcInc.ofCode (p : BitVec 2) : PcInc :=
  if p = 0#2 then .zero else if p = 1#2 then .two else if p = 2#2 then .four else .reserved

/-- `cond` (R276). -/
def Cond.ofCode (c : BitVec 4) : Cond :=
  match c.toNat with
  | 0 => .eq
  | 1 => .ne
  | 2 => .cs
  | 3 => .cc
  | 4 => .mi
  | 5 => .pl
  | 6 => .vs
  | 7 => .vc
  | 8 => .hi
  | 9 => .ls
  | 10 => .ge
  | 11 => .lt
  | 12 => .gt
  | 13 => .le
  | 14 => .invalid14
  | _ => .invalid15

/-- Operand slot 0 by `s0` (R81). -/
def Fields.opA (f : Fields) : Option Reg := if f.s0 = 1#1 then some f.rn else none

/-- Operand slot 1 by `s1` (R81). -/
def Fields.opB (f : Fields) : Src :=
  if f.s1 = 0#2 then .absent
  else if f.s1 = 1#2 then .reg f.rm
  else if f.s1 = 2#2 then .uimm f.uimm
  else .simm f.simm

namespace Decode

/-- Kind 1 (R240): `s2` is 0 or 2. -/
def alu (f : Fields) : Except Reject Instr :=
  if f.s2 = 0#2 then .ok (.alu f.sub f.rd f.opA f.opB false f.fw (.ofCode f.pi))
  else if f.s2 = 2#2 then .ok (.alu f.sub f.rd f.opA f.opB true f.fw (.ofCode f.pi))
  else .error .badSelector

/-- Kind 2 (R241). -/
def cmp (f : Fields) : Except Reject Instr :=
  if f.s2 = 0#2 then .ok (.cmp f.sub f.opA f.opB false f.fw (.ofCode f.pi))
  else if f.s2 = 2#2 then .ok (.cmp f.sub f.opA f.opB true f.fw (.ofCode f.pi))
  else .error .badSelector

/-- Kind 3 (R242): `sub = 0`, `s0 = 1`, `s2 = 0`, no C and no V in `fw`. -/
def mul (f : Fields) : Except Reject Instr :=
  if f.sub ≠ 0#6 then .error .badSub
  else if f.s0 ≠ 1#1 ∨ f.s2 ≠ 0#2 then .error .badSelector
  else if f.fw.extractLsb' 2 2 ≠ 0#2 then .error .badFlagMask
  else .ok (.mul f.rd f.rn f.opB (f.fw.extractLsb' 0 2) (.ofCode f.pi))

/-- Kind 4 (R87, R250 to R255): `sub` names size and signedness. -/
def load (f : Fields) : Except Reject Instr :=
  if f.s0 ≠ 1#1 ∨ f.s2 ≠ 0#2 then .error .badSelector
  else if f.fw ≠ 0#4 then .error .badFlagMask
  else match f.sub.toNat with
    | 0 => .ok (.ldb f.rd f.rn f.opB (.ofCode f.pi))
    | 1 => .ok (.ldh f.rd f.rn f.opB (.ofCode f.pi))
    | 2 => .ok (.ldw f.rd f.rn f.opB (.ofCode f.pi))
    | 4 => .ok (.ldsb f.rd f.rn f.opB (.ofCode f.pi))
    | 5 => .ok (.ldsh f.rd f.rn f.opB (.ofCode f.pi))
    | 6 => .ok (.ldsw f.rd f.rn f.opB (.ofCode f.pi))
    | _ => .error .badSub

/-- Kind 5 (R87, R256 to R258): the data register is `ra`, `s2 = 1`. -/
def store (f : Fields) : Except Reject Instr :=
  if f.s0 ≠ 1#1 ∨ f.s2 ≠ 1#2 then .error .badSelector
  else if f.fw ≠ 0#4 then .error .badFlagMask
  else match f.sub.toNat with
    | 0 => .ok (.stb f.ra f.rn f.opB (.ofCode f.pi))
    | 1 => .ok (.sth f.ra f.rn f.opB (.ofCode f.pi))
    | 2 => .ok (.stw f.ra f.rn f.opB (.ofCode f.pi))
    | _ => .error .badSub

/-- The conditions that B, BL and BCOND share (R92): no operand selected, no flag written. -/
def noOperand (f : Fields) (i : Instr) : Except Reject Instr :=
  if f.s0 ≠ 0#1 ∨ f.s1 ≠ 0#2 ∨ f.s2 ≠ 0#2 then .error .badSelector
  else if f.fw ≠ 0#4 then .error .badFlagMask
  else .ok i

/-- The conditions that BX, BLX, SETPC, PUTS and PUTI share (R92): operand 0 only, no flag written. -/
def oneOperand (f : Fields) (i : Instr) : Except Reject Instr :=
  if f.s0 ≠ 1#1 ∨ f.s1 ≠ 0#2 ∨ f.s2 ≠ 0#2 then .error .badSelector
  else if f.fw ≠ 0#4 then .error .badFlagMask
  else .ok i

/-- R86: `sub` must be 0. -/
def noSub (f : Fields) (r : Except Reject Instr) : Except Reject Instr :=
  if f.sub ≠ 0#6 then .error .badSub else r

/-- Kind 7 (R271): `sub[5:4] = 0`, `sub[3:0]` is the condition code. -/
def bcond (f : Fields) : Except Reject Instr :=
  if f.sub.extractLsb' 4 2 ≠ 0#2 then .error .badSub
  else noOperand f (.bcond (.ofCode (f.sub.extractLsb' 0 4)) f.simm (.ofCode f.pi))

/-- Kind 12 (R88): `sub` selects the call. -/
def svc (f : Fields) : Except Reject Instr :=
  match f.sub.toNat with
  | 1 => oneOperand f (.svcPuts f.rn (.ofCode f.pi))
  | 2 => oneOperand f (.svcPuti f.rn (.ofCode f.pi))
  | 3 => noOperand f (.svcHalt (.ofCode f.pi))
  | _ => .error .badSub

/-- The kinds of R84. -/
def fields (f : Fields) : Except Reject Instr :=
  if f.zero ≠ 0#10 then .error .reservedBits
  else match f.kind.toNat with
    | 1 => alu f
    | 2 => cmp f
    | 3 => mul f
    | 4 => load f
    | 5 => store f
    | 6 => noSub f (noOperand f (.b f.simm (.ofCode f.pi)))
    | 7 => bcond f
    | 8 => noSub f (noOperand f (.bl f.simm (.ofCode f.pi)))
    | 9 => noSub f (oneOperand f (.bx f.rn (.ofCode f.pi)))
    | 10 => noSub f (oneOperand f (.blx f.rn (.ofCode f.pi)))
    | 11 => noSub f (oneOperand f (.setpc f.rn (.ofCode f.pi)))
    | 12 => svc f
    | _ => .error .reservedKind

end Decode

/-- The micro-op a record stands for, or why it belongs to no row of the opcode table (R100). A decoded micro-op can still
fail `WF` on a condition no mask expresses: `Instr.illFormed`. -/
def decode (r : Record) : Except Reject Instr := Decode.fields (Fields.unpack r)

/-- `decode` without the reason. -/
def decode? (r : Record) : Option Instr :=
  match decode r with
  | .ok i => some i
  | .error _ => none

/-- `WF(u)` of R92 on a record. -/
def Record.wf (r : Record) : Bool :=
  match decode r with
  | .ok i => i.wf
  | .error _ => false

/-- What the decoder reads from an instruction whose bits are `w`, numbered as the opcode table numbers them (R100); the
record's bits above `nbits` are 0. -/
def decodeTableWord (nbits w : Nat) : Option Instr := decode? (BitVec.ofNat 128 (w % 2 ^ nbits))

/-! The encoder. -/

/-- The record with the given fields (R81, R82, R83), most significant field first. -/
def Fields.pack (f : Fields) : Record :=
  f.zero ++ f.s2 ++ f.fw ++ f.reglist ++ f.simm ++ f.uimm ++ f.pi ++ f.s1 ++ f.s0 ++ f.ra ++ f.rm ++ f.rn ++ f.rd ++ f.sub ++ f.kind

def PcInc.code : PcInc → BitVec 2
  | .zero => 0#2
  | .two => 1#2
  | .four => 2#2
  | .reserved => 3#2

def Cond.code : Cond → BitVec 4
  | .eq => 0#4
  | .ne => 1#4
  | .cs => 2#4
  | .cc => 3#4
  | .mi => 4#4
  | .pl => 5#4
  | .vs => 6#4
  | .vc => 7#4
  | .hi => 8#4
  | .ls => 9#4
  | .ge => 10#4
  | .lt => 11#4
  | .gt => 12#4
  | .le => 13#4
  | .invalid14 => 14#4
  | .invalid15 => 15#4

/-- The all-zero fields, on which an encoding sets what its kind uses; an ignored field (R92) is encoded as 0. -/
def Fields.blank (kind : BitVec 5) (pi : PcInc) : Fields :=
  { kind, sub := 0#6, rd := 0#4, rn := 0#4, rm := 0#4, ra := 0#4, s0 := 0#1, s1 := 0#2, pi := pi.code, uimm := 0#32
    simm := 0#32, reglist := 0#16, fw := 0#4, s2 := 0#2, zero := 0#10 }

def Fields.withA (f : Fields) : Option Reg → Fields
  | none => f
  | some rn => { f with s0 := 1#1, rn := rn }

def Fields.withB (f : Fields) : Src → Fields
  | .absent => f
  | .reg rm => { f with s1 := 1#2, rm := rm }
  | .uimm w => { f with s1 := 2#2, uimm := w }
  | .simm w => { f with s1 := 3#2, simm := w }

namespace Encode

def load (sub : BitVec 6) (rd rn : Reg) (off : Src) (pi : PcInc) : Fields :=
  { ((Fields.blank 4#5 pi).withA (some rn)).withB off with sub := sub, rd := rd }

def store (sub : BitVec 6) (ra rn : Reg) (off : Src) (pi : PcInc) : Fields :=
  { ((Fields.blank 5#5 pi).withA (some rn)).withB off with sub := sub, ra := ra, s2 := 1#2 }

/-- The fields of a micro-op (R84 to R88, R92). -/
def fields : Instr → Fields
  | .alu sub rd a b cin fw pi =>
    { ((Fields.blank 1#5 pi).withA a).withB b with sub := sub, rd := rd, fw := fw, s2 := if cin then 2#2 else 0#2 }
  | .cmp sub a b cin fw pi =>
    { ((Fields.blank 2#5 pi).withA a).withB b with sub := sub, fw := fw, s2 := if cin then 2#2 else 0#2 }
  | .mul rd rn b fw pi => { ((Fields.blank 3#5 pi).withA (some rn)).withB b with rd := rd, fw := fw.setWidth 4 }
  | .ldb rd rn off pi => load 0#6 rd rn off pi
  | .ldh rd rn off pi => load 1#6 rd rn off pi
  | .ldw rd rn off pi => load 2#6 rd rn off pi
  | .ldsb rd rn off pi => load 4#6 rd rn off pi
  | .ldsh rd rn off pi => load 5#6 rd rn off pi
  | .ldsw rd rn off pi => load 6#6 rd rn off pi
  | .stb ra rn off pi => store 0#6 ra rn off pi
  | .sth ra rn off pi => store 1#6 ra rn off pi
  | .stw ra rn off pi => store 2#6 ra rn off pi
  | .b simm pi => { Fields.blank 6#5 pi with simm := simm }
  | .bcond c simm pi => { Fields.blank 7#5 pi with sub := c.code.setWidth 6, simm := simm }
  | .bl simm pi => { Fields.blank 8#5 pi with simm := simm }
  | .bx rn pi => (Fields.blank 9#5 pi).withA (some rn)
  | .blx rn pi => (Fields.blank 10#5 pi).withA (some rn)
  | .setpc rn pi => (Fields.blank 11#5 pi).withA (some rn)
  | .svcPuts rn pi => { (Fields.blank 12#5 pi).withA (some rn) with sub := 1#6 }
  | .svcPuti rn pi => { (Fields.blank 12#5 pi).withA (some rn) with sub := 2#6 }
  | .svcHalt pi => { Fields.blank 12#5 pi with sub := 3#6 }

end Encode

/-- The record of a micro-op, its ignored fields 0. -/
def encode (i : Instr) : Record := (Encode.fields i).pack

end Sys2Proof
end

