-- ==== Sys2Proof/Machine/State.lean ====
section
/-! DEFINITION. The state of the machine (spec/10_state.md), the reasons a step can stop, and the state after reset. -/

namespace Sys2Proof.Machine

/-- One value per condition flag (R22: slots 16 to 19, in the order N, Z, C, V). -/
structure PerFlag (α : Type) where
  n : α
  z : α
  c : α
  v : α
deriving DecidableEq, Repr

def PerFlag.get {α : Type} (p : PerFlag α) : Flag → α
  | .n => p.n
  | .z => p.z
  | .c => p.c
  | .v => p.v

def PerFlag.set {α : Type} (p : PerFlag α) (f : Flag) (x : α) : PerFlag α :=
  match f with
  | .n => { p with n := x }
  | .z => { p with z := x }
  | .c => { p with c := x }
  | .v => { p with v := x }

def PerFlag.map {α β : Type} (p : PerFlag α) (g : α → β) : PerFlag β :=
  { n := g p.n, z := g p.z, c := g p.c, v := g p.v }

/-- A register slot (R16 `RegId`, R22): general register 0 to 15, or a flag (slots 16 to 19). -/
inductive Slot where
  | reg (r : Reg)
  | flag (f : Flag)
deriving DecidableEq, Repr

/-- The register status table `RST` (R23): for each of the 20 slots, no pending producer or the ROB index of it. -/
structure Rst where
  reg : Vector (Option Nat) 16
  flag : PerFlag (Option Nat)
deriving DecidableEq, Repr

/-- An operand slot of a reservation-station entry (R16, R32). -/
inductive Operand where
  | absent
  | value (w : Word)
  | pending (producer : Nat) (slot : Slot)
deriving DecidableEq, Repr

/-- The status of a ROB entry (R26, R29); `exception` is never written (R300). What its code ranges over is not in the spec (R300): a
natural number here, DESIGN CHOICE (notes/assumptions/15.md). -/
inductive Status where
  | empty
  | executing
  | exception (code : Nat)
deriving DecidableEq, Repr

/-- The destination descriptor of a ROB entry (R30). -/
inductive Dest where
  | discard
  | awaiting
  | resolved (addr : Word)
  | register (id : Reg) (updatesFlags : Bool)
deriving DecidableEq, Repr

/-- A ROB entry (R26). -/
structure RobEntry where
  pc : Word
  uop : Record
  status : Status
  value : Word
  target : Word
  /-- bit 0 N, bit 1 Z, bit 2 C, bit 3 V -/
  flags : BitVec 4
  ready : Bool
  halt : Bool
  dest : Dest
deriving DecidableEq, Repr

/-- A free ROB slot; its fields other than `status` have no meaning (R26). Their values at reset: notes/assumptions/14.md. -/
def RobEntry.free : RobEntry :=
  { pc := 0#32, uop := 0#128, status := .empty, value := 0#32, target := 0#32, flags := 0#4, ready := false
    halt := false, dest := .discard }

/-- A reservation-station entry (R32, R34). -/
structure RsEntry where
  busy : Bool
  op0 : Operand
  op1 : Operand
  op2 : Operand
  dest : Nat
  uop : Record
  /-- "sets flags" -/
  sf : Bool
  /-- dispatched: execute has started the entry (R34) -/
  disp : Bool
deriving DecidableEq, Repr

/-- A free reservation-station slot. The values of its fields at reset: notes/assumptions/14.md. -/
def RsEntry.free : RsEntry :=
  { busy := false, op0 := .absent, op1 := .absent, op2 := .absent, dest := 0, uop := 0#128, sf := false, disp := false }

/-- The size of a memory access (R65, R87). -/
inductive Size where
  | byte | half | word
deriving DecidableEq, Repr

/-- A load-queue entry (R36): `size` and `signed` are the load variant `var`. -/
structure LqEntry where
  addr : Word
  dest : Nat
  size : Size
  signed : Bool
deriving DecidableEq, Repr

/-- A bus record (R37). -/
structure BusRecord where
  p : Nat
  val : Word
  tgt : Option Word
  fl : BitVec 4
  halt : Bool
deriving DecidableEq, Repr

/-- An entry of the delay list `DLY` (R38). -/
structure Delayed where
  record : BusRecord
  ctr : Nat
deriving DecidableEq, Repr

/-- A fetch-buffer entry (R41). -/
structure FbEntry where
  pc : Word
  raw : Word
deriving DecidableEq, Repr

/-- An instruction-queue entry (R42). -/
structure IqEntry where
  pc : Word
  uop : Record
deriving DecidableEq, Repr

/-- The fatal conditions (R292). -/
inductive FatalCode where
  | undef | memLoad | memStore | memFetch | badUop | badCond | internal
deriving DecidableEq, Repr

/-- The `info` of a fatal record (R291): a word (an address or a raw item) or a micro-op record. -/
inductive FatalInfo where
  | word (w : Word)
  | record (u : Record)
deriving DecidableEq, Repr

/-- The fatal record `(code, pc, info)` (R45, R291). -/
structure FatalRecord where
  code : FatalCode
  pc : Word
  info : FatalInfo
deriving DecidableEq, Repr

/-- A region of memory that exists (R68). -/
structure Region where
  base : Nat
  size : Nat
  readOnly : Bool
deriving DecidableEq, Repr

/-- `MEM` (R46): bytes by address, and which addresses exist and which are read-only. `cells` is in canonical form: addresses
strictly rising, no byte equal to what an unlisted address reads as (`Memory.unlisted`). -/
structure Memory where
  cells : List Host.Cell
  regions : List Region
deriving DecidableEq, Repr

/-- What an existing byte that is not listed reads as. DESIGN CHOICE (notes/assumptions/3.md): the spec makes the content of
memory a launch input (R322). -/
def Memory.unlisted : Byte := 0#8

/-- The statistics counters (R47). -/
structure Counters where
  cycles : Nat
  committed : Nat
  branches : Nat
  mispredicts : Nat
  stallIssueRobFull : Nat
  stallIssueRSFull : Nat
  stallLoadQueueFull : Nat
deriving DecidableEq, Repr

def Counters.zero : Counters :=
  { cycles := 0, committed := 0, branches := 0, mispredicts := 0, stallIssueRobFull := 0, stallIssueRSFull := 0
    stallLoadQueueFull := 0 }

/-- An event of the `Out` port (R115). -/
inductive OutEvent where
  | puts (a : Word)
  | puti (v : Word)
deriving DecidableEq, Repr

/-- The outcome field of a trace record (R116). -/
inductive BranchOutcome where
  | notBranch | correct | mispredicted | redirect
deriving DecidableEq, Repr

/-- A record of the `Trace` port (R116). -/
structure TraceRecord where
  pc : Word
  uop : Record
  value : Word
  target : Option Word
  outcome : BranchOutcome
deriving DecidableEq, Repr

/-- THE MODEL'S OWN, not the spec's (notes/assumptions/1.md): which of the stage actions that the spec's template gives a
micro-op (spec/47_uops_alu_mul.md: issue, execute, writeback, commit; R259 adds lq_scan) `exec` performs. The tick sets it
before each micro-op it handles and sets it back to `issue` at the end of the cycle. -/
inductive Activity where
  /-- issue takes the micro-op at the front of the instruction queue (R140) -/
  | issue
  /-- execute starts the entry in slot `j` of set `c` (R164) -/
  | start (c : FuClass) (j : Nat)
  /-- a load leaves the load queue for memory (R177) -/
  | access (l : LqEntry)
  /-- writeback broadcasts a bus record (R194) -/
  | broadcast (r : BusRecord)
  /-- commit retires the entry at `head` (R210) -/
  | commit
deriving DecidableEq, Repr

/-- The whole state of the machine (spec/10_state.md). -/
structure State where
  /-- the configuration and the collaborators (R10, R12); no step changes it -/
  cfg : Cfg
  /-- `x[0..15]` (R20) -/
  regs : Vector Word 16
  /-- the flags N, Z, C, V, `x[16..19]` (R22) -/
  flags : PerFlag Bool
  /-- `RST` (R23) -/
  rst : Rst
  /-- `ROB[0 .. ROB_CAPACITY-1]` (R25) -/
  rob : List RobEntry
  /-- oldest entry, next to commit (R25) -/
  head : Nat
  /-- next free slot (R25) -/
  tail : Nat
  /-- the four reservation-station sets (R31) -/
  rs : PerClass (List RsEntry)
  /-- the load queue `LQ` (R35) -/
  lq : List LqEntry
  /-- the delay list `DLY` (R38) -/
  dly : List Delayed
  /-- the completion queue `CQ` (R39) -/
  cq : List BusRecord
  /-- `spec_pc` (R40) -/
  specPc : Word
  /-- the fetch buffer `FB` (R41) -/
  fb : List FbEntry
  /-- the instruction queue `IQ` (R42) -/
  iq : List IqEntry
  /-- R43 -/
  fetchStall : Bool
  /-- R43 -/
  fetchDelay : Nat
  /-- R44 -/
  halted : Bool
  /-- R44 -/
  exitCode : Word
  /-- R45 -/
  fatal : Option FatalRecord
  /-- `MEM` (R46) -/
  mem : Memory
  /-- R47 -/
  counters : Counters
  /-- the events emitted on `Out` so far, oldest first (R48, R115) -/
  out : List OutEvent
  /-- the records emitted on `Trace` so far, oldest first (R48, R116) -/
  trace : List TraceRecord
  /-- the model's own: see `Activity` -/
  act : Activity
  /-- the model's own: how many free values have been drawn (`Config.freeHalf`, R62) -/
  freeCount : Nat
deriving DecidableEq, Repr

/-- The reasons a step faults. -/
inductive Fault where
  /-- Raised by the stages of a tick (Machine/Stages.lean), never by `exec`: the ROB entry or reservation-station entry that a
  stage must handle holds a record that is no micro-op (it belongs to no row of the opcode table). Issue lets no such record in
  (R92, R142), so no run from reset meets it; the spec's rules give such a record no computation (R164 has no row for its
  kind). Safe: the model stops where the rules say nothing. -/
  | notAMicroOp (u : Record)
deriving DecidableEq, Repr

/-- The reasons a step is refused. -/
inductive Refusal where
  /-- An arm of `exec` whose instruction has no meaning yet. No arm answers it: every row of the opcode table is modelled.
  Safe: the model stops. -/
  | notModelled (mnemonic : String)
deriving DecidableEq, Repr

/-- What R322 leaves to the loader before the first reset: here every general register and flag 0, no byte of memory listed, the
whole 32-bit address space existing and writable, and `CFG_REF`. DESIGN CHOICE (notes/assumptions/2.md, 3.md, 4.md). The
statements about every state hold for every other launch. -/
def State.launchRegs : Vector Word 16 := Vector.replicate 16 0#32

/-- See `State.launchRegs`. -/
def State.launchMem : Memory := { cells := [], regions := [{ base := 0, size := 4294967296, readOnly := false }] }

/-- The register status table with no pending producer. -/
def Rst.empty : Rst := { reg := Vector.replicate 16 none, flag := { n := none, z := none, c := none, v := none } }

/-- The machine right after reset (R52, R320), from the launch values above. -/
def State.reset : State :=
  { cfg := Cfg.ref
    regs := State.launchRegs
    flags := { n := false, z := false, c := false, v := false }
    rst := Rst.empty
    rob := List.replicate Cfg.ref.robCapacity RobEntry.free
    head := 0
    tail := 0
    rs := Cfg.ref.rsSize.map (fun n => List.replicate n RsEntry.free)
    lq := []
    dly := []
    cq := []
    specPc := Cfg.ref.entryPc
    fb := []
    iq := []
    fetchStall := false
    fetchDelay := 0
    halted := false
    exitCode := 0#32
    fatal := none
    mem := State.launchMem
    counters := Counters.zero
    out := []
    trace := []
    act := .issue
    freeCount := 0 }

end Sys2Proof.Machine
end

