-- ==== Sys2Proof/Machine/Ops.lean ====
section
/-! DEFINITION. The named operations over the state: registers and flags, the register status table, the ROB pointers, the
reservation-station sets, the memory collaborator, the fatal record (the engine's only exception, R291) and the reset
operation (the only way out of it, R112, R320). -/

namespace Sys2Proof.Machine

/-! Registers, flags and the register status table. -/

/-- `x[r]` for a general register (R20). -/
def State.getReg (s : State) (r : Reg) : Word := s.regs[r.toNat]'r.isLt

/-- `x[r] <- w`; only commit does it (R14). -/
def State.setReg (s : State) (r : Reg) (w : Word) : State := { s with regs := s.regs.set r.toNat w r.isLt }

/-- `x[16 + f] <- b` (R14, R22). -/
def State.setFlag (s : State) (f : Flag) (b : Bool) : State := { s with flags := s.flags.set f b }

/-- A flag as an operand word: `zext_32(flag)` (R22). -/
def flagWord (b : Bool) : Word := if b then 1#32 else 0#32

/-- `x[slot]` as an operand word (R14, R22). -/
def State.x (s : State) : Slot → Word
  | .reg r => s.getReg r
  | .flag f => flagWord (s.flags.get f)

def Rst.get (t : Rst) : Slot → Option Nat
  | .reg r => t.reg[r.toNat]'r.isLt
  | .flag f => t.flag.get f

def Rst.set (t : Rst) (slot : Slot) (o : Option Nat) : Rst :=
  match slot with
  | .reg r => { t with reg := t.reg.set r.toNat o r.isLt }
  | .flag f => { t with flag := t.flag.set f o }

/-- The same change on every slot of a vector, by its list (so that the kernel can evaluate it). -/
def mapVector {α β : Type} {n : Nat} (v : Vector α n) (g : α → β) : Vector β n := ⟨⟨v.toList.map g⟩, by simp⟩

def Rst.map (t : Rst) (g : Option Nat → Option Nat) : Rst := { reg := mapVector t.reg g, flag := t.flag.map g }

/-- Clears a slot of `RST` if it still names `h` (R214, R216). -/
def Rst.release (t : Rst) (slot : Slot) (h : Nat) : Rst := if t.get slot = some h then t.set slot none else t

/-- The flags in slot order (R22). -/
def allFlags : List Flag := [.n, .z, .c, .v]

/-- The position of a flag in a 4-bit flag record or mask: bit 0 N, bit 1 Z, bit 2 C, bit 3 V (R26, R83). -/
def flagIndex : Flag → Nat
  | .n => 0
  | .z => 1
  | .c => 2
  | .v => 3

/-- `v[f]` for a flag record or mask. -/
def flagBit (v : BitVec 4) (f : Flag) : Bool := v.getLsbD (flagIndex f)

/-! The reorder buffer (R25 to R27). -/

/-- `ROB[i]`. -/
def State.robAt (s : State) (i : Nat) : RobEntry := s.rob.getD i RobEntry.free

/-- `ROB[i] <- e`. -/
def State.setRob (s : State) (i : Nat) (e : RobEntry) : State := { s with rob := s.rob.set i e }

/-- `(i + 1) mod ROB_CAPACITY`. -/
def State.robNext (s : State) (i : Nat) : Nat := (i + 1) % s.cfg.robCapacity

/-- `rob_age(i) = (i - head) mod ROB_CAPACITY` (R27). -/
def State.robAge (s : State) (i : Nat) : Nat :=
  (i + (s.cfg.robCapacity - s.head % s.cfg.robCapacity)) % s.cfg.robCapacity

/-- `rob_full` (R27). -/
def State.robFull (s : State) : Bool := decide (s.head = s.tail) && decide ((s.robAt s.head).status ≠ .empty)

/-- `rob_empty` (R27). -/
def State.robEmpty (s : State) : Bool := decide (s.head = s.tail) && decide ((s.robAt s.head).status = .empty)

/-- `rob_count` (R27). -/
def State.robCount (s : State) : Nat :=
  if s.head = s.tail then (if s.robFull then s.cfg.robCapacity else 0) else s.robAge s.tail

/-- `occupied(i)` (R27). -/
def State.occupied (s : State) (i : Nat) : Bool := decide (s.robAge i < s.robCount)

/-! The reservation stations (R31 to R34). -/

/-- `RS[c][j]`. -/
def State.rsAt (s : State) (c : FuClass) (j : Nat) : RsEntry := (s.rs.get c).getD j RsEntry.free

/-- `RS[c][j] <- e`. -/
def State.setRs (s : State) (c : FuClass) (j : Nat) (e : RsEntry) : State :=
  { s with rs := s.rs.set c ((s.rs.get c).set j e) }

def Operand.isPending : Operand → Bool
  | .pending _ _ => true
  | _ => false

/-- `rs_ready(e)` (R33). -/
def RsEntry.isReady (e : RsEntry) : Bool :=
  e.busy && !e.disp && !e.op0.isPending && !e.op1.isPending && !e.op2.isPending

/-- The lowest index of a set with `busy = 0` (R145). -/
def freeSlot : List RsEntry → Option Nat
  | [] => none
  | e :: es => if e.busy then (freeSlot es).map (· + 1) else some 0

/-- `free the entry with busy = 1 and dest = p` of a set (R198). -/
def freeEntries (p : Nat) (es : List RsEntry) : List RsEntry :=
  es.map (fun e => if e.busy && decide (e.dest = p) then { e with busy := false } else e)

/-! Counters, event streams, the bus. -/

/-- `push(rec, L)`: `DLY.push_back((rec, L))` (R164). -/
def State.push (s : State) (r : BusRecord) (latency : Nat) : State :=
  { s with dly := s.dly ++ [{ record := r, ctr := latency }] }

/-- `emit Out(kind, v)` (R115). -/
def State.emitOut (s : State) (e : OutEvent) : State := { s with out := s.out ++ [e] }

/-- `emit Trace(...)` (R116). -/
def State.emitTrace (s : State) (t : TraceRecord) : State := { s with trace := s.trace ++ [t] }

/-- `stall_IssueRobFull + 1` (R141). -/
def State.stallRobFull (s : State) : State :=
  { s with counters := { s.counters with stallIssueRobFull := s.counters.stallIssueRobFull + 1 } }

/-- `stall_IssueRSFull + 1` (R143). -/
def State.stallRsFull (s : State) : State :=
  { s with counters := { s.counters with stallIssueRSFull := s.counters.stallIssueRSFull + 1 } }

/-- `stall_LoadQueueFull + 1` (R172). -/
def State.stallLqFull (s : State) : State :=
  { s with counters := { s.counters with stallLoadQueueFull := s.counters.stallLoadQueueFull + 1 } }

/-- `branches + 1` (R217). -/
def State.countBranch (s : State) : State :=
  { s with counters := { s.counters with branches := s.counters.branches + 1 } }

/-- `mispredicts + 1` (R217). -/
def State.countMispredict (s : State) : State :=
  { s with counters := { s.counters with mispredicts := s.counters.mispredicts + 1 } }

/-- `cycles + 1` (R110). -/
def State.countCycle (s : State) : State :=
  { s with counters := { s.counters with cycles := s.counters.cycles + 1 } }

/-- Which stage action `exec` performs next (`Activity`). -/
def State.doing (s : State) (a : Activity) : State := { s with act := a }

/-! Taking the engine's only exception, and the only way out of it. -/

/-- `raise Fatal(code, pc, info)` (R291): the fatal record is written and the machine is terminal; nothing else changes. The
stage that raises it answers this state at once, and the rest of the cycle does not run (Machine/Stages.lean, Step.lean). -/
def State.raise (s : State) (code : FatalCode) (pc : Word) (info : FatalInfo) : State :=
  { s with fatal := some { code, pc, info } }

/-- Terminal (R45, R112). -/
def State.terminal (s : State) : Bool := s.halted || s.fatal.isSome

/-- The host's `reset` (R52, R320): every pipeline structure is emptied; `RF`, the flags and `MEM` are kept, and so are the
configuration and the event streams. -/
def State.hostReset (s : State) : State :=
  { s with
    rst := Rst.empty
    rob := s.rob.map (fun e => { e with status := .empty })
    head := 0
    tail := 0
    rs := s.rs.map (fun es => es.map (fun e => { e with busy := false }))
    lq := []
    dly := []
    cq := []
    specPc := s.cfg.entryPc
    fb := []
    iq := []
    fetchStall := false
    fetchDelay := 0
    halted := false
    exitCode := 0#32
    fatal := none
    counters := Counters.zero
    act := .issue }

/-! The numeric codes of the fatal conditions (R292). -/

def FatalCode.number : FatalCode → Nat
  | .undef => 1
  | .memLoad => 2
  | .memStore => 3
  | .memFetch => 4
  | .badUop => 5
  | .badCond => 6
  | .internal => 7

/-- The fatal code of a record that fails `WF` (R92, R142). -/
def FatalCode.ofIllFormed : IllFormed → FatalCode
  | .badUop => .badUop
  | .badCond => .badCond

end Sys2Proof.Machine
end

