-- ==== Sys2Proof/Machine/Flags.lean ====
section
/-! DEFINITION. Flag computations: the condition table of R276, the flags of a multiply (R167), the carry-in of an ALU operation
(R162), and the `alu` collaborator (R165) with the fixture of spec/95_test_vectors.md part 1. -/

namespace Sys2Proof.Machine

/-- A flag record: bit 0 N, bit 1 Z, bit 2 C, bit 3 V (R26, R98). -/
def flagRecord (n z c v : Bool) : BitVec 4 :=
  (if v then 8#4 else 0#4) ||| (if c then 4#4 else 0#4) ||| (if z then 2#4 else 0#4) ||| (if n then 1#4 else 0#4)

/-- `CondReads(cond)` (R276): the flags a conditional branch takes as operands, in operand-slot order. -/
def condReads : Cond → List Flag
  | .eq => [.z]
  | .ne => [.z]
  | .cs => [.c]
  | .cc => [.c]
  | .mi => [.n]
  | .pl => [.n]
  | .vs => [.v]
  | .vc => [.v]
  | .hi => [.c, .z]
  | .ls => [.c, .z]
  | .ge => [.n, .v]
  | .lt => [.n, .v]
  | .gt => [.z, .n, .v]
  | .le => [.z, .n, .v]
  | .invalid14 => []
  | .invalid15 => []

/-- `CondHolds(cond, N, Z, C, V)` (R276). Codes 14 and 15 never reach the control unit: they are fatal at issue (R88). -/
def condHolds : Cond → PerFlag Bool → Bool
  | .eq, f => f.z
  | .ne, f => !f.z
  | .cs, f => f.c
  | .cc, f => !f.c
  | .mi, f => f.n
  | .pl, f => !f.n
  | .vs, f => f.v
  | .vc, f => !f.v
  | .hi, f => f.c && !f.z
  | .ls, f => !f.c || f.z
  | .ge, f => f.n == f.v
  | .lt, f => f.n != f.v
  | .gt, f => !f.z && (f.n == f.v)
  | .le, f => f.z || (f.n != f.v)
  | .invalid14, _ => false
  | .invalid15, _ => false

/-- The operand value that carries a flag: the one at the flag's position in `CondReads`; a flag not read counts as 0 (R271). -/
def operandFlag (f : Flag) : List Flag → List Word → Bool
  | g :: gs, w :: ws => if g = f then w.getLsbD 0 else operandFlag f gs ws
  | _, _ => false

/-- The flags N, Z, C, V as a conditional branch sees them in its operands (R271). -/
def operandFlags (c : Cond) (ops : List Word) : PerFlag Bool :=
  { n := operandFlag .n (condReads c) ops
    z := operandFlag .z (condReads c) ops
    c := operandFlag .c (condReads c) ops
    v := operandFlag .v (condReads c) ops }

/-- The flag record of a multiply (R167): N is bit 31 of the product, Z says that it is 0, C and V are 0. -/
def mulFlags (r : Word) : BitVec 4 := flagRecord r.msb (decide (r = 0#32)) false false

/-- `a + b + cin` with ARM-style flags, for the fixture. -/
def addCarry (a b : Word) (cin : Bool) : Word × BitVec 4 :=
  let sum := a.toNat + b.toNat + (if cin then 1 else 0)
  let r : Word := BitVec.ofNat 32 sum
  (r, flagRecord r.msb (decide (r = 0#32)) (decide (4294967296 ≤ sum)) (a.msb == b.msb && r.msb != a.msb))

/-- A result whose C and V are 0, for the fixture. -/
def plainResult (r : Word) : Word × BitVec 4 := (r, flagRecord r.msb (decide (r = 0#32)) false false)

/-- The ALU fixture of spec/95_test_vectors.md part 1: move, add, subtract, add with carry, and; the platform's function on every
other code. -/
def aluVectors (sub : BitVec 6) (a b : Word) (cin : Bool) : Word × BitVec 4 :=
  match sub.toNat with
  | 0 => plainResult b
  | 1 => addCarry a b false
  | 2 => addCarry a (~~~b) true
  | 3 => addCarry a b cin
  | 4 => plainResult (a &&& b)
  | _ => Config.alu sub a b cin

/-- The `alu` collaborator of the configuration (R165). -/
def alu (cfg : Cfg) (sub : BitVec 6) (a b : Word) (cin : Bool) : Word × BitVec 4 :=
  match cfg.aluUnit with
  | .platform => Config.alu sub a b cin
  | .vectors => aluVectors sub a b cin

end Sys2Proof.Machine
end

