-- ==== Sys2Proof/Machine/Memory.lean ====
section
/-! DEFINITION. The memory collaborator (spec/20_memory.md): `MemRead`, `MemWrite`, `IFetch` over the bytes and regions of
`MEM` (R46, R60 to R69). -/

namespace Sys2Proof.Machine

/-- The byte listed for an address, or what an unlisted one reads as. -/
def readCells : List Host.Cell → Nat → Byte
  | [], _ => Memory.unlisted
  | (k, b) :: rest, a => if k = a then b else readCells rest a

/-- Puts a byte at an address, keeping the canonical form: writing what an unlisted address reads as removes the entry. -/
def writeCells : List Host.Cell → Nat → Byte → List Host.Cell
  | [], a, v => if v = Memory.unlisted then [] else [(a, v)]
  | (k, b) :: rest, a, v =>
    if k < a then (k, b) :: writeCells rest a v
    else if k = a then (if v = Memory.unlisted then rest else (a, v) :: rest)
    else if v = Memory.unlisted then (k, b) :: rest
    else (a, v) :: (k, b) :: rest

/-- The addresses rise strictly from above `low`, and no byte equals what an unlisted address reads as. -/
def canonicalFrom : Option Nat → List Host.Cell → Bool
  | _, [] => true
  | low, (k, b) :: rest =>
    (match low with
      | none => true
      | some l => decide (l < k)) && decide (b ≠ Memory.unlisted) && canonicalFrom (some k) rest

/-- The canonical form of memory holds. -/
def Memory.wf (m : Memory) : Bool := canonicalFrom none m.cells

/-- The byte of memory at an address, whether or not the address exists. -/
def Memory.byteAt (m : Memory) (a : Nat) : Byte := readCells m.cells a

def Region.holds (r : Region) (a : Nat) : Bool := decide (r.base ≤ a) && decide (a < r.base + r.size)

/-- Does the address lie in some region (R68: otherwise "out-of-bounds"). -/
def Memory.readable (m : Memory) (a : Nat) : Bool := m.regions.any (·.holds a)

/-- Does the address exist and lie in no read-only region (R68). -/
def Memory.writable (m : Memory) (a : Nat) : Bool :=
  m.readable a && !(m.regions.any (fun r => r.holds a && r.readOnly))

def Size.bytes : Size → Nat
  | .byte => 1
  | .half => 2
  | .word => 4

/-- The address of byte `k` of an access at `a`: `none` where it runs past 0xFFFFFFFF and does not wrap (R67). -/
def byteAddress (cfg : Cfg) (a : Word) (k : Nat) : Option Nat :=
  if a.toNat + k < 4294967296 then some (a.toNat + k)
  else if cfg.memWraps then some (a.toNat + k - 4294967296)
  else none

/-- Does the collaborator refuse the alignment of an access of `n` bytes (R66)? -/
def misaligned (cfg : Cfg) (a : Word) (n : Nat) : Bool := cfg.memAligned && decide (a.toNat % n ≠ 0)

/-- The addresses of an access, lowest byte first, or `none` if one of them is not acceptable. -/
def accessAddresses (cfg : Cfg) (ok : Nat → Bool) (a : Word) : Nat → Option (List Nat)
  | 0 => some []
  | n + 1 =>
    match accessAddresses cfg ok a n, byteAddress cfg a n with
    | some l, some b => if ok b then some (l ++ [b]) else none
    | _, _ => none

/-- The word made of the bytes, first byte least significant. -/
def joinLittle : List Byte → Word
  | [] => 0#32
  | b :: bs => (joinLittle bs <<< 8) ||| b.setWidth 32

/-- `BYTE_ORDER` (R64): bytes in address order to an integer. -/
def joinBytes (o : ByteOrder) (bs : List Byte) : Word :=
  match o with
  | .little => joinLittle bs
  | .big => joinLittle bs.reverse

/-- The low `n` bytes of a word, least significant first. -/
def splitLittle : Nat → Word → List Byte
  | 0, _ => []
  | n + 1, v => v.setWidth 8 :: splitLittle n (v >>> 8)

/-- `BYTE_ORDER` (R64): the low `n` bytes of an integer in address order. -/
def splitBytes (o : ByteOrder) (n : Nat) (v : Word) : List Byte :=
  match o with
  | .little => splitLittle n v
  | .big => (splitLittle n v).reverse

/-- `MemRead(addr, n)` (R60): the unsigned integer of `n` bytes as a word; `none` is `fail`. It changes nothing. -/
def State.memRead (s : State) (a : Word) (n : Nat) : Option Word :=
  if misaligned s.cfg a n then none
  else match accessAddresses s.cfg s.mem.readable a n with
    | none => none
    | some l => some (joinBytes s.cfg.byteOrder (l.map s.mem.byteAt))

/-- Writes a list of bytes at a list of addresses. -/
def writeAll : List Host.Cell → List Nat → List Byte → List Host.Cell
  | cells, a :: as, b :: bs => writeAll (writeCells cells a b) as bs
  | cells, _, _ => cells

/-- `MemWrite(addr, n, v)` with `v` the low `n` bytes of the given word (R61): the new memory, or `none` for `fail`, which
changes nothing. -/
def State.memWrite (s : State) (a : Word) (n : Nat) (v : Word) : Option Memory :=
  if misaligned s.cfg a n then none
  else match accessAddresses s.cfg s.mem.writable a n with
    | none => none
    | some l => some { s.mem with cells := writeAll s.mem.cells l (splitBytes s.cfg.byteOrder n v) }

/-- What `IFetch` answers. -/
inductive Fetched where
  | fail
  /-- a whole item of four bytes that exist -/
  | item (raw : Word)
  /-- a 2-byte item in the last two bytes of what exists: its upper half is a free value -/
  | short (raw : Word)
deriving DecidableEq, Repr

/-- Is this the item the decoder row speaks of? A 2-byte item is recognised by its lower half alone: its upper half is
"unspecified and ignored by `ilen`, `prescan` and `decode_expand`" (R62). -/
def rowMatches (r : DecoderRow) (raw : Word) : Bool :=
  if r.long then decide (r.raw = raw) else decide (r.raw.setWidth 16 = raw.setWidth 16)

/-- The first decoder row that speaks of the item. -/
def findRow : List DecoderRow → Word → Option DecoderRow
  | [], _ => none
  | r :: rs, raw => if rowMatches r raw then some r else findRow rs raw

/-- `ilen(raw) = 4` (R121). -/
def isLong (cfg : Cfg) (raw : Word) : Bool :=
  match findRow cfg.decoder raw with
  | some r => r.long
  | none => Config.isLong raw

/-- `ilen(raw)` in bytes (R121). -/
def ilen (cfg : Cfg) (raw : Word) : Word := if isLong cfg raw then 4#32 else 2#32

/-- `IFetch(addr)` (R62): the halfword at `addr` is the lower half of the item and the halfword after it the upper half, each
read as `MemRead` reads it. Where the second halfword does not exist, a 2-byte item is still answered, its upper half
unspecified (a free value); an item that would be 4 bytes long fails. -/
def State.ifetch (s : State) (a : Word) : Fetched :=
  match s.memRead a 2 with
  | none => .fail
  | some lo =>
    match accessAddresses s.cfg s.mem.readable a 4 with
    | some l => .item ((joinBytes s.cfg.byteOrder ((l.drop 2).map s.mem.byteAt) <<< 16) ||| lo)
    | none =>
      let raw : Word := ((Config.freeHalf s.freeCount).setWidth 32 <<< 16) ||| lo
      if isLong s.cfg raw then .fail else .short raw

end Sys2Proof.Machine
end

