-- ==== Sys2Proof/Machine/Operands.lean ====
section
/-! DEFINITION. Operands: what each operand slot of a micro-op reads (R89), renaming (R146), operand values (R162), effective
addresses (R169), load extension (R65), and the remaining collaborators: pre-scan, decoder and target fix (R122, R130, R231). -/

namespace Sys2Proof.Machine

/-- One entry of `srcs(u)` (R89). -/
inductive SrcRef where
  | none
  | imm (w : Word)
  | slot (r : Slot)
deriving DecidableEq, Repr

/-- Operand slot 0: `rn` or absent (R81, R89). -/
def SrcRef.ofReg : Option Reg → SrcRef
  | Option.none => .none
  | some r => .slot (.reg r)

/-- Operand slot 1 by the selector `s1` (R81, R89). -/
def SrcRef.ofSrc : Src → SrcRef
  | .absent => .none
  | .reg r => .slot (.reg r)
  | .uimm w => .imm w
  | .simm w => .imm w

/-- Operand slot 2 of an ALU operation: the C flag when `s2 = 2` (R83, R89). -/
def SrcRef.ofCarry (cin : Bool) : SrcRef := if cin then .slot (.flag .c) else .none

/-- Operand slot `k` of a conditional branch: the flag at position `k` of `CondReads` (R89). -/
def SrcRef.ofCond (c : Cond) (k : Nat) : SrcRef :=
  match (condReads c)[k]? with
  | some f => .slot (.flag f)
  | Option.none => .none

/-- The output of a ROB entry for a register slot, as an operand word: its result value, or one flag (R32, R146). -/
def RobEntry.output (e : RobEntry) : Slot → Word
  | .reg _ => e.value
  | .flag f => flagWord (flagBit e.flags f)

/-- `rename(reg(r))` (R146). -/
def State.renameSlot (s : State) (r : Slot) : Operand :=
  match s.rst.get r with
  | none => .value (s.x r)
  | some p => if (s.robAt p).ready then .value ((s.robAt p).output r) else .pending p r

/-- `rename(s)` (R146). -/
def State.rename (s : State) : SrcRef → Operand
  | .none => .absent
  | .imm w => .value w
  | .slot r => s.renameSlot r

/-- The value of an operand slot of a started entry: 0 for an absent one (R162). -/
def Operand.word : Operand → Word
  | .value w => w
  | _ => 0#32

/-- `ea = (v[0] + v[1]) mod 2^32` (R169). -/
def effectiveAddress (v0 v1 : Word) : Word := v0 + v1

/-- The extension of a loaded integer to 32 bits (R65): sign extension of its low `8n` bits for a signed load, else zero
extension. -/
def extendLoad (size : Size) (signed : Bool) (m : Word) : Word :=
  match size with
  | .byte => if signed then (m.setWidth 8).signExtend 32 else (m.setWidth 8).setWidth 32
  | .half => if signed then (m.setWidth 16).signExtend 32 else (m.setWidth 16).setWidth 32
  | .word => m

/-- `pc_inc(u)` (R91); the reserved code is refused at issue. -/
def pcIncrement : PcInc → Word
  | .zero => 0#32
  | .two => 2#32
  | .four => 4#32
  | .reserved => 0#32

/-- `TARGET_FIX` of the configuration (R231). -/
def targetFix (cfg : Cfg) (t : Word) : Word :=
  match cfg.targetFix with
  | .identity => t
  | .platform => Config.targetFix t

/-- `prescan(raw, pc)` (R122); a row's relative branch targets `pc + offset` modulo 2^32 (R131 premise 4). -/
def prescan (cfg : Cfg) (raw pc : Word) : ControlFlow :=
  match findRow cfg.decoder raw with
  | some r =>
    match r.cls with
    | .notCF => .notCF
    | .rel offset => .rel (pc + offset)
    | .exch => .exch
    | .svc => .svc
  | none => Config.prescan raw pc

/-- `decode_expand(raw)` (R130); `none` is `undefined`. -/
def decodeExpand (cfg : Cfg) (raw : Word) : Option (List Record) :=
  match findRow cfg.decoder raw with
  | some r => r.uops
  | none => Config.decodeExpand raw

end Sys2Proof.Machine
end

