-- ==== Sys2Proof/Machine/Passage.lean ====
section
/-! DEFINITION. The passage of one micro-op through the stages, shared by every instruction: issue (R140), execute (R164), the
memory access of a load (R177), writeback (R194) and commit with its recovery (R210, R230). An instruction supplies a
`Profile`: what spec/47 to 49 say is specific to it. -/

namespace Sys2Proof.Machine

/-- What an entry that execute starts knows: `p = e.dest`, `pc = ROB[p].pc` and the operand values (R162, R164). -/
structure Started where
  p : Nat
  pc : Word
  v0 : Word
  v1 : Word
  v2 : Word
deriving DecidableEq, Repr

/-- What commit does with a micro-op after its architectural writes (R210). -/
inductive Retire where
  /-- nothing more: ALU, ALUCMP, MUL, LOAD, STORE -/
  | plain
  /-- a relative branch, with its `pc_inc` (R217) -/
  | relative (inc : Word)
  /-- BX, BLX, SETPC (R220) -/
  | exchange
  /-- a supervisor call (R218) -/
  | svc
deriving DecidableEq, Repr

/-- What is specific to a micro-op (spec/47_uops_alu_mul.md, template). -/
structure Profile where
  /-- the `WF` condition it fails, if any (R92) -/
  ill : Option IllFormed
  /-- `cls(kind)` (R84) -/
  cls : FuClass
  /-- `srcs(u)` (R89) -/
  src0 : SrcRef
  src1 : SrcRef
  src2 : SrcRef
  /-- `dest_of(u)` (R144) -/
  dest : Dest
  /-- the flag write mask (R90) -/
  fw : BitVec 4
  /-- `start(e)` (R164); `none` when a ready load meets a full load queue (R172) -/
  start : Started → State → Option State
  /-- the size that a store writes (R215) -/
  size : Size
  retire : Retire

/-! Issue. -/

/-- `dest_of(u)` as the slot of `RST` it renames (R149). -/
def Dest.slot : Dest → Option Slot
  | .register id _ => some (.reg id)
  | _ => none

/-- `RST[16 + f] <- some t` for every `f` in `fw` (R149). -/
def Rst.setFlags (t : Rst) (fw : BitVec 4) (p : Nat) : Rst :=
  allFlags.foldl (fun t f => if flagBit fw f then t.set (.flag f) (some p) else t) t

/-- The table after issue of a micro-op into ROB slot `p` (R149). -/
def Rst.claim (t : Rst) (d : Dest) (fw : BitVec 4) (p : Nat) : Rst :=
  match d.slot with
  | some r => (t.set r (some p)).setFlags fw p
  | none => t.setFlags fw p

/-- The allocation of R140: the ROB entry at `tail`, the reservation-station entry in slot `j`, the table update, and the queue
without its front. The sources are renamed in the state before it (R150). -/
def State.allocate (s : State) (pr : Profile) (e : IqEntry) (rest : List IqEntry) (j : Nat) : State :=
  { s with
    rob := s.rob.set s.tail
      { pc := e.pc, uop := e.uop, status := .executing, value := 0#32, target := 0#32, flags := 0#4, ready := false
        halt := false, dest := pr.dest }
    tail := s.robNext s.tail
    rs := s.rs.set pr.cls ((s.rs.get pr.cls).set j
      { busy := true, op0 := s.rename pr.src0, op1 := s.rename pr.src1, op2 := s.rename pr.src2, dest := s.tail
        uop := e.uop, sf := decide (pr.fw ≠ 0#4), disp := false })
    rst := s.rst.claim pr.dest pr.fw s.tail
    iq := rest }

/-- The issue stage on the micro-op at the front of the queue (R140 to R149). -/
def issueUop (pr : Profile) (s : State) : State :=
  match s.iq with
  | [] => s
  | e :: rest =>
    if s.robFull then s.stallRobFull
    else match pr.ill with
      | some d => s.raise (FatalCode.ofIllFormed d) e.pc (.record e.uop)
      | none =>
        match freeSlot (s.rs.get pr.cls) with
        | none => s.stallRsFull
        | some j => s.allocate pr e rest j

/-! Execute. -/

/-- `e.disp <- 1` (R178). -/
def State.dispatched (s : State) (c : FuClass) (j : Nat) : State := s.setRs c j { s.rsAt c j with disp := true }

/-- `p`, `pc` and `v` of the entry in slot `j` of set `c` (R162, R164). -/
def State.started (s : State) (c : FuClass) (j : Nat) : Started :=
  let e := s.rsAt c j
  { p := e.dest, pc := (s.robAt e.dest).pc, v0 := e.op0.word, v1 := e.op1.word, v2 := e.op2.word }

/-- One turn of the selection loop of R160: `start(e)` and `e.disp <- 1`, or the load-queue-full stall of R172. -/
def startUop (pr : Profile) (c : FuClass) (j : Nat) (s : State) : State :=
  match pr.start (s.started c j) s with
  | none => s.stallLqFull
  | some t => t.dispatched c j

/-- `push(rec, L)` as a start that always succeeds (R164). -/
def startPush (r : BusRecord) (latency : Nat) (s : State) : Option State := some (s.push r latency)

/-- A started ALU or ALUCMP (R166). -/
def startAlu (sub : BitVec 6) (st : Started) (s : State) : Option State :=
  let r := alu s.cfg sub st.v0 st.v1 (st.v2.getLsbD 0)
  startPush { p := st.p, val := r.1, tgt := none, fl := r.2, halt := false } Config.latAlu s

/-- A started MUL (R167). -/
def startMul (st : Started) (s : State) : Option State :=
  let r := st.v0 * st.v1
  startPush { p := st.p, val := r, tgt := none, fl := mulFlags r, halt := false } Config.latMul s

/-- A started LOAD (R169, R171, R172). -/
def startLoad (size : Size) (signed : Bool) (st : Started) (s : State) : Option State :=
  if s.cfg.lqCap ≤ s.lq.length then none
  else some { s with lq := s.lq ++ [{ addr := effectiveAddress st.v0 st.v1, dest := st.p, size, signed }] }

/-- A started STORE (R169, R170): the data goes into the ROB, the address on the bus. -/
def startStore (st : Started) (s : State) : Option State :=
  startPush { p := st.p, val := effectiveAddress st.v0 st.v1, tgt := none, fl := 0#4, halt := false } s.cfg.latLs
    (s.setRob st.p { s.robAt st.p with value := st.v2 })

/-- A started relative branch with the given outcome (R173, R270, R271). -/
def startRelative (simm : Word) (taken : Bool) (st : Started) (s : State) : Option State :=
  startPush { p := st.p, val := flagWord taken, tgt := some (st.pc + simm), fl := 0#4, halt := false } s.cfg.latCtrl s

/-- A started BX, BLX or SETPC (R277). -/
def startExchange (st : Started) (s : State) : Option State :=
  startPush { p := st.p, val := 1#32, tgt := some st.v0, fl := 0#4, halt := false } s.cfg.latCtrl s

/-- A started PUTS or PUTI (R174, R278, R279). -/
def startPrint (e : Word → OutEvent) (st : Started) (s : State) : Option State :=
  startPush { p := st.p, val := 0#32, tgt := none, fl := 0#4, halt := false } s.cfg.latCtrl (s.emitOut (e st.v0))

/-- A started HALT (R280). -/
def startHalt (st : Started) (s : State) : Option State :=
  startPush { p := st.p, val := 0#32, tgt := none, fl := 0#4, halt := true } s.cfg.latCtrl s

/-! The load queue. -/

/-- `|a - b|` of two addresses as integers (R176). -/
def distance (a b : Word) : Nat := (a.toNat - b.toNat) + (b.toNat - a.toNat)

/-- Does an entry older than a load let the load go (R176)? -/
def letsLoadGo (d : Dest) (addr : Word) : Bool :=
  match d with
  | .awaiting => false
  | .resolved a => decide (Config.overlap ≤ distance a addr)
  | _ => true

/-- `may_issue(l)` (R176). -/
def State.mayIssue (s : State) (l : LqEntry) : Bool :=
  (List.range (s.robAge l.dest)).all
    (fun k => letsLoadGo (s.robAt ((s.head + k) % s.cfg.robCapacity)).dest l.addr)

/-- `mem_access(l)` (R177). -/
def memAccess (l : LqEntry) (s : State) : State :=
  match s.memRead l.addr l.size.bytes with
  | none => s.raise .memLoad (s.robAt l.dest).pc (.word l.addr)
  | some m =>
    s.push { p := l.dest, val := extendLoad l.size l.signed m, tgt := none, fl := 0#4, halt := false } s.cfg.latLoad

/-! Writeback. -/

/-- `wake(p, reg, w)` on one operand slot (R194). -/
def Operand.wake (o : Operand) (p : Nat) (r : Slot) (w : Word) : Operand :=
  if o = .pending p r then .value w else o

/-- `wake(p, reg, w)` on one entry (R194). -/
def RsEntry.wake (e : RsEntry) (p : Nat) (r : Slot) (w : Word) : RsEntry :=
  if e.busy then { e with op0 := e.op0.wake p r w, op1 := e.op1.wake p r w, op2 := e.op2.wake p r w } else e

/-- `wake(p, reg, w)`: every matching slot of every busy entry of every set (R194, R197). -/
def State.wake (s : State) (p : Nat) (r : Slot) (w : Word) : State :=
  { s with rs := s.rs.map (fun es => es.map (·.wake p r w)) }

/-- The ROB entry after its broadcast (R194, R196). -/
def RobEntry.receive (e : RobEntry) (r : BusRecord) : RobEntry :=
  match e.dest with
  | .awaiting =>
    { e with dest := .resolved r.val, target := r.tgt.getD e.target, flags := r.fl, halt := r.halt, ready := true }
  | _ => { e with value := r.val, target := r.tgt.getD e.target, flags := r.fl, halt := r.halt, ready := true }

/-- The register wake-up of R197: only for a `register(id, _)` descriptor. -/
def State.wakeDest (s : State) (d : Dest) (p : Nat) (w : Word) : State :=
  match d.slot with
  | some r => s.wake p r w
  | none => s

/-- The flag wake-ups of R197: one for each flag of the write mask, whatever the descriptor. -/
def State.wakeFlags (s : State) (fw fl : BitVec 4) (p : Nat) : State :=
  allFlags.foldl (fun s f => if flagBit fw f then s.wake p (.flag f) (flagWord (flagBit fl f)) else s) s

/-- Frees the producer's own reservation-station entry (R198). -/
def State.freeRs (s : State) (c : FuClass) (p : Nat) : State :=
  { s with rs := s.rs.set c (freeEntries p (s.rs.get c)) }

/-- `broadcast(r)` (R194 to R199). -/
def broadcastUop (pr : Profile) (r : BusRecord) (s : State) : State :=
  let e := (s.robAt r.p).receive r
  (((s.setRob r.p e).wakeDest e.dest r.p r.val).wakeFlags pr.fw r.fl r.p).freeRs pr.cls r.p

/-! Recovery. -/

/-- The ROB indices that a recovery flushes: ages 1 to `rob_count - 1` (R232). -/
def State.flushed (s : State) : List Nat :=
  (List.range (s.robCount - 1)).map (fun k => (s.head + (k + 1)) % s.cfg.robCapacity)

/-- Marks ROB slots empty. -/
def emptySlots (rob : List RobEntry) : List Nat → List RobEntry
  | [] => rob
  | i :: is => emptySlots (rob.set i { rob.getD i RobEntry.free with status := .empty }) is

/-- `recover(target)` (R230 to R235). -/
def State.recover (s : State) (target : Word) : State :=
  { s with
    iq := []
    fb := []
    specPc := targetFix s.cfg target
    rob := emptySlots s.rob s.flushed
    rs := s.rs.map (fun es => es.map
      (fun e => if e.busy && decide (e.dest ∈ s.flushed) then { e with busy := false } else e))
    rst := s.rst.map (fun o =>
      match o with
      | some i => if i ∈ s.flushed then none else some i
      | none => none)
    tail := s.robNext s.head
    lq := []
    dly := []
    cq := []
    fetchStall := false
    fetchDelay := s.cfg.redirectDelay }

/-! Commit. -/

/-- What commit finds at the head (R210, R211). -/
inductive CommitGate where
  /-- the head slot is empty or its entry not ready -/
  | idle
  /-- the head entry has status `exception(code)` (R300) -/
  | internal
  /-- the head entry commits -/
  | go
deriving DecidableEq, Repr

def State.commitGate (s : State) : CommitGate :=
  match (s.robAt s.head).status with
  | .empty => .idle
  | .exception _ => .internal
  | .executing => if (s.robAt s.head).ready then .go else .idle

/-- `raise Fatal(INTERNAL, E.pc, E.uop)` for the head entry (R211). -/
def State.raiseInternal (s : State) : State :=
  s.raise .internal (s.robAt s.head).pc (.record (s.robAt s.head).uop)

/-- The destination write of a commit (R214, R215): the state after it, or the state after the fatal it raised. -/
def commitDest (size : Size) (e : RobEntry) (s : State) : Except State State :=
  match e.dest with
  | .register id _ => .ok { s.setReg id e.value with rst := s.rst.release (.reg id) s.head }
  | .resolved a =>
    match s.memWrite a size.bytes e.value with
    | none => .error (s.raise .memStore e.pc (.word a))
    | some m => .ok { s with mem := m }
  | .awaiting => .error s.raiseInternal
  | .discard => .ok s

/-- The flag writes of a commit (R216). -/
def commitFlags (fw : BitVec 4) (e : RobEntry) (s : State) : State :=
  allFlags.foldl
    (fun t f => if flagBit fw f then
        { t.setFlag f (flagBit e.flags f) with rst := t.rst.release (.flag f) t.head }
      else t) s

/-- `taken = pred` (R125, R217). -/
def predictedTaken (cfg : Cfg) : Bool := decide (cfg.policy = .alwaysTaken)

/-- Branch resolution at commit (R217, R218, R220): the state and the outcome of the trace record. -/
def resolveBranch (rt : Retire) (e : RobEntry) (s : State) : State × BranchOutcome :=
  match rt with
  | .plain => (s, .notBranch)
  | .exchange => (s.recover e.target, .redirect)
  | .relative inc =>
    if decide (e.value ≠ 0#32) = predictedTaken s.cfg then (s.countBranch, .correct)
    else
      (s.countBranch.countMispredict.recover (if e.value ≠ 0#32 then e.target else e.pc + inc), .mispredicted)
  | .svc => ({ s with fetchStall := false }, .notBranch)

/-- The `target` field of a trace record (R116). -/
def traceTarget (rt : Retire) (e : RobEntry) : Option Word :=
  match rt with
  | .relative _ => some e.target
  | .exchange => some e.target
  | _ => none

/-- The release of the head slot: its status, `head` and `committed` (R219). -/
def State.releaseHead (s : State) : State :=
  { s with
    rob := s.rob.set s.head { s.robAt s.head with status := .empty }
    head := s.robNext s.head
    counters := { s.counters with committed := s.counters.committed + 1 } }

/-- The halt path of a commit (R213). -/
def commitHalt (e : RobEntry) (s : State) : State :=
  ({ s with halted := true, exitCode := s.getReg 0#4 }.emitTrace
    { pc := e.pc, uop := e.uop, value := e.value, target := none, outcome := .notBranch }).releaseHead

/-- What follows the architectural writes of a commit (R210, R221): branch resolution, trace record, release of the slot. -/
def commitRetire (rt : Retire) (e : RobEntry) (s : State) : State :=
  let r := resolveBranch rt e s
  (r.1.emitTrace { pc := e.pc, uop := e.uop, value := e.value, target := traceTarget rt e, outcome := r.2 }).releaseHead

/-- The commit stage on the entry at the head (R210). -/
def commitUop (pr : Profile) (s : State) : State :=
  let e := s.robAt s.head
  match s.commitGate with
  | .idle => s
  | .internal => s.raiseInternal
  | .go =>
    if e.halt then commitHalt e s
    else match commitDest pr.size e s with
      | .error t => t
      | .ok t => commitRetire pr.retire e (commitFlags pr.fw e t)

/-! The stage action that is due. -/

/-- The stage action of `s.act` on a micro-op with the given profile. -/
def State.passage (s : State) (pr : Profile) : State :=
  match s.act with
  | .issue => issueUop pr s
  | .start c j => startUop pr c j s
  | .access l => memAccess l s
  | .broadcast r => broadcastUop pr r s
  | .commit => commitUop pr s

end Sys2Proof.Machine
end

