-- ==== Sys2Proof/Machine/AluMul.lean ====
section
/-! DEFINITION. The micro-ops of spec/47_uops_alu_mul.md: ALU, ALUCMP, MUL. Each meaning is the profile the spec's
template gives the kind, run through the stage action that is due (`State.passage`). -/

namespace Sys2Proof.Machine

/-- ALU (R240): `x[rd] <- r` and the flags in `fw`, with `(r, fl) = alu(sub, a, b, cin)`. -/
def execAlu (sub : BitVec 6) (rd : Reg) (a : Option Reg) (b : Src) (cin : Bool) (fw : BitVec 4) (pi : PcInc) (s : State) :
    Host.Outcome State Fault Refusal :=
  .next (s.passage
    { ill := (Instr.alu sub rd a b cin fw pi).illFormed
      cls := .alu
      src0 := .ofReg a
      src1 := .ofSrc b
      src2 := .ofCarry cin
      dest := .register rd (decide (fw ≠ 0#4))
      fw := fw
      start := startAlu sub
      size := .word
      retire := .plain })

/-- ALUCMP (R241): the computation of ALU, its result discarded, the flags in `fw` written. -/
def execCmp (sub : BitVec 6) (a : Option Reg) (b : Src) (cin : Bool) (fw : BitVec 4) (pi : PcInc) (s : State) :
    Host.Outcome State Fault Refusal :=
  .next (s.passage
    { ill := (Instr.cmp sub a b cin fw pi).illFormed
      cls := .alu
      src0 := .ofReg a
      src1 := .ofSrc b
      src2 := .ofCarry cin
      dest := .discard
      fw := fw
      start := startAlu sub
      size := .word
      retire := .plain })

/-- MUL (R242): `x[rd] <- (a * b) mod 2^32`; N and Z as selected. -/
def execMul (rd rn : Reg) (b : Src) (fw : BitVec 2) (pi : PcInc) (s : State) : Host.Outcome State Fault Refusal :=
  .next (s.passage
    { ill := (Instr.mul rd rn b fw pi).illFormed
      cls := .mul
      src0 := .slot (.reg rn)
      src1 := .ofSrc b
      src2 := .none
      dest := .register rd (decide (fw.setWidth 4 ≠ 0#4))
      fw := fw.setWidth 4
      start := startMul
      size := .word
      retire := .plain })

end Sys2Proof.Machine
end

