-- ==== Sys2Proof/Machine/Control.lean ====
section
/-! DEFINITION. The control micro-ops of spec/49_uops_control.md: branches and supervisor calls. All of them have the descriptor
`discard` and write no register and no flag (R281, R282). -/

namespace Sys2Proof.Machine

/-- What every control micro-op shares (R281, R282). -/
def controlProfile (ill : Option IllFormed) (src0 src1 src2 : SrcRef) (start : Started → State → Option State) (retire : Retire) :
    Profile :=
  { ill := ill
    cls := .ctrl
    src0 := src0
    src1 := src1
    src2 := src2
    dest := .discard
    fw := 0#4
    start := start
    size := .word
    retire := retire }

/-- B (R270): unconditional relative branch to `pc + simm`. -/
def execB (simm : Word) (pi : PcInc) (s : State) : Host.Outcome State Fault Refusal :=
  .next (s.passage (controlProfile (Instr.b simm pi).illFormed .none .none .none (startRelative simm true)
    (.relative (pcIncrement pi))))

/-- A started BCOND (R271): taken when the condition holds on the flags in its operands. -/
def startCond (cond : Cond) (simm : Word) (st : Started) (s : State) : Option State :=
  startRelative simm (condHolds cond (operandFlags cond [st.v0, st.v1, st.v2])) st s

/-- BCOND (R271): relative branch to `pc + simm` if the condition holds, else on to `pc + pc_inc`. -/
def execBcond (cond : Cond) (simm : Word) (pi : PcInc) (s : State) : Host.Outcome State Fault Refusal :=
  .next (s.passage (controlProfile (Instr.bcond cond simm pi).illFormed (.ofCond cond 0) (.ofCond cond 1) (.ofCond cond 2)
    (startCond cond simm) (.relative (pcIncrement pi))))

/-- BL (R272): as B in every stage; no link register is written (R282). -/
def execBl (simm : Word) (pi : PcInc) (s : State) : Host.Outcome State Fault Refusal :=
  .next (s.passage (controlProfile (Instr.bl simm pi).illFormed .none .none .none (startRelative simm true)
    (.relative (pcIncrement pi))))

/-- BX (R273, R277): branch to register. -/
def execBx (rn : Reg) (pi : PcInc) (s : State) : Host.Outcome State Fault Refusal :=
  .next (s.passage (controlProfile (Instr.bx rn pi).illFormed (.slot (.reg rn)) .none .none startExchange .exchange))

/-- BLX (R274, R277): as BX in every stage; no link register is written (R282). -/
def execBlx (rn : Reg) (pi : PcInc) (s : State) : Host.Outcome State Fault Refusal :=
  .next (s.passage (controlProfile (Instr.blx rn pi).illFormed (.slot (.reg rn)) .none .none startExchange .exchange))

/-- SETPC (R275, R277): as BX in every stage. -/
def execSetpc (rn : Reg) (pi : PcInc) (s : State) : Host.Outcome State Fault Refusal :=
  .next (s.passage (controlProfile (Instr.setpc rn pi).illFormed (.slot (.reg rn)) .none .none startExchange .exchange))

/-- SVC PUTS (R278): one `Out(PUTS, x[rn])` event, emitted at execute. -/
def execSvcPuts (rn : Reg) (pi : PcInc) (s : State) : Host.Outcome State Fault Refusal :=
  .next (s.passage (controlProfile (Instr.svcPuts rn pi).illFormed (.slot (.reg rn)) .none .none (startPrint .puts) .svc))

/-- SVC PUTI (R279): one `Out(PUTI, x[rn])` event, emitted at execute. -/
def execSvcPuti (rn : Reg) (pi : PcInc) (s : State) : Host.Outcome State Fault Refusal :=
  .next (s.passage (controlProfile (Instr.svcPuti rn pi).illFormed (.slot (.reg rn)) .none .none (startPrint .puti) .svc))

/-- SVC HALT (R280): its commit makes the machine terminal with `exit_code = x[0]` (R213). -/
def execSvcHalt (pi : PcInc) (s : State) : Host.Outcome State Fault Refusal :=
  .next (s.passage (controlProfile (Instr.svcHalt pi).illFormed .none .none .none startHalt .svc))

end Sys2Proof.Machine
end

