-- ==== Sys2Proof/Machine/LoadStore.lean ====
section
/-! DEFINITION. The load and store micro-ops of spec/48_uops_mem.md. -/

namespace Sys2Proof.Machine

/-- What every LOAD shares (R259): destination `rd`, base `rn`, offset `off`, no flags. -/
def loadProfile (ill : Option IllFormed) (rd rn : Reg) (off : Src) (size : Size) (signed : Bool) : Profile :=
  { ill := ill
    cls := .ls
    src0 := .slot (.reg rn)
    src1 := .ofSrc off
    src2 := .none
    dest := .register rd false
    fw := 0#4
    start := startLoad size signed
    size := size
    retire := .plain }

/-- What every STORE shares (R260): base `rn`, offset `off`, data `ra`; memory is written at commit. -/
def storeProfile (ill : Option IllFormed) (ra rn : Reg) (off : Src) (size : Size) : Profile :=
  { ill := ill
    cls := .ls
    src0 := .slot (.reg rn)
    src1 := .ofSrc off
    src2 := .slot (.reg ra)
    dest := .awaiting
    fw := 0#4
    start := startStore
    size := size
    retire := .plain }

/-- `ldb rd, [rn, off]` (R250): unsigned byte load. -/
def execLdb (rd rn : Reg) (off : Src) (pi : PcInc) (s : State) : Host.Outcome State Fault Refusal :=
  .next (s.passage (loadProfile (Instr.ldb rd rn off pi).illFormed rd rn off .byte false))

/-- `ldsb rd, [rn, off]` (R251): signed byte load. -/
def execLdsb (rd rn : Reg) (off : Src) (pi : PcInc) (s : State) : Host.Outcome State Fault Refusal :=
  .next (s.passage (loadProfile (Instr.ldsb rd rn off pi).illFormed rd rn off .byte true))

/-- `ldh rd, [rn, off]` (R252): unsigned halfword load. -/
def execLdh (rd rn : Reg) (off : Src) (pi : PcInc) (s : State) : Host.Outcome State Fault Refusal :=
  .next (s.passage (loadProfile (Instr.ldh rd rn off pi).illFormed rd rn off .half false))

/-- `ldsh rd, [rn, off]` (R253): signed halfword load. -/
def execLdsh (rd rn : Reg) (off : Src) (pi : PcInc) (s : State) : Host.Outcome State Fault Refusal :=
  .next (s.passage (loadProfile (Instr.ldsh rd rn off pi).illFormed rd rn off .half true))

/-- `ldw rd, [rn, off]` (R254): word load. -/
def execLdw (rd rn : Reg) (off : Src) (pi : PcInc) (s : State) : Host.Outcome State Fault Refusal :=
  .next (s.passage (loadProfile (Instr.ldw rd rn off pi).illFormed rd rn off .word false))

/-- `ldsw rd, [rn, off]` (R255): word load with the signed bit, which has no effect on a 32-bit value. -/
def execLdsw (rd rn : Reg) (off : Src) (pi : PcInc) (s : State) : Host.Outcome State Fault Refusal :=
  .next (s.passage (loadProfile (Instr.ldsw rd rn off pi).illFormed rd rn off .word true))

/-- `stb ra, [rn, off]` (R256): byte store. -/
def execStb (ra rn : Reg) (off : Src) (pi : PcInc) (s : State) : Host.Outcome State Fault Refusal :=
  .next (s.passage (storeProfile (Instr.stb ra rn off pi).illFormed ra rn off .byte))

/-- `sth ra, [rn, off]` (R257): halfword store. -/
def execSth (ra rn : Reg) (off : Src) (pi : PcInc) (s : State) : Host.Outcome State Fault Refusal :=
  .next (s.passage (storeProfile (Instr.sth ra rn off pi).illFormed ra rn off .half))

/-- `stw ra, [rn, off]` (R258): word store. -/
def execStw (ra rn : Reg) (off : Src) (pi : PcInc) (s : State) : Host.Outcome State Fault Refusal :=
  .next (s.passage (storeProfile (Instr.stw ra rn off pi).illFormed ra rn off .word))

end Sys2Proof.Machine
end

