-- ==== Sys2Proof/Machine/Dispatch.lean ====
section
/-! DEFINITION. `exec`: the stage action that is due in the state (`State.act`), performed on a micro-op; one arm per
constructor of `Instr`, in the order of spec/opcode_table.json. -/

namespace Sys2Proof.Machine

def exec (i : Instr) (s : State) : Host.Outcome State Fault Refusal :=
  match i with
  | .alu sub rd a b cin fw pi => Sys2Proof.Machine.execAlu sub rd a b cin fw pi s
  | .cmp sub a b cin fw pi => Sys2Proof.Machine.execCmp sub a b cin fw pi s
  | .mul rd rn b fw pi => Sys2Proof.Machine.execMul rd rn b fw pi s
  | .ldb rd rn off pi => Sys2Proof.Machine.execLdb rd rn off pi s
  | .ldsb rd rn off pi => Sys2Proof.Machine.execLdsb rd rn off pi s
  | .ldh rd rn off pi => Sys2Proof.Machine.execLdh rd rn off pi s
  | .ldsh rd rn off pi => Sys2Proof.Machine.execLdsh rd rn off pi s
  | .ldw rd rn off pi => Sys2Proof.Machine.execLdw rd rn off pi s
  | .ldsw rd rn off pi => Sys2Proof.Machine.execLdsw rd rn off pi s
  | .stb ra rn off pi => Sys2Proof.Machine.execStb ra rn off pi s
  | .sth ra rn off pi => Sys2Proof.Machine.execSth ra rn off pi s
  | .stw ra rn off pi => Sys2Proof.Machine.execStw ra rn off pi s
  | .b simm pi => Sys2Proof.Machine.execB simm pi s
  | .bcond cond simm pi => Sys2Proof.Machine.execBcond cond simm pi s
  | .bl simm pi => Sys2Proof.Machine.execBl simm pi s
  | .bx rn pi => Sys2Proof.Machine.execBx rn pi s
  | .blx rn pi => Sys2Proof.Machine.execBlx rn pi s
  | .setpc rn pi => Sys2Proof.Machine.execSetpc rn pi s
  | .svcPuts rn pi => Sys2Proof.Machine.execSvcPuts rn pi s
  | .svcPuti rn pi => Sys2Proof.Machine.execSvcPuti rn pi s
  | .svcHalt pi => Sys2Proof.Machine.execSvcHalt pi s

end Sys2Proof.Machine
end

