-- ==== Sys2Proof/Machine/Stages.lean ====
section
/-! DEFINITION. The six stages of a tick (spec/40_tick.md to 46_recovery.md). Wherever a stage handles a micro-op it decodes the
record it finds there and calls `exec` with the stage action set (`Activity`). -/

namespace Sys2Proof.Machine

/-- The outcome type of a step. -/
abbrev StepOutcome := Host.Outcome State Fault Refusal

/-- `exec` of the micro-op a record stands for, with the stage action set; a record in flight that is no micro-op faults. -/
def execRecord (u : Record) (a : Activity) (s : State) : StepOutcome :=
  match decode u with
  | .ok i => exec i (s.doing a)
  | .error _ => .fault (.notAMicroOp u)

/-- The next stage of the cycle, unless a fatal has ended it (R110, R291). -/
def andThen (o : StepOutcome) (f : State → StepOutcome) : StepOutcome :=
  match o with
  | .next s => if s.fatal.isSome then .next s else f s
  | .fault r => .fault r
  | .refused r => .refused r

/-! Commit (R210). -/

def commitStage (s : State) : StepOutcome :=
  match s.commitGate with
  | .idle => .next s
  | .internal => .next s.raiseInternal
  | .go => execRecord (s.robAt s.head).uop .commit s

/-! Writeback (R190). -/

/-- The records whose countdown reaches zero this cycle, in list order. -/
def completed : List Delayed → List BusRecord
  | [] => []
  | d :: ds => if d.ctr - 1 = 0 then d.record :: completed ds else completed ds

/-- The delay list after this cycle's countdown. -/
def countedDown : List Delayed → List Delayed
  | [] => []
  | d :: ds => if d.ctr - 1 = 0 then countedDown ds else { d with ctr := d.ctr - 1 } :: countedDown ds

/-- The countdown of R190. -/
def State.ageDelays (s : State) : State := { s with dly := countedDown s.dly, cq := s.cq ++ completed s.dly }

/-- Up to `k` broadcasts from the front of `CQ` (R190, R192). -/
def drain : Nat → State → StepOutcome
  | 0, s => .next s
  | k + 1, s =>
    match s.cq with
    | [] => .next s
    | r :: rest => andThen (execRecord (s.robAt r.p).uop (.broadcast r) { s with cq := rest }) (drain k)

def writebackStage (s : State) : StepOutcome := drain s.cfg.cdbWidth s.ageDelays

/-! Execute (R160). -/

/-- The load-queue scan (R175): `n` loads have gone to memory so far and `keep` stay. A fatal ends the stage before the queue is
rewritten (R291). -/
def scanLoads : List LqEntry → Nat → List LqEntry → State → StepOutcome
  | [], _, keep, s => .next { s with lq := keep }
  | l :: rest, n, keep, s =>
    if n < s.cfg.memPorts ∧ s.mayIssue l = true then
      andThen (execRecord (s.robAt l.dest).uop (.access l) s) (scanLoads rest (n + 1) keep)
    else scanLoads rest n (keep ++ [l]) s

def lqScan (s : State) : StepOutcome := scanLoads s.lq 0 [] s

/-- Puts slot `j` into a list of slots sorted by the age of their entries, after those of the same age. -/
def insertByAge (age : Nat → Nat) (j : Nat) : List Nat → List Nat
  | [] => [j]
  | k :: ks => if age k ≤ age j then k :: insertByAge age j ks else j :: k :: ks

/-- A stable sort of slots by ascending age (R15, R160). -/
def sortByAge (age : Nat → Nat) (js : List Nat) : List Nat := js.foldl (fun acc j => insertByAge age j acc) []

/-- `cands` of R160: the slots of a set whose entries are ready, oldest ROB age first (R161). -/
def State.candidates (s : State) (c : FuClass) : List Nat :=
  sortByAge (fun j => s.robAge (s.rsAt c j).dest)
    ((List.range (s.rs.get c).length).filter (fun j => (s.rsAt c j).isReady))

/-- The selection loop of R160; `n` entries have been started. A load that met a full load queue has not been started (R172). -/
def startEntries (c : FuClass) : List Nat → Nat → State → StepOutcome
  | [], _, s => .next s
  | j :: js, n, s =>
    if s.cfg.units.get c ≤ n then .next s
    else
      andThen (execRecord (s.rsAt c j).uop (.start c j) s)
        (fun t => startEntries c js (if (t.rsAt c j).disp then n + 1 else n) t)

def selectClass (c : FuClass) (s : State) : StepOutcome := startEntries c (s.candidates c) 0 s

/-- The execute stage: the scan, then the classes in the order ALU, MUL, LS, CTRL (R160, R163). -/
def executeStage (s : State) : StepOutcome :=
  andThen (andThen (andThen (andThen (lqScan s) (selectClass .alu)) (selectClass .mul)) (selectClass .ls)) (selectClass .ctrl)

/-! Issue (R140). -/

/-- A record at the front of the queue that belongs to no row of the opcode table fails `WF` (R92, R142); the ROB-full test comes
first (R141). -/
def issueStage (s : State) : StepOutcome :=
  match s.iq with
  | [] => .next s
  | e :: _ =>
    match decode e.uop with
    | .ok i => exec i (s.doing .issue)
    | .error _ => if s.robFull then .next s.stallRobFull else .next (s.raise .badUop e.pc (.record e.uop))

/-! Decode (R128). -/

def decodeStage (s : State) : StepOutcome :=
  match s.fb with
  | [] => .next s
  | e :: rest =>
    if s.cfg.iqCap - s.iq.length < s.cfg.iqHeadroom then .next s
    else
      match decodeExpand s.cfg e.raw with
      | none => .next ({ s with fb := rest }.raise .undef e.pc (.word e.raw))
      | some l =>
        if l.length = 0 ∨ s.cfg.iqHeadroom < l.length then
          .next ({ s with fb := rest }.raise .internal e.pc (.word e.raw))
        else .next { s with fb := rest, iq := s.iq ++ l.map (fun u => { pc := e.pc, uop := u }) }

/-! Fetch (R123). -/

/-- `next_pc(cf, pc, len)` (R124). -/
def nextPc (cfg : Cfg) (cf : ControlFlow) (pc len : Word) : Word :=
  match cf with
  | .rel t => if cfg.policy = .alwaysTaken then targetFix cfg t else pc + len
  | _ => pc + len

/-- The state after an item has been fetched (R123). -/
def State.fetched (s : State) (raw : Word) : State :=
  { s with
    fb := s.fb ++ [{ pc := s.specPc, raw := raw }]
    specPc := nextPc s.cfg (prescan s.cfg raw s.specPc) s.specPc (ilen s.cfg raw)
    fetchStall := s.fetchStall || decide (prescan s.cfg raw s.specPc = .svc) }

def fetchStage (s : State) : StepOutcome :=
  if 0 < s.fetchDelay then .next { s with fetchDelay := s.fetchDelay - 1 }
  else if s.fetchStall then .next s
  else if s.cfg.fbCap ≤ s.fb.length then .next s
  else
    match s.ifetch s.specPc with
    | .fail => .next (s.raise .memFetch s.specPc (.word s.specPc))
    | .item raw => .next (s.fetched raw)
    | .short raw => .next { s.fetched raw with freeCount := s.freeCount + 1 }

/-! The cycle (R110). -/

/-- The five stages after commit (R110). -/
def laterStages (s : State) : StepOutcome :=
  andThen (andThen (andThen (andThen (writebackStage s) executeStage) issueStage) decodeStage) fetchStage

/-- The stages of one cycle: none after a commit that halts (R110, R113). -/
def cycleStages (s : State) : StepOutcome :=
  andThen (commitStage s) (fun t => if t.halted then .next t else laterStages t)

/-- The end of a cycle: `cycles + 1` unless a fatal ended it (R110, R291), and the stage action back at rest. -/
def endCycle (s : State) : State := (if s.fatal.isSome then s else s.countCycle).doing .issue

end Sys2Proof.Machine
end

