-- ==== Sys2Proof/Machine/Step.lean ====
section
/-! DEFINITION. One step of the machine: `tick`, one cycle (R110). -/

namespace Sys2Proof.Machine

/-- `tick()` (R110, R112): a terminal machine does not change. -/
def step (s : State) : Host.Outcome State Fault Refusal :=
  if s.terminal then .next s
  else
    match cycleStages s with
    | .next t => .next (endCycle t)
    | .fault r => .fault r
    | .refused r => .refused r

/-- The state with the micro-op record of the given bits at the front of the instruction queue, which is where the engine takes
its next micro-op (R140), tagged with the address fetch stands at (notes/assumptions/8.md). -/
def State.withFetchWord (s : State) (nbits w : Nat) : State :=
  { s with iq := { pc := s.specPc, uop := BitVec.ofNat 128 (w % 2 ^ nbits) } :: s.iq.drop 1 }

end Sys2Proof.Machine
end

