-- ==== Sys2Proof/Safety.lean ====
section
/-! DEFINITION. The vocabulary of the claims: what the spec's tables say of a micro-op (kind, class, descriptor, sources, flags),
`WF` on the raw fields of a record, safe states, and the invariants of a reachable machine (R21, R28, R51). Nothing here is
called by the machine. -/

namespace Sys2Proof

/-- The kind code of a micro-op (R84). -/
def Instr.kind : Instr → BitVec 5
  | .alu .. => 1#5
  | .cmp .. => 2#5
  | .mul .. => 3#5
  | .ldb .. | .ldsb .. | .ldh .. | .ldsh .. | .ldw .. | .ldsw .. => 4#5
  | .stb .. | .sth .. | .stw .. => 5#5
  | .b .. => 6#5
  | .bcond .. => 7#5
  | .bl .. => 8#5
  | .bx .. => 9#5
  | .blx .. => 10#5
  | .setpc .. => 11#5
  | .svcPuts .. | .svcPuti .. | .svcHalt .. => 12#5

/-- `cls(kind)` (R84). -/
def Instr.cls : Instr → FuClass
  | .alu .. | .cmp .. => .alu
  | .mul .. => .mul
  | .ldb .. | .ldsb .. | .ldh .. | .ldsh .. | .ldw .. | .ldsw .. => .ls
  | .stb .. | .sth .. | .stw .. => .ls
  | .b .. | .bcond .. | .bl .. | .bx .. | .blx .. | .setpc .. => .ctrl
  | .svcPuts .. | .svcPuti .. | .svcHalt .. => .ctrl

/-- The flag write mask of a micro-op (R90); R92 leaves a non-zero one to ALU, ALUCMP and MUL only. -/
def Instr.fw : Instr → BitVec 4
  | .alu _ _ _ _ _ fw _ => fw
  | .cmp _ _ _ _ fw _ => fw
  | .mul _ _ _ fw _ => fw.setWidth 4
  | _ => 0#4

/-- `pc_inc(u)` (R91) of a relative branch. -/
def Instr.pcInc : Instr → PcInc
  | .alu _ _ _ _ _ _ pi => pi
  | .cmp _ _ _ _ _ pi => pi
  | .mul _ _ _ _ pi => pi
  | .ldb _ _ _ pi | .ldsb _ _ _ pi | .ldh _ _ _ pi | .ldsh _ _ _ pi | .ldw _ _ _ pi | .ldsw _ _ _ pi => pi
  | .stb _ _ _ pi | .sth _ _ _ pi | .stw _ _ _ pi => pi
  | .b _ pi | .bcond _ _ pi | .bl _ pi => pi
  | .bx _ pi | .blx _ pi | .setpc _ pi | .svcPuts _ pi | .svcPuti _ pi => pi
  | .svcHalt pi => pi

namespace Fields

/-- Does the load or store of these fields name one of the sizes byte, halfword and word (R87)? -/
def sizeOk (f : Fields) : Bool := decide (f.sub.extractLsb' 0 2 ≠ 3#2)

/-- The common conditions of R92, on the raw fields of a record. -/
def commonOk (f : Fields) : Bool :=
  decide (1 ≤ f.kind.toNat ∧ f.kind.toNat ≤ 12) && decide (f.pi ≠ 3#2) && decide (f.s2 ≠ 3#2) && decide (f.zero = 0#10)
    && (!decide (f.s0 = 1#1) || decide (f.rn ≠ 15#4)) && (!decide (f.s1 = 1#2) || decide (f.rm ≠ 15#4))
    && (!decide (f.s2 = 1#2) || decide (f.ra ≠ 15#4))
    && (!decide (f.kind.toNat = 1 ∨ f.kind.toNat = 3 ∨ f.kind.toNat = 4) || decide (f.rd ≠ 15#4))

/-- The selectors and the mask of a row of R92's table that admits no operand and writes no flag. -/
def plainOk (f : Fields) (s0 : BitVec 1) : Bool :=
  decide (f.s0 = s0) && decide (f.s1 = 0#2) && decide (f.s2 = 0#2) && decide (f.fw = 0#4)

/-- The table of R92, row by row, without the condition `sub[3:0] <= 13` of a BCOND. -/
def kindOk (f : Fields) : Bool :=
  match f.kind.toNat with
  | 1 | 2 => decide (f.s2 = 0#2 ∨ f.s2 = 2#2)
  | 3 => decide (f.sub = 0#6) && decide (f.s0 = 1#1) && decide (f.s1 ≠ 0#2) && decide (f.s2 = 0#2)
      && decide (f.fw.getLsbD 2 = false) && decide (f.fw.getLsbD 3 = false)
  | 4 => f.sizeOk && decide (f.sub.extractLsb' 3 3 = 0#3) && decide (f.s0 = 1#1) && decide (f.s1 ≠ 0#2)
      && decide (f.s2 = 0#2) && decide (f.fw = 0#4)
  | 5 => f.sizeOk && decide (f.sub.extractLsb' 2 4 = 0#4) && decide (f.s0 = 1#1) && decide (f.s1 ≠ 0#2)
      && decide (f.s2 = 1#2) && decide (f.fw = 0#4)
  | 6 | 8 => decide (f.sub = 0#6) && f.plainOk 0#1
  | 7 => decide (f.sub.extractLsb' 4 2 = 0#2) && f.plainOk 0#1
  | 9 | 10 | 11 => decide (f.sub = 0#6) && f.plainOk 1#1
  | 12 => (decide (f.sub = 1#6 ∨ f.sub = 2#6) && f.plainOk 1#1) || (decide (f.sub = 3#6) && f.plainOk 0#1)
  | _ => false

/-- The fields of a record with those set to 0 that R92 calls ignored: what no active selector and no destination rule of the kind
uses. -/
def used (f : Fields) : Fields :=
  { f with
    rd := if f.kind.toNat = 1 ∨ f.kind.toNat = 3 ∨ f.kind.toNat = 4 then f.rd else 0#4
    rn := if f.s0 = 1#1 then f.rn else 0#4
    rm := if f.s1 = 1#2 then f.rm else 0#4
    ra := if f.s2 = 1#2 then f.ra else 0#4
    uimm := if f.s1 = 2#2 then f.uimm else 0#32
    simm := if f.s1 = 3#2 ∨ f.kind.toNat = 6 ∨ f.kind.toNat = 7 ∨ f.kind.toNat = 8 then f.simm else 0#32
    reglist := 0#16 }

/-- The condition code of a BCOND is 14 or 15 (R88). -/
def badCondition (f : Fields) : Bool := decide (f.kind.toNat = 7 ∧ 13 < (f.sub.extractLsb' 0 4).toNat)

/-- The verdict of R92 on a record: nothing when `WF(u)` holds, else the fatal code issue raises. -/
def verdict (f : Fields) : Option Machine.FatalCode :=
  if f.commonOk && f.kindOk then (if f.badCondition then some .badCond else none) else some .badUop

end Fields

/-- What the model's decoder makes of a record: nothing when it is well-formed, else the fatal code. -/
def Record.verdict (r : Record) : Option Machine.FatalCode :=
  match decode r with
  | .error _ => some .badUop
  | .ok i => i.illFormed.map Machine.FatalCode.ofIllFormed

/-! What issue gives a micro-op. -/

section

open Machine

/-- `dest_of(u)` (R144). -/
def Instr.dest : Instr → Dest
  | .alu _ rd _ _ _ fw _ => .register rd (decide (fw ≠ 0#4))
  | .mul rd _ _ fw _ => .register rd (decide (fw.setWidth 4 ≠ 0#4))
  | .ldb rd _ _ _ | .ldsb rd _ _ _ | .ldh rd _ _ _ | .ldsh rd _ _ _ | .ldw rd _ _ _ | .ldsw rd _ _ _ => .register rd false
  | .stb .. | .sth .. | .stw .. => .awaiting
  | .cmp .. | .b .. | .bcond .. | .bl .. | .bx .. | .blx .. | .setpc .. => .discard
  | .svcPuts .. | .svcPuti .. | .svcHalt .. => .discard

/-- `srcs(u)` (R89), one entry per operand slot. -/
def Instr.sources : Instr → SrcRef × SrcRef × SrcRef
  | .alu _ _ a o cin _ _ => (.ofReg a, .ofSrc o, .ofCarry cin)
  | .cmp _ a o cin _ _ => (.ofReg a, .ofSrc o, .ofCarry cin)
  | .mul _ rn o _ _ => (.slot (.reg rn), .ofSrc o, .none)
  | .ldb _ rn off _ | .ldsb _ rn off _ | .ldh _ rn off _ | .ldsh _ rn off _ | .ldw _ rn off _ | .ldsw _ rn off _ =>
    (.slot (.reg rn), .ofSrc off, .none)
  | .stb ra rn off _ | .sth ra rn off _ | .stw ra rn off _ => (.slot (.reg rn), .ofSrc off, .slot (.reg ra))
  | .bcond c _ _ => (.ofCond c 0, .ofCond c 1, .ofCond c 2)
  | .bx rn _ | .blx rn _ | .setpc rn _ | .svcPuts rn _ | .svcPuti rn _ => (.slot (.reg rn), .none, .none)
  | .b .. | .bl .. | .svcHalt .. => (.none, .none, .none)

/-- The size of a load or store, and the signedness of a load (R87). -/
def Instr.access : Instr → Option (Size × Bool)
  | .ldb .. => some (.byte, false)
  | .ldsb .. => some (.byte, true)
  | .ldh .. => some (.half, false)
  | .ldsh .. => some (.half, true)
  | .ldw .. => some (.word, false)
  | .ldsw .. => some (.word, true)
  | .stb .. => some (.byte, false)
  | .sth .. => some (.half, false)
  | .stw .. => some (.word, false)
  | _ => none

/-- Is the micro-op a LOAD (R84)? -/
def Instr.isLoad (i : Instr) : Bool := decide (i.kind = 4#5)

/-- Is the micro-op a STORE (R84)? -/
def Instr.isStore (i : Instr) : Bool := decide (i.kind = 5#5)

end

namespace Machine

/-- Does an entry with this descriptor and flag mask write the slot (R149)? -/
def writesSlot (d : Dest) (fw : BitVec 4) : Slot → Bool
  | .reg r => decide (d.slot = some (.reg r))
  | .flag f => flagBit fw f

/-! Safe states and invariants. -/

/-- No fatal condition has been met (R45). -/
def State.safe (s : State) : Prop := s.fatal = none

/-- A record that belongs to a row of the opcode table (R100). -/
def knownRecord (u : Record) : Prop := ∃ i, decode u = .ok i

/-- The pointers and the occupied range of the ROB (R25, R28): the occupied slots are exactly those from `head` to `tail`. -/
structure State.Fifo (s : State) : Prop where
  capacity : 2 ≤ s.cfg.robCapacity
  size : s.rob.length = s.cfg.robCapacity
  head_lt : s.head < s.cfg.robCapacity
  tail_lt : s.tail < s.cfg.robCapacity
  occupied_iff : ∀ i, i < s.cfg.robCapacity → ((s.robAt i).status ≠ .empty ↔ s.occupied i = true)

/-- Everything in flight in the back end belongs to a row of the opcode table: every ROB entry that is not empty, every busy
reservation-station entry and its producer, and the producer of every load and of every bus record. -/
structure State.InFlight (s : State) : Prop where
  size : s.rob.length = s.cfg.robCapacity
  tail_lt : s.tail < s.cfg.robCapacity
  rob : ∀ e ∈ s.rob, e.status ≠ .empty → knownRecord e.uop
  rs : ∀ c, ∀ e ∈ s.rs.get c, e.busy = true → knownRecord e.uop ∧ knownRecord (s.robAt e.dest).uop
  lq : ∀ l ∈ s.lq, knownRecord (s.robAt l.dest).uop
  dly : ∀ d ∈ s.dly, knownRecord (s.robAt d.record.p).uop
  cq : ∀ r ∈ s.cq, knownRecord (s.robAt r.p).uop

/-- No descriptor and no slot of `RST` names register 15 (R21). -/
structure State.Reg15Idle (s : State) : Prop where
  rst : s.rst.get (.reg 15#4) = none
  rob : ∀ e ∈ s.rob, e.dest.slot ≠ some (.reg 15#4)

/-- Item 7 of R51: an unresolved store is not ready, a resolved one is. -/
def State.StoreReady (s : State) : Prop :=
  ∀ e ∈ s.rob, (e.dest = .awaiting → e.ready = false) ∧ (∀ a, e.dest = .resolved a → e.ready = true)

/-- The capacities of the queues and the bound of the fetch delay (R35, R41, R42, R43). -/
structure State.Bounded (s : State) : Prop where
  lq : s.lq.length ≤ s.cfg.lqCap
  iq : s.iq.length ≤ s.cfg.iqCap
  fb : s.fb.length ≤ s.cfg.fbCap
  fetchDelay : s.fetchDelay ≤ s.cfg.redirectDelay

/-- The status of a ROB entry is never `exception` (R29, R300). -/
def State.NoException (s : State) : Prop := ∀ e ∈ s.rob, ∀ k, e.status ≠ .exception k

/-- Item 1 of R51: a slot of `RST` that names a producer names an occupied entry that writes the slot. That it is the youngest one is
`State.Renamed` (R147). -/
def State.RstInv (s : State) : Prop :=
  ∀ r p, s.rst.get r = some p →
    p < s.cfg.robCapacity ∧ s.occupied p = true ∧ writesSlot (s.robAt p).dest (Record.fw (s.robAt p).uop) r = true

/-- The ROB entry in slot `p` is occupied, and its result is still due (R51). -/
structure State.Due (s : State) (p : Nat) : Prop where
  lt : p < s.cfg.robCapacity
  occupied : s.occupied p = true
  notReady : (s.robAt p).ready = false

/-- The micro-op in ROB slot `p` writes the slot `r` (item 1 of R51). -/
def State.Writes (s : State) (p : Nat) (r : Slot) : Prop :=
  writesSlot (s.robAt p).dest (Record.fw (s.robAt p).uop) r = true

/-- An operand of the entry is `Pending(p, r)` (R32). -/
def RsEntry.Waits (e : RsEntry) (p : Nat) (r : Slot) : Prop :=
  e.op0 = .pending p r ∨ e.op1 = .pending p r ∨ e.op2 = .pending p r

/-- Some busy entry that execute has started names `p` as its destination. -/
def State.StartedFor (s : State) (p : Nat) : Prop :=
  ∃ c j, (s.rsAt c j).busy = true ∧ (s.rsAt c j).disp = true ∧ (s.rsAt c j).dest = p

/-- The bus records in flight: those of `DLY`, then those of `CQ`. -/
def State.records (s : State) : List BusRecord := s.dly.map (·.record) ++ s.cq

/-- R51, items 1 to 6 (item 7 is `State.StoreReady`). -/
structure State.Coherent (s : State) : Prop where
  /-- item 1 -/
  rst : s.RstInv
  /-- item 2 -/
  pending : ∀ c j p r, (s.rsAt c j).busy = true → (s.rsAt c j).Waits p r →
    s.Due p ∧ s.robAge p < s.robAge (s.rsAt c j).dest ∧ s.Writes p r
  /-- item 3 -/
  station : ∀ c j, (s.rsAt c j).busy = true → s.Due (s.rsAt c j).dest
  /-- item 3: at most one busy entry names a destination -/
  oneStation : ∀ c d j k, (s.rsAt c j).busy = true → (s.rsAt d k).busy = true →
    (s.rsAt c j).dest = (s.rsAt d k).dest → c = d ∧ j = k
  /-- item 4 -/
  lq : ∀ l ∈ s.lq, s.Due l.dest ∧ (∃ i, decode (s.robAt l.dest).uop = .ok i ∧ i.isLoad = true) ∧ s.StartedFor l.dest
  /-- item 5 -/
  record : ∀ r ∈ s.records, s.Due r.p
  /-- item 5: no two records name the same producer -/
  oneRecord : (s.records.map (·.p)).Nodup
  /-- item 6 -/
  ready : ∀ p, (s.robAt p).ready = true →
    (∀ c j, (s.rsAt c j).busy = true → (s.rsAt c j).dest ≠ p) ∧ (∀ l ∈ s.lq, l.dest ≠ p) ∧ ∀ r ∈ s.records, r.p ≠ p

/-- What the items of R51 rest on, in addition, to be kept by every step: a busy entry holds the record and the class of its
producer, every record and every queued load has a started entry of its own, and a halt request comes from a producer that
writes no slot. -/
structure State.Tracked (s : State) : Prop where
  station : ∀ c j, (s.rsAt c j).busy = true → (s.robAt (s.rsAt c j).dest).uop = (s.rsAt c j).uop
    ∧ ∀ i, decode (s.rsAt c j).uop = .ok i → i.cls = c ∧ (s.robAt (s.rsAt c j).dest).dest = i.dest
  record : ∀ r ∈ s.records, s.StartedFor r.p ∧ (r.halt = true → ∀ q, ¬ s.Writes r.p q)
  halt : ∀ p, p < s.cfg.robCapacity → s.occupied p = true → (s.robAt p).halt = true → ∀ q, ¬ s.Writes p q
  /-- A load that failed leaves the load queue as the scan found it (R291), so a fatal is excepted. -/
  apart : s.fatal = none → (s.lq.map (·.dest)).Nodup ∧ ∀ l ∈ s.lq, ∀ r ∈ s.records, r.p ≠ l.dest

/-- The renaming invariant (R23, R147): `RST` names the youngest writer in flight, and every operand tag the youngest writer older than
its consumer. -/
structure State.Renamed (s : State) : Prop where
  /-- no producer is named: every writer of the slot has committed or was flushed, so `x[r]` is current -/
  none : ∀ r, s.rst.get r = none → ∀ q, q < s.cfg.robCapacity → s.occupied q = true → ¬ s.Writes q r
  /-- a producer is named: no writer of the slot in flight is younger -/
  some : ∀ r p, s.rst.get r = some p →
    ∀ q, q < s.cfg.robCapacity → s.occupied q = true → s.Writes q r → s.robAge q ≤ s.robAge p
  /-- a consumer waits: no writer of the slot that is older than the consumer is younger than the producer it waits for -/
  pending : ∀ c j p r, (s.rsAt c j).busy = true → (s.rsAt c j).Waits p r →
    ∀ q, q < s.cfg.robCapacity → s.occupied q = true → s.Writes q r → s.robAge q < s.robAge (s.rsAt c j).dest →
      s.robAge q ≤ s.robAge p

/-- The back end holds nothing that a stage before issue would move: nothing at the head to commit, no bus record, no queued
load, no ready entry. -/
structure State.BackIdle (s : State) : Prop where
  head : s.commitGate = .idle
  lq : s.lq = []
  dly : s.dly = []
  cq : s.cq = []
  rs : ∀ c, ∀ e ∈ s.rs.get c, e.isReady = false

/-! What the claims say of a state after a stage action. -/

/-- The reservation stations with the entry in slot `j` of set `c` dispatched (R178). -/
def State.startedSets (s : State) (c : FuClass) (j : Nat) : PerClass (List RsEntry) :=
  s.rs.set c ((s.rs.get c).set j { s.rsAt c j with disp := true })

/-- What an operand slot holds after the broadcast of `r` by a producer with the given descriptor and flag mask (R194, R197). -/
def woken (r : BusRecord) (d : Dest) (fw : BitVec 4) : Operand → Operand
  | .pending p (.reg g) => if p = r.p ∧ d.slot = some (.reg g) then .value r.val else .pending p (.reg g)
  | .pending p (.flag f) =>
    if p = r.p ∧ flagBit fw f = true then .value (if flagBit r.fl f then 1#32 else 0#32) else .pending p (.flag f)
  | o => o

/-- The state after a commit that resolves no branch, with the given architectural state: the head slot empty, `head` advanced,
`committed` counted, one trace record (R116, R219). -/
def State.retired (s : State) (regs : Vector Word 16) (flags : PerFlag Bool) (rst : Rst) (mem : Memory) : State :=
  { s with
    regs := regs
    flags := flags
    rst := rst
    mem := mem
    trace := s.trace ++ [{ pc := (s.robAt s.head).pc, uop := (s.robAt s.head).uop, value := (s.robAt s.head).value
                           target := none, outcome := .notBranch }]
    rob := s.rob.set s.head { s.robAt s.head with status := .empty }
    head := (s.head + 1) % s.cfg.robCapacity
    counters := { s.counters with committed := s.counters.committed + 1 } }

/-- The given flags are those of the state, but for the ones in the mask, which are those of the head entry's record (R216). -/
def State.flagsAfter (s : State) (fw : BitVec 4) (flags : PerFlag Bool) : Prop :=
  ∀ f, flags.get f = if flagBit fw f then flagBit (s.robAt s.head).flags f else s.flags.get f

/-- The value of an operand source where no producer is pending (R146, R162). -/
def State.sourceValue (s : State) : SrcRef → Word
  | .none => 0#32
  | .imm w => w
  | .slot r => s.x r

/-! One micro-op alone. -/

/-- The micro-op `u` of the instruction at `pc` is alone in the machine: it is all that the instruction queue holds, the rest of
the machine is empty, and fetch is stalled. The sizes are those of the configuration. -/
structure State.Lone (s : State) (pc : Word) (u : Record) : Prop where
  ok : s.cfg.ok = true
  running : s.terminal = false
  act : s.act = .issue
  robSize : s.rob.length = s.cfg.robCapacity
  head_lt : s.head < s.cfg.robCapacity
  head_tail : s.head = s.tail
  rob : ∀ e ∈ s.rob, e.status = .empty
  rsSize : ∀ c, (s.rs.get c).length = s.cfg.rsSize.get c
  rs : ∀ c, ∀ e ∈ s.rs.get c, e.busy = false
  rst : ∀ r, s.rst.get r = none
  lq : s.lq = []
  dly : s.dly = []
  cq : s.cq = []
  fb : s.fb = []
  iq : s.iq = [{ pc := pc, uop := u }]
  stalled : s.fetchStall = true

/-- The micro-op has left the machine: every queue is empty, no ROB slot is occupied, no reservation station is busy and no slot of
`RST` names a producer. -/
structure State.Drained (s : State) : Prop where
  head_tail : s.head = s.tail
  rob : ∀ e ∈ s.rob, e.status = .empty
  rs : ∀ c, ∀ e ∈ s.rs.get c, e.busy = false
  rst : ∀ r, s.rst.get r = none
  lq : s.lq = []
  dly : s.dly = []
  cq : s.cq = []
  fb : s.fb = []
  iq : s.iq = []

end Machine

end Sys2Proof
end

