-- ==== Sys2Proof/Certificates/Slice0/Obligations.lean ====
section
/-! DEFINITION. The statements for the provers. Each docstring names the rules of spec/ it formalises; where a clause rests on a
choice of the model, the docstring names the log entry. -/

open Sys2Proof Sys2Proof.Machine

/-! Encoding. -/

/-- Decoding the record of a micro-op gives the micro-op back, whatever its operands (R81 to R88, R100). -/
def Obligations.DecodeOfEncode : Prop := ∀ i : Instr, decode (encode i) = .ok i

/-- A record that decodes is the encoding of what it decodes to, up to the fields that R92 calls ignored, and those fields change
nothing in what a record decodes to. -/
def Obligations.EncodeOfDecode : Prop :=
  ∀ r : Record, decode (Fields.unpack r).used.pack = decode r
    ∧ ∀ i, decode r = .ok i → encode i = (Fields.unpack r).used.pack

/-- `WF` of R92, evaluated by issue at the front of the queue after the ROB-full test: the table of R92 on the raw fields of the record
decides between no fatal, `BAD_COND` and `BAD_UOP`; behind a full ROB only the stall is counted. -/
def Obligations.IssueJudgesRecord : Prop :=
  ∀ (s : State) (e : IqEntry) (rest : List IqEntry), s.act = .issue → s.fatal = none → s.iq = e :: rest →
    (s.robFull = true → issueStage s = .next s.stallRobFull)
    ∧ (s.robFull = false → ∀ k, (Fields.unpack e.uop).verdict = some k →
        issueStage s = .next { s with fatal := some { code := k, pc := e.pc, info := .record e.uop } })
    ∧ (s.robFull = false → (Fields.unpack e.uop).verdict = none → ∃ t, issueStage s = .next t ∧ t.fatal = none)

/-- The worked encodings of R101 and of R250 to R258 decode to the micro-ops they are written for. -/
def Obligations.WorkedEncodingsDecode : Prop :=
  decode 0x00000000000000000000000560000001#128 = .ok (.alu 0#6 0#4 none (.uimm 5#32) false 0#4 .two)
    ∧ decode 0x00000000000000000000000058081021#128 = .ok (.alu 1#6 2#4 (some 0#4) (.reg 1#4) false 0#4 .two)
    ∧ decode 0x000F0000000000000000000168000042#128 = .ok (.cmp 2#6 (some 0#4) (.uimm 1#32) false 15#4 .two)
    ∧ decode 0x00030000000000000000000058198003#128 = .ok (.mul 0#4 3#4 (.reg 3#4) 3#2 .two)
    ∧ decode 0x0000000000000004000000003806B884#128 = .ok (.ldsb 7#4 13#4 (.simm 4#32) .zero)
    ∧ decode 0x00100000000000020000000079008025#128 = .ok (.sth 2#4 1#4 (.simm 2#32) .two)
    ∧ decode 0x00000000FFFFFFFC0000000040000027#128 = .ok (.bcond .ne 0xFFFFFFFC#32 .two)
    ∧ decode 0x00000000000000000000000048020009#128 = .ok (.bx 4#4 .two)
    ∧ decode 0x0000000000000000000000004800004C#128 = .ok (.svcPuti 0#4 .two)
    ∧ decode 0x0000000000000000000000004000006C#128 = .ok (.svcHalt .two)

/-! Issue and renaming. -/

/-- R140, R144, R145, R148, R149, R150: a well-formed micro-op that finds a free ROB slot and a free station of its class gets both; its
sources are renamed in the state before; `RST` names the new producer for exactly the slots it writes. -/
def Obligations.IssueAllocates : Prop :=
  ∀ (i : Instr) (s : State) (e : IqEntry) (rest : List IqEntry) (j : Nat),
    s.act = .issue → s.iq = e :: rest → s.robFull = false → i.wf = true → freeSlot (s.rs.get i.cls) = some j →
    ∃ t, exec i s = .next { s with
        rob := s.rob.set s.tail
          { pc := e.pc, uop := e.uop, status := .executing, value := 0#32, target := 0#32, flags := 0#4, ready := false
            halt := false, dest := i.dest }
        tail := (s.tail + 1) % s.cfg.robCapacity
        rs := s.rs.set i.cls ((s.rs.get i.cls).set j
          { busy := true, op0 := s.rename i.sources.1, op1 := s.rename i.sources.2.1, op2 := s.rename i.sources.2.2
            dest := s.tail, uop := e.uop, sf := decide (i.fw ≠ 0#4), disp := false })
        rst := t
        iq := rest }
      ∧ ∀ r, t.get r = if writesSlot i.dest i.fw r then some s.tail else s.rst.get r

/-- R141, R143, R142: the three ways issue does not allocate, and all that each changes. -/
def Obligations.IssueHeldBack : Prop :=
  ∀ (i : Instr) (s : State) (e : IqEntry) (rest : List IqEntry), s.act = .issue → s.iq = e :: rest →
    (s.robFull = true → exec i s = .next { s with
        counters := { s.counters with stallIssueRobFull := s.counters.stallIssueRobFull + 1 } })
    ∧ (s.robFull = false → i.wf = true → (∀ x ∈ s.rs.get i.cls, x.busy = true) → exec i s = .next { s with
        counters := { s.counters with stallIssueRSFull := s.counters.stallIssueRSFull + 1 } })
    ∧ (s.robFull = false → i.wf = false → ∃ k, (k = .badUop ∨ k = .badCond) ∧ exec i s = .next { s with
        fatal := some { code := k, pc := e.pc, info := .record e.uop } })

/-- R146: the cases of `rename`. -/
def Obligations.RenameCases : Prop :=
  ∀ s : State, s.rename .none = .absent ∧ (∀ w, s.rename (.imm w) = .value w)
    ∧ (∀ r : Reg, s.rst.get (.reg r) = none → s.rename (.slot (.reg r)) = .value (s.getReg r))
    ∧ (∀ f : Flag, s.rst.get (.flag f) = none → s.rename (.slot (.flag f)) = .value (flagWord (s.flags.get f)))
    ∧ (∀ (r : Reg) (p : Nat), s.rst.get (.reg r) = some p → (s.robAt p).ready = true →
        s.rename (.slot (.reg r)) = .value (s.robAt p).value)
    ∧ (∀ (f : Flag) (p : Nat), s.rst.get (.flag f) = some p → (s.robAt p).ready = true →
        s.rename (.slot (.flag f)) = .value (flagWord (flagBit (s.robAt p).flags f)))
    ∧ (∀ (r : Slot) (p : Nat), s.rst.get r = some p → (s.robAt p).ready = false →
        s.rename (.slot r) = .pending p r)

/-! Execute: what each micro-op computes when its reservation-station entry is started. Slot `j` of set `c` is the entry `e`; an absent
operand reads as 0 (R162). -/

/-- R162, R164, R166: ALU and ALUCMP hand the operands to the `alu` collaborator and push one record after `LAT_ALU = 1`. -/
def Obligations.AluStart : Prop :=
  ∀ (i : Instr) (s : State) (c : FuClass) (j : Nat) (sub : BitVec 6),
    ((∃ rd a o cin fw pi, i = .alu sub rd a o cin fw pi) ∨ (∃ a o cin fw pi, i = .cmp sub a o cin fw pi)) →
    s.act = .start c j →
    exec i s = .next { s with
      dly := s.dly ++ [{ record :=
        { p := (s.rsAt c j).dest
          val := (alu s.cfg sub (s.rsAt c j).op0.word (s.rsAt c j).op1.word ((s.rsAt c j).op2.word.getLsbD 0)).1
          tgt := none
          fl := (alu s.cfg sub (s.rsAt c j).op0.word (s.rsAt c j).op1.word ((s.rsAt c j).op2.word.getLsbD 0)).2
          halt := false }, ctr := 1 }]
      rs := s.startedSets c j }

/-- R167: the truncated product, after `LAT_MUL = 2`, with N its sign bit, Z its being 0, C and V 0. -/
def Obligations.MulStart : Prop :=
  ∀ (s : State) (c : FuClass) (j : Nat) (rd rn : Reg) (o : Src) (fw : BitVec 2) (pi : PcInc), s.act = .start c j →
    ∃ (r : Word) (fl : BitVec 4),
      exec (.mul rd rn o fw pi) s = .next { s with
        dly := s.dly ++ [{ record := { p := (s.rsAt c j).dest, val := r, tgt := none, fl := fl, halt := false }, ctr := 2 }]
        rs := s.startedSets c j }
      ∧ r.toNat = ((s.rsAt c j).op0.word.toNat * (s.rsAt c j).op1.word.toNat) % 2 ^ 32
      ∧ flagBit fl .n = r.msb ∧ flagBit fl .z = decide (r.toNat = 0) ∧ flagBit fl .c = false ∧ flagBit fl .v = false

/-- R169, R171, R172: a load of each size and signedness computes its address modulo 2^32 and enters the load queue; with a full queue
only the stall is counted. -/
def Obligations.LoadStart : Prop :=
  ∀ (i : Instr) (s : State) (c : FuClass) (j : Nat) (size : Size) (signed : Bool),
    i.isLoad = true → i.access = some (size, signed) → s.act = .start c j →
    (s.lq.length < s.cfg.lqCap → ∃ ea : Word,
      ea.toNat = ((s.rsAt c j).op0.word.toNat + (s.rsAt c j).op1.word.toNat) % 2 ^ 32
      ∧ exec i s = .next { s with
          lq := s.lq ++ [{ addr := ea, dest := (s.rsAt c j).dest, size := size, signed := signed }]
          rs := s.startedSets c j })
    ∧ (s.cfg.lqCap ≤ s.lq.length → exec i s = .next { s with
        counters := { s.counters with stallLoadQueueFull := s.counters.stallLoadQueueFull + 1 } })

/-- R168, R169, R170: a store puts the whole data operand into its ROB entry and its address, modulo 2^32, on the bus after `LAT_LS`. -/
def Obligations.StoreStart : Prop :=
  ∀ (i : Instr) (s : State) (c : FuClass) (j : Nat), i.isStore = true → s.act = .start c j →
    ∃ ea : Word, ea.toNat = ((s.rsAt c j).op0.word.toNat + (s.rsAt c j).op1.word.toNat) % 2 ^ 32
      ∧ exec i s = .next { s with
          rob := s.rob.set (s.rsAt c j).dest { s.robAt (s.rsAt c j).dest with value := (s.rsAt c j).op2.word }
          dly := s.dly ++ [{ record := { p := (s.rsAt c j).dest, val := ea, tgt := none, fl := 0#4, halt := false }
                             ctr := s.cfg.latLs }]
          rs := s.startedSets c j }

/-- R173, R270, R272, R277: B and BL put "taken" and the target `pc + simm` on the bus after `LAT_CTRL`; BX, BLX and SETPC the value of
their register. -/
def Obligations.BranchStart : Prop :=
  ∀ (i : Instr) (s : State) (c : FuClass) (j : Nat) (target : Word),
    ((∃ simm pi, (i = .b simm pi ∨ i = .bl simm pi) ∧ target = (s.robAt (s.rsAt c j).dest).pc + simm)
      ∨ (∃ rn pi, (i = .bx rn pi ∨ i = .blx rn pi ∨ i = .setpc rn pi) ∧ target = (s.rsAt c j).op0.word)) →
    s.act = .start c j →
    exec i s = .next { s with
      dly := s.dly ++ [{ record := { p := (s.rsAt c j).dest, val := 1#32, tgt := some target, fl := 0#4, halt := false }
                         ctr := s.cfg.latCtrl }]
      rs := s.startedSets c j }

/-- R276: the condition table: which flags each condition takes as operands, and when it holds, on every value of the flags. -/
def Obligations.ConditionTable : Prop :=
  (condReads .eq = [.z] ∧ condReads .ne = [.z] ∧ condReads .cs = [.c] ∧ condReads .cc = [.c] ∧ condReads .mi = [.n]
    ∧ condReads .pl = [.n] ∧ condReads .vs = [.v] ∧ condReads .vc = [.v] ∧ condReads .hi = [.c, .z] ∧ condReads .ls = [.c, .z]
    ∧ condReads .ge = [.n, .v] ∧ condReads .lt = [.n, .v] ∧ condReads .gt = [.z, .n, .v] ∧ condReads .le = [.z, .n, .v])
  ∧ ∀ f : PerFlag Bool,
    (condHolds .eq f = true ↔ f.z = true) ∧ (condHolds .ne f = true ↔ f.z = false)
    ∧ (condHolds .cs f = true ↔ f.c = true) ∧ (condHolds .cc f = true ↔ f.c = false)
    ∧ (condHolds .mi f = true ↔ f.n = true) ∧ (condHolds .pl f = true ↔ f.n = false)
    ∧ (condHolds .vs f = true ↔ f.v = true) ∧ (condHolds .vc f = true ↔ f.v = false)
    ∧ (condHolds .hi f = true ↔ f.c = true ∧ f.z = false) ∧ (condHolds .ls f = true ↔ f.c = false ∨ f.z = true)
    ∧ (condHolds .ge f = true ↔ f.n = f.v) ∧ (condHolds .lt f = true ↔ f.n ≠ f.v)
    ∧ (condHolds .gt f = true ↔ f.z = false ∧ f.n = f.v) ∧ (condHolds .le f = true ↔ f.z = true ∨ f.n ≠ f.v)

/-- R271, R276: a conditional branch whose operand slots hold the flags of `CondReads(cond)` is taken exactly when `CondHolds(cond)`; its
target is computed in either case. -/
def Obligations.CondBranchStart : Prop :=
  ∀ (s : State) (c : FuClass) (j : Nat) (cond : Cond) (simm : Word) (pi : PcInc) (f : PerFlag Bool),
    (Instr.bcond cond simm pi).wf = true → s.act = .start c j →
    (s.rsAt c j).op0 = (((condReads cond)[0]?).map (fun g => Operand.value (flagWord (f.get g)))).getD .absent →
    (s.rsAt c j).op1 = (((condReads cond)[1]?).map (fun g => Operand.value (flagWord (f.get g)))).getD .absent →
    (s.rsAt c j).op2 = (((condReads cond)[2]?).map (fun g => Operand.value (flagWord (f.get g)))).getD .absent →
    exec (.bcond cond simm pi) s = .next { s with
      dly := s.dly ++ [{ record := { p := (s.rsAt c j).dest, val := if condHolds cond f then 1#32 else 0#32
                                     tgt := some ((s.robAt (s.rsAt c j).dest).pc + simm), fl := 0#4, halt := false }
                         ctr := s.cfg.latCtrl }]
      rs := s.startedSets c j }

/-- R174, R278, R279, R280: PUTS and PUTI emit their event when they are started; HALT emits none and puts the halt flag on its
record. -/
def Obligations.SupervisorStart : Prop :=
  ∀ (s : State) (c : FuClass) (j : Nat) (rn : Reg) (pi : PcInc), s.act = .start c j →
    (exec (.svcPuts rn pi) s = .next { s with
      out := s.out ++ [.puts (s.rsAt c j).op0.word]
      dly := s.dly ++ [{ record := { p := (s.rsAt c j).dest, val := 0#32, tgt := none, fl := 0#4, halt := false }
                         ctr := s.cfg.latCtrl }]
      rs := s.startedSets c j })
    ∧ (exec (.svcPuti rn pi) s = .next { s with
      out := s.out ++ [.puti (s.rsAt c j).op0.word]
      dly := s.dly ++ [{ record := { p := (s.rsAt c j).dest, val := 0#32, tgt := none, fl := 0#4, halt := false }
                         ctr := s.cfg.latCtrl }]
      rs := s.startedSets c j })
    ∧ exec (.svcHalt pi) s = .next { s with
      dly := s.dly ++ [{ record := { p := (s.rsAt c j).dest, val := 0#32, tgt := none, fl := 0#4, halt := true }
                         ctr := s.cfg.latCtrl }]
      rs := s.startedSets c j }

/-- R160, R161: the entries that a class may start in a cycle are its ready ones, each once, oldest ROB age first. -/
def Obligations.SelectionByAge : Prop :=
  ∀ (s : State) (c : FuClass), (s.candidates c).Nodup
    ∧ (∀ j, j ∈ s.candidates c ↔ j < (s.rs.get c).length ∧ (s.rsAt c j).isReady = true)
    ∧ (s.candidates c).Pairwise (fun j k => s.robAge (s.rsAt c j).dest ≤ s.robAge (s.rsAt c k).dest)

/-- R160, R179: one selection pass starts at most `UNITS[c]` entries of its class and none of another. -/
def Obligations.SelectionQuota : Prop :=
  ∀ (s t : State) (c : FuClass), selectClass c s = .next t →
    (∀ d, d ≠ c → t.rs.get d = s.rs.get d)
    ∧ ((t.rs.get c).filter (·.disp)).length ≤ ((s.rs.get c).filter (·.disp)).length + s.cfg.units.get c

/-! The load queue and memory. -/

/-- R176: a load may go to memory when no older entry is an unresolved store or a store resolved less than 4 bytes away. -/
def Obligations.LoadOrderingCheck : Prop :=
  ∀ (s : State) (l : LqEntry), s.mayIssue l = true ↔
    ∀ k, k < s.robAge l.dest →
      (s.robAt ((s.head + k) % s.cfg.robCapacity)).dest ≠ .awaiting
      ∧ ∀ a, (s.robAt ((s.head + k) % s.cfg.robCapacity)).dest = .resolved a →
          4 ≤ ((a.toNat : Int) - (l.addr.toNat : Int)).natAbs

/-- R71, R175, R176: the load-queue scan keeps every load that may not go, keeps the order of those it keeps, and lets at most `MEM_PORTS`
loads go. -/
def Obligations.ScanHoldsBlockedLoads : Prop :=
  ∀ s t : State, lqScan s = .next t → t.fatal = none →
    t.lq.Sublist s.lq ∧ (∀ l ∈ s.lq, s.mayIssue l = false → l ∈ t.lq) ∧ s.lq.length ≤ t.lq.length + s.cfg.memPorts

/-- R65, R77, R177: the memory access of a load, for each size and signedness. The record carries the integer that was read, as such or as
the two's-complement value of its low 8n bits. A failing read is the fatal `MEM_LOAD`. -/
def Obligations.LoadAccess : Prop :=
  ∀ (i : Instr) (s : State) (l : LqEntry), i.isLoad = true → i.access = some (l.size, l.signed) → s.act = .access l →
    (∀ m, s.memRead l.addr l.size.bytes = some m → ∃ v : Word,
      exec i s = .next { s with
        dly := s.dly ++ [{ record := { p := l.dest, val := v, tgt := none, fl := 0#4, halt := false }
                           ctr := s.cfg.latLoad }] }
      ∧ (l.signed = false → v.toNat = m.toNat)
      ∧ (l.signed = true → v.toInt = (m.setWidth (8 * l.size.bytes)).toInt))
    ∧ (s.memRead l.addr l.size.bytes = none → exec i s = .next { s with
        fatal := some { code := .memLoad, pc := (s.robAt l.dest).pc, info := .word l.addr } })

/-- R60, R64, R66, R67, R68: when `MemRead` fails, and what it answers in each byte order: the integer below 2^(8n) whose byte `k` is the
byte at `a + k` modulo 2^32, or at `a + n - 1 - k` for the big order. Which accesses wrap or must be aligned is a parameter of the
configuration (notes/assumptions/7.md). -/
def Obligations.MemReadBytes : Prop :=
  ∀ (s : State) (a : Word) (n : Nat), (n = 1 ∨ n = 2 ∨ n = 4) →
    (s.memRead a n = none ↔ (s.cfg.memAligned = true ∧ a.toNat % n ≠ 0)
      ∨ (4294967296 < a.toNat + n ∧ s.cfg.memWraps = false)
      ∨ ∃ k, k < n ∧ s.mem.readable ((a.toNat + k) % 4294967296) = false)
    ∧ ∀ m, s.memRead a n = some m → m.toNat < 2 ^ (8 * n)
      ∧ ∀ k, k < n → s.mem.byteAt ((a.toNat + k) % 4294967296) =
          match s.cfg.byteOrder with
          | .little => (m >>> (8 * k)).setWidth 8
          | .big => (m >>> (8 * (n - 1 - k))).setWidth 8

/-- R61, R64, R66, R67, R68: when `MemWrite` fails; a successful one stores the low `n` bytes in the byte order of the configuration and
changes no other byte and no region. Which accesses wrap or must be aligned: notes/assumptions/7.md. -/
def Obligations.MemWriteBytes : Prop :=
  ∀ (s : State) (a : Word) (n : Nat) (v : Word), (n = 1 ∨ n = 2 ∨ n = 4) → s.mem.wf = true →
    (s.memWrite a n v = none ↔ (s.cfg.memAligned = true ∧ a.toNat % n ≠ 0)
      ∨ (4294967296 < a.toNat + n ∧ s.cfg.memWraps = false)
      ∨ ∃ k, k < n ∧ s.mem.writable ((a.toNat + k) % 4294967296) = false)
    ∧ ∀ m, s.memWrite a n v = some m → m.regions = s.mem.regions
      ∧ (∀ k, k < n → m.byteAt ((a.toNat + k) % 4294967296) =
          match s.cfg.byteOrder with
          | .little => (v >>> (8 * k)).setWidth 8
          | .big => (v >>> (8 * (n - 1 - k))).setWidth 8)
      ∧ ∀ x, (∀ k, k < n → x ≠ (a.toNat + k) % 4294967296) → m.byteAt x = s.mem.byteAt x

/-- R61: after a successful `MemWrite(a, n, v)`, `MemRead(a, n)` returns `v`, also where the access wraps. -/
def Obligations.ReadAfterWrite : Prop :=
  ∀ (s : State) (a : Word) (n : Nat) (v : Word) (m : Memory), (n = 1 ∨ n = 2 ∨ n = 4) → v.toNat < 2 ^ (8 * n) →
    s.mem.wf = true → s.memWrite a n v = some m → ({ s with mem := m }).memRead a n = some v

/-! Writeback. -/

/-- R194 to R199: a broadcast fills the producer's ROB entry (a store's record becomes its address), resolves every tag it answers in
every busy entry of every set, frees the producer's station, and changes nothing else. -/
def Obligations.BroadcastEffect : Prop :=
  ∀ (i : Instr) (s : State) (r : BusRecord), s.act = .broadcast r →
    ∃ sets, exec i s = .next { s with
        rob := s.rob.set r.p
          { s.robAt r.p with
            value := if (s.robAt r.p).dest = .awaiting then (s.robAt r.p).value else r.val
            target := r.tgt.getD (s.robAt r.p).target
            flags := r.fl
            halt := r.halt
            ready := true
            dest := if (s.robAt r.p).dest = .awaiting then .resolved r.val else (s.robAt r.p).dest }
        rs := sets }
      ∧ ∀ c, sets.get c = (s.rs.get c).map (fun e =>
          if e.busy then
            { e with
              busy := !(decide (c = i.cls) && decide (e.dest = r.p))
              op0 := woken r (s.robAt r.p).dest i.fw e.op0
              op1 := woken r (s.robAt r.p).dest i.fw e.op1
              op2 := woken r (s.robAt r.p).dest i.fw e.op2 }
          else e)

/-- R190, R191, R192: writeback counts every record down, appends those that reach zero to the completion queue in list order, and
broadcasts the first `CDB_WIDTH` of the queue, in that the producer of each is ready and holds no station, and no other ROB entry
changes; the rest keep their order. -/
def Obligations.WritebackDrains : Prop :=
  ∀ s : State, s.fatal = none → (∀ d ∈ s.dly, 1 ≤ d.ctr) →
    (∀ d ∈ s.dly, knownRecord (s.robAt d.record.p).uop) → (∀ r ∈ s.cq, knownRecord (s.robAt r.p).uop) →
    ∃ t, writebackStage s = .next t
      ∧ t.dly = (s.dly.filter (fun d => d.ctr ≠ 1)).map (fun d => { d with ctr := d.ctr - 1 })
      ∧ ∃ queue, queue = s.cq ++ (s.dly.filter (fun d => d.ctr = 1)).map (·.record)
        ∧ t.cq = queue.drop s.cfg.cdbWidth
        ∧ (∀ r ∈ queue.take s.cfg.cdbWidth, (t.robAt r.p).ready = true
          ∧ ∀ i, decode (s.robAt r.p).uop = .ok i → ∀ e ∈ t.rs.get i.cls, e.busy = true → e.dest ≠ r.p)
        ∧ ∀ k, (∀ r ∈ queue.take s.cfg.cdbWidth, r.p ≠ k) → t.robAt k = s.robAt k

/-! Commit. The head entry is `s.robAt s.head`; it commits when `s.commitGate = .go` (R211). -/

/-- R210, R214, R216, R219: the commit of an ALU, MUL or LOAD writes its register, unconditionally, and the flags in its mask, and clears
the slots of `RST` that still name it; no other register, flag, slot of `RST`, byte of memory or queue changes. -/
def Obligations.CommitRegister : Prop :=
  ∀ (i : Instr) (s : State) (rd : Reg) (uf : Bool),
    (i.kind = 1#5 ∨ i.kind = 3#5 ∨ i.kind = 4#5) → s.act = .commit → s.commitGate = .go →
    (s.robAt s.head).halt = false → (s.robAt s.head).dest = .register rd uf →
    ∃ regs flags rst, exec i s = .next (s.retired regs flags rst s.mem)
      ∧ (∀ r : Reg, regs[r.toNat] = if r = rd then (s.robAt s.head).value else s.getReg r)
      ∧ s.flagsAfter i.fw flags
      ∧ ∀ r, rst.get r =
          if s.rst.get r = some s.head ∧ writesSlot (.register rd uf) i.fw r = true then none else s.rst.get r

/-- R216, R241: the commit of a compare writes the flags in its mask and no register. -/
def Obligations.CommitCompare : Prop :=
  ∀ (s : State) (sub : BitVec 6) (a : Option Reg) (o : Src) (cin : Bool) (fw : BitVec 4) (pi : PcInc),
    s.act = .commit → s.commitGate = .go → (s.robAt s.head).halt = false → (s.robAt s.head).dest = .discard →
    ∃ flags rst, exec (.cmp sub a o cin fw pi) s = .next (s.retired s.regs flags rst s.mem)
      ∧ s.flagsAfter fw flags
      ∧ ∀ r, rst.get r = if s.rst.get r = some s.head ∧ writesSlot .discard fw r = true then none else s.rst.get r

/-- R61, R215: the commit of a store writes the low bytes of its data at its resolved address (`MemWrite`), and no register, flag, slot of
`RST` or other byte of memory; if memory refuses, nothing but the fatal record is written. -/
def Obligations.CommitStore : Prop :=
  ∀ (i : Instr) (s : State) (size : Size) (sg : Bool) (a : Word), i.isStore = true → i.access = some (size, sg) →
    s.act = .commit → s.commitGate = .go → (s.robAt s.head).halt = false → (s.robAt s.head).dest = .resolved a →
    (∀ m, s.memWrite a size.bytes (s.robAt s.head).value = some m →
      exec i s = .next (s.retired s.regs s.flags s.rst m)
      ∧ (s.mem.wf = true → ∀ x, (∀ k, k < size.bytes → x ≠ (a.toNat + k) % 4294967296) → m.byteAt x = s.mem.byteAt x))
    ∧ (s.memWrite a size.bytes (s.robAt s.head).value = none → exec i s = .next { s with
        fatal := some { code := .memStore, pc := (s.robAt s.head).pc, info := .word a } })

/-- R217, R223: B, BL and BCOND at commit. A branch that goes as `POLICY` predicts only counts; one that does not counts a misprediction
too and recovers to its target, or to its fall-through address if it was not taken. -/
def Obligations.CommitRelative : Prop :=
  ∀ (i : Instr) (s : State), (i.kind = 6#5 ∨ i.kind = 7#5 ∨ i.kind = 8#5) → s.act = .commit → s.commitGate = .go →
    (s.robAt s.head).halt = false → (s.robAt s.head).dest = .discard →
    (((s.robAt s.head).value ≠ 0#32 ↔ s.cfg.policy = .alwaysTaken) →
      exec i s = .next { s with
        trace := s.trace ++ [{ pc := (s.robAt s.head).pc, uop := (s.robAt s.head).uop, value := (s.robAt s.head).value
                               target := some (s.robAt s.head).target, outcome := .correct }]
        rob := s.rob.set s.head { s.robAt s.head with status := .empty }
        head := (s.head + 1) % s.cfg.robCapacity
        counters := { s.counters with branches := s.counters.branches + 1, committed := s.counters.committed + 1 } })
    ∧ (¬ ((s.robAt s.head).value ≠ 0#32 ↔ s.cfg.policy = .alwaysTaken) →
      exec i s = .next (((s.recover
          (if (s.robAt s.head).value ≠ 0#32 then (s.robAt s.head).target
           else (s.robAt s.head).pc + pcIncrement i.pcInc)).countBranch.countMispredict.emitTrace
        { pc := (s.robAt s.head).pc, uop := (s.robAt s.head).uop, value := (s.robAt s.head).value
          target := some (s.robAt s.head).target, outcome := .mispredicted }).releaseHead))

/-- R220, R277: BX, BLX and SETPC always recover to their target at commit and count no branch. -/
def Obligations.CommitExchange : Prop :=
  ∀ (i : Instr) (s : State) (rn : Reg) (pi : PcInc), (i = .bx rn pi ∨ i = .blx rn pi ∨ i = .setpc rn pi) →
    s.act = .commit → s.commitGate = .go → (s.robAt s.head).halt = false → (s.robAt s.head).dest = .discard →
    exec i s = .next (((s.recover (s.robAt s.head).target).emitTrace
      { pc := (s.robAt s.head).pc, uop := (s.robAt s.head).uop, value := (s.robAt s.head).value
        target := some (s.robAt s.head).target, outcome := .redirect }).releaseHead)

/-- R213, R218: the commit of PUTS and PUTI clears `fetch_stall`; that of HALT makes the machine terminal with the exit code `x[0]` and
leaves `fetch_stall` as it is. Both retire the entry and write no register, flag or memory. -/
def Obligations.CommitSupervisor : Prop :=
  ∀ (s : State) (rn : Reg) (pi : PcInc), s.act = .commit → s.commitGate = .go → (s.robAt s.head).dest = .discard →
    ((s.robAt s.head).halt = false →
      exec (.svcPuts rn pi) s = .next { s.retired s.regs s.flags s.rst s.mem with fetchStall := false }
      ∧ exec (.svcPuti rn pi) s = .next { s.retired s.regs s.flags s.rst s.mem with fetchStall := false })
    ∧ ((s.robAt s.head).halt = true → exec (.svcHalt pi) s = .next
        { s.retired s.regs s.flags s.rst s.mem with halted := true, exitCode := s.getReg 0#4 })

/-- R211: commit does nothing while the head slot is empty or its entry not ready, and a head entry with status `exception` is the fatal
`INTERNAL`. So is a ready head entry whose store address was never resolved, as the pseudocode of R210 has it; the stage action `act`
there is the model's own (notes/assumptions/1.md). -/
def Obligations.CommitWaits : Prop :=
  ∀ s : State,
    ((s.robAt s.head).status = .empty ∨ ((s.robAt s.head).status = .executing ∧ (s.robAt s.head).ready = false) →
      commitStage s = .next s)
    ∧ (∀ k, (s.robAt s.head).status = .exception k → commitStage s = .next { s with
        fatal := some { code := .internal, pc := (s.robAt s.head).pc, info := .record (s.robAt s.head).uop } })
    ∧ ∀ i, (s.robAt s.head).status = .executing → (s.robAt s.head).ready = true → (s.robAt s.head).halt = false →
        (s.robAt s.head).dest = .awaiting → decode (s.robAt s.head).uop = .ok i → commitStage s = .next { s with
          fatal := some { code := .internal, pc := (s.robAt s.head).pc, info := .record (s.robAt s.head).uop }
          act := .commit }

/-! Recovery. -/

/-- R230 to R235, R238: after a recovery the queues are empty and fetch starts at the continuation address; no busy reservation-station
entry and no slot of `RST` names an entry younger than the committing one, and the slots of those entries are empty. The committing
entry, the architectural state, the counters and the event streams are untouched (R232, R237). -/
def Obligations.RecoveryFlushes : Prop :=
  ∀ (s : State) (target : Word), s.rob.length = s.cfg.robCapacity → s.head < s.cfg.robCapacity →
    (s.recover target).tail = (s.head + 1) % s.cfg.robCapacity
    ∧ (s.recover target).lq = [] ∧ (s.recover target).dly = [] ∧ (s.recover target).cq = []
    ∧ (s.recover target).iq = [] ∧ (s.recover target).fb = []
    ∧ (s.recover target).specPc = targetFix s.cfg target
    ∧ (s.recover target).fetchStall = false ∧ (s.recover target).fetchDelay = s.cfg.redirectDelay
    ∧ (s.recover target).regs = s.regs ∧ (s.recover target).flags = s.flags ∧ (s.recover target).mem = s.mem
    ∧ (s.recover target).counters = s.counters ∧ (s.recover target).out = s.out ∧ (s.recover target).trace = s.trace
    ∧ (s.recover target).halted = s.halted ∧ (s.recover target).exitCode = s.exitCode ∧ (s.recover target).fatal = s.fatal
    ∧ (s.recover target).head = s.head ∧ (s.recover target).robAt s.head = s.robAt s.head
    ∧ ∀ i, i < s.cfg.robCapacity → 0 < s.robAge i → s.robAge i < s.robCount →
        ((s.recover target).robAt i).status = .empty
        ∧ (∀ c, ∀ e ∈ (s.recover target).rs.get c, e.busy = true → e.dest ≠ i)
        ∧ (∀ r, (s.recover target).rst.get r ≠ some i)

/-- R217, R220, R232: after every commit that recovers, once it has released its slot, the ROB is empty: that of an exchange-style branch,
and that of a relative branch that does not go as `POLICY` predicts. -/
def Obligations.RobEmptyAfterRedirect : Prop :=
  ∀ (i : Instr) (s : State), s.Fifo → s.act = .commit → s.commitGate = .go →
    (s.robAt s.head).halt = false → (s.robAt s.head).dest = .discard →
    ((∃ rn pi, i = .bx rn pi ∨ i = .blx rn pi ∨ i = .setpc rn pi)
      ∨ ((i.kind = 6#5 ∨ i.kind = 7#5 ∨ i.kind = 8#5)
        ∧ ¬ ((s.robAt s.head).value ≠ 0#32 ↔ s.cfg.policy = .alwaysTaken))) →
    ∃ t, exec i s = .next t ∧ t.robEmpty = true ∧ t.robCount = 0

/-! Front end. -/

/-- R123, R124, R126, R127: the fetch stage. The clause on a short item, whose upper half is a free
value that the model counts as drawn, is the model's choice (notes/assumptions/6.md). -/
def Obligations.FetchStage : Prop :=
  ∀ s : State,
    (0 < s.fetchDelay → fetchStage s = .next { s with fetchDelay := s.fetchDelay - 1 })
    ∧ (s.fetchDelay = 0 → (s.fetchStall = true ∨ s.cfg.fbCap ≤ s.fb.length) → fetchStage s = .next s)
    ∧ (s.fetchDelay = 0 → s.fetchStall = false → s.fb.length < s.cfg.fbCap →
        (s.ifetch s.specPc = .fail → fetchStage s = .next { s with
          fatal := some { code := .memFetch, pc := s.specPc, info := .word s.specPc } })
        ∧ ∀ raw drawn, (s.ifetch s.specPc = .item raw ∧ drawn = 0) ∨ (s.ifetch s.specPc = .short raw ∧ drawn = 1) →
          fetchStage s = .next { s with
            fb := s.fb ++ [{ pc := s.specPc, raw := raw }]
            specPc :=
              match prescan s.cfg raw s.specPc with
              | .rel t => if s.cfg.policy = .alwaysTaken then targetFix s.cfg t else s.specPc + ilen s.cfg raw
              | _ => s.specPc + ilen s.cfg raw
            fetchStall := decide (prescan s.cfg raw s.specPc = .svc)
            freeCount := s.freeCount + drawn })

/-- R128, R129, R132, R134: the decode stage. -/
def Obligations.DecodeStage : Prop :=
  ∀ s : State, (s.fb = [] → decodeStage s = .next s)
    ∧ ∀ e rest, s.fb = e :: rest →
      (s.cfg.iqCap - s.iq.length < s.cfg.iqHeadroom → decodeStage s = .next s)
      ∧ (s.cfg.iqHeadroom ≤ s.cfg.iqCap - s.iq.length →
        (decodeExpand s.cfg e.raw = none → decodeStage s = .next { s with
          fb := rest, fatal := some { code := .undef, pc := e.pc, info := .word e.raw } })
        ∧ ∀ l, decodeExpand s.cfg e.raw = some l →
          ((l.length = 0 ∨ s.cfg.iqHeadroom < l.length) → decodeStage s = .next { s with
            fb := rest, fatal := some { code := .internal, pc := e.pc, info := .word e.raw } })
          ∧ (0 < l.length → l.length ≤ s.cfg.iqHeadroom → decodeStage s = .next { s with
            fb := rest, iq := s.iq ++ l.map (fun u => { pc := e.pc, uop := u }) }))

/-! The whole machine. -/

/-- R112: a step of a terminal machine changes nothing. -/
def Obligations.TerminalUnchanged : Prop :=
  ∀ s : State, (s.halted = true ∨ s.fatal ≠ none) → step s = .next s

/-- R110, R140: where the stages before issue find nothing to do and the record at the front of the queue decodes to `i`, a step is `exec`
of `i` in that state, then decode and fetch and the end of the cycle. -/
def Obligations.StepRunsDecodedInstruction : Prop :=
  ∀ (s : State) (i : Instr) (e : IqEntry) (rest : List IqEntry),
    s.terminal = false → s.act = .issue → s.BackIdle → s.iq = e :: rest → decode e.uop = .ok i →
    step s = match andThen (andThen (exec i s) decodeStage) fetchStage with
      | .next t => .next (endCycle t)
      | .fault r => .fault r
      | .refused r => .refused r

/-- R110: each stage hands the record it handles to `exec` of the micro-op the record decodes to, with the stage action set. -/
def Obligations.StagesRunDecodedInstruction : Prop :=
  ∀ (s : State) (i : Instr),
    (s.commitGate = .go → decode (s.robAt s.head).uop = .ok i → commitStage s = exec i (s.doing .commit))
    ∧ (∀ r rest k, s.cq = r :: rest → decode (s.robAt r.p).uop = .ok i →
        drain (k + 1) s = andThen (exec i ({ s with cq := rest }.doing (.broadcast r))) (drain k))
    ∧ (∀ l rest keep n, n < s.cfg.memPorts → s.mayIssue l = true → decode (s.robAt l.dest).uop = .ok i →
        scanLoads (l :: rest) n keep s = andThen (exec i (s.doing (.access l))) (scanLoads rest (n + 1) keep))
    ∧ (∀ c j js n, n < s.cfg.units.get c → decode (s.rsAt c j).uop = .ok i →
        startEntries c (j :: js) n s = andThen (exec i (s.doing (.start c j)))
          (fun t => startEntries c js (if (t.rsAt c j).disp then n + 1 else n) t))
    ∧ ∀ e rest, s.iq = e :: rest → decode e.uop = .ok i → issueStage s = exec i (s.doing .issue)

/-- A program's first micro-op after reset: placed at the front of the queue (the model's choice, notes/assumptions/8.md), it is issued by
the first step into ROB slot 0. That the fetch of that cycle raises no fatal rests on the launch memory and entry address of the
reset state (the model's choice, notes/assumptions/4.md). -/
def Obligations.FirstStepIssues : Prop :=
  ∀ i : Instr, i.wf = true → ∃ t, step (State.reset.withFetchWord 128 (encode i).toNat) = .next t
    ∧ t.fatal = none ∧ t.iq = [] ∧ t.head = 0 ∧ t.tail = 1 ∧ (t.robAt 0).status = .executing
    ∧ (t.robAt 0).uop = encode i ∧ (t.robAt 0).dest = i.dest ∧ (t.rsAt i.cls 0).busy = true
    ∧ t.regs = State.reset.regs ∧ t.mem = State.reset.mem

/-- R113, R213: the cycle in which a halt commits: the machine is terminal with exit code `x[0]`, the cycle is counted, the later stages do
not run. -/
def Obligations.HaltEndsCycle : Prop :=
  ∀ (s : State) (i : Instr), s.terminal = false → s.commitGate = .go → (s.robAt s.head).halt = true →
    decode (s.robAt s.head).uop = .ok i →
    step s = .next { s.retired s.regs s.flags s.rst s.mem with
      halted := true
      exitCode := s.getReg 0#4
      counters := { s.counters with committed := s.counters.committed + 1, cycles := s.counters.cycles + 1 }
      act := .issue }

/-- R110, R291: a cycle is counted unless a fatal ended it. -/
def Obligations.CyclesCounted : Prop :=
  ∀ s t : State, s.terminal = false → step s = .next t →
    t.counters.cycles = if t.fatal = none then s.counters.cycles + 1 else s.counters.cycles

/-- R11, R47, R48, R116, R212: a step commits at most one entry, emits one trace record exactly when it commits one, and takes no emitted
event back, a recovery included (R332). -/
def Obligations.OneCommitPerStep : Prop :=
  ∀ s t : State, step s = .next t →
    s.out <+: t.out
    ∧ ((t.counters.committed = s.counters.committed ∧ t.trace = s.trace)
      ∨ (t.counters.committed = s.counters.committed + 1 ∧ ∃ x, t.trace = s.trace ++ [x]))

/-- R20, R22, R237, R294: registers, flags and memory are written by the commit stage only: after a step, also one that a fatal ends, they
are what the commit stage of the step left. -/
def Obligations.OnlyCommitWrites : Prop :=
  ∀ s t : State, s.terminal = false → step s = .next t →
    ∃ u, commitStage s = .next u ∧ t.regs = u.regs ∧ t.flags = u.flags ∧ t.mem = u.mem
      ∧ t.halted = u.halted ∧ t.exitCode = u.exitCode

/-- R10, R25, R31, R68: a step changes neither the configuration nor the sizes of the structures nor the map of memory. -/
def Obligations.StepKeepsSizes : Prop :=
  ∀ s t : State, step s = .next t →
    t.cfg = s.cfg ∧ t.rob.length = s.rob.length ∧ (∀ c, (t.rs.get c).length = (s.rs.get c).length)
    ∧ t.mem.regions = s.mem.regions

/-- Every step keeps the canonical form of memory (a choice of the model, notes/assumptions/3.md). -/
def Obligations.StepKeepsMemoryForm : Prop :=
  ∀ s t : State, s.mem.wf = true → step s = .next t → t.mem.wf = true

/-- R28: every step keeps the occupied ROB slots the contiguous circular range from `head` to `tail`. -/
def Obligations.StepKeepsFifo : Prop :=
  ∀ s t : State, s.Fifo → step s = .next t → t.Fifo

/-- R142, R147: while what is in flight belongs to the opcode table, a step always answers a next state, in which it still does: the machine
never stops with a fault or a refusal. -/
def Obligations.StepAlwaysAnswers : Prop :=
  ∀ s : State, s.InFlight → ∃ t, step s = .next t ∧ t.InFlight

/-- R21: `x[15]` and `RST[15]` are inert. -/
def Obligations.RegisterFifteenInert : Prop :=
  ∀ s t : State, s.Reg15Idle → step s = .next t → t.Reg15Idle ∧ t.getReg 15#4 = s.getReg 15#4

/-- R35, R41, R42, R43: every step keeps the queues within their capacities and the fetch delay within `REDIRECT_DELAY`. -/
def Obligations.StepKeepsBounds : Prop :=
  ∀ s t : State, s.Bounded → step s = .next t → t.Bounded

/-- R51 item 7, R29: every step keeps unresolved stores not ready, resolved ones ready, and no entry in status `exception`; so no commit
raises `INTERNAL`. -/
def Obligations.StepKeepsStoreReady : Prop :=
  ∀ s t : State, s.StoreReady → s.NoException → step s = .next t →
    t.StoreReady ∧ t.NoException
    ∧ ∀ u, commitStage s = .next u → s.fatal = none → ∀ f, u.fatal = some f → f.code ≠ .internal

/-- R23, R24, R51 items 1 to 6, R147: what renaming hands out keeps naming the right producers. First, from the FIFO range alone: in a
machine that has not halted, every step keeps each named slot of `RST` naming an occupied entry that writes the slot. Second, with no
exception for a halted machine: every step keeps items 1 to 6 of R51 for `RST`, the pending operands, the busy stations, the load queue,
the bus records and the ready entries (`State.Coherent`), together with what the model says beside them to make them inductive
(`State.Tracked`); it keeps R147's that a slot of `RST` names the youngest writer in flight, or nothing where there is none, and a
pending operand the youngest writer older than its consumer (`State.Renamed`); and the value and the flags of a ready entry are final.
Item 7 is `StepKeepsStoreReady`. -/
def Obligations.StepKeepsRenaming : Prop :=
  (∀ s t : State, s.Fifo → (s.halted = true ∨ s.RstInv) → step s = .next t → (t.halted = true ∨ t.RstInv))
  ∧ ∀ s t : State, s.Fifo → s.Coherent → s.Tracked → step s = .next t →
    t.Coherent ∧ t.Tracked ∧ (s.Renamed → t.Renamed)
    ∧ ∀ p, (s.robAt p).ready = true → (t.robAt p).ready = true →
      (t.robAt p).value = (s.robAt p).value ∧ (t.robAt p).flags = (s.robAt p).flags

/-- The invariants above hold right after reset. What the reset state holds in free slots and in memory is the model's choice
(notes/assumptions/3.md, 14.md). -/
def Obligations.ResetInvariants : Prop :=
  State.reset.mem.wf = true ∧ State.reset.Fifo ∧ State.reset.InFlight ∧ State.reset.Reg15Idle ∧ State.reset.Bounded
    ∧ State.reset.StoreReady ∧ State.reset.NoException ∧ State.reset.RstInv ∧ State.reset.Coherent ∧ State.reset.Tracked
    ∧ State.reset.Renamed

/-- R52, R320: what the host's reset leaves, in any state. -/
def Obligations.HostResetTable : Prop :=
  ∀ s : State, s.hostReset.regs = s.regs ∧ s.hostReset.flags = s.flags ∧ s.hostReset.mem = s.mem
    ∧ (∀ r, s.hostReset.rst.get r = none) ∧ (∀ e ∈ s.hostReset.rob, e.status = .empty)
    ∧ s.hostReset.head = 0 ∧ s.hostReset.tail = 0 ∧ (∀ c, ∀ e ∈ s.hostReset.rs.get c, e.busy = false)
    ∧ s.hostReset.lq = [] ∧ s.hostReset.dly = [] ∧ s.hostReset.cq = [] ∧ s.hostReset.iq = [] ∧ s.hostReset.fb = []
    ∧ s.hostReset.specPc = s.cfg.entryPc ∧ s.hostReset.fetchStall = false ∧ s.hostReset.fetchDelay = 0
    ∧ s.hostReset.halted = false ∧ s.hostReset.exitCode = 0#32 ∧ s.hostReset.fatal = none
    ∧ s.hostReset.counters = Counters.zero

/-! One micro-op alone in the machine, with fetch stalled (`State.Lone`): its whole passage, and its architectural effect. -/

/-- R111, R166, R240, R241: an ALU or ALUCMP alone in the machine commits in its fourth cycle; the ALU writes `rd`, both write the flags in
their mask, from the `alu` collaborator on the program-order values of the operands; nothing else of the architectural state changes. -/
def Obligations.AluPassage : Prop :=
  ∀ (s : State) (pc : Word) (u : Record) (i : Instr) (sub : BitVec 6), s.Lone pc u → decode u = .ok i → i.wf = true →
    ((∃ rd a o cin fw pi, i = .alu sub rd a o cin fw pi) ∨ (∃ a o cin fw pi, i = .cmp sub a o cin fw pi)) →
    ∃ (t : State) (r : Word × BitVec 4), Sys2Proof.core.run 4 s = .next t ∧ t.Drained
      ∧ r = alu s.cfg sub (s.sourceValue i.sources.1) (s.sourceValue i.sources.2.1)
          ((s.sourceValue i.sources.2.2).getLsbD 0)
      ∧ (∀ q : Reg, t.getReg q = if i.dest.slot = some (.reg q) then r.1 else s.getReg q)
      ∧ (∀ f, t.flags.get f = if flagBit i.fw f then flagBit r.2 f else s.flags.get f)
      ∧ t.mem = s.mem ∧ t.out = s.out ∧ t.terminal = false ∧ t.counters.committed = s.counters.committed + 1

/-- R111, R167, R242: a MUL alone in the machine commits in its fifth cycle. -/
def Obligations.MulPassage : Prop :=
  ∀ (s : State) (pc : Word) (u : Record) (rd rn : Reg) (o : Src) (fw : BitVec 2) (pi : PcInc), s.Lone pc u →
    decode u = .ok (.mul rd rn o fw pi) → (Instr.mul rd rn o fw pi).wf = true →
    ∃ t : State, Sys2Proof.core.run 5 s = .next t ∧ t.Drained
      ∧ (t.getReg rd).toNat = ((s.getReg rn).toNat * (s.sourceValue (.ofSrc o)).toNat) % 2 ^ 32
      ∧ (∀ q : Reg, q ≠ rd → t.getReg q = s.getReg q)
      ∧ t.flags.n = (if fw.getLsbD 0 then (t.getReg rd).msb else s.flags.n)
      ∧ t.flags.z = (if fw.getLsbD 1 then decide (t.getReg rd = 0#32) else s.flags.z)
      ∧ t.flags.c = s.flags.c ∧ t.flags.v = s.flags.v
      ∧ t.mem = s.mem ∧ t.out = s.out ∧ t.terminal = false ∧ t.counters.committed = s.counters.committed + 1

/-- R111, R170, R215, R260: a STORE alone in the machine, to an address that memory accepts, commits in its cycle number `3 + LAT_LS`; it writes
the low bytes of `ra` at `rn + offset` modulo 2^32 and nothing else of the architectural state. -/
def Obligations.StorePassage : Prop :=
  ∀ (s : State) (pc : Word) (u : Record) (i : Instr) (size : Size) (sg : Bool) (ea : Word) (m : Memory), s.Lone pc u →
    decode u = .ok i → i.wf = true → i.isStore = true → i.access = some (size, sg) →
    ea.toNat = ((s.sourceValue i.sources.1).toNat + (s.sourceValue i.sources.2.1).toNat) % 2 ^ 32 →
    s.memWrite ea size.bytes (s.sourceValue i.sources.2.2) = some m →
    ∃ t : State, Sys2Proof.core.run (3 + s.cfg.latLs) s = .next t ∧ t.Drained ∧ t.mem = m
      ∧ (s.mem.wf = true → ∀ x, (∀ k, k < size.bytes → x ≠ (ea.toNat + k) % 4294967296) → t.mem.byteAt x = s.mem.byteAt x)
      ∧ t.regs = s.regs ∧ t.flags = s.flags ∧ t.out = s.out ∧ t.terminal = false
      ∧ t.counters.committed = s.counters.committed + 1

/-- R111, R65, R177, R259: a LOAD alone in the machine, from an address that memory accepts, commits in its cycle number `4 + LAT_LOAD`; `rd`
is the integer read at `rn + offset` modulo 2^32, or the two's-complement value of its low 8n bits; nothing else of the architectural
state changes. -/
def Obligations.LoadPassage : Prop :=
  ∀ (s : State) (pc : Word) (u : Record) (i : Instr) (rd : Reg) (size : Size) (signed : Bool) (ea m : Word), s.Lone pc u →
    decode u = .ok i → i.wf = true → i.isLoad = true → i.access = some (size, signed) → i.dest = .register rd false →
    ea.toNat = ((s.sourceValue i.sources.1).toNat + (s.sourceValue i.sources.2.1).toNat) % 2 ^ 32 →
    s.memRead ea size.bytes = some m →
    ∃ t : State, Sys2Proof.core.run (4 + s.cfg.latLoad) s = .next t ∧ t.Drained
      ∧ (signed = false → (t.getReg rd).toNat = m.toNat)
      ∧ (signed = true → (t.getReg rd).toInt = (m.setWidth (8 * size.bytes)).toInt)
      ∧ (∀ q : Reg, q ≠ rd → t.getReg q = s.getReg q) ∧ t.flags = s.flags ∧ t.mem = s.mem ∧ t.out = s.out ∧ t.terminal = false
      ∧ t.counters.committed = s.counters.committed + 1

/-- R111, R217, R270, R271, R272: a B, BL or BCOND alone in the machine that goes as `POLICY` predicts commits in its cycle number
`3 + LAT_CTRL`; it counts as a branch, not as a misprediction, and leaves the architectural state and the fetch address as they are. -/
def Obligations.BranchPassage : Prop :=
  ∀ (s : State) (pc : Word) (u : Record) (i : Instr) (taken : Bool), s.Lone pc u → decode u = .ok i → i.wf = true →
    ((∃ simm pi, (i = .b simm pi ∨ i = .bl simm pi) ∧ taken = true)
      ∨ (∃ cond simm pi, i = .bcond cond simm pi ∧ taken = condHolds cond s.flags)) →
    (taken = true ↔ s.cfg.policy = .alwaysTaken) →
    ∃ t : State, Sys2Proof.core.run (3 + s.cfg.latCtrl) s = .next t ∧ t.Drained ∧ t.regs = s.regs ∧ t.flags = s.flags
      ∧ t.mem = s.mem ∧ t.out = s.out ∧ t.terminal = false ∧ t.specPc = s.specPc
      ∧ t.counters.committed = s.counters.committed + 1 ∧ t.counters.branches = s.counters.branches + 1
      ∧ t.counters.mispredicts = s.counters.mispredicts

/-- R113, R213, R280: an SVC HALT alone in the machine ends the run in its cycle number `3 + LAT_CTRL`: terminal, with exit code `x[0]`, and the
architectural state as it was. -/
def Obligations.HaltPassage : Prop :=
  ∀ (s : State) (pc : Word) (u : Record) (pi : PcInc), s.Lone pc u → decode u = .ok (.svcHalt pi) → (Instr.svcHalt pi).wf = true →
    ∃ t : State, Sys2Proof.core.run (3 + s.cfg.latCtrl) s = .next t ∧ t.halted = true ∧ t.fatal = none
      ∧ t.exitCode = s.getReg 0#4 ∧ t.regs = s.regs ∧ t.flags = s.flags ∧ t.mem = s.mem ∧ t.out = s.out
      ∧ t.counters.committed = s.counters.committed + 1
end

