-- ==== Sys2Proof/Laws/Bits.lean ====
section
/-! SUPPORT. Fields of a record: unpacking what was packed gives it back, and packing what was unpacked gives the record back. -/

namespace Sys2Proof

theorem extractLsb'_append_low {m n : Nat} (hi : BitVec m) (lo : BitVec n) : (hi ++ lo).extractLsb' 0 n = lo := by
  ext i h
  simp [BitVec.getElem_extractLsb', BitVec.getLsbD_append, h]

theorem extractLsb'_append_high {m n : Nat} (s w : Nat) (hi : BitVec m) (lo : BitVec n) :
    (hi ++ lo).extractLsb' (n + s) w = hi.extractLsb' s w := by
  ext i h
  simp [BitVec.getElem_extractLsb', BitVec.getLsbD_append, Nat.add_assoc]

/-- The record layout of R81 to R83 loses nothing: no two fields overlap. -/
theorem Fields.unpack_pack (f : Fields) : Fields.unpack f.pack = f := by
  obtain ⟨kind, sub, rd, rn, rm, ra, s0, s1, pi, uimm, simm, reglist, fw, s2, zero⟩ := f
  simp only [Fields.unpack, Fields.pack, Fields.mk.injEq]
  refine ⟨?_, ?_, ?_, ?_, ?_, ?_, ?_, ?_, ?_, ?_, ?_, ?_, ?_, ?_, ?_⟩
  · exact extractLsb'_append_low _ _
  · exact (extractLsb'_append_high 0 _ _ _).trans <| extractLsb'_append_low _ _
  · exact (extractLsb'_append_high 6 _ _ _).trans <| (extractLsb'_append_high 0 _ _ _).trans <| extractLsb'_append_low _ _
  · exact (extractLsb'_append_high 10 _ _ _).trans <| (extractLsb'_append_high 4 _ _ _).trans <| (extractLsb'_append_high 0 _ _ _).trans <| extractLsb'_append_low _ _
  · exact (extractLsb'_append_high 14 _ _ _).trans <| (extractLsb'_append_high 8 _ _ _).trans <| (extractLsb'_append_high 4 _ _ _).trans <| (extractLsb'_append_high 0 _ _ _).trans <| extractLsb'_append_low _ _
  · exact (extractLsb'_append_high 18 _ _ _).trans <| (extractLsb'_append_high 12 _ _ _).trans <| (extractLsb'_append_high 8 _ _ _).trans <| (extractLsb'_append_high 4 _ _ _).trans <| (extractLsb'_append_high 0 _ _ _).trans <| extractLsb'_append_low _ _
  · exact (extractLsb'_append_high 22 _ _ _).trans <| (extractLsb'_append_high 16 _ _ _).trans <| (extractLsb'_append_high 12 _ _ _).trans <| (extractLsb'_append_high 8 _ _ _).trans <| (extractLsb'_append_high 4 _ _ _).trans <| (extractLsb'_append_high 0 _ _ _).trans <| extractLsb'_append_low _ _
  · exact (extractLsb'_append_high 23 _ _ _).trans <| (extractLsb'_append_high 17 _ _ _).trans <| (extractLsb'_append_high 13 _ _ _).trans <| (extractLsb'_append_high 9 _ _ _).trans <| (extractLsb'_append_high 5 _ _ _).trans <| (extractLsb'_append_high 1 _ _ _).trans <| (extractLsb'_append_high 0 _ _ _).trans <| extractLsb'_append_low _ _
  · exact (extractLsb'_append_high 25 _ _ _).trans <| (extractLsb'_append_high 19 _ _ _).trans <| (extractLsb'_append_high 15 _ _ _).trans <| (extractLsb'_append_high 11 _ _ _).trans <| (extractLsb'_append_high 7 _ _ _).trans <| (extractLsb'_append_high 3 _ _ _).trans <| (extractLsb'_append_high 2 _ _ _).trans <| (extractLsb'_append_high 0 _ _ _).trans <| extractLsb'_append_low _ _
  · exact (extractLsb'_append_high 27 _ _ _).trans <| (extractLsb'_append_high 21 _ _ _).trans <| (extractLsb'_append_high 17 _ _ _).trans <| (extractLsb'_append_high 13 _ _ _).trans <| (extractLsb'_append_high 9 _ _ _).trans <| (extractLsb'_append_high 5 _ _ _).trans <| (extractLsb'_append_high 4 _ _ _).trans <| (extractLsb'_append_high 2 _ _ _).trans <| (extractLsb'_append_high 0 _ _ _).trans <| extractLsb'_append_low _ _
  · exact (extractLsb'_append_high 59 _ _ _).trans <| (extractLsb'_append_high 53 _ _ _).trans <| (extractLsb'_append_high 49 _ _ _).trans <| (extractLsb'_append_high 45 _ _ _).trans <| (extractLsb'_append_high 41 _ _ _).trans <| (extractLsb'_append_high 37 _ _ _).trans <| (extractLsb'_append_high 36 _ _ _).trans <| (extractLsb'_append_high 34 _ _ _).trans <| (extractLsb'_append_high 32 _ _ _).trans <| (extractLsb'_append_high 0 _ _ _).trans <| extractLsb'_append_low _ _
  · exact (extractLsb'_append_high 91 _ _ _).trans <| (extractLsb'_append_high 85 _ _ _).trans <| (extractLsb'_append_high 81 _ _ _).trans <| (extractLsb'_append_high 77 _ _ _).trans <| (extractLsb'_append_high 73 _ _ _).trans <| (extractLsb'_append_high 69 _ _ _).trans <| (extractLsb'_append_high 68 _ _ _).trans <| (extractLsb'_append_high 66 _ _ _).trans <| (extractLsb'_append_high 64 _ _ _).trans <| (extractLsb'_append_high 32 _ _ _).trans <| (extractLsb'_append_high 0 _ _ _).trans <| extractLsb'_append_low _ _
  · exact (extractLsb'_append_high 107 _ _ _).trans <| (extractLsb'_append_high 101 _ _ _).trans <| (extractLsb'_append_high 97 _ _ _).trans <| (extractLsb'_append_high 93 _ _ _).trans <| (extractLsb'_append_high 89 _ _ _).trans <| (extractLsb'_append_high 85 _ _ _).trans <| (extractLsb'_append_high 84 _ _ _).trans <| (extractLsb'_append_high 82 _ _ _).trans <| (extractLsb'_append_high 80 _ _ _).trans <| (extractLsb'_append_high 48 _ _ _).trans <| (extractLsb'_append_high 16 _ _ _).trans <| (extractLsb'_append_high 0 _ _ _).trans <| extractLsb'_append_low _ _
  · exact (extractLsb'_append_high 111 _ _ _).trans <| (extractLsb'_append_high 105 _ _ _).trans <| (extractLsb'_append_high 101 _ _ _).trans <| (extractLsb'_append_high 97 _ _ _).trans <| (extractLsb'_append_high 93 _ _ _).trans <| (extractLsb'_append_high 89 _ _ _).trans <| (extractLsb'_append_high 88 _ _ _).trans <| (extractLsb'_append_high 86 _ _ _).trans <| (extractLsb'_append_high 84 _ _ _).trans <| (extractLsb'_append_high 52 _ _ _).trans <| (extractLsb'_append_high 20 _ _ _).trans <| (extractLsb'_append_high 4 _ _ _).trans <| (extractLsb'_append_high 0 _ _ _).trans <| extractLsb'_append_low _ _
  · exact (extractLsb'_append_high 113 _ _ _).trans <| (extractLsb'_append_high 107 _ _ _).trans <| (extractLsb'_append_high 103 _ _ _).trans <| (extractLsb'_append_high 99 _ _ _).trans <| (extractLsb'_append_high 95 _ _ _).trans <| (extractLsb'_append_high 91 _ _ _).trans <| (extractLsb'_append_high 90 _ _ _).trans <| (extractLsb'_append_high 88 _ _ _).trans <| (extractLsb'_append_high 86 _ _ _).trans <| (extractLsb'_append_high 54 _ _ _).trans <| (extractLsb'_append_high 22 _ _ _).trans <| (extractLsb'_append_high 6 _ _ _).trans <| (extractLsb'_append_high 2 _ _ _).trans <| (extractLsb'_append_high 0 _ _ _).trans <| BitVec.extractLsb'_eq_self

theorem extractLsb'_join {n : Nat} (r : BitVec n) (s w v : Nat) :
    r.extractLsb' (s + w) v ++ r.extractLsb' s w = r.extractLsb' s (v + w) := by
  ext i h
  simp only [BitVec.getElem_append, BitVec.getElem_extractLsb']
  split
  · rfl
  · congr 1; omega

/-- The record layout of R81 to R83 leaves no bit out. -/
theorem Fields.pack_unpack (r : Record) : (Fields.unpack r).pack = r := by
  unfold Fields.pack Fields.unpack
  dsimp only
  rw [extractLsb'_join r 116 2 10, extractLsb'_join r 112 4 12, extractLsb'_join r 96 16 16, extractLsb'_join r 64 32 32,
    extractLsb'_join r 32 32 64, extractLsb'_join r 30 2 96, extractLsb'_join r 28 2 98, extractLsb'_join r 27 1 100,
    extractLsb'_join r 23 4 101, extractLsb'_join r 19 4 105, extractLsb'_join r 15 4 109, extractLsb'_join r 11 4 113,
    extractLsb'_join r 5 6 117, extractLsb'_join r 0 5 123]
  exact BitVec.extractLsb'_eq_self

theorem PcInc.ofCode_code (p : PcInc) : PcInc.ofCode p.code = p := by cases p <;> decide

theorem Cond.ofCode_code (c : Cond) : Cond.ofCode c.code = c := by cases c <;> decide

end Sys2Proof
end

