-- ==== Sys2Proof/Laws/State.lean ====
section
/-! SUPPORT. One lemma per field per named update of the state, each true by definition, so that no proof unfolds a record
update. -/

namespace Sys2Proof.Machine

namespace State

variable (s : State)

/-! `setReg`. -/

@[simp] theorem setReg_cfg (r : Reg) (w : Word) : (s.setReg r w).cfg = s.cfg := rfl
@[simp] theorem setReg_regs (r : Reg) (w : Word) : (s.setReg r w).regs = s.regs.set r.toNat w r.isLt := rfl
@[simp] theorem setReg_flags (r : Reg) (w : Word) : (s.setReg r w).flags = s.flags := rfl
@[simp] theorem setReg_rst (r : Reg) (w : Word) : (s.setReg r w).rst = s.rst := rfl
@[simp] theorem setReg_rob (r : Reg) (w : Word) : (s.setReg r w).rob = s.rob := rfl
@[simp] theorem setReg_head (r : Reg) (w : Word) : (s.setReg r w).head = s.head := rfl
@[simp] theorem setReg_tail (r : Reg) (w : Word) : (s.setReg r w).tail = s.tail := rfl
@[simp] theorem setReg_rs (r : Reg) (w : Word) : (s.setReg r w).rs = s.rs := rfl
@[simp] theorem setReg_lq (r : Reg) (w : Word) : (s.setReg r w).lq = s.lq := rfl
@[simp] theorem setReg_dly (r : Reg) (w : Word) : (s.setReg r w).dly = s.dly := rfl
@[simp] theorem setReg_cq (r : Reg) (w : Word) : (s.setReg r w).cq = s.cq := rfl
@[simp] theorem setReg_specPc (r : Reg) (w : Word) : (s.setReg r w).specPc = s.specPc := rfl
@[simp] theorem setReg_fb (r : Reg) (w : Word) : (s.setReg r w).fb = s.fb := rfl
@[simp] theorem setReg_iq (r : Reg) (w : Word) : (s.setReg r w).iq = s.iq := rfl
@[simp] theorem setReg_fetchStall (r : Reg) (w : Word) : (s.setReg r w).fetchStall = s.fetchStall := rfl
@[simp] theorem setReg_fetchDelay (r : Reg) (w : Word) : (s.setReg r w).fetchDelay = s.fetchDelay := rfl
@[simp] theorem setReg_halted (r : Reg) (w : Word) : (s.setReg r w).halted = s.halted := rfl
@[simp] theorem setReg_exitCode (r : Reg) (w : Word) : (s.setReg r w).exitCode = s.exitCode := rfl
@[simp] theorem setReg_fatal (r : Reg) (w : Word) : (s.setReg r w).fatal = s.fatal := rfl
@[simp] theorem setReg_mem (r : Reg) (w : Word) : (s.setReg r w).mem = s.mem := rfl
@[simp] theorem setReg_counters (r : Reg) (w : Word) : (s.setReg r w).counters = s.counters := rfl
@[simp] theorem setReg_out (r : Reg) (w : Word) : (s.setReg r w).out = s.out := rfl
@[simp] theorem setReg_trace (r : Reg) (w : Word) : (s.setReg r w).trace = s.trace := rfl
@[simp] theorem setReg_act (r : Reg) (w : Word) : (s.setReg r w).act = s.act := rfl
@[simp] theorem setReg_freeCount (r : Reg) (w : Word) : (s.setReg r w).freeCount = s.freeCount := rfl

/-! `setFlag`. -/

@[simp] theorem setFlag_cfg (f : Flag) (b : Bool) : (s.setFlag f b).cfg = s.cfg := rfl
@[simp] theorem setFlag_regs (f : Flag) (b : Bool) : (s.setFlag f b).regs = s.regs := rfl
@[simp] theorem setFlag_flags (f : Flag) (b : Bool) : (s.setFlag f b).flags = s.flags.set f b := rfl
@[simp] theorem setFlag_rst (f : Flag) (b : Bool) : (s.setFlag f b).rst = s.rst := rfl
@[simp] theorem setFlag_rob (f : Flag) (b : Bool) : (s.setFlag f b).rob = s.rob := rfl
@[simp] theorem setFlag_head (f : Flag) (b : Bool) : (s.setFlag f b).head = s.head := rfl
@[simp] theorem setFlag_tail (f : Flag) (b : Bool) : (s.setFlag f b).tail = s.tail := rfl
@[simp] theorem setFlag_rs (f : Flag) (b : Bool) : (s.setFlag f b).rs = s.rs := rfl
@[simp] theorem setFlag_lq (f : Flag) (b : Bool) : (s.setFlag f b).lq = s.lq := rfl
@[simp] theorem setFlag_dly (f : Flag) (b : Bool) : (s.setFlag f b).dly = s.dly := rfl
@[simp] theorem setFlag_cq (f : Flag) (b : Bool) : (s.setFlag f b).cq = s.cq := rfl
@[simp] theorem setFlag_specPc (f : Flag) (b : Bool) : (s.setFlag f b).specPc = s.specPc := rfl
@[simp] theorem setFlag_fb (f : Flag) (b : Bool) : (s.setFlag f b).fb = s.fb := rfl
@[simp] theorem setFlag_iq (f : Flag) (b : Bool) : (s.setFlag f b).iq = s.iq := rfl
@[simp] theorem setFlag_fetchStall (f : Flag) (b : Bool) : (s.setFlag f b).fetchStall = s.fetchStall := rfl
@[simp] theorem setFlag_fetchDelay (f : Flag) (b : Bool) : (s.setFlag f b).fetchDelay = s.fetchDelay := rfl
@[simp] theorem setFlag_halted (f : Flag) (b : Bool) : (s.setFlag f b).halted = s.halted := rfl
@[simp] theorem setFlag_exitCode (f : Flag) (b : Bool) : (s.setFlag f b).exitCode = s.exitCode := rfl
@[simp] theorem setFlag_fatal (f : Flag) (b : Bool) : (s.setFlag f b).fatal = s.fatal := rfl
@[simp] theorem setFlag_mem (f : Flag) (b : Bool) : (s.setFlag f b).mem = s.mem := rfl
@[simp] theorem setFlag_counters (f : Flag) (b : Bool) : (s.setFlag f b).counters = s.counters := rfl
@[simp] theorem setFlag_out (f : Flag) (b : Bool) : (s.setFlag f b).out = s.out := rfl
@[simp] theorem setFlag_trace (f : Flag) (b : Bool) : (s.setFlag f b).trace = s.trace := rfl
@[simp] theorem setFlag_act (f : Flag) (b : Bool) : (s.setFlag f b).act = s.act := rfl
@[simp] theorem setFlag_freeCount (f : Flag) (b : Bool) : (s.setFlag f b).freeCount = s.freeCount := rfl

/-! `setRob`. -/

@[simp] theorem setRob_cfg (i : Nat) (e : RobEntry) : (s.setRob i e).cfg = s.cfg := rfl
@[simp] theorem setRob_regs (i : Nat) (e : RobEntry) : (s.setRob i e).regs = s.regs := rfl
@[simp] theorem setRob_flags (i : Nat) (e : RobEntry) : (s.setRob i e).flags = s.flags := rfl
@[simp] theorem setRob_rst (i : Nat) (e : RobEntry) : (s.setRob i e).rst = s.rst := rfl
@[simp] theorem setRob_rob (i : Nat) (e : RobEntry) : (s.setRob i e).rob = s.rob.set i e := rfl
@[simp] theorem setRob_head (i : Nat) (e : RobEntry) : (s.setRob i e).head = s.head := rfl
@[simp] theorem setRob_tail (i : Nat) (e : RobEntry) : (s.setRob i e).tail = s.tail := rfl
@[simp] theorem setRob_rs (i : Nat) (e : RobEntry) : (s.setRob i e).rs = s.rs := rfl
@[simp] theorem setRob_lq (i : Nat) (e : RobEntry) : (s.setRob i e).lq = s.lq := rfl
@[simp] theorem setRob_dly (i : Nat) (e : RobEntry) : (s.setRob i e).dly = s.dly := rfl
@[simp] theorem setRob_cq (i : Nat) (e : RobEntry) : (s.setRob i e).cq = s.cq := rfl
@[simp] theorem setRob_specPc (i : Nat) (e : RobEntry) : (s.setRob i e).specPc = s.specPc := rfl
@[simp] theorem setRob_fb (i : Nat) (e : RobEntry) : (s.setRob i e).fb = s.fb := rfl
@[simp] theorem setRob_iq (i : Nat) (e : RobEntry) : (s.setRob i e).iq = s.iq := rfl
@[simp] theorem setRob_fetchStall (i : Nat) (e : RobEntry) : (s.setRob i e).fetchStall = s.fetchStall := rfl
@[simp] theorem setRob_fetchDelay (i : Nat) (e : RobEntry) : (s.setRob i e).fetchDelay = s.fetchDelay := rfl
@[simp] theorem setRob_halted (i : Nat) (e : RobEntry) : (s.setRob i e).halted = s.halted := rfl
@[simp] theorem setRob_exitCode (i : Nat) (e : RobEntry) : (s.setRob i e).exitCode = s.exitCode := rfl
@[simp] theorem setRob_fatal (i : Nat) (e : RobEntry) : (s.setRob i e).fatal = s.fatal := rfl
@[simp] theorem setRob_mem (i : Nat) (e : RobEntry) : (s.setRob i e).mem = s.mem := rfl
@[simp] theorem setRob_counters (i : Nat) (e : RobEntry) : (s.setRob i e).counters = s.counters := rfl
@[simp] theorem setRob_out (i : Nat) (e : RobEntry) : (s.setRob i e).out = s.out := rfl
@[simp] theorem setRob_trace (i : Nat) (e : RobEntry) : (s.setRob i e).trace = s.trace := rfl
@[simp] theorem setRob_act (i : Nat) (e : RobEntry) : (s.setRob i e).act = s.act := rfl
@[simp] theorem setRob_freeCount (i : Nat) (e : RobEntry) : (s.setRob i e).freeCount = s.freeCount := rfl

/-! `setRs`. -/

@[simp] theorem setRs_cfg (c : FuClass) (j : Nat) (e : RsEntry) : (s.setRs c j e).cfg = s.cfg := rfl
@[simp] theorem setRs_regs (c : FuClass) (j : Nat) (e : RsEntry) : (s.setRs c j e).regs = s.regs := rfl
@[simp] theorem setRs_flags (c : FuClass) (j : Nat) (e : RsEntry) : (s.setRs c j e).flags = s.flags := rfl
@[simp] theorem setRs_rst (c : FuClass) (j : Nat) (e : RsEntry) : (s.setRs c j e).rst = s.rst := rfl
@[simp] theorem setRs_rob (c : FuClass) (j : Nat) (e : RsEntry) : (s.setRs c j e).rob = s.rob := rfl
@[simp] theorem setRs_head (c : FuClass) (j : Nat) (e : RsEntry) : (s.setRs c j e).head = s.head := rfl
@[simp] theorem setRs_tail (c : FuClass) (j : Nat) (e : RsEntry) : (s.setRs c j e).tail = s.tail := rfl
@[simp] theorem setRs_rs (c : FuClass) (j : Nat) (e : RsEntry) : (s.setRs c j e).rs = s.rs.set c ((s.rs.get c).set j e) := rfl
@[simp] theorem setRs_lq (c : FuClass) (j : Nat) (e : RsEntry) : (s.setRs c j e).lq = s.lq := rfl
@[simp] theorem setRs_dly (c : FuClass) (j : Nat) (e : RsEntry) : (s.setRs c j e).dly = s.dly := rfl
@[simp] theorem setRs_cq (c : FuClass) (j : Nat) (e : RsEntry) : (s.setRs c j e).cq = s.cq := rfl
@[simp] theorem setRs_specPc (c : FuClass) (j : Nat) (e : RsEntry) : (s.setRs c j e).specPc = s.specPc := rfl
@[simp] theorem setRs_fb (c : FuClass) (j : Nat) (e : RsEntry) : (s.setRs c j e).fb = s.fb := rfl
@[simp] theorem setRs_iq (c : FuClass) (j : Nat) (e : RsEntry) : (s.setRs c j e).iq = s.iq := rfl
@[simp] theorem setRs_fetchStall (c : FuClass) (j : Nat) (e : RsEntry) : (s.setRs c j e).fetchStall = s.fetchStall := rfl
@[simp] theorem setRs_fetchDelay (c : FuClass) (j : Nat) (e : RsEntry) : (s.setRs c j e).fetchDelay = s.fetchDelay := rfl
@[simp] theorem setRs_halted (c : FuClass) (j : Nat) (e : RsEntry) : (s.setRs c j e).halted = s.halted := rfl
@[simp] theorem setRs_exitCode (c : FuClass) (j : Nat) (e : RsEntry) : (s.setRs c j e).exitCode = s.exitCode := rfl
@[simp] theorem setRs_fatal (c : FuClass) (j : Nat) (e : RsEntry) : (s.setRs c j e).fatal = s.fatal := rfl
@[simp] theorem setRs_mem (c : FuClass) (j : Nat) (e : RsEntry) : (s.setRs c j e).mem = s.mem := rfl
@[simp] theorem setRs_counters (c : FuClass) (j : Nat) (e : RsEntry) : (s.setRs c j e).counters = s.counters := rfl
@[simp] theorem setRs_out (c : FuClass) (j : Nat) (e : RsEntry) : (s.setRs c j e).out = s.out := rfl
@[simp] theorem setRs_trace (c : FuClass) (j : Nat) (e : RsEntry) : (s.setRs c j e).trace = s.trace := rfl
@[simp] theorem setRs_act (c : FuClass) (j : Nat) (e : RsEntry) : (s.setRs c j e).act = s.act := rfl
@[simp] theorem setRs_freeCount (c : FuClass) (j : Nat) (e : RsEntry) : (s.setRs c j e).freeCount = s.freeCount := rfl

/-! `push`. -/

@[simp] theorem push_cfg (r : BusRecord) (n : Nat) : (s.push r n).cfg = s.cfg := rfl
@[simp] theorem push_regs (r : BusRecord) (n : Nat) : (s.push r n).regs = s.regs := rfl
@[simp] theorem push_flags (r : BusRecord) (n : Nat) : (s.push r n).flags = s.flags := rfl
@[simp] theorem push_rst (r : BusRecord) (n : Nat) : (s.push r n).rst = s.rst := rfl
@[simp] theorem push_rob (r : BusRecord) (n : Nat) : (s.push r n).rob = s.rob := rfl
@[simp] theorem push_head (r : BusRecord) (n : Nat) : (s.push r n).head = s.head := rfl
@[simp] theorem push_tail (r : BusRecord) (n : Nat) : (s.push r n).tail = s.tail := rfl
@[simp] theorem push_rs (r : BusRecord) (n : Nat) : (s.push r n).rs = s.rs := rfl
@[simp] theorem push_lq (r : BusRecord) (n : Nat) : (s.push r n).lq = s.lq := rfl
@[simp] theorem push_dly (r : BusRecord) (n : Nat) : (s.push r n).dly = s.dly ++ [{ record := r, ctr := n }] := rfl
@[simp] theorem push_cq (r : BusRecord) (n : Nat) : (s.push r n).cq = s.cq := rfl
@[simp] theorem push_specPc (r : BusRecord) (n : Nat) : (s.push r n).specPc = s.specPc := rfl
@[simp] theorem push_fb (r : BusRecord) (n : Nat) : (s.push r n).fb = s.fb := rfl
@[simp] theorem push_iq (r : BusRecord) (n : Nat) : (s.push r n).iq = s.iq := rfl
@[simp] theorem push_fetchStall (r : BusRecord) (n : Nat) : (s.push r n).fetchStall = s.fetchStall := rfl
@[simp] theorem push_fetchDelay (r : BusRecord) (n : Nat) : (s.push r n).fetchDelay = s.fetchDelay := rfl
@[simp] theorem push_halted (r : BusRecord) (n : Nat) : (s.push r n).halted = s.halted := rfl
@[simp] theorem push_exitCode (r : BusRecord) (n : Nat) : (s.push r n).exitCode = s.exitCode := rfl
@[simp] theorem push_fatal (r : BusRecord) (n : Nat) : (s.push r n).fatal = s.fatal := rfl
@[simp] theorem push_mem (r : BusRecord) (n : Nat) : (s.push r n).mem = s.mem := rfl
@[simp] theorem push_counters (r : BusRecord) (n : Nat) : (s.push r n).counters = s.counters := rfl
@[simp] theorem push_out (r : BusRecord) (n : Nat) : (s.push r n).out = s.out := rfl
@[simp] theorem push_trace (r : BusRecord) (n : Nat) : (s.push r n).trace = s.trace := rfl
@[simp] theorem push_act (r : BusRecord) (n : Nat) : (s.push r n).act = s.act := rfl
@[simp] theorem push_freeCount (r : BusRecord) (n : Nat) : (s.push r n).freeCount = s.freeCount := rfl

/-! `emitOut`. -/

@[simp] theorem emitOut_cfg (e : OutEvent) : (s.emitOut e).cfg = s.cfg := rfl
@[simp] theorem emitOut_regs (e : OutEvent) : (s.emitOut e).regs = s.regs := rfl
@[simp] theorem emitOut_flags (e : OutEvent) : (s.emitOut e).flags = s.flags := rfl
@[simp] theorem emitOut_rst (e : OutEvent) : (s.emitOut e).rst = s.rst := rfl
@[simp] theorem emitOut_rob (e : OutEvent) : (s.emitOut e).rob = s.rob := rfl
@[simp] theorem emitOut_head (e : OutEvent) : (s.emitOut e).head = s.head := rfl
@[simp] theorem emitOut_tail (e : OutEvent) : (s.emitOut e).tail = s.tail := rfl
@[simp] theorem emitOut_rs (e : OutEvent) : (s.emitOut e).rs = s.rs := rfl
@[simp] theorem emitOut_lq (e : OutEvent) : (s.emitOut e).lq = s.lq := rfl
@[simp] theorem emitOut_dly (e : OutEvent) : (s.emitOut e).dly = s.dly := rfl
@[simp] theorem emitOut_cq (e : OutEvent) : (s.emitOut e).cq = s.cq := rfl
@[simp] theorem emitOut_specPc (e : OutEvent) : (s.emitOut e).specPc = s.specPc := rfl
@[simp] theorem emitOut_fb (e : OutEvent) : (s.emitOut e).fb = s.fb := rfl
@[simp] theorem emitOut_iq (e : OutEvent) : (s.emitOut e).iq = s.iq := rfl
@[simp] theorem emitOut_fetchStall (e : OutEvent) : (s.emitOut e).fetchStall = s.fetchStall := rfl
@[simp] theorem emitOut_fetchDelay (e : OutEvent) : (s.emitOut e).fetchDelay = s.fetchDelay := rfl
@[simp] theorem emitOut_halted (e : OutEvent) : (s.emitOut e).halted = s.halted := rfl
@[simp] theorem emitOut_exitCode (e : OutEvent) : (s.emitOut e).exitCode = s.exitCode := rfl
@[simp] theorem emitOut_fatal (e : OutEvent) : (s.emitOut e).fatal = s.fatal := rfl
@[simp] theorem emitOut_mem (e : OutEvent) : (s.emitOut e).mem = s.mem := rfl
@[simp] theorem emitOut_counters (e : OutEvent) : (s.emitOut e).counters = s.counters := rfl
@[simp] theorem emitOut_out (e : OutEvent) : (s.emitOut e).out = s.out ++ [e] := rfl
@[simp] theorem emitOut_trace (e : OutEvent) : (s.emitOut e).trace = s.trace := rfl
@[simp] theorem emitOut_act (e : OutEvent) : (s.emitOut e).act = s.act := rfl
@[simp] theorem emitOut_freeCount (e : OutEvent) : (s.emitOut e).freeCount = s.freeCount := rfl

/-! `emitTrace`. -/

@[simp] theorem emitTrace_cfg (r : TraceRecord) : (s.emitTrace r).cfg = s.cfg := rfl
@[simp] theorem emitTrace_regs (r : TraceRecord) : (s.emitTrace r).regs = s.regs := rfl
@[simp] theorem emitTrace_flags (r : TraceRecord) : (s.emitTrace r).flags = s.flags := rfl
@[simp] theorem emitTrace_rst (r : TraceRecord) : (s.emitTrace r).rst = s.rst := rfl
@[simp] theorem emitTrace_rob (r : TraceRecord) : (s.emitTrace r).rob = s.rob := rfl
@[simp] theorem emitTrace_head (r : TraceRecord) : (s.emitTrace r).head = s.head := rfl
@[simp] theorem emitTrace_tail (r : TraceRecord) : (s.emitTrace r).tail = s.tail := rfl
@[simp] theorem emitTrace_rs (r : TraceRecord) : (s.emitTrace r).rs = s.rs := rfl
@[simp] theorem emitTrace_lq (r : TraceRecord) : (s.emitTrace r).lq = s.lq := rfl
@[simp] theorem emitTrace_dly (r : TraceRecord) : (s.emitTrace r).dly = s.dly := rfl
@[simp] theorem emitTrace_cq (r : TraceRecord) : (s.emitTrace r).cq = s.cq := rfl
@[simp] theorem emitTrace_specPc (r : TraceRecord) : (s.emitTrace r).specPc = s.specPc := rfl
@[simp] theorem emitTrace_fb (r : TraceRecord) : (s.emitTrace r).fb = s.fb := rfl
@[simp] theorem emitTrace_iq (r : TraceRecord) : (s.emitTrace r).iq = s.iq := rfl
@[simp] theorem emitTrace_fetchStall (r : TraceRecord) : (s.emitTrace r).fetchStall = s.fetchStall := rfl
@[simp] theorem emitTrace_fetchDelay (r : TraceRecord) : (s.emitTrace r).fetchDelay = s.fetchDelay := rfl
@[simp] theorem emitTrace_halted (r : TraceRecord) : (s.emitTrace r).halted = s.halted := rfl
@[simp] theorem emitTrace_exitCode (r : TraceRecord) : (s.emitTrace r).exitCode = s.exitCode := rfl
@[simp] theorem emitTrace_fatal (r : TraceRecord) : (s.emitTrace r).fatal = s.fatal := rfl
@[simp] theorem emitTrace_mem (r : TraceRecord) : (s.emitTrace r).mem = s.mem := rfl
@[simp] theorem emitTrace_counters (r : TraceRecord) : (s.emitTrace r).counters = s.counters := rfl
@[simp] theorem emitTrace_out (r : TraceRecord) : (s.emitTrace r).out = s.out := rfl
@[simp] theorem emitTrace_trace (r : TraceRecord) : (s.emitTrace r).trace = s.trace ++ [r] := rfl
@[simp] theorem emitTrace_act (r : TraceRecord) : (s.emitTrace r).act = s.act := rfl
@[simp] theorem emitTrace_freeCount (r : TraceRecord) : (s.emitTrace r).freeCount = s.freeCount := rfl

/-! `stallRobFull`. -/

@[simp] theorem stallRobFull_cfg : s.stallRobFull.cfg = s.cfg := rfl
@[simp] theorem stallRobFull_regs : s.stallRobFull.regs = s.regs := rfl
@[simp] theorem stallRobFull_flags : s.stallRobFull.flags = s.flags := rfl
@[simp] theorem stallRobFull_rst : s.stallRobFull.rst = s.rst := rfl
@[simp] theorem stallRobFull_rob : s.stallRobFull.rob = s.rob := rfl
@[simp] theorem stallRobFull_head : s.stallRobFull.head = s.head := rfl
@[simp] theorem stallRobFull_tail : s.stallRobFull.tail = s.tail := rfl
@[simp] theorem stallRobFull_rs : s.stallRobFull.rs = s.rs := rfl
@[simp] theorem stallRobFull_lq : s.stallRobFull.lq = s.lq := rfl
@[simp] theorem stallRobFull_dly : s.stallRobFull.dly = s.dly := rfl
@[simp] theorem stallRobFull_cq : s.stallRobFull.cq = s.cq := rfl
@[simp] theorem stallRobFull_specPc : s.stallRobFull.specPc = s.specPc := rfl
@[simp] theorem stallRobFull_fb : s.stallRobFull.fb = s.fb := rfl
@[simp] theorem stallRobFull_iq : s.stallRobFull.iq = s.iq := rfl
@[simp] theorem stallRobFull_fetchStall : s.stallRobFull.fetchStall = s.fetchStall := rfl
@[simp] theorem stallRobFull_fetchDelay : s.stallRobFull.fetchDelay = s.fetchDelay := rfl
@[simp] theorem stallRobFull_halted : s.stallRobFull.halted = s.halted := rfl
@[simp] theorem stallRobFull_exitCode : s.stallRobFull.exitCode = s.exitCode := rfl
@[simp] theorem stallRobFull_fatal : s.stallRobFull.fatal = s.fatal := rfl
@[simp] theorem stallRobFull_mem : s.stallRobFull.mem = s.mem := rfl
@[simp] theorem stallRobFull_counters : s.stallRobFull.counters = { s.counters with stallIssueRobFull := s.counters.stallIssueRobFull + 1 } := rfl
@[simp] theorem stallRobFull_out : s.stallRobFull.out = s.out := rfl
@[simp] theorem stallRobFull_trace : s.stallRobFull.trace = s.trace := rfl
@[simp] theorem stallRobFull_act : s.stallRobFull.act = s.act := rfl
@[simp] theorem stallRobFull_freeCount : s.stallRobFull.freeCount = s.freeCount := rfl

/-! `stallRsFull`. -/

@[simp] theorem stallRsFull_cfg : s.stallRsFull.cfg = s.cfg := rfl
@[simp] theorem stallRsFull_regs : s.stallRsFull.regs = s.regs := rfl
@[simp] theorem stallRsFull_flags : s.stallRsFull.flags = s.flags := rfl
@[simp] theorem stallRsFull_rst : s.stallRsFull.rst = s.rst := rfl
@[simp] theorem stallRsFull_rob : s.stallRsFull.rob = s.rob := rfl
@[simp] theorem stallRsFull_head : s.stallRsFull.head = s.head := rfl
@[simp] theorem stallRsFull_tail : s.stallRsFull.tail = s.tail := rfl
@[simp] theorem stallRsFull_rs : s.stallRsFull.rs = s.rs := rfl
@[simp] theorem stallRsFull_lq : s.stallRsFull.lq = s.lq := rfl
@[simp] theorem stallRsFull_dly : s.stallRsFull.dly = s.dly := rfl
@[simp] theorem stallRsFull_cq : s.stallRsFull.cq = s.cq := rfl
@[simp] theorem stallRsFull_specPc : s.stallRsFull.specPc = s.specPc := rfl
@[simp] theorem stallRsFull_fb : s.stallRsFull.fb = s.fb := rfl
@[simp] theorem stallRsFull_iq : s.stallRsFull.iq = s.iq := rfl
@[simp] theorem stallRsFull_fetchStall : s.stallRsFull.fetchStall = s.fetchStall := rfl
@[simp] theorem stallRsFull_fetchDelay : s.stallRsFull.fetchDelay = s.fetchDelay := rfl
@[simp] theorem stallRsFull_halted : s.stallRsFull.halted = s.halted := rfl
@[simp] theorem stallRsFull_exitCode : s.stallRsFull.exitCode = s.exitCode := rfl
@[simp] theorem stallRsFull_fatal : s.stallRsFull.fatal = s.fatal := rfl
@[simp] theorem stallRsFull_mem : s.stallRsFull.mem = s.mem := rfl
@[simp] theorem stallRsFull_counters : s.stallRsFull.counters = { s.counters with stallIssueRSFull := s.counters.stallIssueRSFull + 1 } := rfl
@[simp] theorem stallRsFull_out : s.stallRsFull.out = s.out := rfl
@[simp] theorem stallRsFull_trace : s.stallRsFull.trace = s.trace := rfl
@[simp] theorem stallRsFull_act : s.stallRsFull.act = s.act := rfl
@[simp] theorem stallRsFull_freeCount : s.stallRsFull.freeCount = s.freeCount := rfl

/-! `stallLqFull`. -/

@[simp] theorem stallLqFull_cfg : s.stallLqFull.cfg = s.cfg := rfl
@[simp] theorem stallLqFull_regs : s.stallLqFull.regs = s.regs := rfl
@[simp] theorem stallLqFull_flags : s.stallLqFull.flags = s.flags := rfl
@[simp] theorem stallLqFull_rst : s.stallLqFull.rst = s.rst := rfl
@[simp] theorem stallLqFull_rob : s.stallLqFull.rob = s.rob := rfl
@[simp] theorem stallLqFull_head : s.stallLqFull.head = s.head := rfl
@[simp] theorem stallLqFull_tail : s.stallLqFull.tail = s.tail := rfl
@[simp] theorem stallLqFull_rs : s.stallLqFull.rs = s.rs := rfl
@[simp] theorem stallLqFull_lq : s.stallLqFull.lq = s.lq := rfl
@[simp] theorem stallLqFull_dly : s.stallLqFull.dly = s.dly := rfl
@[simp] theorem stallLqFull_cq : s.stallLqFull.cq = s.cq := rfl
@[simp] theorem stallLqFull_specPc : s.stallLqFull.specPc = s.specPc := rfl
@[simp] theorem stallLqFull_fb : s.stallLqFull.fb = s.fb := rfl
@[simp] theorem stallLqFull_iq : s.stallLqFull.iq = s.iq := rfl
@[simp] theorem stallLqFull_fetchStall : s.stallLqFull.fetchStall = s.fetchStall := rfl
@[simp] theorem stallLqFull_fetchDelay : s.stallLqFull.fetchDelay = s.fetchDelay := rfl
@[simp] theorem stallLqFull_halted : s.stallLqFull.halted = s.halted := rfl
@[simp] theorem stallLqFull_exitCode : s.stallLqFull.exitCode = s.exitCode := rfl
@[simp] theorem stallLqFull_fatal : s.stallLqFull.fatal = s.fatal := rfl
@[simp] theorem stallLqFull_mem : s.stallLqFull.mem = s.mem := rfl
@[simp] theorem stallLqFull_counters : s.stallLqFull.counters = { s.counters with stallLoadQueueFull := s.counters.stallLoadQueueFull + 1 } := rfl
@[simp] theorem stallLqFull_out : s.stallLqFull.out = s.out := rfl
@[simp] theorem stallLqFull_trace : s.stallLqFull.trace = s.trace := rfl
@[simp] theorem stallLqFull_act : s.stallLqFull.act = s.act := rfl
@[simp] theorem stallLqFull_freeCount : s.stallLqFull.freeCount = s.freeCount := rfl

/-! `countBranch`. -/

@[simp] theorem countBranch_cfg : s.countBranch.cfg = s.cfg := rfl
@[simp] theorem countBranch_regs : s.countBranch.regs = s.regs := rfl
@[simp] theorem countBranch_flags : s.countBranch.flags = s.flags := rfl
@[simp] theorem countBranch_rst : s.countBranch.rst = s.rst := rfl
@[simp] theorem countBranch_rob : s.countBranch.rob = s.rob := rfl
@[simp] theorem countBranch_head : s.countBranch.head = s.head := rfl
@[simp] theorem countBranch_tail : s.countBranch.tail = s.tail := rfl
@[simp] theorem countBranch_rs : s.countBranch.rs = s.rs := rfl
@[simp] theorem countBranch_lq : s.countBranch.lq = s.lq := rfl
@[simp] theorem countBranch_dly : s.countBranch.dly = s.dly := rfl
@[simp] theorem countBranch_cq : s.countBranch.cq = s.cq := rfl
@[simp] theorem countBranch_specPc : s.countBranch.specPc = s.specPc := rfl
@[simp] theorem countBranch_fb : s.countBranch.fb = s.fb := rfl
@[simp] theorem countBranch_iq : s.countBranch.iq = s.iq := rfl
@[simp] theorem countBranch_fetchStall : s.countBranch.fetchStall = s.fetchStall := rfl
@[simp] theorem countBranch_fetchDelay : s.countBranch.fetchDelay = s.fetchDelay := rfl
@[simp] theorem countBranch_halted : s.countBranch.halted = s.halted := rfl
@[simp] theorem countBranch_exitCode : s.countBranch.exitCode = s.exitCode := rfl
@[simp] theorem countBranch_fatal : s.countBranch.fatal = s.fatal := rfl
@[simp] theorem countBranch_mem : s.countBranch.mem = s.mem := rfl
@[simp] theorem countBranch_counters : s.countBranch.counters = { s.counters with branches := s.counters.branches + 1 } := rfl
@[simp] theorem countBranch_out : s.countBranch.out = s.out := rfl
@[simp] theorem countBranch_trace : s.countBranch.trace = s.trace := rfl
@[simp] theorem countBranch_act : s.countBranch.act = s.act := rfl
@[simp] theorem countBranch_freeCount : s.countBranch.freeCount = s.freeCount := rfl

/-! `countMispredict`. -/

@[simp] theorem countMispredict_cfg : s.countMispredict.cfg = s.cfg := rfl
@[simp] theorem countMispredict_regs : s.countMispredict.regs = s.regs := rfl
@[simp] theorem countMispredict_flags : s.countMispredict.flags = s.flags := rfl
@[simp] theorem countMispredict_rst : s.countMispredict.rst = s.rst := rfl
@[simp] theorem countMispredict_rob : s.countMispredict.rob = s.rob := rfl
@[simp] theorem countMispredict_head : s.countMispredict.head = s.head := rfl
@[simp] theorem countMispredict_tail : s.countMispredict.tail = s.tail := rfl
@[simp] theorem countMispredict_rs : s.countMispredict.rs = s.rs := rfl
@[simp] theorem countMispredict_lq : s.countMispredict.lq = s.lq := rfl
@[simp] theorem countMispredict_dly : s.countMispredict.dly = s.dly := rfl
@[simp] theorem countMispredict_cq : s.countMispredict.cq = s.cq := rfl
@[simp] theorem countMispredict_specPc : s.countMispredict.specPc = s.specPc := rfl
@[simp] theorem countMispredict_fb : s.countMispredict.fb = s.fb := rfl
@[simp] theorem countMispredict_iq : s.countMispredict.iq = s.iq := rfl
@[simp] theorem countMispredict_fetchStall : s.countMispredict.fetchStall = s.fetchStall := rfl
@[simp] theorem countMispredict_fetchDelay : s.countMispredict.fetchDelay = s.fetchDelay := rfl
@[simp] theorem countMispredict_halted : s.countMispredict.halted = s.halted := rfl
@[simp] theorem countMispredict_exitCode : s.countMispredict.exitCode = s.exitCode := rfl
@[simp] theorem countMispredict_fatal : s.countMispredict.fatal = s.fatal := rfl
@[simp] theorem countMispredict_mem : s.countMispredict.mem = s.mem := rfl
@[simp] theorem countMispredict_counters : s.countMispredict.counters = { s.counters with mispredicts := s.counters.mispredicts + 1 } := rfl
@[simp] theorem countMispredict_out : s.countMispredict.out = s.out := rfl
@[simp] theorem countMispredict_trace : s.countMispredict.trace = s.trace := rfl
@[simp] theorem countMispredict_act : s.countMispredict.act = s.act := rfl
@[simp] theorem countMispredict_freeCount : s.countMispredict.freeCount = s.freeCount := rfl

/-! `countCycle`. -/

@[simp] theorem countCycle_cfg : s.countCycle.cfg = s.cfg := rfl
@[simp] theorem countCycle_regs : s.countCycle.regs = s.regs := rfl
@[simp] theorem countCycle_flags : s.countCycle.flags = s.flags := rfl
@[simp] theorem countCycle_rst : s.countCycle.rst = s.rst := rfl
@[simp] theorem countCycle_rob : s.countCycle.rob = s.rob := rfl
@[simp] theorem countCycle_head : s.countCycle.head = s.head := rfl
@[simp] theorem countCycle_tail : s.countCycle.tail = s.tail := rfl
@[simp] theorem countCycle_rs : s.countCycle.rs = s.rs := rfl
@[simp] theorem countCycle_lq : s.countCycle.lq = s.lq := rfl
@[simp] theorem countCycle_dly : s.countCycle.dly = s.dly := rfl
@[simp] theorem countCycle_cq : s.countCycle.cq = s.cq := rfl
@[simp] theorem countCycle_specPc : s.countCycle.specPc = s.specPc := rfl
@[simp] theorem countCycle_fb : s.countCycle.fb = s.fb := rfl
@[simp] theorem countCycle_iq : s.countCycle.iq = s.iq := rfl
@[simp] theorem countCycle_fetchStall : s.countCycle.fetchStall = s.fetchStall := rfl
@[simp] theorem countCycle_fetchDelay : s.countCycle.fetchDelay = s.fetchDelay := rfl
@[simp] theorem countCycle_halted : s.countCycle.halted = s.halted := rfl
@[simp] theorem countCycle_exitCode : s.countCycle.exitCode = s.exitCode := rfl
@[simp] theorem countCycle_fatal : s.countCycle.fatal = s.fatal := rfl
@[simp] theorem countCycle_mem : s.countCycle.mem = s.mem := rfl
@[simp] theorem countCycle_counters : s.countCycle.counters = { s.counters with cycles := s.counters.cycles + 1 } := rfl
@[simp] theorem countCycle_out : s.countCycle.out = s.out := rfl
@[simp] theorem countCycle_trace : s.countCycle.trace = s.trace := rfl
@[simp] theorem countCycle_act : s.countCycle.act = s.act := rfl
@[simp] theorem countCycle_freeCount : s.countCycle.freeCount = s.freeCount := rfl

/-! `doing`. -/

@[simp] theorem doing_cfg (a : Activity) : (s.doing a).cfg = s.cfg := rfl
@[simp] theorem doing_regs (a : Activity) : (s.doing a).regs = s.regs := rfl
@[simp] theorem doing_flags (a : Activity) : (s.doing a).flags = s.flags := rfl
@[simp] theorem doing_rst (a : Activity) : (s.doing a).rst = s.rst := rfl
@[simp] theorem doing_rob (a : Activity) : (s.doing a).rob = s.rob := rfl
@[simp] theorem doing_head (a : Activity) : (s.doing a).head = s.head := rfl
@[simp] theorem doing_tail (a : Activity) : (s.doing a).tail = s.tail := rfl
@[simp] theorem doing_rs (a : Activity) : (s.doing a).rs = s.rs := rfl
@[simp] theorem doing_lq (a : Activity) : (s.doing a).lq = s.lq := rfl
@[simp] theorem doing_dly (a : Activity) : (s.doing a).dly = s.dly := rfl
@[simp] theorem doing_cq (a : Activity) : (s.doing a).cq = s.cq := rfl
@[simp] theorem doing_specPc (a : Activity) : (s.doing a).specPc = s.specPc := rfl
@[simp] theorem doing_fb (a : Activity) : (s.doing a).fb = s.fb := rfl
@[simp] theorem doing_iq (a : Activity) : (s.doing a).iq = s.iq := rfl
@[simp] theorem doing_fetchStall (a : Activity) : (s.doing a).fetchStall = s.fetchStall := rfl
@[simp] theorem doing_fetchDelay (a : Activity) : (s.doing a).fetchDelay = s.fetchDelay := rfl
@[simp] theorem doing_halted (a : Activity) : (s.doing a).halted = s.halted := rfl
@[simp] theorem doing_exitCode (a : Activity) : (s.doing a).exitCode = s.exitCode := rfl
@[simp] theorem doing_fatal (a : Activity) : (s.doing a).fatal = s.fatal := rfl
@[simp] theorem doing_mem (a : Activity) : (s.doing a).mem = s.mem := rfl
@[simp] theorem doing_counters (a : Activity) : (s.doing a).counters = s.counters := rfl
@[simp] theorem doing_out (a : Activity) : (s.doing a).out = s.out := rfl
@[simp] theorem doing_trace (a : Activity) : (s.doing a).trace = s.trace := rfl
@[simp] theorem doing_act (a : Activity) : (s.doing a).act = a := rfl
@[simp] theorem doing_freeCount (a : Activity) : (s.doing a).freeCount = s.freeCount := rfl

/-! `raise`. -/

@[simp] theorem raise_cfg (k : FatalCode) (pc : Word) (i : FatalInfo) : (s.raise k pc i).cfg = s.cfg := rfl
@[simp] theorem raise_regs (k : FatalCode) (pc : Word) (i : FatalInfo) : (s.raise k pc i).regs = s.regs := rfl
@[simp] theorem raise_flags (k : FatalCode) (pc : Word) (i : FatalInfo) : (s.raise k pc i).flags = s.flags := rfl
@[simp] theorem raise_rst (k : FatalCode) (pc : Word) (i : FatalInfo) : (s.raise k pc i).rst = s.rst := rfl
@[simp] theorem raise_rob (k : FatalCode) (pc : Word) (i : FatalInfo) : (s.raise k pc i).rob = s.rob := rfl
@[simp] theorem raise_head (k : FatalCode) (pc : Word) (i : FatalInfo) : (s.raise k pc i).head = s.head := rfl
@[simp] theorem raise_tail (k : FatalCode) (pc : Word) (i : FatalInfo) : (s.raise k pc i).tail = s.tail := rfl
@[simp] theorem raise_rs (k : FatalCode) (pc : Word) (i : FatalInfo) : (s.raise k pc i).rs = s.rs := rfl
@[simp] theorem raise_lq (k : FatalCode) (pc : Word) (i : FatalInfo) : (s.raise k pc i).lq = s.lq := rfl
@[simp] theorem raise_dly (k : FatalCode) (pc : Word) (i : FatalInfo) : (s.raise k pc i).dly = s.dly := rfl
@[simp] theorem raise_cq (k : FatalCode) (pc : Word) (i : FatalInfo) : (s.raise k pc i).cq = s.cq := rfl
@[simp] theorem raise_specPc (k : FatalCode) (pc : Word) (i : FatalInfo) : (s.raise k pc i).specPc = s.specPc := rfl
@[simp] theorem raise_fb (k : FatalCode) (pc : Word) (i : FatalInfo) : (s.raise k pc i).fb = s.fb := rfl
@[simp] theorem raise_iq (k : FatalCode) (pc : Word) (i : FatalInfo) : (s.raise k pc i).iq = s.iq := rfl
@[simp] theorem raise_fetchStall (k : FatalCode) (pc : Word) (i : FatalInfo) : (s.raise k pc i).fetchStall = s.fetchStall := rfl
@[simp] theorem raise_fetchDelay (k : FatalCode) (pc : Word) (i : FatalInfo) : (s.raise k pc i).fetchDelay = s.fetchDelay := rfl
@[simp] theorem raise_halted (k : FatalCode) (pc : Word) (i : FatalInfo) : (s.raise k pc i).halted = s.halted := rfl
@[simp] theorem raise_exitCode (k : FatalCode) (pc : Word) (i : FatalInfo) : (s.raise k pc i).exitCode = s.exitCode := rfl
@[simp] theorem raise_fatal (k : FatalCode) (pc : Word) (i : FatalInfo) : (s.raise k pc i).fatal = some { code := k, pc := pc, info := i } := rfl
@[simp] theorem raise_mem (k : FatalCode) (pc : Word) (i : FatalInfo) : (s.raise k pc i).mem = s.mem := rfl
@[simp] theorem raise_counters (k : FatalCode) (pc : Word) (i : FatalInfo) : (s.raise k pc i).counters = s.counters := rfl
@[simp] theorem raise_out (k : FatalCode) (pc : Word) (i : FatalInfo) : (s.raise k pc i).out = s.out := rfl
@[simp] theorem raise_trace (k : FatalCode) (pc : Word) (i : FatalInfo) : (s.raise k pc i).trace = s.trace := rfl
@[simp] theorem raise_act (k : FatalCode) (pc : Word) (i : FatalInfo) : (s.raise k pc i).act = s.act := rfl
@[simp] theorem raise_freeCount (k : FatalCode) (pc : Word) (i : FatalInfo) : (s.raise k pc i).freeCount = s.freeCount := rfl

/-! `wake`. -/

@[simp] theorem wake_cfg (p : Nat) (r : Slot) (w : Word) : (s.wake p r w).cfg = s.cfg := rfl
@[simp] theorem wake_regs (p : Nat) (r : Slot) (w : Word) : (s.wake p r w).regs = s.regs := rfl
@[simp] theorem wake_flags (p : Nat) (r : Slot) (w : Word) : (s.wake p r w).flags = s.flags := rfl
@[simp] theorem wake_rst (p : Nat) (r : Slot) (w : Word) : (s.wake p r w).rst = s.rst := rfl
@[simp] theorem wake_rob (p : Nat) (r : Slot) (w : Word) : (s.wake p r w).rob = s.rob := rfl
@[simp] theorem wake_head (p : Nat) (r : Slot) (w : Word) : (s.wake p r w).head = s.head := rfl
@[simp] theorem wake_tail (p : Nat) (r : Slot) (w : Word) : (s.wake p r w).tail = s.tail := rfl
@[simp] theorem wake_rs (p : Nat) (r : Slot) (w : Word) : (s.wake p r w).rs = s.rs.map (fun es => es.map (·.wake p r w)) := rfl
@[simp] theorem wake_lq (p : Nat) (r : Slot) (w : Word) : (s.wake p r w).lq = s.lq := rfl
@[simp] theorem wake_dly (p : Nat) (r : Slot) (w : Word) : (s.wake p r w).dly = s.dly := rfl
@[simp] theorem wake_cq (p : Nat) (r : Slot) (w : Word) : (s.wake p r w).cq = s.cq := rfl
@[simp] theorem wake_specPc (p : Nat) (r : Slot) (w : Word) : (s.wake p r w).specPc = s.specPc := rfl
@[simp] theorem wake_fb (p : Nat) (r : Slot) (w : Word) : (s.wake p r w).fb = s.fb := rfl
@[simp] theorem wake_iq (p : Nat) (r : Slot) (w : Word) : (s.wake p r w).iq = s.iq := rfl
@[simp] theorem wake_fetchStall (p : Nat) (r : Slot) (w : Word) : (s.wake p r w).fetchStall = s.fetchStall := rfl
@[simp] theorem wake_fetchDelay (p : Nat) (r : Slot) (w : Word) : (s.wake p r w).fetchDelay = s.fetchDelay := rfl
@[simp] theorem wake_halted (p : Nat) (r : Slot) (w : Word) : (s.wake p r w).halted = s.halted := rfl
@[simp] theorem wake_exitCode (p : Nat) (r : Slot) (w : Word) : (s.wake p r w).exitCode = s.exitCode := rfl
@[simp] theorem wake_fatal (p : Nat) (r : Slot) (w : Word) : (s.wake p r w).fatal = s.fatal := rfl
@[simp] theorem wake_mem (p : Nat) (r : Slot) (w : Word) : (s.wake p r w).mem = s.mem := rfl
@[simp] theorem wake_counters (p : Nat) (r : Slot) (w : Word) : (s.wake p r w).counters = s.counters := rfl
@[simp] theorem wake_out (p : Nat) (r : Slot) (w : Word) : (s.wake p r w).out = s.out := rfl
@[simp] theorem wake_trace (p : Nat) (r : Slot) (w : Word) : (s.wake p r w).trace = s.trace := rfl
@[simp] theorem wake_act (p : Nat) (r : Slot) (w : Word) : (s.wake p r w).act = s.act := rfl
@[simp] theorem wake_freeCount (p : Nat) (r : Slot) (w : Word) : (s.wake p r w).freeCount = s.freeCount := rfl

/-! `freeRs`. -/

@[simp] theorem freeRs_cfg (c : FuClass) (p : Nat) : (s.freeRs c p).cfg = s.cfg := rfl
@[simp] theorem freeRs_regs (c : FuClass) (p : Nat) : (s.freeRs c p).regs = s.regs := rfl
@[simp] theorem freeRs_flags (c : FuClass) (p : Nat) : (s.freeRs c p).flags = s.flags := rfl
@[simp] theorem freeRs_rst (c : FuClass) (p : Nat) : (s.freeRs c p).rst = s.rst := rfl
@[simp] theorem freeRs_rob (c : FuClass) (p : Nat) : (s.freeRs c p).rob = s.rob := rfl
@[simp] theorem freeRs_head (c : FuClass) (p : Nat) : (s.freeRs c p).head = s.head := rfl
@[simp] theorem freeRs_tail (c : FuClass) (p : Nat) : (s.freeRs c p).tail = s.tail := rfl
@[simp] theorem freeRs_rs (c : FuClass) (p : Nat) : (s.freeRs c p).rs = s.rs.set c (freeEntries p (s.rs.get c)) := rfl
@[simp] theorem freeRs_lq (c : FuClass) (p : Nat) : (s.freeRs c p).lq = s.lq := rfl
@[simp] theorem freeRs_dly (c : FuClass) (p : Nat) : (s.freeRs c p).dly = s.dly := rfl
@[simp] theorem freeRs_cq (c : FuClass) (p : Nat) : (s.freeRs c p).cq = s.cq := rfl
@[simp] theorem freeRs_specPc (c : FuClass) (p : Nat) : (s.freeRs c p).specPc = s.specPc := rfl
@[simp] theorem freeRs_fb (c : FuClass) (p : Nat) : (s.freeRs c p).fb = s.fb := rfl
@[simp] theorem freeRs_iq (c : FuClass) (p : Nat) : (s.freeRs c p).iq = s.iq := rfl
@[simp] theorem freeRs_fetchStall (c : FuClass) (p : Nat) : (s.freeRs c p).fetchStall = s.fetchStall := rfl
@[simp] theorem freeRs_fetchDelay (c : FuClass) (p : Nat) : (s.freeRs c p).fetchDelay = s.fetchDelay := rfl
@[simp] theorem freeRs_halted (c : FuClass) (p : Nat) : (s.freeRs c p).halted = s.halted := rfl
@[simp] theorem freeRs_exitCode (c : FuClass) (p : Nat) : (s.freeRs c p).exitCode = s.exitCode := rfl
@[simp] theorem freeRs_fatal (c : FuClass) (p : Nat) : (s.freeRs c p).fatal = s.fatal := rfl
@[simp] theorem freeRs_mem (c : FuClass) (p : Nat) : (s.freeRs c p).mem = s.mem := rfl
@[simp] theorem freeRs_counters (c : FuClass) (p : Nat) : (s.freeRs c p).counters = s.counters := rfl
@[simp] theorem freeRs_out (c : FuClass) (p : Nat) : (s.freeRs c p).out = s.out := rfl
@[simp] theorem freeRs_trace (c : FuClass) (p : Nat) : (s.freeRs c p).trace = s.trace := rfl
@[simp] theorem freeRs_act (c : FuClass) (p : Nat) : (s.freeRs c p).act = s.act := rfl
@[simp] theorem freeRs_freeCount (c : FuClass) (p : Nat) : (s.freeRs c p).freeCount = s.freeCount := rfl

/-! `recover`. -/

@[simp] theorem recover_cfg (t : Word) : (s.recover t).cfg = s.cfg := rfl
@[simp] theorem recover_regs (t : Word) : (s.recover t).regs = s.regs := rfl
@[simp] theorem recover_flags (t : Word) : (s.recover t).flags = s.flags := rfl
@[simp] theorem recover_rob (t : Word) : (s.recover t).rob = emptySlots s.rob s.flushed := rfl
@[simp] theorem recover_head (t : Word) : (s.recover t).head = s.head := rfl
@[simp] theorem recover_tail (t : Word) : (s.recover t).tail = s.robNext s.head := rfl
@[simp] theorem recover_lq (t : Word) : (s.recover t).lq = [] := rfl
@[simp] theorem recover_dly (t : Word) : (s.recover t).dly = [] := rfl
@[simp] theorem recover_cq (t : Word) : (s.recover t).cq = [] := rfl
@[simp] theorem recover_specPc (t : Word) : (s.recover t).specPc = targetFix s.cfg t := rfl
@[simp] theorem recover_fb (t : Word) : (s.recover t).fb = [] := rfl
@[simp] theorem recover_iq (t : Word) : (s.recover t).iq = [] := rfl
@[simp] theorem recover_fetchStall (t : Word) : (s.recover t).fetchStall = false := rfl
@[simp] theorem recover_fetchDelay (t : Word) : (s.recover t).fetchDelay = s.cfg.redirectDelay := rfl
@[simp] theorem recover_halted (t : Word) : (s.recover t).halted = s.halted := rfl
@[simp] theorem recover_exitCode (t : Word) : (s.recover t).exitCode = s.exitCode := rfl
@[simp] theorem recover_fatal (t : Word) : (s.recover t).fatal = s.fatal := rfl
@[simp] theorem recover_mem (t : Word) : (s.recover t).mem = s.mem := rfl
@[simp] theorem recover_counters (t : Word) : (s.recover t).counters = s.counters := rfl
@[simp] theorem recover_out (t : Word) : (s.recover t).out = s.out := rfl
@[simp] theorem recover_trace (t : Word) : (s.recover t).trace = s.trace := rfl
@[simp] theorem recover_act (t : Word) : (s.recover t).act = s.act := rfl
@[simp] theorem recover_freeCount (t : Word) : (s.recover t).freeCount = s.freeCount := rfl

/-! `releaseHead`. -/

@[simp] theorem releaseHead_cfg : s.releaseHead.cfg = s.cfg := rfl
@[simp] theorem releaseHead_regs : s.releaseHead.regs = s.regs := rfl
@[simp] theorem releaseHead_flags : s.releaseHead.flags = s.flags := rfl
@[simp] theorem releaseHead_rst : s.releaseHead.rst = s.rst := rfl
@[simp] theorem releaseHead_rob : s.releaseHead.rob = s.rob.set s.head { s.robAt s.head with status := .empty } := rfl
@[simp] theorem releaseHead_head : s.releaseHead.head = s.robNext s.head := rfl
@[simp] theorem releaseHead_tail : s.releaseHead.tail = s.tail := rfl
@[simp] theorem releaseHead_rs : s.releaseHead.rs = s.rs := rfl
@[simp] theorem releaseHead_lq : s.releaseHead.lq = s.lq := rfl
@[simp] theorem releaseHead_dly : s.releaseHead.dly = s.dly := rfl
@[simp] theorem releaseHead_cq : s.releaseHead.cq = s.cq := rfl
@[simp] theorem releaseHead_specPc : s.releaseHead.specPc = s.specPc := rfl
@[simp] theorem releaseHead_fb : s.releaseHead.fb = s.fb := rfl
@[simp] theorem releaseHead_iq : s.releaseHead.iq = s.iq := rfl
@[simp] theorem releaseHead_fetchStall : s.releaseHead.fetchStall = s.fetchStall := rfl
@[simp] theorem releaseHead_fetchDelay : s.releaseHead.fetchDelay = s.fetchDelay := rfl
@[simp] theorem releaseHead_halted : s.releaseHead.halted = s.halted := rfl
@[simp] theorem releaseHead_exitCode : s.releaseHead.exitCode = s.exitCode := rfl
@[simp] theorem releaseHead_fatal : s.releaseHead.fatal = s.fatal := rfl
@[simp] theorem releaseHead_mem : s.releaseHead.mem = s.mem := rfl
@[simp] theorem releaseHead_counters : s.releaseHead.counters = { s.counters with committed := s.counters.committed + 1 } := rfl
@[simp] theorem releaseHead_out : s.releaseHead.out = s.out := rfl
@[simp] theorem releaseHead_trace : s.releaseHead.trace = s.trace := rfl
@[simp] theorem releaseHead_act : s.releaseHead.act = s.act := rfl
@[simp] theorem releaseHead_freeCount : s.releaseHead.freeCount = s.freeCount := rfl

/-! `ageDelays`. -/

@[simp] theorem ageDelays_cfg : s.ageDelays.cfg = s.cfg := rfl
@[simp] theorem ageDelays_regs : s.ageDelays.regs = s.regs := rfl
@[simp] theorem ageDelays_flags : s.ageDelays.flags = s.flags := rfl
@[simp] theorem ageDelays_rst : s.ageDelays.rst = s.rst := rfl
@[simp] theorem ageDelays_rob : s.ageDelays.rob = s.rob := rfl
@[simp] theorem ageDelays_head : s.ageDelays.head = s.head := rfl
@[simp] theorem ageDelays_tail : s.ageDelays.tail = s.tail := rfl
@[simp] theorem ageDelays_rs : s.ageDelays.rs = s.rs := rfl
@[simp] theorem ageDelays_lq : s.ageDelays.lq = s.lq := rfl
@[simp] theorem ageDelays_dly : s.ageDelays.dly = countedDown s.dly := rfl
@[simp] theorem ageDelays_cq : s.ageDelays.cq = s.cq ++ completed s.dly := rfl
@[simp] theorem ageDelays_specPc : s.ageDelays.specPc = s.specPc := rfl
@[simp] theorem ageDelays_fb : s.ageDelays.fb = s.fb := rfl
@[simp] theorem ageDelays_iq : s.ageDelays.iq = s.iq := rfl
@[simp] theorem ageDelays_fetchStall : s.ageDelays.fetchStall = s.fetchStall := rfl
@[simp] theorem ageDelays_fetchDelay : s.ageDelays.fetchDelay = s.fetchDelay := rfl
@[simp] theorem ageDelays_halted : s.ageDelays.halted = s.halted := rfl
@[simp] theorem ageDelays_exitCode : s.ageDelays.exitCode = s.exitCode := rfl
@[simp] theorem ageDelays_fatal : s.ageDelays.fatal = s.fatal := rfl
@[simp] theorem ageDelays_mem : s.ageDelays.mem = s.mem := rfl
@[simp] theorem ageDelays_counters : s.ageDelays.counters = s.counters := rfl
@[simp] theorem ageDelays_out : s.ageDelays.out = s.out := rfl
@[simp] theorem ageDelays_trace : s.ageDelays.trace = s.trace := rfl
@[simp] theorem ageDelays_act : s.ageDelays.act = s.act := rfl
@[simp] theorem ageDelays_freeCount : s.ageDelays.freeCount = s.freeCount := rfl

/-! `fetched`. -/

@[simp] theorem fetched_cfg (raw : Word) : (s.fetched raw).cfg = s.cfg := rfl
@[simp] theorem fetched_regs (raw : Word) : (s.fetched raw).regs = s.regs := rfl
@[simp] theorem fetched_flags (raw : Word) : (s.fetched raw).flags = s.flags := rfl
@[simp] theorem fetched_rst (raw : Word) : (s.fetched raw).rst = s.rst := rfl
@[simp] theorem fetched_rob (raw : Word) : (s.fetched raw).rob = s.rob := rfl
@[simp] theorem fetched_head (raw : Word) : (s.fetched raw).head = s.head := rfl
@[simp] theorem fetched_tail (raw : Word) : (s.fetched raw).tail = s.tail := rfl
@[simp] theorem fetched_rs (raw : Word) : (s.fetched raw).rs = s.rs := rfl
@[simp] theorem fetched_lq (raw : Word) : (s.fetched raw).lq = s.lq := rfl
@[simp] theorem fetched_dly (raw : Word) : (s.fetched raw).dly = s.dly := rfl
@[simp] theorem fetched_cq (raw : Word) : (s.fetched raw).cq = s.cq := rfl
@[simp] theorem fetched_specPc (raw : Word) : (s.fetched raw).specPc = nextPc s.cfg (prescan s.cfg raw s.specPc) s.specPc (ilen s.cfg raw) := rfl
@[simp] theorem fetched_fb (raw : Word) : (s.fetched raw).fb = s.fb ++ [{ pc := s.specPc, raw := raw }] := rfl
@[simp] theorem fetched_iq (raw : Word) : (s.fetched raw).iq = s.iq := rfl
@[simp] theorem fetched_fetchStall (raw : Word) : (s.fetched raw).fetchStall = (s.fetchStall || decide (prescan s.cfg raw s.specPc = .svc)) := rfl
@[simp] theorem fetched_fetchDelay (raw : Word) : (s.fetched raw).fetchDelay = s.fetchDelay := rfl
@[simp] theorem fetched_halted (raw : Word) : (s.fetched raw).halted = s.halted := rfl
@[simp] theorem fetched_exitCode (raw : Word) : (s.fetched raw).exitCode = s.exitCode := rfl
@[simp] theorem fetched_fatal (raw : Word) : (s.fetched raw).fatal = s.fatal := rfl
@[simp] theorem fetched_mem (raw : Word) : (s.fetched raw).mem = s.mem := rfl
@[simp] theorem fetched_counters (raw : Word) : (s.fetched raw).counters = s.counters := rfl
@[simp] theorem fetched_out (raw : Word) : (s.fetched raw).out = s.out := rfl
@[simp] theorem fetched_trace (raw : Word) : (s.fetched raw).trace = s.trace := rfl
@[simp] theorem fetched_act (raw : Word) : (s.fetched raw).act = s.act := rfl
@[simp] theorem fetched_freeCount (raw : Word) : (s.fetched raw).freeCount = s.freeCount := rfl

/-! `allocate`. -/

@[simp] theorem allocate_cfg (pr : Profile) (e : IqEntry) (q : List IqEntry) (j : Nat) : (s.allocate pr e q j).cfg = s.cfg := rfl
@[simp] theorem allocate_regs (pr : Profile) (e : IqEntry) (q : List IqEntry) (j : Nat) : (s.allocate pr e q j).regs = s.regs := rfl
@[simp] theorem allocate_flags (pr : Profile) (e : IqEntry) (q : List IqEntry) (j : Nat) : (s.allocate pr e q j).flags = s.flags := rfl
@[simp] theorem allocate_rst (pr : Profile) (e : IqEntry) (q : List IqEntry) (j : Nat) : (s.allocate pr e q j).rst = s.rst.claim pr.dest pr.fw s.tail := rfl
@[simp] theorem allocate_head (pr : Profile) (e : IqEntry) (q : List IqEntry) (j : Nat) : (s.allocate pr e q j).head = s.head := rfl
@[simp] theorem allocate_tail (pr : Profile) (e : IqEntry) (q : List IqEntry) (j : Nat) : (s.allocate pr e q j).tail = s.robNext s.tail := rfl
@[simp] theorem allocate_lq (pr : Profile) (e : IqEntry) (q : List IqEntry) (j : Nat) : (s.allocate pr e q j).lq = s.lq := rfl
@[simp] theorem allocate_dly (pr : Profile) (e : IqEntry) (q : List IqEntry) (j : Nat) : (s.allocate pr e q j).dly = s.dly := rfl
@[simp] theorem allocate_cq (pr : Profile) (e : IqEntry) (q : List IqEntry) (j : Nat) : (s.allocate pr e q j).cq = s.cq := rfl
@[simp] theorem allocate_specPc (pr : Profile) (e : IqEntry) (q : List IqEntry) (j : Nat) : (s.allocate pr e q j).specPc = s.specPc := rfl
@[simp] theorem allocate_fb (pr : Profile) (e : IqEntry) (q : List IqEntry) (j : Nat) : (s.allocate pr e q j).fb = s.fb := rfl
@[simp] theorem allocate_iq (pr : Profile) (e : IqEntry) (q : List IqEntry) (j : Nat) : (s.allocate pr e q j).iq = q := rfl
@[simp] theorem allocate_fetchStall (pr : Profile) (e : IqEntry) (q : List IqEntry) (j : Nat) : (s.allocate pr e q j).fetchStall = s.fetchStall := rfl
@[simp] theorem allocate_fetchDelay (pr : Profile) (e : IqEntry) (q : List IqEntry) (j : Nat) : (s.allocate pr e q j).fetchDelay = s.fetchDelay := rfl
@[simp] theorem allocate_halted (pr : Profile) (e : IqEntry) (q : List IqEntry) (j : Nat) : (s.allocate pr e q j).halted = s.halted := rfl
@[simp] theorem allocate_exitCode (pr : Profile) (e : IqEntry) (q : List IqEntry) (j : Nat) : (s.allocate pr e q j).exitCode = s.exitCode := rfl
@[simp] theorem allocate_fatal (pr : Profile) (e : IqEntry) (q : List IqEntry) (j : Nat) : (s.allocate pr e q j).fatal = s.fatal := rfl
@[simp] theorem allocate_mem (pr : Profile) (e : IqEntry) (q : List IqEntry) (j : Nat) : (s.allocate pr e q j).mem = s.mem := rfl
@[simp] theorem allocate_counters (pr : Profile) (e : IqEntry) (q : List IqEntry) (j : Nat) : (s.allocate pr e q j).counters = s.counters := rfl
@[simp] theorem allocate_out (pr : Profile) (e : IqEntry) (q : List IqEntry) (j : Nat) : (s.allocate pr e q j).out = s.out := rfl
@[simp] theorem allocate_trace (pr : Profile) (e : IqEntry) (q : List IqEntry) (j : Nat) : (s.allocate pr e q j).trace = s.trace := rfl
@[simp] theorem allocate_act (pr : Profile) (e : IqEntry) (q : List IqEntry) (j : Nat) : (s.allocate pr e q j).act = s.act := rfl
@[simp] theorem allocate_freeCount (pr : Profile) (e : IqEntry) (q : List IqEntry) (j : Nat) : (s.allocate pr e q j).freeCount = s.freeCount := rfl

/-! `dispatched`. -/

@[simp] theorem dispatched_cfg (c : FuClass) (j : Nat) : (s.dispatched c j).cfg = s.cfg := rfl
@[simp] theorem dispatched_regs (c : FuClass) (j : Nat) : (s.dispatched c j).regs = s.regs := rfl
@[simp] theorem dispatched_flags (c : FuClass) (j : Nat) : (s.dispatched c j).flags = s.flags := rfl
@[simp] theorem dispatched_rst (c : FuClass) (j : Nat) : (s.dispatched c j).rst = s.rst := rfl
@[simp] theorem dispatched_rob (c : FuClass) (j : Nat) : (s.dispatched c j).rob = s.rob := rfl
@[simp] theorem dispatched_head (c : FuClass) (j : Nat) : (s.dispatched c j).head = s.head := rfl
@[simp] theorem dispatched_tail (c : FuClass) (j : Nat) : (s.dispatched c j).tail = s.tail := rfl
@[simp] theorem dispatched_rs (c : FuClass) (j : Nat) : (s.dispatched c j).rs = s.rs.set c ((s.rs.get c).set j { s.rsAt c j with disp := true }) := rfl
@[simp] theorem dispatched_lq (c : FuClass) (j : Nat) : (s.dispatched c j).lq = s.lq := rfl
@[simp] theorem dispatched_dly (c : FuClass) (j : Nat) : (s.dispatched c j).dly = s.dly := rfl
@[simp] theorem dispatched_cq (c : FuClass) (j : Nat) : (s.dispatched c j).cq = s.cq := rfl
@[simp] theorem dispatched_specPc (c : FuClass) (j : Nat) : (s.dispatched c j).specPc = s.specPc := rfl
@[simp] theorem dispatched_fb (c : FuClass) (j : Nat) : (s.dispatched c j).fb = s.fb := rfl
@[simp] theorem dispatched_iq (c : FuClass) (j : Nat) : (s.dispatched c j).iq = s.iq := rfl
@[simp] theorem dispatched_fetchStall (c : FuClass) (j : Nat) : (s.dispatched c j).fetchStall = s.fetchStall := rfl
@[simp] theorem dispatched_fetchDelay (c : FuClass) (j : Nat) : (s.dispatched c j).fetchDelay = s.fetchDelay := rfl
@[simp] theorem dispatched_halted (c : FuClass) (j : Nat) : (s.dispatched c j).halted = s.halted := rfl
@[simp] theorem dispatched_exitCode (c : FuClass) (j : Nat) : (s.dispatched c j).exitCode = s.exitCode := rfl
@[simp] theorem dispatched_fatal (c : FuClass) (j : Nat) : (s.dispatched c j).fatal = s.fatal := rfl
@[simp] theorem dispatched_mem (c : FuClass) (j : Nat) : (s.dispatched c j).mem = s.mem := rfl
@[simp] theorem dispatched_counters (c : FuClass) (j : Nat) : (s.dispatched c j).counters = s.counters := rfl
@[simp] theorem dispatched_out (c : FuClass) (j : Nat) : (s.dispatched c j).out = s.out := rfl
@[simp] theorem dispatched_trace (c : FuClass) (j : Nat) : (s.dispatched c j).trace = s.trace := rfl
@[simp] theorem dispatched_act (c : FuClass) (j : Nat) : (s.dispatched c j).act = s.act := rfl
@[simp] theorem dispatched_freeCount (c : FuClass) (j : Nat) : (s.dispatched c j).freeCount = s.freeCount := rfl

/-! `hostReset`. -/

@[simp] theorem hostReset_cfg : s.hostReset.cfg = s.cfg := rfl
@[simp] theorem hostReset_regs : s.hostReset.regs = s.regs := rfl
@[simp] theorem hostReset_flags : s.hostReset.flags = s.flags := rfl
@[simp] theorem hostReset_rst : s.hostReset.rst = Rst.empty := rfl
@[simp] theorem hostReset_rob : s.hostReset.rob = s.rob.map (fun e => { e with status := .empty }) := rfl
@[simp] theorem hostReset_head : s.hostReset.head = 0 := rfl
@[simp] theorem hostReset_tail : s.hostReset.tail = 0 := rfl
@[simp] theorem hostReset_lq : s.hostReset.lq = [] := rfl
@[simp] theorem hostReset_dly : s.hostReset.dly = [] := rfl
@[simp] theorem hostReset_cq : s.hostReset.cq = [] := rfl
@[simp] theorem hostReset_specPc : s.hostReset.specPc = s.cfg.entryPc := rfl
@[simp] theorem hostReset_fb : s.hostReset.fb = [] := rfl
@[simp] theorem hostReset_iq : s.hostReset.iq = [] := rfl
@[simp] theorem hostReset_fetchStall : s.hostReset.fetchStall = false := rfl
@[simp] theorem hostReset_fetchDelay : s.hostReset.fetchDelay = 0 := rfl
@[simp] theorem hostReset_halted : s.hostReset.halted = false := rfl
@[simp] theorem hostReset_exitCode : s.hostReset.exitCode = 0#32 := rfl
@[simp] theorem hostReset_fatal : s.hostReset.fatal = none := rfl
@[simp] theorem hostReset_mem : s.hostReset.mem = s.mem := rfl
@[simp] theorem hostReset_counters : s.hostReset.counters = Counters.zero := rfl
@[simp] theorem hostReset_out : s.hostReset.out = s.out := rfl
@[simp] theorem hostReset_trace : s.hostReset.trace = s.trace := rfl
@[simp] theorem hostReset_act : s.hostReset.act = .issue := rfl
@[simp] theorem hostReset_freeCount : s.hostReset.freeCount = s.freeCount := rfl

end State

end Sys2Proof.Machine
end

