-- ==== Sys2Proof/Laws/Passage.lean ====
section
/-! SUPPORT. `exec` is one stage action on a profile; what each part of a profile is; and, for each stage action, the cases of
what it can do. -/

namespace Sys2Proof

open Machine

/-- The profile each arm of `exec` runs. -/
def Instr.profile : Instr → Profile
  | .alu sub rd a o cin fw pi =>
    { ill := (Instr.alu sub rd a o cin fw pi).illFormed, cls := .alu, src0 := .ofReg a, src1 := .ofSrc o
      src2 := .ofCarry cin, dest := .register rd (decide (fw ≠ 0#4)), fw := fw, start := startAlu sub, size := .word
      retire := .plain }
  | .cmp sub a o cin fw pi =>
    { ill := (Instr.cmp sub a o cin fw pi).illFormed, cls := .alu, src0 := .ofReg a, src1 := .ofSrc o
      src2 := .ofCarry cin, dest := .discard, fw := fw, start := startAlu sub, size := .word, retire := .plain }
  | .mul rd rn o fw pi =>
    { ill := (Instr.mul rd rn o fw pi).illFormed, cls := .mul, src0 := .slot (.reg rn), src1 := .ofSrc o, src2 := .none
      dest := .register rd (decide (fw.setWidth 4 ≠ 0#4)), fw := fw.setWidth 4, start := startMul, size := .word
      retire := .plain }
  | .ldb rd rn off pi => loadProfile (Instr.ldb rd rn off pi).illFormed rd rn off .byte false
  | .ldsb rd rn off pi => loadProfile (Instr.ldsb rd rn off pi).illFormed rd rn off .byte true
  | .ldh rd rn off pi => loadProfile (Instr.ldh rd rn off pi).illFormed rd rn off .half false
  | .ldsh rd rn off pi => loadProfile (Instr.ldsh rd rn off pi).illFormed rd rn off .half true
  | .ldw rd rn off pi => loadProfile (Instr.ldw rd rn off pi).illFormed rd rn off .word false
  | .ldsw rd rn off pi => loadProfile (Instr.ldsw rd rn off pi).illFormed rd rn off .word true
  | .stb ra rn off pi => storeProfile (Instr.stb ra rn off pi).illFormed ra rn off .byte
  | .sth ra rn off pi => storeProfile (Instr.sth ra rn off pi).illFormed ra rn off .half
  | .stw ra rn off pi => storeProfile (Instr.stw ra rn off pi).illFormed ra rn off .word
  | .b simm pi =>
    controlProfile (Instr.b simm pi).illFormed .none .none .none (startRelative simm true) (.relative (pcIncrement pi))
  | .bcond c simm pi =>
    controlProfile (Instr.bcond c simm pi).illFormed (.ofCond c 0) (.ofCond c 1) (.ofCond c 2) (startCond c simm)
      (.relative (pcIncrement pi))
  | .bl simm pi =>
    controlProfile (Instr.bl simm pi).illFormed .none .none .none (startRelative simm true) (.relative (pcIncrement pi))
  | .bx rn pi => controlProfile (Instr.bx rn pi).illFormed (.slot (.reg rn)) .none .none startExchange .exchange
  | .blx rn pi => controlProfile (Instr.blx rn pi).illFormed (.slot (.reg rn)) .none .none startExchange .exchange
  | .setpc rn pi => controlProfile (Instr.setpc rn pi).illFormed (.slot (.reg rn)) .none .none startExchange .exchange
  | .svcPuts rn pi => controlProfile (Instr.svcPuts rn pi).illFormed (.slot (.reg rn)) .none .none (startPrint .puts) .svc
  | .svcPuti rn pi => controlProfile (Instr.svcPuti rn pi).illFormed (.slot (.reg rn)) .none .none (startPrint .puti) .svc
  | .svcHalt pi => controlProfile (Instr.svcHalt pi).illFormed .none .none .none startHalt .svc

theorem Instr.profile_ill (i : Instr) : i.profile.ill = i.illFormed := by cases i <;> rfl

theorem Instr.profile_cls (i : Instr) : i.profile.cls = i.cls := by cases i <;> rfl

theorem Instr.profile_dest (i : Instr) : i.profile.dest = i.dest := by cases i <;> rfl

theorem Instr.profile_fw (i : Instr) : i.profile.fw = i.fw := by cases i <;> rfl

theorem Instr.profile_sources (i : Instr) : (i.profile.src0, i.profile.src1, i.profile.src2) = i.sources := by
  cases i <;> rfl

namespace Machine

/-- Every arm of `exec` answers a next state: the stage action that is due, on the micro-op's profile. -/
theorem exec_eq (i : Instr) (s : State) : exec i s = .next (s.passage i.profile) := by cases i <;> rfl

theorem exec_of_issue (i : Instr) {s : State} (h : s.act = .issue) : exec i s = .next (issueUop i.profile s) := by
  simp [exec_eq, State.passage, h]

theorem exec_of_start (i : Instr) {s : State} {c : FuClass} {j : Nat} (h : s.act = .start c j) :
    exec i s = .next (startUop i.profile c j s) := by
  simp [exec_eq, State.passage, h]

theorem exec_of_access (i : Instr) {s : State} {l : LqEntry} (h : s.act = .access l) :
    exec i s = .next (memAccess l s) := by
  simp [exec_eq, State.passage, h]

theorem exec_of_broadcast (i : Instr) {s : State} {r : BusRecord} (h : s.act = .broadcast r) :
    exec i s = .next (broadcastUop i.profile r s) := by
  simp [exec_eq, State.passage, h]

theorem exec_of_commit (i : Instr) {s : State} (h : s.act = .commit) : exec i s = .next (commitUop i.profile s) := by
  simp [exec_eq, State.passage, h]

/-- What issue can do with a queued micro-op (R140 to R143). -/
theorem issueUop_cases (pr : Profile) {s : State} {e : IqEntry} {rest : List IqEntry} (h : s.iq = e :: rest) :
    (s.robFull = true ∧ issueUop pr s = s.stallRobFull)
    ∨ (s.robFull = false ∧ ∃ d, pr.ill = some d ∧ issueUop pr s = s.raise (FatalCode.ofIllFormed d) e.pc (.record e.uop))
    ∨ (s.robFull = false ∧ pr.ill = none ∧ freeSlot (s.rs.get pr.cls) = none ∧ issueUop pr s = s.stallRsFull)
    ∨ (s.robFull = false ∧ pr.ill = none ∧ ∃ j, freeSlot (s.rs.get pr.cls) = some j ∧
        issueUop pr s = s.allocate pr e rest j) := by
  cases hf : s.robFull <;> cases hi : pr.ill <;> cases hs : freeSlot (s.rs.get pr.cls) <;> simp [issueUop, h, hf, hi, hs]

/-- What `start` can do (R164): push a record, after an output event or after putting the store data in the ROB, or queue a load. -/
theorem start_cases {i : Instr} {st : Started} {s t : State} (h : i.profile.start st s = some t) :
    (∃ r n, r.p = st.p ∧ t = s.push r n)
    ∨ (∃ o r n, r.p = st.p ∧ t = (s.emitOut o).push r n)
    ∨ (∃ v r n, r.p = st.p ∧ t = (s.setRob st.p { s.robAt st.p with value := v }).push r n)
    ∨ (∃ l : LqEntry, l.dest = st.p ∧ s.lq.length < s.cfg.lqCap ∧ t = { s with lq := s.lq ++ [l] }) := by
  have load : ∀ sz sg, startLoad sz sg st s = some t →
      ∃ l : LqEntry, l.dest = st.p ∧ s.lq.length < s.cfg.lqCap ∧ t = { s with lq := s.lq ++ [l] } := by
    intro sz sg h
    unfold startLoad at h
    split at h
    · cases h
    · exact ⟨_, rfl, by omega, (Option.some.inj h).symm⟩
  have store : startStore st s = some t →
      ∃ v r n, r.p = st.p ∧ t = (s.setRob st.p { s.robAt st.p with value := v }).push r n :=
    fun h => ⟨_, _, _, rfl, (Option.some.inj h).symm⟩
  cases i with
  | ldb => exact .inr (.inr (.inr (load _ _ h)))
  | ldsb => exact .inr (.inr (.inr (load _ _ h)))
  | ldh => exact .inr (.inr (.inr (load _ _ h)))
  | ldsh => exact .inr (.inr (.inr (load _ _ h)))
  | ldw => exact .inr (.inr (.inr (load _ _ h)))
  | ldsw => exact .inr (.inr (.inr (load _ _ h)))
  | stb => exact .inr (.inr (.inl (store h)))
  | sth => exact .inr (.inr (.inl (store h)))
  | stw => exact .inr (.inr (.inl (store h)))
  | svcPuts => exact .inr (.inl ⟨_, _, _, rfl, (Option.some.inj h).symm⟩)
  | svcPuti => exact .inr (.inl ⟨_, _, _, rfl, (Option.some.inj h).symm⟩)
  | _ => exact .inl ⟨_, _, rfl, (Option.some.inj h).symm⟩

/-- What one turn of the selection loop can do (R160). -/
theorem startUop_cases (i : Instr) (c : FuClass) (j : Nat) (s : State) :
    startUop i.profile c j s = s.stallLqFull
    ∨ ∃ t, i.profile.start (s.started c j) s = some t ∧ startUop i.profile c j s = t.dispatched c j := by
  unfold startUop
  split
  · exact .inl rfl
  · exact .inr ⟨_, ‹_›, rfl⟩

/-- What a memory access of a load can do (R177). -/
theorem memAccess_cases (l : LqEntry) (s : State) :
    (s.memRead l.addr l.size.bytes = none ∧ memAccess l s = s.raise .memLoad (s.robAt l.dest).pc (.word l.addr))
    ∨ ∃ r, r.p = l.dest ∧ memAccess l s = s.push r s.cfg.latLoad := by
  unfold memAccess
  split
  · exact .inl ⟨‹_›, rfl⟩
  · exact .inr ⟨_, rfl, rfl⟩

/-- The wake-ups of a broadcast change nothing but operand slots (R194, R199). -/
theorem wakes_eq (d : Dest) (fw fl : BitVec 4) (p : Nat) (w : Word) (s : State) :
    ∃ rs, (s.wakeDest d p w).wakeFlags fw fl p = { s with rs := rs } := by
  have one : ∀ (s : State) (q : Slot) (v : Word), ∃ rs, s.wake p q v = { s with rs := rs } := fun s q v => ⟨_, rfl⟩
  have all : ∀ (fs : List Flag) (s : State), ∃ rs,
      fs.foldl (fun s f => if flagBit fw f then s.wake p (.flag f) (flagWord (flagBit fl f)) else s) s
        = { s with rs := rs } := by
    intro fs
    induction fs with
    | nil => exact fun s => ⟨s.rs, rfl⟩
    | cons f fs ih =>
      intro s
      rw [List.foldl_cons]
      split
      · obtain ⟨rs, hrs⟩ := ih (s.wake p (.flag f) (flagWord (flagBit fl f)))
        exact ⟨rs, hrs⟩
      · exact ih s
  unfold State.wakeDest
  split
  · obtain ⟨rs, hrs⟩ := all allFlags (s.wake p _ w)
    exact ⟨rs, hrs⟩
  · exact all allFlags s

/-- A broadcast changes the producer's ROB entry and the reservation stations, nothing else (R194, R199). -/
theorem broadcastUop_eq (pr : Profile) (r : BusRecord) (s : State) :
    ∃ rs, broadcastUop pr r s = { s.setRob r.p ((s.robAt r.p).receive r) with rs := rs } := by
  obtain ⟨rs, hrs⟩ := wakes_eq ((s.robAt r.p).receive r).dest pr.fw r.fl r.p r.val (s.setRob r.p ((s.robAt r.p).receive r))
  exact ⟨rs.set pr.cls (freeEntries r.p (rs.get pr.cls)), by simp only [broadcastUop, hrs]; rfl⟩

/-- The flag writes of a commit change the flags and `RST`, nothing else (R216). -/
theorem commitFlags_eq (fw : BitVec 4) (e : RobEntry) (s : State) :
    ∃ fl rst, commitFlags fw e s = { s with flags := fl, rst := rst } := by
  have all : ∀ (fs : List Flag) (s : State), ∃ fl rst,
      fs.foldl (fun t f => if flagBit fw f then
        { t.setFlag f (flagBit e.flags f) with rst := t.rst.release (.flag f) t.head } else t) s
        = { s with flags := fl, rst := rst } := by
    intro fs
    induction fs with
    | nil => exact fun s => ⟨s.flags, s.rst, rfl⟩
    | cons f fs ih =>
      intro s
      rw [List.foldl_cons]
      split
      · obtain ⟨fl, rst, h⟩ := ih { s.setFlag f (flagBit e.flags f) with rst := s.rst.release (.flag f) s.head }
        exact ⟨fl, rst, h⟩
      · exact ih s
  exact all allFlags s

/-- What the destination write of a commit can do (R214, R215). -/
theorem commitDest_cases (size : Size) (e : RobEntry) (s : State) :
    (∃ id uf, e.dest = .register id uf ∧
      commitDest size e s = .ok { s.setReg id e.value with rst := s.rst.release (.reg id) s.head })
    ∨ (∃ a, e.dest = .resolved a ∧ s.memWrite a size.bytes e.value = none ∧
      commitDest size e s = .error (s.raise .memStore e.pc (.word a)))
    ∨ (∃ a m, e.dest = .resolved a ∧ s.memWrite a size.bytes e.value = some m ∧
      commitDest size e s = .ok { s with mem := m })
    ∨ (e.dest = .awaiting ∧ commitDest size e s = .error s.raiseInternal)
    ∨ (e.dest = .discard ∧ commitDest size e s = .ok s) := by
  cases hd : e.dest with
  | discard => exact .inr (.inr (.inr (.inr ⟨rfl, by simp [commitDest, hd]⟩)))
  | awaiting => exact .inr (.inr (.inr (.inl ⟨rfl, by simp [commitDest, hd]⟩)))
  | register id uf => exact .inl ⟨id, uf, rfl, by simp [commitDest, hd]⟩
  | resolved a =>
    cases hm : s.memWrite a size.bytes e.value with
    | none => exact .inr (.inl ⟨a, rfl, hm, by simp [commitDest, hd, hm]⟩)
    | some m => exact .inr (.inr (.inl ⟨a, m, rfl, hm, by simp [commitDest, hd, hm]⟩))

/-- What branch resolution can do (R217, R218, R220). -/
theorem resolveBranch_cases (rt : Retire) (e : RobEntry) (s : State) :
    (rt = .plain ∧ resolveBranch rt e s = (s, .notBranch))
    ∨ (rt = .exchange ∧ resolveBranch rt e s = (s.recover e.target, .redirect))
    ∨ (∃ inc, rt = .relative inc ∧ decide (e.value ≠ 0#32) = predictedTaken s.cfg ∧
      resolveBranch rt e s = (s.countBranch, .correct))
    ∨ (∃ inc, rt = .relative inc ∧ decide (e.value ≠ 0#32) ≠ predictedTaken s.cfg ∧ resolveBranch rt e s =
      (s.countBranch.countMispredict.recover (if e.value ≠ 0#32 then e.target else e.pc + inc), .mispredicted))
    ∨ (rt = .svc ∧ resolveBranch rt e s = ({ s with fetchStall := false }, .notBranch)) := by
  cases rt with
  | plain => exact .inl ⟨rfl, rfl⟩
  | exchange => exact .inr (.inl ⟨rfl, rfl⟩)
  | svc => exact .inr (.inr (.inr (.inr ⟨rfl, rfl⟩)))
  | relative inc =>
    by_cases h : decide (e.value ≠ 0#32) = predictedTaken s.cfg
    · exact .inr (.inr (.inl ⟨inc, rfl, h, by rw [resolveBranch, if_pos h]⟩))
    · exact .inr (.inr (.inr (.inl ⟨inc, rfl, h, by rw [resolveBranch, if_neg h]⟩)))

/-- What the commit of a ready head entry can do (R210): the halt path, a fatal, or the architectural writes and the retirement. -/
theorem commitUop_cases (pr : Profile) {s : State} (h : s.commitGate = .go) :
    ((s.robAt s.head).halt = true ∧ commitUop pr s = commitHalt (s.robAt s.head) s)
    ∨ ((s.robAt s.head).halt = false ∧ ∃ t, commitDest pr.size (s.robAt s.head) s = .error t ∧ commitUop pr s = t)
    ∨ ((s.robAt s.head).halt = false ∧ ∃ t, commitDest pr.size (s.robAt s.head) s = .ok t ∧
      commitUop pr s = commitRetire pr.retire (s.robAt s.head) (commitFlags pr.fw (s.robAt s.head) t)) := by
  cases hh : (s.robAt s.head).halt with
  | true => exact .inl ⟨rfl, by simp [commitUop, h, hh]⟩
  | false =>
    cases hd : commitDest pr.size (s.robAt s.head) s with
    | error t => exact .inr (.inl ⟨rfl, t, rfl, by simp [commitUop, h, hh, hd]⟩)
    | ok t => exact .inr (.inr ⟨rfl, t, rfl, by simp [commitUop, h, hh, hd]⟩)

/-- The commit of an entry that asks for no halt and whose destination write succeeds. -/
theorem commitUop_ok (pr : Profile) {s t : State} (hg : s.commitGate = .go) (hh : (s.robAt s.head).halt = false)
    (hd : commitDest pr.size (s.robAt s.head) s = .ok t) :
    commitUop pr s = commitRetire pr.retire (s.robAt s.head) (commitFlags pr.fw (s.robAt s.head) t) := by
  simp [commitUop, hg, hh, hd]

theorem commitUop_error (pr : Profile) {s t : State} (hg : s.commitGate = .go) (hh : (s.robAt s.head).halt = false)
    (hd : commitDest pr.size (s.robAt s.head) s = .error t) : commitUop pr s = t := by
  simp [commitUop, hg, hh, hd]

theorem commitUop_halt (pr : Profile) {s : State} (hg : s.commitGate = .go) (hh : (s.robAt s.head).halt = true) :
    commitUop pr s = commitHalt (s.robAt s.head) s := by
  simp [commitUop, hg, hh]

theorem commitDest_discard (size : Size) {e : RobEntry} (hd : e.dest = .discard) (s : State) :
    commitDest size e s = .ok s := by
  simp [commitDest, hd]

theorem commitDest_register (size : Size) {e : RobEntry} {id : Reg} {uf : Bool} (hd : e.dest = .register id uf) (s : State) :
    commitDest size e s = .ok { s.setReg id e.value with rst := s.rst.release (.reg id) s.head } := by
  simp [commitDest, hd]

theorem commitFlags_none (e : RobEntry) (s : State) : commitFlags 0#4 e s = s := by
  simp [commitFlags, allFlags, flagBit]

end Machine

end Sys2Proof
end

