-- ==== Sys2Proof/Laws/Moves.lean ====
section
/-! SUPPORT. What a tick can do, said once: after commit, a step is a sequence of the moves below. An invariant of every step is
one small goal per move (`Moves.keeps`, `step_cases`); a step answers wherever the records it meets are micro-ops
(`step_answers`). -/

namespace Sys2Proof.Machine

/-- One move of the stages after commit. -/
inductive LateMove : State → State → Prop
  | doing (s a) : LateMove s (s.doing a)
  | age (s) : LateMove s s.ageDelays
  | broadcast (i r rest s) (hq : s.cq = r :: rest) (hd : decode (s.robAt r.p).uop = .ok i) :
      LateMove s (broadcastUop i.profile r { s with cq := rest })
  | access (i l s) (hl : l ∈ s.lq) (hm : s.mayIssue l = true) (hd : decode (s.robAt l.dest).uop = .ok i) :
      LateMove s (memAccess l s)
  | loads (keep s) (hk : keep.Sublist s.lq) : LateMove s { s with lq := keep }
  | start (i c j s) (hr : (s.rsAt c j).isReady = true) (hd : decode (s.rsAt c j).uop = .ok i) :
      LateMove s (startUop i.profile c j s)
  | issue (i e rest s) (hq : s.iq = e :: rest) (hd : decode e.uop = .ok i) : LateMove s (issueUop i.profile s)
  | stallRob (s) : LateMove s s.stallRobFull
  | fatal (k pc info s) : LateMove s (s.raise k pc info)
  | pop (e rest s) (hq : s.fb = e :: rest) : LateMove s { s with fb := rest }
  | expand (e rest) (l : List Record) (s) (hq : s.fb = e :: rest) (hs : s.cfg.iqHeadroom ≤ s.cfg.iqCap - s.iq.length)
      (hl : l.length ≤ s.cfg.iqHeadroom) :
      LateMove s { s with fb := rest, iq := s.iq ++ l.map (fun u => { pc := e.pc, uop := u }) }
  | delay (s) : LateMove s { s with fetchDelay := s.fetchDelay - 1 }
  | fetch (raw s) (hb : s.fb.length < s.cfg.fbCap) : LateMove s (s.fetched raw)
  | free (s) : LateMove s { s with freeCount := s.freeCount + 1 }

/-- A sequence of moves. -/
abbrev LateMoves : State → State → Prop := Relation.ReflTransGen LateMove

theorem LateMoves.keeps {P : State → Prop} (hP : ∀ s t, LateMove s t → P s → P t) {s t : State} (h : LateMoves s t)
    (hs : P s) : P t := by
  induction h with
  | refl => exact hs
  | tail _ hm ih => exact hP _ _ hm ih

/-- Every move as an update of the state: what `exec` and the stages after commit can write. -/
inductive LateUpdate (s : State) : State → Prop
  | doing (a) : LateUpdate s (s.doing a)
  | age : LateUpdate s s.ageDelays
  | broadcast (i : Instr) (r rest rs) (hq : s.cq = r :: rest) (hd : decode (s.robAt r.p).uop = .ok i)
      (hrs : rs = (broadcastUop i.profile r { s with cq := rest }).rs) :
      LateUpdate s { s with cq := rest, rob := s.rob.set r.p ((s.robAt r.p).receive r), rs := rs }
  | access (l r n) (hl : l ∈ s.lq) (hr : r.p = l.dest) : LateUpdate s (s.push r n)
  | loads (keep) (hk : keep.Sublist s.lq) : LateUpdate s { s with lq := keep }
  | compute (c j r n) (hj : (s.rsAt c j).isReady = true) (hr : r.p = (s.rsAt c j).dest) :
      LateUpdate s ((s.push r n).dispatched c j)
  | print (c j o r n) (hj : (s.rsAt c j).isReady = true) (hr : r.p = (s.rsAt c j).dest) :
      LateUpdate s (((s.emitOut o).push r n).dispatched c j)
  | store (c j v r n) (hj : (s.rsAt c j).isReady = true) (hr : r.p = (s.rsAt c j).dest) :
      LateUpdate s (((s.setRob r.p { s.robAt r.p with value := v }).push r n).dispatched c j)
  | load (c j) (l : LqEntry) (hj : (s.rsAt c j).isReady = true) (hl : l.dest = (s.rsAt c j).dest)
      (hq : s.lq.length < s.cfg.lqCap) : LateUpdate s (({ s with lq := s.lq ++ [l] } : State).dispatched c j)
  | allocate (i : Instr) (e rest j) (hq : s.iq = e :: rest) (hd : decode e.uop = .ok i) (hf : s.robFull = false)
      (hw : i.illFormed = none) (hj : freeSlot (s.rs.get i.profile.cls) = some j) :
      LateUpdate s (s.allocate i.profile e rest j)
  | stallRob : LateUpdate s s.stallRobFull
  | stallRs : LateUpdate s s.stallRsFull
  | stallLq : LateUpdate s s.stallLqFull
  | fatal (k pc info) : LateUpdate s (s.raise k pc info)
  | pop (e rest) (hq : s.fb = e :: rest) : LateUpdate s { s with fb := rest }
  | expand (e rest) (l : List Record) (hq : s.fb = e :: rest) (hs : s.cfg.iqHeadroom ≤ s.cfg.iqCap - s.iq.length)
      (hl : l.length ≤ s.cfg.iqHeadroom) :
      LateUpdate s { s with fb := rest, iq := s.iq ++ l.map (fun u => { pc := e.pc, uop := u }) }
  | delay : LateUpdate s { s with fetchDelay := s.fetchDelay - 1 }
  | fetch (raw) (hb : s.fb.length < s.cfg.fbCap) : LateUpdate s (s.fetched raw)
  | free : LateUpdate s { s with freeCount := s.freeCount + 1 }

theorem LateMove.update {s t : State} (h : LateMove s t) : LateUpdate s t := by
  cases h with
  | doing _ a => exact .doing a
  | age => exact .age
  | broadcast i r rest _ hq hd =>
    obtain ⟨rs, hrs⟩ := broadcastUop_eq i.profile r { s with cq := rest }
    rw [hrs]
    exact .broadcast i r rest rs hq hd (by rw [hrs])
  | access i l _ hl hm hd =>
    rcases memAccess_cases l s with ⟨_, h⟩ | ⟨r, hr, h⟩ <;> rw [h]
    · exact .fatal _ _ _
    · exact .access l r _ hl hr
  | loads keep _ hk => exact .loads keep hk
  | start i c j _ hr hd =>
    rcases startUop_cases i c j s with h | ⟨u, hu, h⟩ <;> rw [h]
    · exact .stallLq
    · rcases start_cases hu with ⟨r, n, hp, rfl⟩ | ⟨o, r, n, hp, rfl⟩ | ⟨v, r, n, hp, rfl⟩ | ⟨l, hp, hq, rfl⟩
      · exact .compute c j r n hr hp
      · exact .print c j o r n hr hp
      · rw [← hp]; exact .store c j v r n hr hp
      · exact .load c j l hr hp hq
  | issue i e rest _ hq hd =>
    rcases issueUop_cases i.profile hq with ⟨_, h⟩ | ⟨_, d, _, h⟩ | ⟨_, _, _, h⟩ | ⟨hf, hw, j, hj, h⟩ <;> rw [h]
    · exact .stallRob
    · exact .fatal _ _ _
    · exact .stallRs
    · exact .allocate i e rest j hq hd hf (i.profile_ill ▸ hw) hj
  | stallRob => exact .stallRob
  | fatal k pc info => exact .fatal k pc info
  | pop e rest _ hq => exact .pop e rest hq
  | expand e rest l _ hq hs hl => exact .expand e rest l hq hs hl
  | delay => exact .delay
  | fetch raw _ hb => exact .fetch raw hb
  | free => exact .free

/-! The stages as sequences of moves. -/

/-- An outcome reached by moves from `s`, if it is a next state. -/
def Reaches (s : State) (o : StepOutcome) : Prop := ∀ t, o = .next t → LateMoves s t

theorem reaches_next {s t : State} (h : LateMoves s t) : Reaches s (.next t) := by
  intro u hu
  cases hu
  exact h

theorem reaches_andThen {s : State} {o : StepOutcome} {f : State → StepOutcome} (ho : Reaches s o)
    (hf : ∀ t, LateMoves s t → Reaches t (f t)) : Reaches s (andThen o f) := by
  intro u hu
  cases o with
  | next t =>
    have ht := ho t rfl
    simp only [andThen] at hu
    split at hu
    · cases hu; exact ht
    · exact ht.trans (hf t ht u hu)
  | fault r => cases hu
  | refused r => cases hu

theorem reaches_next_andThen {s t : State} {f : State → StepOutcome} (h : LateMoves s t) (hf : Reaches t (f t)) :
    Reaches s (andThen (.next t) f) := by
  intro u hu
  simp only [andThen] at hu
  split at hu
  · cases hu; exact h
  · exact h.trans (hf u hu)

theorem execRecord_ok {u : Record} {i : Instr} (hd : decode u = .ok i) (a : Activity) (s : State) :
    execRecord u a s = .next ((s.doing a).passage i.profile) := by
  simp [execRecord, hd, exec_eq]

/-- What `execRecord` does, in the one case in which it answers a next state. -/
theorem reaches_execRecord {s₀ s : State} {u : Record} {a : Activity}
    (h : ∀ i, decode u = .ok i → LateMoves s₀ ((s.doing a).passage i.profile)) : Reaches s₀ (execRecord u a s) := by
  cases hd : decode u with
  | ok i => rw [execRecord_ok hd]; exact reaches_next (h i hd)
  | error r => intro t ht; simp [execRecord, hd] at ht

theorem drain_moves (k : Nat) (s : State) : Reaches s (drain k s) := by
  induction k generalizing s with
  | zero => exact reaches_next .refl
  | succ k ih =>
    unfold drain
    split
    · exact reaches_next .refl
    · next r rest hq =>
      refine reaches_andThen (reaches_execRecord fun i hd => ?_) (fun t _ => ih t)
      exact (Relation.ReflTransGen.single (.doing s (.broadcast r))).tail (.broadcast i r rest (s.doing (.broadcast r)) hq hd)

theorem writeback_moves (s : State) : Reaches s (writebackStage s) := fun t ht =>
  (Relation.ReflTransGen.single (.age s)).trans (drain_moves _ _ t ht)

/-- A memory access leaves the load queue, the descriptors and the ROB pointers as they are. -/
theorem memAccess_frame (l : LqEntry) (s : State) :
    ∃ d f, memAccess l s = { s with dly := d, fatal := f } := by
  rcases memAccess_cases l s with ⟨_, h⟩ | ⟨r, _, h⟩
  · exact ⟨s.dly, _, h⟩
  · exact ⟨_, s.fatal, h⟩

theorem scanLoads_moves (ls : List LqEntry) (n : Nat) (keep : List LqEntry) (s : State) (hs : (keep ++ ls).Sublist s.lq) :
    Reaches s (scanLoads ls n keep s) := by
  induction ls generalizing n keep s with
  | nil => exact reaches_next (.single (.loads keep s (by simpa using hs)))
  | cons l rest ih =>
    unfold scanLoads
    have hmem : l ∈ s.lq := hs.subset (by simp)
    have hrest : (keep ++ rest).Sublist s.lq := ((List.sublist_cons_self l rest).append_left keep).trans hs
    split
    · next hgo =>
      intro t ht
      cases hd : decode (s.robAt l.dest).uop with
      | error r => simp [execRecord, hd, andThen] at ht
      | ok i =>
        rw [execRecord_ok hd] at ht
        obtain ⟨d, f, hm⟩ := memAccess_frame l (s.doing (.access l))
        have hmove : LateMoves s (memAccess l (s.doing (.access l))) :=
          (Relation.ReflTransGen.single (.doing s (.access l))).tail (.access i l _ hmem hgo.2 hd)
        exact reaches_next_andThen (f := scanLoads rest (n + 1) keep) hmove
          (ih (n + 1) keep _ (by rw [hm]; exact hrest)) t ht
    · exact ih n (keep ++ [l]) s (by simpa using hs)

theorem lqScan_moves (s : State) : Reaches s (lqScan s) := scanLoads_moves s.lq 0 [] s (by simp)

/-- A turn of the selection loop leaves every other slot of its set as it is. -/
theorem startUop_rsAt (i : Instr) (c : FuClass) (j k : Nat) (s : State) (h : j ≠ k) :
    (startUop i.profile c j s).rsAt c k = s.rsAt c k := by
  have other : ∀ (es : List RsEntry) (e : RsEntry), (es.set j e).getD k RsEntry.free = es.getD k RsEntry.free := by
    intro es e
    simp [List.getD, List.getElem?_set_ne h]
  have get_set : ∀ (p : PerClass (List RsEntry)) (es : List RsEntry), (p.set c es).get c = es := by
    intro p es; cases c <;> rfl
  rcases startUop_cases i c j s with h | ⟨t, ht, h⟩
  · rw [h]; rfl
  · have hrs : t.rs = s.rs := by
      rcases start_cases ht with ⟨r, n, _, rfl⟩ | ⟨o, r, n, _, rfl⟩ | ⟨v, r, n, _, rfl⟩ | ⟨l, _, _, rfl⟩ <;> rfl
    rw [h]
    simp only [State.rsAt, State.dispatched_rs, get_set, other, hrs]

theorem startEntries_moves (c : FuClass) (js : List Nat) (n : Nat) (s : State) (hn : js.Nodup)
    (hj : ∀ j ∈ js, (s.rsAt c j).isReady = true) : Reaches s (startEntries c js n s) := by
  induction js generalizing n s with
  | nil => exact reaches_next .refl
  | cons j js ih =>
    unfold startEntries
    split
    · exact reaches_next .refl
    · intro t ht
      cases hd : decode (s.rsAt c j).uop with
      | error r => simp [execRecord, hd, andThen] at ht
      | ok i =>
        rw [execRecord_ok hd] at ht
        have hmove : LateMoves s (startUop i.profile c j (s.doing (.start c j))) :=
          (Relation.ReflTransGen.single (.doing s (.start c j))).tail (.start i c j _ (hj j (by simp)) hd)
        refine reaches_next_andThen
          (f := fun t => startEntries c js (if (t.rsAt c j).disp then n + 1 else n) t) hmove
          (ih _ _ (List.nodup_cons.mp hn).2 ?_) t ht
        intro k hk
        rw [startUop_rsAt i c j k _ (fun h => (List.nodup_cons.mp hn).1 (h ▸ hk))]
        exact hj k (List.mem_cons_of_mem j hk)

/-! The candidates of a class (R160, R161). -/

theorem insertByAge_perm (age : Nat → Nat) (j : Nat) (ks : List Nat) : (insertByAge age j ks).Perm (j :: ks) := by
  induction ks with
  | nil => exact .refl _
  | cons k ks ih =>
    unfold insertByAge
    split
    · exact (ih.cons k).trans (.swap j k ks)
    · exact .refl _

theorem insertByAge_sorted (age : Nat → Nat) (j : Nat) (ks : List Nat) (h : ks.Pairwise (fun a b => age a ≤ age b)) :
    (insertByAge age j ks).Pairwise (fun a b => age a ≤ age b) := by
  induction ks with
  | nil => simp [insertByAge]
  | cons k ks ih =>
    obtain ⟨hk, hks⟩ := List.pairwise_cons.mp h
    unfold insertByAge
    split
    · next hle =>
      refine List.pairwise_cons.mpr ⟨fun b hb => ?_, ih hks⟩
      rcases List.mem_cons.mp ((insertByAge_perm age j ks).subset hb) with rfl | hb
      · exact hle
      · exact hk b hb
    · next hlt =>
      refine List.pairwise_cons.mpr ⟨fun b hb => ?_, h⟩
      rcases List.mem_cons.mp hb with rfl | hb
      · omega
      · exact Nat.le_trans (by omega) (hk b hb)

theorem sortByAge_perm (age : Nat → Nat) (js : List Nat) : (sortByAge age js).Perm js := by
  have go : ∀ (js acc : List Nat), (js.foldl (fun acc j => insertByAge age j acc) acc).Perm (js ++ acc) := by
    intro js
    induction js with
    | nil => exact fun acc => .refl _
    | cons j js ih =>
      intro acc
      exact (ih (insertByAge age j acc)).trans
        (((insertByAge_perm age j acc).append_left js).trans List.perm_middle)
  simpa [sortByAge] using go js []

theorem sortByAge_sorted (age : Nat → Nat) (js : List Nat) : (sortByAge age js).Pairwise (fun a b => age a ≤ age b) := by
  have go : ∀ (js acc : List Nat), acc.Pairwise (fun a b => age a ≤ age b) →
      (js.foldl (fun acc j => insertByAge age j acc) acc).Pairwise (fun a b => age a ≤ age b) := by
    intro js
    induction js with
    | nil => exact fun acc h => h
    | cons j js ih => exact fun acc h => ih _ (insertByAge_sorted age j acc h)
  exact go js [] .nil

/-- The candidates are the slots of the ready entries. -/
theorem mem_candidates {s : State} {c : FuClass} {j : Nat} :
    j ∈ s.candidates c ↔ j < (s.rs.get c).length ∧ (s.rsAt c j).isReady = true := by
  unfold State.candidates
  rw [(sortByAge_perm _ _).mem_iff]
  simp

theorem candidates_nodup (s : State) (c : FuClass) : (s.candidates c).Nodup :=
  (sortByAge_perm _ _).nodup_iff.mpr (List.nodup_range.filter _)

theorem selectClass_moves (c : FuClass) (s : State) : Reaches s (selectClass c s) :=
  startEntries_moves c _ 0 s (candidates_nodup s c) (fun _ hj => (mem_candidates.mp hj).2)

theorem execute_moves (s : State) : Reaches s (executeStage s) :=
  reaches_andThen (reaches_andThen (reaches_andThen (reaches_andThen (lqScan_moves s)
    (fun t _ => selectClass_moves .alu t)) (fun t _ => selectClass_moves .mul t))
    (fun t _ => selectClass_moves .ls t)) (fun t _ => selectClass_moves .ctrl t)

theorem issue_moves (s : State) : Reaches s (issueStage s) := by
  unfold issueStage
  split
  · exact reaches_next .refl
  · next e rest hq =>
    split
    · next i hd =>
      rw [exec_eq]
      exact reaches_next ((Relation.ReflTransGen.single (.doing s .issue)).tail (.issue i e rest _ hq hd))
    · split
      · exact reaches_next (.single (.stallRob s))
      · exact reaches_next (.single (.fatal _ _ _ s))

theorem decode_moves (s : State) : Reaches s (decodeStage s) := by
  unfold decodeStage
  split
  · exact reaches_next .refl
  · next e rest hq =>
    split
    · exact reaches_next .refl
    · next hs =>
      split
      · exact reaches_next ((Relation.ReflTransGen.single (.pop e rest s hq)).tail (.fatal _ _ _ _))
      · next l _ =>
        split
        · exact reaches_next ((Relation.ReflTransGen.single (.pop e rest s hq)).tail (.fatal _ _ _ _))
        · next hl => exact reaches_next (.single (.expand e rest l s hq (by omega) (by omega)))

theorem fetch_moves (s : State) : Reaches s (fetchStage s) := by
  unfold fetchStage
  split
  · exact reaches_next (.single (.delay s))
  · split
    · exact reaches_next .refl
    · split
      · exact reaches_next .refl
      · next hb =>
        split
        · exact reaches_next (.single (.fatal _ _ _ s))
        · next raw _ => exact reaches_next (.single (.fetch raw s (by omega)))
        · next raw _ =>
          exact reaches_next ((Relation.ReflTransGen.single (.fetch raw s (by omega))).tail (.free _))

/-- The five stages after commit are a sequence of moves. -/
theorem laterStages_moves (s : State) : Reaches s (laterStages s) :=
  reaches_andThen (reaches_andThen (reaches_andThen (reaches_andThen (writeback_moves s) (fun t _ => execute_moves t))
    (fun t _ => issue_moves t)) (fun t _ => decode_moves t)) (fun t _ => fetch_moves t)

/-! The whole step. -/

/-- What the commit stage can do (R210). -/
theorem commitStage_cases {s t : State} (h : commitStage s = .next t) :
    (s.commitGate = .idle ∧ t = s) ∨ (s.commitGate = .internal ∧ t = s.raiseInternal)
    ∨ (s.commitGate = .go ∧ ∃ i, decode (s.robAt s.head).uop = .ok i ∧ t = commitUop i.profile (s.doing .commit)) := by
  unfold commitStage at h
  split at h
  · next hg => cases h; exact .inl ⟨hg, rfl⟩
  · next hg => cases h; exact .inr (.inl ⟨hg, rfl⟩)
  · next hg =>
    cases hd : decode (s.robAt s.head).uop with
    | error r => simp [execRecord, hd] at h
    | ok i => rw [execRecord_ok hd] at h; cases h; exact .inr (.inr ⟨hg, i, rfl, rfl⟩)

/-- What commit makes of a ready head entry `e`. -/
inductive CommitUpdate (s : State) (e : RobEntry) : State → Prop
  | halt (hh : e.halt = true) : CommitUpdate s e (commitHalt e s)
  | storeFault (a) (hd : e.dest = .resolved a) : CommitUpdate s e (s.raise .memStore e.pc (.word a))
  | unresolved (hd : e.dest = .awaiting) : CommitUpdate s e s.raiseInternal
  | retire (i : Instr) (x) (hi : decode e.uop = .ok i) (hx : commitDest i.profile.size e s = .ok x) :
      CommitUpdate s e (commitRetire i.profile.retire e (commitFlags i.profile.fw e x))

theorem commitUop_update {i : Instr} {s : State} (hg : s.commitGate = .go) (hi : decode (s.robAt s.head).uop = .ok i) :
    CommitUpdate s (s.robAt s.head) (commitUop i.profile s) := by
  rcases commitUop_cases i.profile hg with ⟨hh, h⟩ | ⟨_, x, hx, h⟩ | ⟨_, x, hx, h⟩ <;> rw [h]
  · exact .halt hh
  · rcases commitDest_cases i.profile.size (s.robAt s.head) s with
      ⟨_, _, _, e⟩ | ⟨a, hd, _, e⟩ | ⟨_, _, _, _, e⟩ | ⟨hd, e⟩ | ⟨_, e⟩ <;> rw [e] at hx <;> cases hx
    · exact .storeFault a hd
    · exact .unresolved hd
  · exact .retire i x hi hx

/-- What a destination write that succeeds is (R214, R215). -/
theorem commitDest_ok_cases {size : Size} {e : RobEntry} {s x : State} (h : commitDest size e s = .ok x) :
    (∃ id uf, e.dest = .register id uf ∧ x = { s.setReg id e.value with rst := s.rst.release (.reg id) s.head })
    ∨ (∃ a m, e.dest = .resolved a ∧ s.memWrite a size.bytes e.value = some m ∧ x = { s with mem := m })
    ∨ (e.dest = .discard ∧ x = s) := by
  rcases commitDest_cases size e s with ⟨id, uf, hd, e⟩ | ⟨_, _, _, e⟩ | ⟨a, m, hd, hm, e⟩ | ⟨_, e⟩ | ⟨hd, e⟩ <;>
    rw [e] at h <;> cases h
  · exact .inl ⟨id, uf, hd, rfl⟩
  · exact .inr (.inl ⟨a, m, hd, hm, rfl⟩)
  · exact .inr (.inr ⟨hd, rfl⟩)

/-- What a step can do (R110, R112): nothing in a terminal machine; else the commit stage, then moves of the later stages (none after
a halt or a fatal), then the end of the cycle. -/
theorem step_cases {s t : State} (h : step s = .next t) :
    (s.terminal = true ∧ t = s)
    ∨ (s.terminal = false ∧ ∃ u v, commitStage s = .next u ∧ LateMoves u v ∧ t = endCycle v ∧
        (u.fatal.isSome = true ∨ u.halted = true → v = u)) := by
  unfold step at h
  split at h
  · next ht => cases h; exact .inl ⟨ht, rfl⟩
  · next ht =>
    refine .inr ⟨by simpa using ht, ?_⟩
    cases hc : cycleStages s with
    | fault r => simp [hc] at h
    | refused r => simp [hc] at h
    | next v =>
      rw [hc] at h
      cases h
      unfold cycleStages at hc
      cases hu : commitStage s with
      | fault r => simp [hu, andThen] at hc
      | refused r => simp [hu, andThen] at hc
      | next u =>
        rw [hu] at hc
        simp only [andThen] at hc
        split at hc
        · cases hc; exact ⟨_, _, rfl, .refl, rfl, fun _ => rfl⟩
        · next hf =>
          split at hc
          · cases hc; exact ⟨_, _, rfl, .refl, rfl, fun _ => rfl⟩
          · next hh => exact ⟨u, v, rfl, laterStages_moves u v hc, rfl, fun hor => absurd hor (by simp_all)⟩

/-- An invariant that commit, every later move and the end of a cycle keep is kept by every step. -/
theorem step_keeps {P : State → Prop} {s t : State} (h : step s = .next t) (hs : P s)
    (hcommit : ∀ u, commitStage s = .next u → P s → P u) (hmove : ∀ u v, LateMove u v → P u → P v)
    (hend : ∀ u, P u → P (endCycle u)) : P t := by
  rcases step_cases h with ⟨_, rfl⟩ | ⟨_, u, v, hu, hv, rfl, _⟩
  · exact hs
  · exact hend v (hv.keeps hmove (hcommit u hu hs))

/-! Where a step answers. -/

/-- The records that the later stages of a cycle may hand to `exec` are micro-ops. -/
structure LateKnown (s : State) : Prop where
  cq : ∀ r ∈ s.cq, knownRecord (s.robAt r.p).uop
  lq : ∀ l ∈ s.lq, knownRecord (s.robAt l.dest).uop
  rs : ∀ c j, (s.rsAt c j).isReady = true → knownRecord (s.rsAt c j).uop

/-- An invariant of the moves under which the records in flight are micro-ops. -/
structure Steady (P : State → Prop) : Prop where
  move : ∀ s t, LateMove s t → P s → P t
  known : ∀ s, P s → LateKnown s

/-- The outcome is a next state in which the invariant holds. -/
def Answers (P : State → Prop) (o : StepOutcome) : Prop := ∃ t, o = .next t ∧ P t

theorem answers_andThen {P : State → Prop} {o : StepOutcome} {f : State → StepOutcome} (ho : Answers P o)
    (hf : ∀ t, o = .next t → P t → Answers P (f t)) : Answers P (andThen o f) := by
  obtain ⟨t, rfl, ht⟩ := ho
  simp only [andThen]
  split
  · exact ⟨t, rfl, ht⟩
  · exact hf t rfl ht

theorem answers_of_reaches {P : State → Prop} (hP : Steady P) {s t : State} {o : StepOutcome} (hs : P s) (hr : Reaches s o)
    (ho : o = .next t) : Answers P o := ⟨t, ho, (hr t ho).keeps hP.move hs⟩

theorem drain_answers {P : State → Prop} (hP : Steady P) (k : Nat) (s : State) (hs : P s) : Answers P (drain k s) := by
  induction k generalizing s with
  | zero => exact ⟨s, rfl, hs⟩
  | succ k ih =>
    unfold drain
    split
    · exact ⟨s, rfl, hs⟩
    · next r rest hq =>
      obtain ⟨i, hd⟩ := (hP.known s hs).cq r (by simp [hq])
      refine answers_andThen ⟨_, execRecord_ok hd _ _, ?_⟩ (fun t _ ht => ih t ht)
      exact hP.move _ _ (.broadcast i r rest (s.doing (.broadcast r)) hq hd) (hP.move _ _ (.doing s _) hs)

theorem scanLoads_answers {P : State → Prop} (hP : Steady P) (ls : List LqEntry) (n : Nat) (keep : List LqEntry) (s : State)
    (hl : (keep ++ ls).Sublist s.lq) (hs : P s) : Answers P (scanLoads ls n keep s) := by
  induction ls generalizing n keep s with
  | nil => exact answers_of_reaches hP hs (scanLoads_moves [] n keep s hl) rfl
  | cons l rest ih =>
    unfold scanLoads
    have hmem : l ∈ s.lq := hl.subset (by simp)
    have hrest : (keep ++ rest).Sublist s.lq := ((List.sublist_cons_self l rest).append_left keep).trans hl
    split
    · next hgo =>
      obtain ⟨i, hd⟩ := (hP.known s hs).lq l hmem
      obtain ⟨d, f, hm⟩ := memAccess_frame l (s.doing (.access l))
      refine answers_andThen ⟨_, execRecord_ok hd _ _, ?_⟩ (fun t ht hPt => ih (n + 1) keep t ?_ hPt)
      · exact hP.move _ _ (.access i l (s.doing (.access l)) hmem hgo.2 hd) (hP.move _ _ (.doing s _) hs)
      · rw [execRecord_ok hd] at ht
        cases ht
        show (keep ++ rest).Sublist (memAccess l (s.doing (.access l))).lq
        rw [hm]
        exact hrest
    · exact ih n (keep ++ [l]) s (by simpa using hl) hs

theorem startEntries_answers {P : State → Prop} (hP : Steady P) (c : FuClass) (js : List Nat) (n : Nat) (s : State)
    (hn : js.Nodup) (hj : ∀ j ∈ js, (s.rsAt c j).isReady = true) (hs : P s) : Answers P (startEntries c js n s) := by
  induction js generalizing n s with
  | nil => exact ⟨s, rfl, hs⟩
  | cons j js ih =>
    unfold startEntries
    split
    · exact ⟨s, rfl, hs⟩
    · obtain ⟨i, hd⟩ := (hP.known s hs).rs c j (hj j (by simp))
      refine answers_andThen ⟨_, execRecord_ok hd _ _, ?_⟩
        (fun t ht hPt => ih _ t (List.nodup_cons.mp hn).2 (fun k hk => ?_) hPt)
      · exact hP.move _ _ (.start i c j (s.doing (.start c j)) (hj j (by simp)) hd) (hP.move _ _ (.doing s _) hs)
      · rw [execRecord_ok hd] at ht
        cases ht
        show ((startUop i.profile c j (s.doing (.start c j))).rsAt c k).isReady = true
        rw [startUop_rsAt i c j k _ (fun h => (List.nodup_cons.mp hn).1 (h ▸ hk))]
        exact hj k (List.mem_cons_of_mem j hk)

theorem issueStage_next (s : State) : ∃ t, issueStage s = .next t := by
  cases h : issueStage s with
  | next t => exact ⟨t, rfl⟩
  | fault r | refused r => simp only [issueStage, exec_eq] at h; (repeat' split at h) <;> cases h

theorem decodeStage_next (s : State) : ∃ t, decodeStage s = .next t := by
  cases h : decodeStage s with
  | next t => exact ⟨t, rfl⟩
  | fault r | refused r => simp only [decodeStage] at h; (repeat' split at h) <;> cases h

theorem fetchStage_next (s : State) : ∃ t, fetchStage s = .next t := by
  cases h : fetchStage s with
  | next t => exact ⟨t, rfl⟩
  | fault r | refused r => simp only [fetchStage] at h; (repeat' split at h) <;> cases h

theorem laterStages_answers {P : State → Prop} (hP : Steady P) (s : State) (hs : P s) : Answers P (laterStages s) := by
  have select : ∀ c s, P s → Answers P (selectClass c s) := fun c s hs =>
    startEntries_answers hP c _ 0 s (candidates_nodup s c) (fun _ hj => (mem_candidates.mp hj).2) hs
  have issue : ∀ s, P s → Answers P (issueStage s) := fun s hs =>
    (issueStage_next s).elim fun _ ht => answers_of_reaches hP hs (issue_moves s) ht
  have decode : ∀ s, P s → Answers P (decodeStage s) := fun s hs =>
    (decodeStage_next s).elim fun _ ht => answers_of_reaches hP hs (decode_moves s) ht
  have fetch : ∀ s, P s → Answers P (fetchStage s) := fun s hs =>
    (fetchStage_next s).elim fun _ ht => answers_of_reaches hP hs (fetch_moves s) ht
  refine answers_andThen (answers_andThen (answers_andThen (answers_andThen ?_ fun t _ ht => ?_) fun t _ ht => issue t ht)
    fun t _ ht => decode t ht) fun t _ ht => fetch t ht
  · exact drain_answers hP _ _ (hP.move _ _ (.age s) hs)
  · refine answers_andThen (answers_andThen (answers_andThen (answers_andThen ?_ fun t _ ht => select .alu t ht)
      fun t _ ht => select .mul t ht) fun t _ ht => select .ls t ht) fun t _ ht => select .ctrl t ht
    exact scanLoads_answers hP t.lq 0 [] t (by simp) ht

/-- A step answers a next state, and keeps the invariant, wherever the invariant says that the records in flight are micro-ops. -/
theorem step_answers {P : State → Prop} (hP : Steady P) (hend : ∀ u, P u → P (endCycle u)) {s : State} (hs : P s)
    (hcommit : s.terminal = false → Answers P (commitStage s)) : Answers P (step s) := by
  unfold step
  split
  · exact ⟨s, rfl, hs⟩
  · next ht =>
    obtain ⟨v, hv, hPv⟩ : Answers P (cycleStages s) := by
      refine answers_andThen (hcommit (by simpa using ht)) fun t _ hPt => ?_
      split
      · exact ⟨t, rfl, hPt⟩
      · exact laterStages_answers hP t hPt
    rw [hv]
    exact ⟨_, rfl, hend v hPv⟩

end Sys2Proof.Machine
end

