-- ==== Sys2Proof/Laws/Ops.lean ====
section
/-! SUPPORT. The small lemmas of the containers: reading after writing in the per-class and per-flag records, the register status
table, the ROB and the reservation-station sets. -/

namespace Sys2Proof

theorem PerClass.get_set {α : Type} (p : PerClass α) (c d : FuClass) (x : α) :
    (p.set c x).get d = if d = c then x else p.get d := by cases c <;> cases d <;> rfl

@[simp] theorem PerClass.get_map {α β : Type} (p : PerClass α) (f : α → β) (c : FuClass) :
    (p.map f).get c = f (p.get c) := by cases c <;> rfl

theorem PerClass.ext_get {α : Type} {p q : PerClass α} (h : ∀ c, p.get c = q.get c) : p = q := by
  cases p; cases q
  simp only [PerClass.mk.injEq]
  exact ⟨h .alu, h .mul, h .ls, h .ctrl⟩

namespace Machine

theorem PerFlag.get_set {α : Type} (p : PerFlag α) (f g : Flag) (x : α) :
    (p.set f x).get g = if g = f then x else p.get g := by cases f <;> cases g <;> rfl

@[simp] theorem PerFlag.get_map {α β : Type} (p : PerFlag α) (h : α → β) (f : Flag) :
    (p.map h).get f = h (p.get f) := by cases f <;> rfl

theorem PerFlag.ext_get {α : Type} {p q : PerFlag α} (h : ∀ f, p.get f = q.get f) : p = q := by
  cases p; cases q
  simp only [PerFlag.mk.injEq]
  exact ⟨h .n, h .z, h .c, h .v⟩

/-! The register status table. -/

theorem Rst.get_set (t : Rst) (r q : Slot) (o : Option Nat) : (t.set r o).get q = if q = r then o else t.get q := by
  cases r with
  | reg r =>
    cases q with
    | reg q =>
      by_cases h : q = r
      · subst h; simp [Rst.get, Rst.set]
      · have hne : r.toNat ≠ q.toNat := fun hh => h (BitVec.eq_of_toNat_eq hh.symm)
        simp [Rst.get, Rst.set, h, hne]
    | flag f => simp [Rst.get, Rst.set]
  | flag f =>
    cases q with
    | reg q => simp [Rst.get, Rst.set]
    | flag g => simp [Rst.get, Rst.set, PerFlag.get_set]

@[simp] theorem Rst.get_map (t : Rst) (g : Option Nat → Option Nat) (r : Slot) : (t.map g).get r = g (t.get r) := by
  cases r with
  | reg r => simp [Rst.get, Rst.map, mapVector]
  | flag f => simp [Rst.get, Rst.map]

@[simp] theorem Rst.get_empty (r : Slot) : Rst.empty.get r = none := by
  cases r with
  | reg r => simp [Rst.get, Rst.empty]
  | flag f => cases f <;> rfl

/-- R214, R216: a release clears the slot if it names the committing entry. -/
theorem Rst.get_release (t : Rst) (r q : Slot) (h : Nat) :
    (t.release r h).get q = if q = r ∧ t.get q = some h then none else t.get q := by
  unfold Rst.release
  split
  · next he =>
    rw [Rst.get_set]
    by_cases hq : q = r
    · subst hq; simp [he]
    · simp [hq]
  · next he =>
    by_cases hq : q = r
    · subst hq; simp [he]
    · simp [hq]

theorem Rst.get_setFlags_reg (t : Rst) (fw : BitVec 4) (p : Nat) (r : Reg) :
    (t.setFlags fw p).get (.reg r) = t.get (.reg r) := by
  simp only [Rst.setFlags, allFlags, List.foldl_cons, List.foldl_nil]
  cases flagBit fw .n <;> cases flagBit fw .z <;> cases flagBit fw .c <;> cases flagBit fw .v <;> simp [Rst.get_set]

theorem Rst.get_setFlags_flag (t : Rst) (fw : BitVec 4) (p : Nat) (f : Flag) :
    (t.setFlags fw p).get (.flag f) = if flagBit fw f then some p else t.get (.flag f) := by
  simp only [Rst.setFlags, allFlags, List.foldl_cons, List.foldl_nil]
  cases hn : flagBit fw .n <;> cases hz : flagBit fw .z <;> cases hc : flagBit fw .c <;> cases hv : flagBit fw .v <;>
    cases f <;> simp [Rst.get_set, hn, hz, hc, hv]

/-- R149: the table after issue names the new producer for exactly the slots the micro-op writes. -/
theorem Rst.get_claim (t : Rst) (d : Dest) (fw : BitVec 4) (p : Nat) (r : Slot) :
    (t.claim d fw p).get r = if writesSlot d fw r then some p else t.get r := by
  unfold Rst.claim
  cases r with
  | reg q =>
    cases hd : d.slot with
    | none => simp [Rst.get_setFlags_reg, writesSlot, hd]
    | some x => simp [Rst.get_setFlags_reg, Rst.get_set, writesSlot, hd, eq_comm]
  | flag f =>
    have hne : ∀ x, d.slot = some x → Slot.flag f ≠ x := by
      intro x hx; cases d <;> simp [Dest.slot] at hx; subst hx; simp
    cases hd : d.slot with
    | none => simp [Rst.get_setFlags_flag, writesSlot]; rfl
    | some x => simp [Rst.get_setFlags_flag, Rst.get_set, writesSlot, hne x hd]; rfl

/-- One flag's turn in the flag writes of a commit (R216). -/
def State.commitFlag (s : State) (on : Bool) (f : Flag) (v : Bool) : State :=
  if on then { s.setFlag f v with rst := s.rst.release (.flag f) s.head } else s

theorem State.commitFlag_head (s : State) (on : Bool) (f : Flag) (v : Bool) : (s.commitFlag on f v).head = s.head := by
  cases on <;> rfl

theorem State.commitFlag_flags (s : State) (on : Bool) (f g : Flag) (v : Bool) :
    (s.commitFlag on f v).flags.get g = if on = true ∧ g = f then v else s.flags.get g := by
  cases on <;> simp [State.commitFlag, PerFlag.get_set]

theorem State.commitFlag_rst (s : State) (on : Bool) (f : Flag) (v : Bool) (q : Slot) :
    (s.commitFlag on f v).rst.get q =
      if on = true ∧ q = .flag f ∧ s.rst.get q = some s.head then none else s.rst.get q := by
  cases on <;> simp [State.commitFlag, Rst.get_release]

theorem commitFlags_unroll (fw : BitVec 4) (e : RobEntry) (s : State) :
    commitFlags fw e s =
      (((s.commitFlag (flagBit fw .n) .n (flagBit e.flags .n)).commitFlag (flagBit fw .z) .z (flagBit e.flags .z)).commitFlag
        (flagBit fw .c) .c (flagBit e.flags .c)).commitFlag (flagBit fw .v) .v (flagBit e.flags .v) := rfl

/-- R216: the flags and the table after the flag writes of a commit. -/
theorem commitFlags_get (fw : BitVec 4) (e : RobEntry) (s : State) :
    (∀ f, (commitFlags fw e s).flags.get f = if flagBit fw f then flagBit e.flags f else s.flags.get f)
    ∧ (∀ f, (commitFlags fw e s).rst.get (.flag f) =
        if flagBit fw f = true ∧ s.rst.get (.flag f) = some s.head then none else s.rst.get (.flag f))
    ∧ ∀ r, (commitFlags fw e s).rst.get (.reg r) = s.rst.get (.reg r) := by
  rw [commitFlags_unroll]
  simp only [State.commitFlag_flags, State.commitFlag_rst, State.commitFlag_head]
  refine ⟨fun f => ?_, fun f => ?_, fun r => ?_⟩
  · cases f <;> simp
  · cases f <;> simp
  · simp

/-! Registers. -/

theorem State.getReg_setReg (s : State) (r q : Reg) (w : Word) :
    (s.setReg r w).getReg q = if q = r then w else s.getReg q := by
  by_cases h : q = r
  · subst h; simp [State.getReg, State.setReg]
  · have hne : r.toNat ≠ q.toNat := fun hh => h (BitVec.eq_of_toNat_eq hh.symm)
    simp [State.getReg, State.setReg, h, hne]

/-! The ROB and the reservation stations. -/

theorem State.robAt_setRob (s : State) (i j : Nat) (e : RobEntry) (h : i < s.rob.length) :
    (s.setRob i e).robAt j = if j = i then e else s.robAt j := by
  unfold State.robAt
  by_cases hj : j = i
  · subst hj; simp [List.getD, h]
  · simp [List.getD, hj, List.getElem?_set_ne (Ne.symm hj)]

/-- A change of an entry that keeps some property of it keeps the property of every entry. -/
theorem State.robAt_setRob_keeps {β : Type} (g : RobEntry → β) (s : State) (i j : Nat) (e : RobEntry)
    (h : g e = g (s.robAt i)) : g ((s.setRob i e).robAt j) = g (s.robAt j) := by
  by_cases hi : i < s.rob.length
  · rw [s.robAt_setRob i j e hi]
    split
    · next hj => rw [hj, h]
    · rfl
  · have hset : s.rob.set i e = s.rob := List.set_eq_of_length_le (by omega)
    have hrob : (s.setRob i e).robAt j = s.robAt j := by
      show (s.rob.set i e).getD j RobEntry.free = s.rob.getD j RobEntry.free
      rw [hset]
    rw [hrob]

/-- What a broadcast keeps of the producer's entry (R194). -/
theorem RobEntry.receive_keeps (e : RobEntry) (r : BusRecord) :
    (e.receive r).pc = e.pc ∧ (e.receive r).uop = e.uop ∧ (e.receive r).status = e.status
    ∧ (e.receive r).dest.slot = e.dest.slot := by
  unfold RobEntry.receive
  cases hd : e.dest <;> simp [Dest.slot]

/-- After its broadcast an entry is ready (R194). -/
@[simp] theorem RobEntry.receive_ready (e : RobEntry) (r : BusRecord) : (e.receive r).ready = true := by
  unfold RobEntry.receive
  cases e.dest <;> rfl

theorem State.robAt_mem (s : State) {i : Nat} (h : i < s.rob.length) : s.robAt i ∈ s.rob := by
  unfold State.robAt
  simp [List.getD, h]

theorem State.robAt_of_le (s : State) {i : Nat} (h : s.rob.length ≤ i) : s.robAt i = RobEntry.free := by
  unfold State.robAt
  simp [List.getD, h]

theorem State.rsAt_mem (s : State) (c : FuClass) {j : Nat} (h : j < (s.rs.get c).length) : s.rsAt c j ∈ s.rs.get c := by
  unfold State.rsAt
  simp [List.getD, h]

theorem State.rsAt_ready (s : State) {c : FuClass} {j : Nat} (h : (s.rsAt c j).isReady = true) :
    s.rsAt c j ∈ s.rs.get c ∧ (s.rsAt c j).busy = true := by
  have hb : (s.rsAt c j).busy = true := by
    cases hbusy : (s.rsAt c j).busy with
    | true => rfl
    | false => simp [RsEntry.isReady, hbusy] at h
  refine ⟨?_, hb⟩
  by_cases hj : j < (s.rs.get c).length
  · exact s.rsAt_mem c hj
  · have hfree : s.rsAt c j = RsEntry.free := by simp [State.rsAt, List.getD, Nat.not_lt.mp hj]
    simp [hfree, RsEntry.free] at hb

/-- R145: the slot that issue takes is the lowest free one. -/
theorem freeSlot_spec {es : List RsEntry} {j : Nat} (h : freeSlot es = some j) :
    j < es.length ∧ (es.getD j RsEntry.free).busy = false ∧ ∀ k, k < j → (es.getD k RsEntry.free).busy = true := by
  induction es generalizing j with
  | nil => simp [freeSlot] at h
  | cons e es ih =>
    unfold freeSlot at h
    split at h
    · next hb =>
      obtain ⟨j', hj', rfl⟩ := Option.map_eq_some_iff.mp h
      obtain ⟨h1, h2, h3⟩ := ih hj'
      refine ⟨by simp; omega, by simpa using h2, fun k hk => ?_⟩
      cases k with
      | zero => simpa using hb
      | succ k => simpa using h3 k (by omega)
    · next hb =>
      cases h
      exact ⟨by simp, by simpa using hb, fun k hk => by omega⟩

theorem freeSlot_none {es : List RsEntry} (h : ∀ e ∈ es, e.busy = true) : freeSlot es = none := by
  induction es with
  | nil => rfl
  | cons e es ih => simp [freeSlot, h e, ih (fun x hx => h x (List.mem_cons_of_mem e hx))]

theorem doing_act {s : State} {a : Activity} (h : s.act = a) : s.doing a = s := by
  cases s
  cases h
  rfl

end Machine

end Sys2Proof
end

