-- ==== Sys2Proof/Laws/Rob.lean ====
section
/-! SUPPORT. The circular arithmetic of the reorder buffer: ages, the count, what a recovery flushes (R27, R232). -/

namespace Sys2Proof.Machine

theorem mod_of_lt_double {a n : Nat} (h : a < 2 * n) : a % n = if a < n then a else a - n := by
  split
  · exact Nat.mod_eq_of_lt (by assumption)
  · rw [Nat.mod_eq_sub_mod (by omega), Nat.mod_eq_of_lt (by omega)]

theorem robNext_eq (s : State) {i : Nat} (h : i < s.cfg.robCapacity) :
    s.robNext i = if i + 1 = s.cfg.robCapacity then 0 else i + 1 := by
  unfold State.robNext
  rw [mod_of_lt_double (by omega)]
  split <;> split <;> omega

theorem robAge_lt (s : State) (i : Nat) (h : 0 < s.cfg.robCapacity) : s.robAge i < s.cfg.robCapacity := Nat.mod_lt _ h

/-- The age of a slot without modular arithmetic (R27). -/
theorem robAge_eq (s : State) {i : Nat} (hi : i < s.cfg.robCapacity) (hh : s.head < s.cfg.robCapacity) :
    s.robAge i = if s.head ≤ i then i - s.head else i + s.cfg.robCapacity - s.head := by
  unfold State.robAge
  rw [Nat.mod_eq_of_lt hh, mod_of_lt_double (by omega)]
  split <;> split <;> omega

theorem robCount_le (s : State) (h : 0 < s.cfg.robCapacity) : s.robCount ≤ s.cfg.robCapacity := by
  unfold State.robCount
  split
  · split <;> omega
  · exact Nat.le_of_lt (robAge_lt s _ h)

/-- The count without modular arithmetic (R27). -/
theorem robCount_eq (s : State) (hh : s.head < s.cfg.robCapacity) (ht : s.tail < s.cfg.robCapacity) :
    s.robCount = if s.head = s.tail then (if s.robFull then s.cfg.robCapacity else 0)
      else if s.head ≤ s.tail then s.tail - s.head else s.tail + s.cfg.robCapacity - s.head := by
  unfold State.robCount
  rw [robAge_eq s ht hh]

/-- The flushed slots are the occupied ones strictly younger than the head (R232). -/
theorem mem_flushed (s : State) {i : Nat} (hi : i < s.cfg.robCapacity) (hh : s.head < s.cfg.robCapacity) :
    i ∈ s.flushed ↔ 0 < s.robAge i ∧ s.robAge i < s.robCount := by
  have hc := robCount_le s (by omega)
  simp only [State.flushed, List.mem_map, List.mem_range]
  constructor
  · rintro ⟨k, hk, rfl⟩
    rw [robAge_eq s (Nat.mod_lt _ (by omega)) hh, mod_of_lt_double (by omega)]
    split <;> split <;> omega
  · intro ⟨h1, h2⟩
    rw [robAge_eq s hi hh] at h1 h2
    refine ⟨s.robAge i - 1, ?_, ?_⟩
    · rw [robAge_eq s hi hh]
      split at h1 <;> split at h2 <;> split <;> omega
    · rw [robAge_eq s hi hh, mod_of_lt_double]
      · split at h1 <;> split at h2 <;> split <;> split <;> omega
      · split at h1 <;> split at h2 <;> split <;> omega

theorem flushed_lt (s : State) (h : 0 < s.cfg.robCapacity) {i : Nat} (hi : i ∈ s.flushed) : i < s.cfg.robCapacity := by
  simp only [State.flushed, List.mem_map] at hi
  obtain ⟨k, _, rfl⟩ := hi
  exact Nat.mod_lt _ h

theorem emptySlots_length (rob : List RobEntry) (is : List Nat) : (emptySlots rob is).length = rob.length := by
  induction is generalizing rob with
  | nil => rfl
  | cons i is ih => rw [emptySlots, ih, List.length_set]

/-- What a recovery leaves in a ROB slot (R232). -/
theorem emptySlots_get (is : List Nat) (rob : List RobEntry) (j : Nat) :
    (emptySlots rob is).getD j RobEntry.free =
      if j ∈ is then { rob.getD j RobEntry.free with status := .empty } else rob.getD j RobEntry.free := by
  induction is generalizing rob with
  | nil => simp [emptySlots]
  | cons i is ih =>
    rw [emptySlots, ih]
    by_cases hj : j < rob.length
    · by_cases hij : j = i
      · subst hij
        simp [hj]
      · simp [List.getElem?_set_ne (Ne.symm hij), hij]
    · have hfree : ∀ l : List RobEntry, l.length ≤ j → l.getD j RobEntry.free = RobEntry.free := by
        intro l hl
        simp [hl]
      have hempty : ({ RobEntry.free with status := .empty } : RobEntry) = RobEntry.free := rfl
      rw [hfree _ (by simp; omega), hfree _ (by omega)]
      simp [hempty]

/-- A recovery keeps everything of an entry but its status. -/
theorem recover_robAt (s : State) (target : Word) (j : Nat) :
    (s.recover target).robAt j = if j ∈ s.flushed then { s.robAt j with status := .empty } else s.robAt j :=
  emptySlots_get s.flushed s.rob j

/-- Every entry after a recovery is one of before, or one of before marked empty. -/
theorem mem_emptySlots {is : List Nat} {rob : List RobEntry} {e : RobEntry} (h : e ∈ emptySlots rob is) :
    e ∈ rob ∨ ∃ x ∈ rob, e = { x with status := .empty } := by
  induction is generalizing rob with
  | nil => exact .inl h
  | cons i is ih =>
    have hset : ∀ x, x ∈ rob.set i { rob.getD i RobEntry.free with status := .empty } →
        x ∈ rob ∨ ∃ y ∈ rob, x = { y with status := .empty } := by
      intro x hx
      by_cases hi : i < rob.length
      · rcases List.mem_or_eq_of_mem_set hx with hx | rfl
        · exact .inl hx
        · exact .inr ⟨rob[i], List.getElem_mem hi, by simp [hi]⟩
      · rw [List.set_eq_of_length_le (by omega)] at hx
        exact .inl hx
    rcases ih h with h | ⟨y, hy, rfl⟩
    · exact hset e h
    · rcases hset y hy with hy | ⟨z, hz, rfl⟩
      · exact .inr ⟨y, hy, rfl⟩
      · exact .inr ⟨z, hz, rfl⟩

end Sys2Proof.Machine
end

