-- ==== Sys2Proof/Laws/Cycle.lean ====
section
/-! SUPPORT. The pieces an invariant of every step needs: what a broadcast does to the reservation stations, what commit keeps,
the end of the cycle, the flag mask of a decoded record. -/

namespace Sys2Proof

/-- The flag mask of the micro-op a record stands for is the mask of the record (R90, R92). -/
theorem fw_of_decode {u : Record} {i : Instr} (h : decode u = .ok i) : i.fw = Record.fw u := by
  unfold decode at h
  have hfw : Record.fw u = (Fields.unpack u).fw := rfl
  rw [hfw]
  generalize Fields.unpack u = f at h ⊢
  have hmul : ∀ x : BitVec 4, x.extractLsb' 2 2 = 0#2 → (x.extractLsb' 0 2).setWidth 4 = x := by decide
  have no : ∀ i', Decode.noOperand f i' = .ok i → i = i' ∧ f.fw = 0#4 := by
    intro i' h
    unfold Decode.noOperand at h
    (repeat' split at h) <;> simp_all
  have one : ∀ i', Decode.oneOperand f i' = .ok i → i = i' ∧ f.fw = 0#4 := by
    intro i' h
    unfold Decode.oneOperand at h
    (repeat' split at h) <;> simp_all
  have sub : ∀ r, Decode.noSub f r = .ok i → r = .ok i := by
    intro r h
    unfold Decode.noSub at h
    split at h
    · cases h
    · exact h
  unfold Decode.fields at h
  split at h
  · cases h
  · split at h
    · unfold Decode.alu at h
      (repeat' split at h) <;> cases h <;> rfl
    · unfold Decode.cmp at h
      (repeat' split at h) <;> cases h <;> rfl
    · unfold Decode.mul at h
      (repeat' split at h) <;> cases h
      exact hmul _ (by simp_all)
    · unfold Decode.load at h
      (repeat' split at h) <;> cases h <;> simp_all [Instr.fw]
    · unfold Decode.store at h
      (repeat' split at h) <;> cases h <;> simp_all [Instr.fw]
    · obtain ⟨rfl, hf⟩ := no _ (sub _ h); rw [hf]; rfl
    · unfold Decode.bcond at h
      split at h
      · cases h
      · obtain ⟨rfl, hf⟩ := no _ h; rw [hf]; rfl
    · obtain ⟨rfl, hf⟩ := no _ (sub _ h); rw [hf]; rfl
    · obtain ⟨rfl, hf⟩ := one _ (sub _ h); rw [hf]; rfl
    · obtain ⟨rfl, hf⟩ := one _ (sub _ h); rw [hf]; rfl
    · obtain ⟨rfl, hf⟩ := one _ (sub _ h); rw [hf]; rfl
    · unfold Decode.svc at h
      split at h
      · obtain ⟨rfl, hf⟩ := one _ h; rw [hf]; rfl
      · obtain ⟨rfl, hf⟩ := one _ h; rw [hf]; rfl
      · obtain ⟨rfl, hf⟩ := no _ h; rw [hf]; rfl
      · cases h
    · cases h

end Sys2Proof

namespace Sys2Proof.Machine

/-- The entry after a change that keeps its identity: destination, record and dispatched bit, and it does not become busy. -/
structure RsEntry.SameEntry (e f : RsEntry) : Prop where
  dest : f.dest = e.dest
  uop : f.uop = e.uop
  disp : f.disp = e.disp
  busy : f.busy = true → e.busy = true

theorem RsEntry.SameEntry.rfl' (e : RsEntry) : e.SameEntry e := ⟨rfl, rfl, rfl, id⟩

theorem RsEntry.SameEntry.trans {e f g : RsEntry} (h : e.SameEntry f) (k : f.SameEntry g) : e.SameEntry g :=
  ⟨k.dest.trans h.dest, k.uop.trans h.uop, k.disp.trans h.disp, fun hb => h.busy (k.busy hb)⟩

theorem RsEntry.wake_same (e : RsEntry) (p : Nat) (q : Slot) (w : Word) : e.SameEntry (e.wake p q w) := by
  unfold RsEntry.wake
  split
  · exact ⟨rfl, rfl, rfl, id⟩
  · exact .rfl' e

/-- The stations of a class after a change of their entries one by one, each of which keeps its identity. -/
def SameEntries (old new : List RsEntry) : Prop := ∃ g, new = old.map g ∧ ∀ e : RsEntry, e.SameEntry (g e)

theorem SameEntries.rfl' (es : List RsEntry) : SameEntries es es := ⟨id, by simp, .rfl'⟩

theorem SameEntries.trans {a b c : List RsEntry} : SameEntries a b → SameEntries b c → SameEntries a c := by
  rintro ⟨g, rfl, hg⟩ ⟨h, rfl, hh⟩
  exact ⟨h ∘ g, by simp, fun e => (hg e).trans (hh (g e))⟩

theorem SameEntries.length {a b : List RsEntry} : SameEntries a b → b.length = a.length := by
  rintro ⟨g, rfl, _⟩
  simp

theorem SameEntries.mem {a b : List RsEntry} {f : RsEntry} : SameEntries a b → f ∈ b → ∃ e ∈ a, e.SameEntry f := by
  rintro ⟨g, rfl, hg⟩ hf
  obtain ⟨e, he, rfl⟩ := List.mem_map.mp hf
  exact ⟨e, he, hg e⟩

/-- A broadcast changes the stations entry by entry (R194, R197, R198). -/
theorem broadcastUop_same (pr : Profile) (r : BusRecord) (s : State) (c : FuClass) :
    SameEntries (s.rs.get c) ((broadcastUop pr r s).rs.get c) := by
  have one : ∀ (s : State) q w, SameEntries (s.rs.get c) ((s.wake r.p q w).rs.get c) := fun s q w =>
    ⟨fun e => e.wake r.p q w, by simp, fun e => e.wake_same _ _ _⟩
  have dest : ∀ (s : State) d, SameEntries (s.rs.get c) ((s.wakeDest d r.p r.val).rs.get c) := by
    intro s d
    unfold State.wakeDest
    split
    · exact one _ _ _
    · exact .rfl' _
  have flags : ∀ (fs : List Flag) (s : State), SameEntries (s.rs.get c)
      ((fs.foldl (fun s f => if flagBit pr.fw f then s.wake r.p (.flag f) (flagWord (flagBit r.fl f)) else s) s).rs.get c) := by
    intro fs
    induction fs with
    | nil => exact fun s => .rfl' _
    | cons f fs ih =>
      intro s
      rw [List.foldl_cons]
      split
      · exact (one s _ _).trans (ih _)
      · exact ih s
  have free : ∀ s : State, SameEntries (s.rs.get c) ((s.freeRs pr.cls r.p).rs.get c) := by
    intro s
    simp only [State.freeRs, PerClass.get_set]
    split
    · next hc =>
      subst hc
      refine ⟨_, rfl, fun e => ?_⟩
      split
      · exact ⟨rfl, rfl, rfl, fun h => by simp at h⟩
      · exact .rfl' e
    · exact .rfl' _
  have first := dest (s.setRob r.p ((s.robAt r.p).receive r)) ((s.robAt r.p).receive r).dest
  have second := flags allFlags ((s.setRob r.p ((s.robAt r.p).receive r)).wakeDest ((s.robAt r.p).receive r).dest r.p r.val)
  simp only [broadcastUop, State.wakeFlags]
  exact (first.trans second).trans (free _)

/-- R198: after a broadcast, no busy station of the producer's class is the producer's. -/
theorem broadcastUop_frees (pr : Profile) (r : BusRecord) (s : State) :
    ∀ e ∈ (broadcastUop pr r s).rs.get pr.cls, e.busy = true → e.dest ≠ r.p := by
  intro e he hb hd
  simp only [broadcastUop, State.freeRs, PerClass.get_set, if_true, freeEntries, List.mem_map] at he
  obtain ⟨x, _, rfl⟩ := he
  by_cases hx : x.busy = true ∧ x.dest = r.p
  · simp [hx] at hb
  · have hn : (x.busy && decide (x.dest = r.p)) = false := by simpa using hx
    simp [hn] at hb hd
    exact hx ⟨hb, hd⟩

/-- What branch resolution keeps (R217, R218, R220, R237). -/
structure SameArch (s t : State) : Prop where
  cfg : t.cfg = s.cfg
  regs : t.regs = s.regs
  flags : t.flags = s.flags
  mem : t.mem = s.mem
  head : t.head = s.head
  robLength : t.rob.length = s.rob.length
  rsLength : ∀ c, (t.rs.get c).length = (s.rs.get c).length
  out : t.out = s.out
  trace : t.trace = s.trace
  committed : t.counters.committed = s.counters.committed
  cycles : t.counters.cycles = s.counters.cycles
  halted : t.halted = s.halted
  exitCode : t.exitCode = s.exitCode
  fatal : t.fatal = s.fatal

theorem recover_arch (s : State) (target : Word) : SameArch s (s.recover target) :=
  ⟨rfl, rfl, rfl, rfl, rfl, emptySlots_length _ _, fun c => by simp [State.recover, PerClass.get_map], rfl, rfl, rfl, rfl, rfl, rfl, rfl⟩

theorem resolveBranch_arch (rt : Retire) (e : RobEntry) (s : State) : SameArch s (resolveBranch rt e s).1 := by
  rcases resolveBranch_cases rt e s with ⟨_, h⟩ | ⟨_, h⟩ | ⟨_, _, _, h⟩ | ⟨_, _, _, h⟩ | ⟨_, h⟩ <;> rw [h]
  · exact ⟨rfl, rfl, rfl, rfl, rfl, rfl, fun _ => rfl, rfl, rfl, rfl, rfl, rfl, rfl, rfl⟩
  · exact recover_arch _ _
  · exact ⟨rfl, rfl, rfl, rfl, rfl, rfl, fun _ => rfl, rfl, rfl, rfl, rfl, rfl, rfl, rfl⟩
  · have h := recover_arch s.countBranch.countMispredict (if e.value ≠ 0#32 then e.target else e.pc + ‹Word›)
    exact ⟨rfl, rfl, rfl, rfl, rfl, h.robLength, h.rsLength, rfl, rfl, rfl, rfl, rfl, rfl, rfl⟩
  · exact ⟨rfl, rfl, rfl, rfl, rfl, rfl, fun _ => rfl, rfl, rfl, rfl, rfl, rfl, rfl, rfl⟩

/-- The retirement of the head entry: a state with the same architectural state, then a trace record and the release of the slot. -/
theorem commitRetire_eq (rt : Retire) (e : RobEntry) (s : State) :
    ∃ y tr, commitRetire rt e s = (y.emitTrace tr).releaseHead ∧ y = (resolveBranch rt e s).1 ∧ SameArch s y :=
  ⟨_, _, rfl, rfl, resolveBranch_arch rt e s⟩

/-- A property that commit keeps: one goal where nothing commits with a fatal `INTERNAL`, one for the commit of a ready head
entry. -/
theorem commit_keeps {P : State → Prop} {s u : State} (h : commitStage s = .next u) (hs : P s)
    (hint : s.commitGate = .internal → P s.raiseInternal)
    (hgo : ∀ u, s.commitGate = .go → CommitUpdate (s.doing .commit) (s.robAt s.head) u → P u) : P u := by
  rcases commitStage_cases h with ⟨_, rfl⟩ | ⟨hg, rfl⟩ | ⟨hg, i, hi, rfl⟩
  · exact hs
  · exact hint hg
  · exact hgo _ hg (commitUop_update (s := s.doing .commit) hg hi)

theorem endCycle_cases (s : State) : endCycle s = s.doing .issue ∨ endCycle s = s.countCycle.doing .issue := by
  unfold endCycle
  split <;> simp

/-- A property of ROB entries that marking a slot empty keeps is kept by commit. -/
theorem commit_rob {Q : RobEntry → Prop} (hE : ∀ e, Q e → Q { e with status := .empty }) (hfree : Q RobEntry.free)
    {s u : State} (hq : ∀ e ∈ s.rob, Q e) (h : commitStage s = .next u) : ∀ e ∈ u.rob, Q e := by
  have hat : ∀ n, Q (s.robAt n) := by
    intro n; by_cases hn : n < s.rob.length
    · exact hq _ (s.robAt_mem hn)
    · rw [s.robAt_of_le (by omega)]; exact hfree
  refine commit_keeps (P := fun u => ∀ e ∈ u.rob, Q e) h hq (fun _ => hq) (fun v _ hv => ?_)
  cases hv with
  | halt =>
    intro e he
    rcases List.mem_or_eq_of_mem_set he with h | rfl
    · exact hq e h
    · exact hE _ (hat _)
  | retire i x hi hx =>
    obtain ⟨fl, rst, hf⟩ := commitFlags_eq i.profile.fw (s.robAt s.head) x
    obtain ⟨y, tr, hy, hyr, h⟩ := commitRetire_eq i.profile.retire (s.robAt s.head) { x with flags := fl, rst := rst }
    rw [hf, hy]
    have hx' : x.rob = s.rob := by
      rcases commitDest_ok_cases hx with ⟨_, _, _, rfl⟩ | ⟨_, _, _, hm, rfl⟩ | ⟨_, rfl⟩ <;> rfl
    have hyq : ∀ e ∈ y.rob, Q e := by
      rw [hyr]
      have hem : ∀ s' : State, s'.rob = s.rob → ∀ e ∈ emptySlots s'.rob s'.flushed, Q e := by
        intro s' hs' e he
        rcases mem_emptySlots he with h | ⟨x, hx, rfl⟩
        · exact hq e (hs' ▸ h)
        · exact hE _ (hq x (hs' ▸ hx))
      rcases resolveBranch_cases i.profile.retire (s.robAt s.head) { x with flags := fl, rst := rst } with
        ⟨_, h⟩ | ⟨_, h⟩ | ⟨_, _, _, h⟩ | ⟨_, _, _, h⟩ | ⟨_, h⟩ <;> rw [h]
      · intro e he; exact hq e (hx' ▸ he)
      · exact hem { x with flags := fl, rst := rst } hx'
      · intro e he; exact hq e (hx' ▸ he)
      · exact hem ({ x with flags := fl, rst := rst } : State).countBranch.countMispredict hx'
      · intro e he; exact hq e (hx' ▸ he)
    intro e he
    rcases List.mem_or_eq_of_mem_set he with h | rfl
    · exact hyq e h
    · refine hE _ ?_
      by_cases hn : y.head < y.rob.length
      · exact hyq _ (State.robAt_mem y hn)
      · show Q ((y.emitTrace tr).robAt _)
        have : (y.emitTrace tr).robAt (y.emitTrace tr).head = y.robAt y.head := rfl
        rw [this, State.robAt_of_le y (by omega)]; exact hfree
  | _ => exact hq

/-- A property of ROB entries that a broadcast and a store's data keep, and that a new entry has, is kept by the later moves. -/
theorem late_rob {Q : RobEntry → Prop} (hfree : Q RobEntry.free) (hR : ∀ e r, Q e → Q (e.receive r))
    (hv : ∀ e v, Q e → Q { e with value := v })
    (hA : ∀ (i : Instr) (pc u), i.illFormed = none → Q { pc := pc, uop := u, status := .executing, value := 0#32, target := 0#32
                                                         flags := 0#4, ready := false, halt := false, dest := i.dest })
    {u v : State} (hm : LateMove u v) (hq : ∀ e ∈ u.rob, Q e) : ∀ e ∈ v.rob, Q e := by
  have hat : ∀ n, Q (u.robAt n) := by
    intro n; by_cases hn : n < u.rob.length
    · exact hq _ (u.robAt_mem hn)
    · rw [u.robAt_of_le (by omega)]; exact hfree
  cases hm.update with
  | broadcast i r rest rs =>
    intro e he
    rcases List.mem_or_eq_of_mem_set he with h | rfl
    · exact hq e h
    · exact hR _ _ (hat _)
  | store c j w r n =>
    intro e he
    rcases List.mem_or_eq_of_mem_set he with h | rfl
    · exact hq e h
    · exact hv _ _ (hat _)
  | allocate i e rest j hq' hd hf hw =>
    intro e he
    rcases List.mem_or_eq_of_mem_set he with h | rfl
    · exact hq e h
    · have := hA i; rw [← i.profile_dest] at this; exact this _ _ hw
  | _ => exact hq

end Sys2Proof.Machine
end

