-- ==== Sys2Proof/Laws/Fifo.lean ====
section
/-! SUPPORT. The ROB as a FIFO (R28): which slots are occupied, and that recovery, release and allocation keep it one. -/

namespace Sys2Proof.Machine

/-- The occupied range depends on the pointers and on which slots are empty only. -/
theorem fifo_congr {s v : State} (hs : s.Fifo) (hc : v.cfg = s.cfg) (hl : v.rob.length = s.rob.length) (hh : v.head = s.head)
    (ht : v.tail = s.tail) (hst : ∀ n, ((v.robAt n).status = .empty ↔ (s.robAt n).status = .empty)) : v.Fifo := by
  have hfull : v.robFull = s.robFull := by simp [State.robFull, hh, ht, hst]
  have hocc : ∀ i, v.occupied i = s.occupied i := by
    intro i
    simp [State.occupied, State.robAge, State.robCount, hfull, hh, ht, hc]
    rfl
  refine ⟨hc ▸ hs.capacity, by rw [hc, hl]; exact hs.size, by rw [hc, hh]; exact hs.head_lt, by rw [hc, ht]; exact hs.tail_lt,
    fun i hi => ?_⟩
  rw [hocc, ← hs.occupied_iff i (hc ▸ hi), ne_eq, ne_eq, hst]

/-- `occupied` (R27) without modular arithmetic. -/
theorem occupied_iff_range (s : State) (hs : s.head < s.cfg.robCapacity) (ht : s.tail < s.cfg.robCapacity) {i : Nat}
    (hi : i < s.cfg.robCapacity) :
    s.occupied i = true ↔ (s.head = s.tail ∧ s.robFull.toNat = 1) ∨ (s.head < s.tail ∧ s.head ≤ i ∧ i < s.tail)
      ∨ (s.tail < s.head ∧ (s.head ≤ i ∨ i < s.tail)) := by
  simp only [State.occupied, decide_eq_true_eq]
  rw [robAge_eq s hi hs, robCount_eq s hs ht]
  cases s.robFull <;> simp <;> (repeat' split) <;> omega

theorem robNext_cases (s : State) {i : Nat} (h : i < s.cfg.robCapacity) :
    (i + 1 = s.cfg.robCapacity ∧ s.robNext i = 0) ∨ (i + 1 < s.cfg.robCapacity ∧ s.robNext i = i + 1) := by
  have := robNext_eq s h
  split at this <;> omega

/-- A recovery leaves exactly the committing entry in the ROB (R232). -/
theorem recover_fifo {s : State} (hs : s.Fifo) (hocc : (s.robAt s.head).status ≠ .empty) (t : Word) :
    (s.recover t).Fifo ∧ ((s.recover t).robAt s.head).status ≠ .empty := by
  have hcap := hs.capacity
  have h1 := hs.head_lt
  have hself : s.head ∉ s.flushed := by rw [mem_flushed s h1 h1, robAge_eq s h1 h1]; simp
  have hhead : ((s.recover t).robAt s.head).status ≠ .empty := by rw [recover_robAt, if_neg hself]; exact hocc
  have hn := robNext_cases s h1
  have hlt : s.robNext s.head < s.cfg.robCapacity := Nat.mod_lt _ (by omega)
  refine ⟨⟨hs.capacity, by simp [State.recover, emptySlots_length, hs.size], h1, hlt, fun i hi => ?_⟩, hhead⟩
  have hi' : i < s.cfg.robCapacity := hi
  have hrange : (s.recover t).occupied i = true ↔ i = s.head := by
    rw [occupied_iff_range (s.recover t) h1 hlt hi]
    have htl : (s.recover t).tail = s.robNext s.head := rfl
    have hhd : (s.recover t).head = s.head := rfl
    rw [htl, hhd]
    omega
  rw [hrange, recover_robAt]
  constructor
  · intro h
    by_contra hne
    have hnot : i ∉ s.flushed := fun h2 => by simp [h2] at h
    rw [if_neg hnot] at h
    refine hnot ((mem_flushed s hi h1).mpr ⟨?_, by simpa [State.occupied] using (hs.occupied_iff i hi).mp h⟩)
    rw [robAge_eq s hi h1]
    split <;> omega
  · rintro rfl
    rw [if_neg hself]
    exact hocc

/-- The release of an occupied head slot (R219). -/
theorem releaseHead_fifo {s : State} (hs : s.Fifo) (hocc : (s.robAt s.head).status ≠ .empty) : s.releaseHead.Fifo := by
  have hcap := hs.capacity
  have h1 := hs.head_lt
  have h2 := hs.tail_lt
  have hn := robNext_cases s h1
  have hlt : s.robNext s.head < s.cfg.robCapacity := Nat.mod_lt _ (by omega)
  have hat : ∀ i, (s.releaseHead.robAt i).status = if i = s.head then .empty else (s.robAt i).status := by
    intro i
    have hset := State.robAt_setRob s s.head i { s.robAt s.head with status := .empty } (by rw [hs.size]; exact h1)
    show ((State.setRob s s.head _).robAt i).status = _
    rw [hset]
    split <;> rfl
  refine ⟨hs.capacity, by simp [State.releaseHead, hs.size], hlt, h2, fun i hi => ?_⟩
  have hi' : i < s.cfg.robCapacity := hi
  rw [occupied_iff_range s.releaseHead hlt h2 hi, hat]
  have hh : s.releaseHead.head = s.robNext s.head := rfl
  have ht : s.releaseHead.tail = s.tail := rfl
  have hho := (hs.occupied_iff s.head h1).mp hocc
  rw [occupied_iff_range s h1 h2 h1] at hho
  have hnx := hs.occupied_iff _ hlt
  rw [occupied_iff_range s h1 h2 hlt] at hnx
  have hfull : s.releaseHead.robFull.toNat = 1 ↔
      s.robNext s.head = s.tail ∧ (s.robAt (s.robNext s.head)).status ≠ .empty := by
    have hne : s.robNext s.head ≠ s.head := by omega
    simp only [State.robFull, hh, ht, hat, Bool.toNat_eq_one, Bool.and_eq_true, decide_eq_true_eq, if_neg hne]
  rw [hnx] at hfull
  rw [hh, ht]
  clear hnx hat
  generalize s.releaseHead.robFull.toNat = G at *
  generalize s.robNext s.head = N at *
  clear hh ht hi
  by_cases hi2 : i = s.head
  · subst hi2
    simp only [if_true, ne_eq, not_true, false_iff]
    omega
  · rw [if_neg hi2, hs.occupied_iff i hi', occupied_iff_range s h1 h2 hi']
    generalize s.robFull.toNat = F at *
    clear hs hocc
    generalize s.head = H at *
    generalize s.tail = T at *
    generalize s.cfg.robCapacity = C at *
    rcases hn with ⟨ha, rfl⟩ | ⟨ha, rfl⟩ <;> rcases Nat.lt_trichotomy H T with hc | hc | hc <;> omega

/-- R232: after a recovery and the release of the head slot the ROB is empty. -/
theorem recover_releaseHead_empty {s : State} (hs : s.Fifo) (hocc : (s.robAt s.head).status ≠ .empty) (target : Word) :
    (s.recover target).releaseHead.robEmpty = true ∧ (s.recover target).releaseHead.robCount = 0 := by
  obtain ⟨a, -⟩ := recover_fifo hs hocc target
  have hcap := hs.capacity
  have hht : (s.recover target).releaseHead.head = (s.recover target).releaseHead.tail := rfl
  have hlt : s.robNext s.head < s.cfg.robCapacity := Nat.mod_lt _ (by omega)
  have hne : s.robNext s.head ≠ s.head := by rcases robNext_cases s hs.head_lt with h | h <;> omega
  have hnext : ((s.recover target).robAt (s.robNext s.head)).status = .empty := by
    by_contra hcon
    have hr := (a.occupied_iff _ hlt).mp hcon
    have htail : (s.recover target).tail = s.robNext s.head := rfl
    have hhead : (s.recover target).head = s.head := rfl
    rw [occupied_iff_range _ a.head_lt a.tail_lt hlt, htail, hhead] at hr
    omega
  have hat := State.robAt_setRob (s.recover target) s.head (s.robNext s.head)
    { (s.recover target).robAt s.head with status := .empty } (by rw [a.size]; exact hs.head_lt)
  rw [if_neg hne] at hat
  have hst : ((s.recover target).releaseHead.robAt (s.recover target).releaseHead.head).status = .empty :=
    (congrArg RobEntry.status hat).trans hnext
  have hfull : (s.recover target).releaseHead.robFull = false := by
    unfold State.robFull
    rw [hst]
    simp
  exact ⟨by unfold State.robEmpty; rw [hst, hht]; simp, by unfold State.robCount; rw [hfull, if_pos hht]; rfl⟩

/-- The allocation of a slot where the ROB is not full (R140). -/
theorem allocate_fifo {s : State} (hs : s.Fifo) (hf : s.robFull = false) (pr : Profile) (e : IqEntry) (rest : List IqEntry)
    (j : Nat) : (s.allocate pr e rest j).Fifo := by
  have hcap := hs.capacity
  have h1 := hs.head_lt
  have h2 := hs.tail_lt
  have hn := robNext_cases s h2
  have hlt : s.robNext s.tail < s.cfg.robCapacity := Nat.mod_lt _ (by omega)
  have hat : ∀ i, ((s.allocate pr e rest j).robAt i).status = if i = s.tail then .executing else (s.robAt i).status := by
    intro i
    show ((State.setRob s s.tail _).robAt i).status = _
    rw [State.robAt_setRob s s.tail i _ (by rw [hs.size]; exact h2)]
    split <;> rfl
  refine ⟨hs.capacity, by simp [State.allocate, hs.size], h1, hlt, fun i hi => ?_⟩
  have hi' : i < s.cfg.robCapacity := hi
  rw [occupied_iff_range (s.allocate pr e rest j) h1 hlt hi, hat]
  have hh : (s.allocate pr e rest j).head = s.head := rfl
  have ht : (s.allocate pr e rest j).tail = s.robNext s.tail := rfl
  rw [hh, ht]
  have hho := hs.occupied_iff s.head h1
  rw [occupied_iff_range s h1 h2 h1] at hho
  have hfull : s.head = s.robNext s.tail → ((s.allocate pr e rest j).robFull.toNat = 1 ↔
      s.head = s.robNext s.tail ∧ (s.robAt s.head).status ≠ .empty) := by
    intro h
    have hne : s.head ≠ s.tail := by omega
    simp only [State.robFull, hh, ht, hat, Bool.toNat_eq_one, Bool.and_eq_true, decide_eq_true_eq, if_neg hne]
  rw [hho] at hfull
  have hf' : s.robFull.toNat = 0 := by rw [hf]; rfl
  clear hat
  generalize (s.allocate pr e rest j).robFull.toNat = G at *
  generalize s.robNext s.tail = N at *
  clear hh ht hi
  by_cases hi2 : i = s.tail
  · subst hi2
    simp only [if_true, ne_eq, reduceCtorEq, not_false_eq_true, true_iff]
    rcases hn with ⟨ha, rfl⟩ | ⟨ha, rfl⟩ <;> rcases Nat.lt_trichotomy s.head s.tail with hc | hc | hc <;> omega
  · rw [if_neg hi2, hs.occupied_iff i hi', occupied_iff_range s h1 h2 hi']
    generalize s.robFull.toNat = F at *
    clear hs hf
    generalize s.head = H at *
    generalize s.tail = T at *
    generalize s.cfg.robCapacity = C at *
    rcases hn with ⟨ha, rfl⟩ | ⟨ha, rfl⟩ <;> rcases Nat.lt_trichotomy H T with hc | hc | hc <;> omega

end Sys2Proof.Machine
end

