-- ==== Sys2Proof/Laws/Alone.lean ====
section
/-! SUPPORT. The cycles of a machine that holds one micro-op: a cycle from what its stages answer, a front end with nothing to do,
the selection of the only ready entry, the countdown of the only delayed record, the last cycle. -/

namespace Sys2Proof.Machine

/-- The end of a cycle in which fetch was stalled: the fetch delay has counted down, the cycle is counted. -/
def State.tickOver (s : State) : State :=
  { s with fetchDelay := s.fetchDelay - 1, counters := { s.counters with cycles := s.counters.cycles + 1 }, act := .issue }

/-- The front end has nothing to do. -/
structure State.FrontIdle (s : State) : Prop where
  fb : s.fb = []
  stalled : s.fetchStall = true

theorem fetchStage_stalled {s : State} (h : s.FrontIdle) : fetchStage s = .next { s with fetchDelay := s.fetchDelay - 1 } := by
  unfold fetchStage
  split
  · rfl
  · next h0 =>
    have hz : s.fetchDelay - 1 = s.fetchDelay := by omega
    rw [if_pos h.stalled, hz]

theorem decodeStage_idle {s : State} (h : s.FrontIdle) : decodeStage s = .next s := by
  unfold decodeStage
  rw [h.fb]

/-- A cycle from what its first four stages answer, where the front end has nothing to do. -/
theorem step_of_stages {s u v w x : State} (ht : s.terminal = false) (hu : commitStage s = .next u) (huf : u.fatal = none)
    (huh : u.halted = false) (hv : writebackStage u = .next v) (hvf : v.fatal = none) (hw : executeStage v = .next w)
    (hwf : w.fatal = none) (hx : issueStage w = .next x) (hxf : x.fatal = none) (hfront : x.FrontIdle) :
    step s = .next x.tickOver := by
  have hlater : laterStages u = .next { x with fetchDelay := x.fetchDelay - 1 } := by
    simp [laterStages, andThen, hv, hvf, hw, hwf, hx, hxf, decodeStage_idle hfront, fetchStage_stalled hfront]
  have hcycle : cycleStages s = .next { x with fetchDelay := x.fetchDelay - 1 } := by
    simp [cycleStages, andThen, hu, huf, huh, hlater]
  rw [step, ht, hcycle]
  simp [endCycle, hxf, State.countCycle, State.doing, State.tickOver]

theorem commitStage_idle {s : State} (h : s.commitGate = .idle) : commitStage s = .next s := by
  unfold commitStage
  rw [h]

theorem issueStage_empty {s : State} (h : s.iq = []) : issueStage s = .next s := by
  unfold issueStage
  rw [h]

theorem drain_empty (k : Nat) {s : State} (h : s.cq = []) : drain k s = .next s := by
  cases k with
  | zero => rfl
  | succ k => unfold drain; rw [h]

/-- A writeback in which no record reaches zero and none is queued. -/
theorem writebackStage_waiting {s : State} (hc : s.cq = []) (hd : completed s.dly = []) :
    writebackStage s = .next { s with dly := countedDown s.dly } := by
  unfold writebackStage
  rw [drain_empty]
  · simp [State.ageDelays, hc, hd]
  · simp [State.ageDelays, hc, hd]

/-- A writeback with nothing on its way. -/
theorem writebackStage_none {s : State} (hc : s.cq = []) (hd : s.dly = []) : writebackStage s = .next s := by
  rw [writebackStage_waiting hc (by rw [hd]; rfl), hd, countedDown, ← hd]

/-- A writeback in which the only record reaches zero. -/
theorem writebackStage_one {s : State} {r : BusRecord} {i : Instr} (hk : 1 ≤ s.cfg.cdbWidth) (hc : s.cq = [])
    (hd : s.dly = [{ record := r, ctr := 1 }]) (hi : decode (s.robAt r.p).uop = .ok i) (hf : s.fatal = none) :
    writebackStage s = .next (broadcastUop i.profile r ({ s with dly := [] }.doing (.broadcast r))) := by
  obtain ⟨k, hk⟩ : ∃ k, s.cfg.cdbWidth = k + 1 := ⟨s.cfg.cdbWidth - 1, by omega⟩
  have hage : s.ageDelays = { s with dly := [], cq := [r] } := by
    simp [State.ageDelays, hc, hd, countedDown, completed]
  unfold writebackStage
  rw [hk, hage]
  unfold drain
  have hexec : execRecord (s.robAt r.p).uop (.broadcast r) { s with dly := [], cq := [] }
      = .next (broadcastUop i.profile r ({ s with dly := [], cq := [] }.doing (.broadcast r))) := execRecord_ok hi _ _
  have hs : ({ s with dly := [] } : State) = { s with dly := [], cq := [] } := by rw [← hc]
  rw [hs]
  obtain ⟨rs, hrs⟩ := broadcastUop_eq i.profile r ({ s with dly := [], cq := [] }.doing (.broadcast r))
  show andThen (execRecord (s.robAt r.p).uop (.broadcast r) { s with dly := [], cq := [] }) (drain k) = _
  rw [hexec]
  have hnf : (broadcastUop i.profile r ({ s with dly := [], cq := [] }.doing (.broadcast r))).fatal.isSome = false := by
    rw [hrs]
    show s.fatal.isSome = false
    rw [hf]
    rfl
  simp only [andThen, hnf]
  exact drain_empty k (by rw [hrs]; rfl)

theorem rsAt_eq_free {s : State} {c : FuClass} {j : Nat} (h : (s.rs.get c).length ≤ j) : s.rsAt c j = RsEntry.free := by
  simp [State.rsAt, List.getD, h]

/-- A class with no ready entry starts nothing. -/
theorem selectClass_none {s : State} {c : FuClass} (h : ∀ j, (s.rsAt c j).isReady = false) : selectClass c s = .next s := by
  have hn : s.candidates c = [] := List.eq_nil_iff_forall_not_mem.mpr fun j hj => by
    obtain ⟨_, h2⟩ := mem_candidates.mp hj
    simp [h j] at h2
  rw [selectClass, hn, startEntries]

/-- A class whose only ready entry is in slot 0 starts that one. -/
theorem selectClass_one {s : State} {c : FuClass} {i : Instr} (hu : 1 ≤ s.cfg.units.get c) (h0 : (s.rsAt c 0).isReady = true)
    (hn : ∀ j, j ≠ 0 → (s.rsAt c j).isReady = false) (hd : decode (s.rsAt c 0).uop = .ok i) :
    selectClass c s = .next (startUop i.profile c 0 (s.doing (.start c 0))) := by
  have hlen : 0 < (s.rs.get c).length := by
    by_contra hcon
    rw [rsAt_eq_free (by omega)] at h0
    simp [RsEntry.isReady, RsEntry.free] at h0
  have hc : s.candidates c = [0] := by
    have hperm : (s.candidates c).Perm [0] := by
      refine (List.perm_ext_iff_of_nodup (candidates_nodup s c) (by simp)).mpr fun j => ?_
      rw [mem_candidates, List.mem_singleton]
      constructor
      · intro ⟨_, h⟩
        by_contra hj
        simp [hn j hj] at h
      · rintro rfl
        exact ⟨hlen, h0⟩
    exact List.perm_singleton.mp hperm
  have hz : ¬ s.cfg.units.get c ≤ 0 := by omega
  rw [selectClass, hc, startEntries, if_neg hz, execRecord_ok hd]
  have hp : (s.doing (.start c 0)).passage i.profile = startUop i.profile c 0 (s.doing (.start c 0)) := rfl
  rw [hp]
  simp [andThen, startEntries]

/-- Execute with an empty load queue and no ready entry. -/
theorem executeStage_idle {s : State} (hf : s.fatal = none) (hl : s.lq = []) (hr : ∀ c j, (s.rsAt c j).isReady = false) :
    executeStage s = .next s := by
  have hscan : lqScan s = .next s := by
    unfold lqScan
    rw [hl, scanLoads]
    rw [← hl]
  simp [executeStage, hscan, andThen, hf, selectClass_none (hr _)]

/-- Execute with an empty load queue where slot 0 of one class holds the only ready entry, and starting it leaves the other classes
as they are. -/
theorem executeStage_one {s t : State} {c : FuClass} {i : Instr} (hf : s.fatal = none) (hl : s.lq = [])
    (hu : 1 ≤ s.cfg.units.get c) (h0 : (s.rsAt c 0).isReady = true)
    (hn : ∀ d j, d ≠ c ∨ j ≠ 0 → (s.rsAt d j).isReady = false) (hd : decode (s.rsAt c 0).uop = .ok i)
    (ht : startUop i.profile c 0 (s.doing (.start c 0)) = t) (htf : t.fatal = none)
    (hother : ∀ d, d ≠ c → t.rs.get d = s.rs.get d) : executeStage s = .next t := by
  have hscan : lqScan s = .next s := by
    unfold lqScan
    rw [hl, scanLoads]
    rw [← hl]
  have hone : selectClass c s = .next t := ht ▸ selectClass_one hu h0 (fun j hj => hn c j (.inr hj)) hd
  have before : ∀ d, d ≠ c → selectClass d s = .next s := fun d hdc => selectClass_none fun j => hn d j (.inl hdc)
  have after : ∀ d, d ≠ c → selectClass d t = .next t := fun d hdc => selectClass_none fun j => by
    have h := hn d j (.inl hdc)
    unfold State.rsAt at h ⊢
    rw [hother d hdc]
    exact h
  cases c <;> simp [executeStage, hscan, andThen, hf, htf, hone, before, after]

theorem run_succ {s t : State} (h : step s = .next t) (n : Nat) : Sys2Proof.core.run (n + 1) s = Sys2Proof.core.run n t := by
  have hcore : Sys2Proof.core.step s = .next t := h
  simp only [Host.Core.run, hcore]

theorem isReady_of_not_busy {e : RsEntry} (h : e.busy = false) : e.isReady = false := by simp [RsEntry.isReady, h]

theorem rsAt_not_busy {s : State} {c : FuClass} (h : ∀ e ∈ s.rs.get c, e.busy = false) (j : Nat) :
    (s.rsAt c j).busy = false := by
  by_cases hj : j < (s.rs.get c).length
  · exact h _ (s.rsAt_mem c hj)
  · rw [rsAt_eq_free (by omega)]
    rfl

theorem State.fatal_none {s : State} (h : s.terminal = false) : s.fatal = none := by
  unfold State.terminal at h
  simp at h
  exact h.2

theorem State.halted_false {s : State} (h : s.terminal = false) : s.halted = false := by
  unfold State.terminal at h
  simp at h
  exact h.1

theorem robAt_set (s : State) {k : Nat} (hk : k < s.rob.length) (e : RobEntry) (j : Nat) :
    (s.rob.set k e).getD j RobEntry.free = if j = k then e else s.robAt j := State.robAt_setRob s k j e hk

/-- The bounds of R10 that a passage needs. -/
theorem Cfg.ok_bounds {c : Cfg} (h : c.ok = true) :
    (∀ k, 1 ≤ c.units.get k) ∧ (∀ k, 1 ≤ c.rsSize.get k) ∧ 1 ≤ c.cdbWidth ∧ 1 ≤ c.lqCap ∧ 1 ≤ c.memPorts ∧ 1 ≤ c.latLs ∧ 1 ≤ c.latCtrl
      ∧ 1 ≤ c.latLoad := by
  unfold Cfg.ok at h
  simp at h
  refine ⟨fun k => ?_, fun k => ?_, ?_⟩
  · cases k <;> simp [PerClass.get] <;> omega
  · cases k <;> simp [PerClass.get] <;> omega
  · omega

/-! One micro-op in flight: issued and not yet broadcast. -/

/-- The micro-op `i` is alone in the back end: `E` is its ROB entry, at the head, not ready; `e` is its station, slot 0. -/
structure OneInFlight (s : State) (i : Instr) (E : RobEntry) (e : RsEntry) : Prop where
  ok : s.cfg.ok = true
  running : s.terminal = false
  act : s.act = .issue
  robSize : s.rob.length = s.cfg.robCapacity
  head_lt : s.head < s.cfg.robCapacity
  tail : s.tail = s.robNext s.head
  entry : s.robAt s.head = E
  status : E.status = .executing
  notReady : E.ready = false
  others : ∀ k, k ≠ s.head → (s.robAt k).status = .empty
  uop : decode E.uop = .ok i
  station : s.rsAt i.cls 0 = e
  stations : ∀ d j, d ≠ i.cls ∨ j ≠ 0 → (s.rsAt d j).busy = false
  slots : 0 < (s.rs.get i.cls).length
  edest : e.dest = s.head
  euop : e.uop = E.uop
  cq : s.cq = []
  fb : s.fb = []
  iq : s.iq = []
  stalled : s.fetchStall = true

/-- The architectural state, the configuration, `RST`, the head and the count of commits are those of `s`. -/
structure Undisturbed (s t : State) : Prop where
  cfg : t.cfg = s.cfg
  regs : t.regs = s.regs
  flags : t.flags = s.flags
  mem : t.mem = s.mem
  rst : t.rst = s.rst
  head : t.head = s.head
  counters : t.counters.committed = s.counters.committed ∧ t.counters.branches = s.counters.branches
    ∧ t.counters.mispredicts = s.counters.mispredicts
  out : t.out = s.out
  specPc : t.specPc = s.specPc

theorem Undisturbed.trans {s t u : State} (h : Undisturbed s t) (k : Undisturbed t u) : Undisturbed s u :=
  ⟨k.cfg.trans h.cfg, k.regs.trans h.regs, k.flags.trans h.flags, k.mem.trans h.mem, k.rst.trans h.rst, k.head.trans h.head,
    ⟨k.counters.1.trans h.counters.1, k.counters.2.1.trans h.counters.2.1, k.counters.2.2.trans h.counters.2.2⟩, k.out.trans h.out,
    k.specPc.trans h.specPc⟩

namespace OneInFlight

variable {s : State} {i : Instr} {E : RobEntry} {e : RsEntry}

theorem idle (h : OneInFlight s i E e) : commitStage s = .next s := by
  refine commitStage_idle ?_
  unfold State.commitGate
  rw [h.entry, h.status]
  simp [h.notReady]

theorem noneReady (h : OneInFlight s i E e) (hb : e.isReady = false) (c : FuClass) (j : Nat) : (s.rsAt c j).isReady = false := by
  by_cases hcj : c ≠ i.cls ∨ j ≠ 0
  · exact isReady_of_not_busy (h.stations c j hcj)
  · push Not at hcj
    obtain ⟨rfl, rfl⟩ := hcj
    exact (congrArg RsEntry.isReady h.station).trans hb

/-- A cycle in which the only record on the delay list counts down. -/
theorem wait (h : OneInFlight s i E e) {r : BusRecord} {n : Nat} (hb : e.isReady = false) (hl : s.lq = [])
    (hd : s.dly = [{ record := r, ctr := n + 2 }]) :
    step s = .next ({ s with dly := [{ record := r, ctr := n + 1 }] } : State).tickOver
      ∧ OneInFlight ({ s with dly := [{ record := r, ctr := n + 1 }] } : State).tickOver i E e := by
  have hf := State.fatal_none h.running
  have hwb : writebackStage s = .next { s with dly := [{ record := r, ctr := n + 1 }] } := by
    rw [writebackStage_waiting h.cq (by simp [hd, completed])]
    simp [hd, countedDown]
  refine ⟨step_of_stages h.running h.idle hf (State.halted_false h.running) hwb hf
    (executeStage_idle hf hl (h.noneReady hb)) hf (issueStage_empty h.iq) hf ⟨h.fb, h.stalled⟩, ?_⟩
  exact ⟨h.ok, h.running, rfl, h.robSize, h.head_lt, h.tail, h.entry, h.status, h.notReady, h.others, h.uop, h.station, h.stations,
    h.slots, h.edest, h.euop, h.cq, h.fb, h.iq, h.stalled⟩

/-- As many cycles as the record takes to reach its last. -/
theorem waits {r : BusRecord} (hb : e.isReady = false) (n : Nat) {s : State} (h : OneInFlight s i E e) (hl : s.lq = [])
    (hd : s.dly = [{ record := r, ctr := n + 1 }]) :
    ∃ t : State, (∀ k, Sys2Proof.core.run (n + k) s = Sys2Proof.core.run k t) ∧ OneInFlight t i E e ∧ t.lq = []
      ∧ t.dly = [{ record := r, ctr := 1 }] ∧ Undisturbed s t := by
  induction n generalizing s with
  | zero =>
    exact ⟨s, fun k => by rw [Nat.zero_add], h, hl, hd, rfl, rfl, rfl, rfl, rfl, rfl, ⟨rfl, rfl, rfl⟩, rfl, rfl⟩
  | succ n ih =>
    obtain ⟨h1, h2⟩ := h.wait hb hl hd
    obtain ⟨t, a, b, c, d, k⟩ := ih h2 hl rfl
    refine ⟨t, fun m => ?_, b, c, d, k.cfg, k.regs, k.flags, k.mem, k.rst, k.head, k.counters, k.out, k.specPc⟩
    rw [← a m, show n + 1 + m = (n + m) + 1 by omega]
    exact run_succ h1 _

end OneInFlight

/-- The ROB entry of a micro-op that has just been issued (R144, R148). -/
def RobEntry.issued (pc : Word) (u : Record) (d : Dest) : RobEntry :=
  { pc := pc, uop := u, status := .executing, value := 0#32, target := 0#32, flags := 0#4, ready := false, halt := false, dest := d }

/-- The station of a micro-op that has just been issued (R145, R146). -/
def State.stationOf (s : State) (i : Instr) (u : Record) : RsEntry :=
  { busy := true, op0 := s.rename i.profile.src0, op1 := s.rename i.profile.src1, op2 := s.rename i.profile.src2, dest := s.head
    uop := u, sf := decide (i.profile.fw ≠ 0#4), disp := false }

/-- The first cycle of a micro-op alone: it is issued. -/
theorem lone_issue {s : State} {pc : Word} {u : Record} {i : Instr} (h : s.Lone pc u) (hd : decode u = .ok i) (hw : i.wf = true) :
    ∃ t, step s = .next t ∧ OneInFlight t i (.issued pc u i.dest) (s.stationOf i u) ∧ t.lq = [] ∧ t.dly = []
      ∧ Undisturbed { s with rst := t.rst } t ∧ ∀ r, t.rst.get r = if writesSlot i.dest i.fw r then some s.head else none := by
  have hfat := State.fatal_none h.running
  have hst : ∀ k, (s.robAt k).status = .empty := by
    intro k
    by_cases hk : k < s.rob.length
    · exact h.rob _ (s.robAt_mem hk)
    · rw [s.robAt_of_le (by omega)]
      rfl
  have hfull : s.robFull = false := by simp [State.robFull, hst]
  have hill : i.illFormed = none := by
    unfold Instr.wf at hw
    simpa using hw
  have hlen : 0 < (s.rs.get i.cls).length := by
    rw [h.rsSize]
    exact (Cfg.ok_bounds h.ok).2.1 _
  have hslot : freeSlot (s.rs.get i.profile.cls) = some 0 := by
    rw [i.profile_cls]
    cases hl : s.rs.get i.cls with
    | nil => rw [hl] at hlen; simp at hlen
    | cons a l => simp [freeSlot, h.rs i.cls a (by simp [hl])]
  have hissue : issueStage s = .next (s.allocate i.profile { pc := pc, uop := u } [] 0) := by
    unfold issueStage
    rw [h.iq]
    dsimp only
    rw [hd]
    dsimp only
    rw [doing_act h.act, exec_of_issue i h.act]
    unfold issueUop
    rw [h.iq]
    simp [hfull, i.profile_ill, hill, hslot]
  have hidle : commitStage s = .next s := commitStage_idle (by unfold State.commitGate; rw [hst])
  have hready : ∀ c j, (s.rsAt c j).isReady = false := fun c j => isReady_of_not_busy (rsAt_not_busy (h.rs c) j)
  refine ⟨_, step_of_stages h.running hidle hfat (State.halted_false h.running) (writebackStage_none h.cq h.dly) hfat
    (executeStage_idle hfat h.lq hready) hfat hissue hfat ⟨h.fb, h.stalled⟩, ?_, h.lq, h.dly,
    ⟨rfl, rfl, rfl, rfl, rfl, rfl, ⟨rfl, rfl, rfl⟩, rfl, rfl⟩, ?_⟩
  · have hp : s.head < s.rob.length := by
      rw [h.robSize]
      exact h.head_lt
    have hat : ∀ k, (s.rob.set s.tail (.issued pc u i.profile.dest)).getD k RobEntry.free
        = if k = s.head then .issued pc u i.dest else s.robAt k := by
      intro k
      rw [← h.head_tail, i.profile_dest]
      exact robAt_set s hp _ k
    refine ⟨h.ok, h.running, rfl, by simp [State.tickOver, State.allocate, h.robSize], h.head_lt, ?_, (hat _).trans (if_pos rfl), rfl,
      rfl, ?_, hd, ?_, ?_, ?_, rfl, rfl, h.cq, h.fb, rfl, h.stalled⟩
    · show s.robNext s.tail = s.robNext s.head
      rw [h.head_tail]
    · intro k hk
      have hk' : k ≠ s.head := hk
      exact (congrArg RobEntry.status (hat k)).trans (by rw [if_neg hk']; exact hst k)
    · show ((s.rs.set i.profile.cls _).get i.cls).getD 0 RsEntry.free = _
      rw [i.profile_cls, PerClass.get_set, if_pos rfl]
      simp [hlen, h.head_tail, State.stationOf]
    · intro d j hdj
      show (((s.rs.set i.profile.cls _).get d).getD j RsEntry.free).busy = _
      rw [i.profile_cls, PerClass.get_set]
      split
      · next hdc =>
        have hj : j ≠ 0 := hdj.resolve_left (fun hne => hne hdc)
        subst hdc
        have hb := rsAt_not_busy (h.rs i.cls) j
        simpa [State.rsAt, List.getD, List.getElem?_set_ne (Ne.symm hj)] using hb
      · exact rsAt_not_busy (h.rs d) j
    · show 0 < ((s.rs.set i.profile.cls _).get i.cls).length
      rw [i.profile_cls, PerClass.get_set, if_pos rfl]
      simpa using hlen
  · intro r
    show (s.rst.claim i.profile.dest i.profile.fw s.tail).get r = _
    rw [Rst.get_claim, i.profile_dest, i.profile_fw, h.head_tail, h.rst]

/-- The state in which slot 0 of class `c` has been started, with what a start can change: the ROB entry at the head, the delay list,
the load queue and the output. -/
def State.startedWith (s : State) (c : FuClass) (E : RobEntry) (out : List OutEvent) (d : List Delayed) (lq : List LqEntry) : State :=
  { s with act := .start c 0, rob := s.rob.set s.head E, out := out, dly := d, lq := lq, rs := s.startedSets c 0 }

/-- The second cycle of a micro-op alone: it is started. -/
theorem OneInFlight.start {s : State} {i : Instr} {E F : RobEntry} {e : RsEntry} {out : List OutEvent} {d : List Delayed}
    {lq : List LqEntry} (h : OneInFlight s i E e) (hb : e.isReady = true) (hl : s.lq = []) (hd : s.dly = []) (hu : F.uop = E.uop)
    (hst : F.status = .executing) (hr : F.ready = false)
    (hs : startUop i.profile i.cls 0 (s.doing (.start i.cls 0)) = s.startedWith i.cls F out d lq) :
    step s = .next (s.startedWith i.cls F out d lq).tickOver
      ∧ OneInFlight (s.startedWith i.cls F out d lq).tickOver i F { e with disp := true } := by
  have hf := State.fatal_none h.running
  have hlt : s.head < s.rob.length := by
    rw [h.robSize]
    exact h.head_lt
  have hdec : decode (s.rsAt i.cls 0).uop = .ok i := by
    rw [h.station, h.euop]
    exact h.uop
  have hex : executeStage s = .next (s.startedWith i.cls F out d lq) := by
    refine executeStage_one hf hl ((Cfg.ok_bounds h.ok).1 _) (by rw [h.station]; exact hb)
      (fun d j hdj => isReady_of_not_busy (h.stations d j hdj)) hdec hs hf fun c hc => ?_
    show (s.rs.set _ _).get c = _
    rw [PerClass.get_set, if_neg hc]
  refine ⟨step_of_stages h.running h.idle hf (State.halted_false h.running) (writebackStage_none h.cq hd) hf hex hf
    (issueStage_empty h.iq) hf ⟨h.fb, h.stalled⟩, ?_⟩
  refine ⟨h.ok, h.running, rfl, by simp [State.tickOver, State.startedWith, h.robSize], h.head_lt, h.tail,
    (robAt_set s hlt F s.head).trans (if_pos rfl), hst, hr, ?_, hu ▸ h.uop, ?_, ?_, ?_, h.edest, h.euop.trans hu.symm, h.cq, h.fb,
    h.iq, h.stalled⟩
  · intro k hk
    have hk' : k ≠ s.head := hk
    exact (congrArg RobEntry.status (robAt_set s hlt F k)).trans (by rw [if_neg hk']; exact h.others k hk')
  · show ((s.rs.set _ _).get _).getD 0 _ = _
    rw [PerClass.get_set, if_pos rfl]
    simp [h.slots, h.station]
  · intro c j hcj
    show (((s.rs.set _ _).get c).getD j RsEntry.free).busy = _
    rw [PerClass.get_set]
    split
    · next hdc =>
      have hj : j ≠ 0 := hcj.resolve_left (fun hne => hne hdc)
      have hb := h.stations c j (.inr hj)
      subst hdc
      simpa [State.rsAt, List.getD, List.getElem?_set_ne (Ne.symm hj)] using hb
    · next hdc => exact h.stations c j (.inl hdc)
  · show 0 < ((s.rs.set _ _).get _).length
    rw [PerClass.get_set, if_pos rfl]
    simpa using h.slots

/-! One micro-op ready to commit. -/

/-- The micro-op `i` is alone in the machine, its ROB entry `E` at the head has been broadcast. -/
structure OneReady (s : State) (i : Instr) (E : RobEntry) : Prop where
  running : s.terminal = false
  act : s.act = .issue
  robSize : s.rob.length = s.cfg.robCapacity
  head_lt : s.head < s.cfg.robCapacity
  tail : s.tail = s.robNext s.head
  entry : s.robAt s.head = E
  status : E.status = .executing
  ready : E.ready = true
  others : ∀ k, k ≠ s.head → (s.robAt k).status = .empty
  uop : decode E.uop = .ok i
  stations : ∀ d j, (s.rsAt d j).busy = false
  lq : s.lq = []
  cq : s.cq = []
  dly : s.dly = []
  fb : s.fb = []
  iq : s.iq = []
  stalled : s.fetchStall = true

/-- The cycle in which the only record is broadcast. -/
theorem OneInFlight.land {s : State} {i : Instr} {E : RobEntry} {e : RsEntry} {r : BusRecord} (h : OneInFlight s i E e)
    (hl : s.lq = []) (hd : s.dly = [{ record := r, ctr := 1 }]) (hp : r.p = s.head) :
    ∃ t, step s = .next t ∧ OneReady t i (E.receive r) ∧ Undisturbed s t := by
  have hf := State.fatal_none h.running
  have hlt : s.head < s.rob.length := by
    rw [h.robSize]
    exact h.head_lt
  have hdec : decode (s.robAt r.p).uop = .ok i := by
    rw [hp, h.entry]
    exact h.uop
  have hwb := writebackStage_one (Cfg.ok_bounds h.ok).2.2.1 h.cq hd hdec hf
  obtain ⟨rs, hrs⟩ := broadcastUop_eq i.profile r ({ s with dly := [] }.doing (.broadcast r))
  have hfree : ∀ c j, ((rs.get c).getD j RsEntry.free).busy = false := by
    have hrs' : rs = (broadcastUop i.profile r ({ s with dly := [] }.doing (.broadcast r))).rs := by rw [hrs]
    intro c j
    by_cases hj : j < (rs.get c).length
    swap
    · simp [Nat.not_lt.mp hj, RsEntry.free]
    obtain ⟨g, hg, hsame⟩ := broadcastUop_same i.profile r ({ s with dly := [] }.doing (.broadcast r)) c
    rw [← hrs'] at hg
    have hg : rs.get c = (s.rs.get c).map g := hg
    by_cases hcj : c ≠ i.cls ∨ j ≠ 0
    · have hb := h.stations c j hcj
      rw [hg] at hj ⊢
      simp at hj
      have hgb := (hsame (s.rsAt c j)).busy
      rw [hb] at hgb
      have hz : (g (s.rsAt c j)).busy = false := by
        cases hv : (g (s.rsAt c j)).busy with
        | false => rfl
        | true => exact absurd (hgb hv) (by simp)
      simpa [State.rsAt, List.getD, hj] using hz
    · push Not at hcj
      obtain ⟨rfl, rfl⟩ := hcj
      cases hv : ((rs.get i.cls).getD 0 RsEntry.free).busy with
      | false => rfl
      | true =>
        exfalso
        have hfr := broadcastUop_frees i.profile r ({ s with dly := [] }.doing (.broadcast r))
        rw [← hrs', i.profile_cls] at hfr
        refine hfr _ (by simp [List.getD, hj]) hv ?_
        rw [hg] at hj ⊢
        simp at hj
        have hdest := (hsame (s.rsAt i.cls 0)).dest
        rw [h.station, h.edest] at hdest
        have h0 := h.station
        simp [State.rsAt, List.getD, hj] at h0
        simp [List.getD, hj, h0, hdest, hp]
  rw [hrs] at hwb
  refine ⟨_, step_of_stages h.running h.idle hf (State.halted_false h.running) hwb hf
    (executeStage_idle hf hl fun c j => isReady_of_not_busy (hfree c j)) hf (issueStage_empty h.iq) hf ⟨h.fb, h.stalled⟩, ?_,
    ⟨rfl, rfl, rfl, rfl, rfl, rfl, ⟨rfl, rfl, rfl⟩, rfl, rfl⟩⟩
  obtain ⟨_, k2, k3, _⟩ := E.receive_keeps r
  have hat : ∀ k, (s.rob.set r.p ((s.robAt r.p).receive r)).getD k RobEntry.free
      = if k = s.head then E.receive r else s.robAt k := by
    intro k
    rw [robAt_set s (hp ▸ hlt), hp, h.entry]
  refine ⟨h.running, rfl, by simp [State.tickOver, h.robSize], h.head_lt, h.tail, (hat _).trans (if_pos rfl), k3.trans h.status, ?_, ?_,
    by rw [k2]; exact h.uop, hfree, hl, h.cq, rfl, h.fb, h.iq, h.stalled⟩
  · exact E.receive_ready r
  · intro k hk
    have hk' : k ≠ s.head := hk
    exact (congrArg RobEntry.status (hat k)).trans (by rw [if_neg hk']; exact h.others k hk')

theorem OneReady.gate {s : State} {i : Instr} {E : RobEntry} (h : OneReady s i E) : s.commitGate = .go := by
  unfold State.commitGate
  rw [h.entry, h.status]
  simp [h.ready]

/-- The commit stage on the only entry. -/
theorem OneReady.commitStage {s : State} {i : Instr} {E : RobEntry} (h : OneReady s i E) :
    commitStage s = .next (commitUop i.profile (s.doing .commit)) := by
  have hdec : decode (s.robAt s.head).uop = .ok i := by
    rw [h.entry]
    exact h.uop
  unfold Machine.commitStage
  rw [h.gate]
  exact execRecord_ok hdec _ _

/-- The last cycle of a micro-op alone: what its commit leaves of the architectural state, where the commit leaves the queues empty
and fetch stalled. -/
theorem OneReady.retire {s : State} {i : Instr} {E : RobEntry} {u : State} (h : OneReady s i E)
    (hu : commitUop i.profile (s.doing .commit) = u) (hrun : u.terminal = false) (hrob : u.rob = s.rob.set s.head { E with status := .empty })
    (hhead : u.head = s.robNext s.head) (htail : u.tail = s.tail) (hrs : u.rs = s.rs) (hrst : ∀ r, u.rst.get r = none)
    (hq : u.lq = [] ∧ u.cq = [] ∧ u.dly = [] ∧ u.fb = [] ∧ u.iq = []) (hstall : u.fetchStall = true) :
    step s = .next u.tickOver ∧ u.tickOver.Drained := by
  obtain ⟨hlq, hcq, hdly, hfb, hiq⟩ := hq
  have hf := State.fatal_none hrun
  have hlt : s.head < s.rob.length := by
    rw [h.robSize]
    exact h.head_lt
  have hst : ∀ c j, (u.rsAt c j).isReady = false := by
    intro c j
    unfold State.rsAt
    rw [hrs]
    exact isReady_of_not_busy (h.stations c j)
  have hcommit : Machine.commitStage s = .next u := by rw [h.commitStage, hu]
  refine ⟨step_of_stages h.running hcommit hf (State.halted_false hrun) (writebackStage_none hcq hdly) hf
    (executeStage_idle hf hlq hst) hf (issueStage_empty hiq) hf ⟨hfb, hstall⟩, ?_, ?_, ?_, hrst, hlq, hdly, hcq, hfb, hiq⟩
  · show u.head = u.tail
    rw [hhead, htail, h.tail]
  · intro e he
    have he : e ∈ u.rob := he
    rw [hrob] at he
    obtain ⟨k, hk, rfl⟩ := List.mem_iff_getElem.mp he
    have hat := robAt_set s hlt { E with status := .empty } k
    rw [List.getD_eq_getElem _ _ hk] at hat
    rw [hat]
    by_cases hks : k = s.head
    · rw [if_pos hks]
    · rw [if_neg hks]
      exact h.others k hks
  · intro c e he
    have he : e ∈ u.rs.get c := he
    rw [hrs] at he
    obtain ⟨k, hk, rfl⟩ := List.mem_iff_getElem.mp he
    have hb := h.stations c k
    unfold State.rsAt at hb
    rw [List.getD_eq_getElem _ _ hk] at hb
    exact hb

/-! From the instruction queue to the commit. -/

/-- What execute knows of a micro-op that was issued alone: the program-order values of its sources (R146, R162). -/
def State.loneStart (s : State) (pc : Word) (i : Instr) : Started :=
  { p := s.head, pc := pc, v0 := s.sourceValue i.sources.1, v1 := s.sourceValue i.sources.2.1, v2 := s.sourceValue i.sources.2.2 }

/-- A source renamed where no producer is pending (R146). -/
theorem rename_lone {s : State} (h : ∀ r, s.rst.get r = none) (x : SrcRef) :
    (s.rename x).word = s.sourceValue x ∧ (s.rename x).isPending = false := by
  cases x with
  | none => exact ⟨rfl, rfl⟩
  | imm w => exact ⟨rfl, rfl⟩
  | slot r => simp [State.rename, State.renameSlot, h, Operand.word, State.sourceValue, Operand.isPending]

/-- The station of a micro-op issued alone is ready at once, and holds the program-order values. -/
theorem stationOf_ready {s : State} (h : ∀ r, s.rst.get r = none) (i : Instr) (u : Record) : (s.stationOf i u).isReady = true := by
  simp [State.stationOf, RsEntry.isReady, rename_lone h]

theorem started_lone {s t : State} {pc : Word} {u : Record} {i : Instr} {d : Dest} (hr : ∀ r, s.rst.get r = none)
    (h : OneInFlight t i (.issued pc u d) (s.stationOf i u)) (hh : t.head = s.head) : t.started i.cls 0 = s.loneStart pc i := by
  have hsrcs := i.profile_sources
  have e0 : i.profile.src0 = i.sources.1 := congrArg (·.1) hsrcs
  have e1 : i.profile.src1 = i.sources.2.1 := congrArg (·.2.1) hsrcs
  have e2 : i.profile.src2 = i.sources.2.2 := congrArg (·.2.2) hsrcs
  have hent : t.robAt s.head = .issued pc u d := hh ▸ h.entry
  simp only [State.started, h.station, State.stationOf, rename_lone hr, e0, e1, e2, State.loneStart, hent, RobEntry.issued]

/-- A micro-op whose start pushes one record (after putting a value in its ROB entry, for a store) is ready to commit `n + 3` cycles
after it was queued alone. -/
theorem passage_push {s : State} {pc : Word} {u : Record} {i : Instr} {n : Nat} (r : BusRecord) (w : Word) (h : s.Lone pc u)
    (hd : decode u = .ok i) (hw : i.wf = true) (hp : r.p = s.head)
    (hstart : ∀ t : State, t.cfg = s.cfg → t.robAt s.head = .issued pc u i.dest → s.head < t.rob.length →
      i.profile.start (s.loneStart pc i) t
        = some ((t.setRob s.head { RobEntry.issued pc u i.dest with value := w }).push r (n + 1))) :
    ∃ t : State, (∀ k, Sys2Proof.core.run (n + 3 + k) s = Sys2Proof.core.run k t)
      ∧ OneReady t i (({ RobEntry.issued pc u i.dest with value := w } : RobEntry).receive r)
      ∧ Undisturbed { s with rst := t.rst } t ∧ ∀ r, t.rst.get r = if writesSlot i.dest i.fw r then some s.head else none := by
  obtain ⟨s1, h1, f1, l1, d1, k1, t1⟩ := lone_issue h hd hw
  have hlt : s1.head < s1.rob.length := by
    rw [f1.robSize]
    exact f1.head_lt
  have hhead : s1.head = s.head := k1.head
  have hst : startUop i.profile i.cls 0 (s1.doing (.start i.cls 0)) = s1.startedWith i.cls
      { RobEntry.issued pc u i.dest with value := w } s1.out [{ record := r, ctr := n + 1 }] [] := by
    have hv : (s1.doing (.start i.cls 0)).started i.cls 0 = s.loneStart pc i :=
      (show _ = s1.started i.cls 0 from rfl).trans (started_lone h.rst f1 hhead)
    unfold startUop
    rw [hv, hstart (s1.doing (.start i.cls 0)) k1.cfg (hhead ▸ f1.entry) (hhead ▸ hlt)]
    simp [State.push, State.dispatched, State.setRs, State.setRob, State.doing, d1, l1, State.startedSets, State.rsAt,
      State.startedWith, hhead]
  obtain ⟨h2, f2⟩ := f1.start (F := { RobEntry.issued pc u i.dest with value := w }) (stationOf_ready h.rst i u) l1 d1 rfl rfl rfl hst
  obtain ⟨s3, h3, f3, l3, d3, k3⟩ := OneInFlight.waits (by simp [RsEntry.isReady]) n f2 rfl rfl
  obtain ⟨t, h4, f4, k4⟩ := f3.land l3 d3 (hp.trans (hhead.symm.trans k3.head.symm))
  have hrst : t.rst = s1.rst := k4.rst.trans k3.rst
  have kall := k3.trans k4
  refine ⟨t, fun k => ?_, f4, ⟨kall.cfg.trans k1.cfg, kall.regs.trans k1.regs, kall.flags.trans k1.flags, kall.mem.trans k1.mem, rfl,
    kall.head.trans k1.head, ⟨kall.counters.1.trans k1.counters.1, kall.counters.2.1.trans k1.counters.2.1,
      kall.counters.2.2.trans k1.counters.2.2⟩, kall.out.trans k1.out, kall.specPc.trans k1.specPc⟩, fun q => by rw [hrst]; exact t1 q⟩
  rw [show n + 3 + k = ((n + (k + 1)) + 1) + 1 by omega, run_succ h1, run_succ h2, h3, run_succ h4]

/-- Execute where the scan answers and no entry is ready after it. -/
theorem executeStage_scan {s t : State} (hs : lqScan s = .next t) (hf : t.fatal = none) (hc : ∀ c, selectClass c t = .next t) :
    executeStage s = .next t := by
  simp [executeStage, hs, andThen, hf, hc]

/-- The cycle in which the only load leaves the load queue for memory. -/
theorem OneInFlight.access {s : State} {i : Instr} {E : RobEntry} {e : RsEntry} {l : LqEntry} {m : Word}
    (h : OneInFlight s i E e) (hb : e.isReady = false) (hl : s.lq = [l]) (hd : s.dly = []) (hp : l.dest = s.head)
    (hm : s.memRead l.addr l.size.bytes = some m) :
    ∃ t, step s = .next t ∧ OneInFlight t i E e ∧ t.lq = [] ∧ Undisturbed s t
      ∧ t.dly = [{ record := { p := s.head, val := extendLoad l.size l.signed m, tgt := none, fl := 0#4, halt := false }
                   ctr := s.cfg.latLoad }] := by
  have hf := State.fatal_none h.running
  have hmay : s.mayIssue l = true := by
    have hage : s.robAge l.dest = 0 := by
      rw [hp, robAge_eq s h.head_lt h.head_lt]
      simp
    simp [State.mayIssue, hage]
  have hdec : decode (s.robAt l.dest).uop = .ok i := by
    rw [hp, h.entry]
    exact h.uop
  have hports : 0 < s.cfg.memPorts := (Cfg.ok_bounds h.ok).2.2.2.2.1
  have hacc : memAccess l (s.doing (.access l)) = (s.doing (.access l)).push
      { p := s.head, val := extendLoad l.size l.signed m, tgt := none, fl := 0#4, halt := false } s.cfg.latLoad := by
    have hm' : (s.doing (.access l)).memRead l.addr l.size.bytes = some m := hm
    unfold memAccess
    rw [hm', hp]
    rfl
  have hscan : lqScan s = .next { (s.doing (.access l)).push
      { p := s.head, val := extendLoad l.size l.signed m, tgt := none, fl := 0#4, halt := false } s.cfg.latLoad with lq := [] } := by
    unfold lqScan
    rw [hl]
    unfold scanLoads
    rw [if_pos ⟨hports, hmay⟩, execRecord_ok hdec]
    show andThen (.next (memAccess l (s.doing (.access l)))) _ = _
    rw [hacc]
    simp [andThen, hf, scanLoads]
  have hex := executeStage_scan hscan hf fun c => selectClass_none (h.noneReady hb c)
  refine ⟨_, step_of_stages h.running h.idle hf (State.halted_false h.running) (writebackStage_none h.cq hd) hf hex hf
    (issueStage_empty h.iq) hf ⟨h.fb, h.stalled⟩, ?_, rfl, ⟨rfl, rfl, rfl, rfl, rfl, rfl, ⟨rfl, rfl, rfl⟩, rfl, rfl⟩, ?_⟩
  · exact ⟨h.ok, h.running, rfl, h.robSize, h.head_lt, h.tail, h.entry, h.status, h.notReady, h.others, h.uop, h.station, h.stations,
      h.slots, h.edest, h.euop, h.cq, h.fb, h.iq, h.stalled⟩
  · show s.dly ++ _ = _
    rw [hd]
    rfl

/-! What the commit of a micro-op alone leaves. -/

/-- Writing back the entry that is there. -/
theorem setRob_issued {t : State} {p : Nat} {E : RobEntry} (h : t.robAt p = E) (hlt : p < t.rob.length) : t.setRob p E = t := by
  rw [← h]
  unfold State.setRob State.robAt
  rw [List.getD_eq_getElem _ _ hlt, List.set_getElem_self hlt]

/-- The parts of the state that the destination write of a commit leaves alone. -/
structure SameQueues (t x : State) : Prop where
  rob : x.rob = t.rob
  head : x.head = t.head
  tail : x.tail = t.tail
  rs : x.rs = t.rs
  lq : x.lq = t.lq
  cq : x.cq = t.cq
  dly : x.dly = t.dly
  fb : x.fb = t.fb
  iq : x.iq = t.iq
  fetchStall : x.fetchStall = t.fetchStall
  cfg : x.cfg = t.cfg
  terminal : x.terminal = t.terminal
  out : x.out = t.out
  counters : x.counters = t.counters

/-- The last cycle of a micro-op that resolves no branch, from its destination write. -/
theorem OneReady.retirePlain {t x : State} {i : Instr} {E : RobEntry} (h : OneReady t i E) (hh : E.halt = false)
    (hret : i.profile.retire = .plain) (hx : commitDest i.profile.size E (t.doing .commit) = .ok x) (hsame : SameQueues t x)
    (hreg : ∀ q, x.rst.get (.reg q) = none)
    (hflag : ∀ f, x.rst.get (.flag f) = if flagBit i.fw f then some t.head else none) :
    ∃ v, step t = .next v ∧ v.Drained ∧ v.regs = x.regs ∧ v.mem = x.mem
      ∧ (∀ f, v.flags.get f = if flagBit i.fw f then flagBit E.flags f else x.flags.get f)
      ∧ v.out = t.out ∧ v.terminal = false ∧ v.counters.committed = t.counters.committed + 1 := by
  have hE : (t.doing .commit).robAt (t.doing .commit).head = E := h.entry
  obtain ⟨fl, rst, hf⟩ := commitFlags_eq i.profile.fw E x
  obtain ⟨g1, g2, g3⟩ := commitFlags_get i.profile.fw E x
  rw [hf] at g1 g2 g3
  rw [i.profile_fw] at g1 g2
  have hrst : ∀ r, rst.get r = none := by
    intro r
    cases r with
    | reg q => exact (g3 q).trans (hreg q)
    | flag f =>
      refine (g2 f).trans ?_
      show (if flagBit i.fw f = true ∧ x.rst.get (.flag f) = some x.head then none else x.rst.get (.flag f)) = none
      rw [hflag, hsame.head]
      cases flagBit i.fw f <;> simp
  have hu : commitUop i.profile (t.doing .commit) = commitRetire .plain E { x with flags := fl, rst := rst } := by
    rw [commitUop_ok (s := t.doing .commit) i.profile h.gate (by rw [hE]; exact hh) (by rw [hE]; exact hx), hE, hret, hf]
  have hrun : x.terminal = false := hsame.terminal.trans h.running
  have hrob : x.rob.set x.head { x.robAt x.head with status := .empty } = t.rob.set t.head { E with status := .empty } := by
    have hat : x.robAt x.head = E := by
      unfold State.robAt
      rw [hsame.rob, hsame.head]
      exact h.entry
    rw [hat, hsame.rob, hsame.head]
  have hhead : x.robNext x.head = t.robNext t.head := by
    unfold State.robNext
    rw [hsame.head, hsame.cfg]
  obtain ⟨h1, h2⟩ := h.retire hu hrun hrob hhead hsame.tail hsame.rs hrst
    ⟨hsame.lq.trans h.lq, hsame.cq.trans h.cq, hsame.dly.trans h.dly, hsame.fb.trans h.fb, hsame.iq.trans h.iq⟩
    (hsame.fetchStall.trans h.stalled)
  exact ⟨_, h1, h2, rfl, rfl, g1, hsame.out, hrun, congrArg (fun c => c.committed + 1) hsame.counters⟩

/-- The last cycle of a micro-op that writes a register. -/
theorem OneReady.retireRegister {t : State} {i : Instr} {E : RobEntry} {rd : Reg} {uf : Bool} (h : OneReady t i E)
    (hE : E.dest = .register rd uf) (hd : i.dest = .register rd uf) (hh : E.halt = false) (hret : i.profile.retire = .plain)
    (hrst : ∀ r, t.rst.get r = if writesSlot i.dest i.fw r then some t.head else none) :
    ∃ v, step t = .next v ∧ v.Drained ∧ (∀ q, v.getReg q = if q = rd then E.value else t.getReg q) ∧ v.mem = t.mem
      ∧ (∀ f, v.flags.get f = if flagBit i.fw f then flagBit E.flags f else t.flags.get f)
      ∧ v.out = t.out ∧ v.terminal = false ∧ v.counters.committed = t.counters.committed + 1 := by
  obtain ⟨v, h1, h2, h3, h4⟩ := h.retirePlain hh hret (commitDest_register _ hE _)
    ⟨rfl, rfl, rfl, rfl, rfl, rfl, rfl, rfl, rfl, rfl, rfl, rfl, rfl, rfl⟩
    (by
      intro q
      show (t.rst.release (.reg rd) t.head).get (.reg q) = none
      rw [Rst.get_release, hrst, hd]
      by_cases hq : q = rd <;> simp [writesSlot, Dest.slot, hq, eq_comm])
    (by
      intro f
      show (t.rst.release (.reg rd) t.head).get (.flag f) = _
      rw [Rst.get_release, hrst]
      simp [writesSlot]
      rfl)
  refine ⟨v, h1, h2, fun q => ?_, h4⟩
  have hq := State.getReg_setReg (t.doing .commit) rd q E.value
  unfold State.getReg at hq ⊢
  simp only [h3]
  exact hq

/-- The last cycle of a relative branch that goes as predicted. -/
theorem OneReady.retirePredicted {t : State} {i : Instr} {E : RobEntry} {inc : Word} (h : OneReady t i E) (hh : E.halt = false)
    (hdest : E.dest = .discard) (hret : i.profile.retire = .relative inc) (hfw : i.fw = 0#4)
    (hdir : decide (E.value ≠ 0#32) = predictedTaken t.cfg) (hrst : ∀ r, t.rst.get r = none) :
    ∃ v, step t = .next v ∧ v.Drained ∧ v.regs = t.regs ∧ v.flags = t.flags ∧ v.mem = t.mem ∧ v.out = t.out
      ∧ v.terminal = false ∧ v.specPc = t.specPc ∧ v.counters.committed = t.counters.committed + 1
      ∧ v.counters.branches = t.counters.branches + 1 ∧ v.counters.mispredicts = t.counters.mispredicts := by
  have hE : (t.doing .commit).robAt (t.doing .commit).head = E := h.entry
  have hu := commitUop_ok (s := t.doing .commit) i.profile h.gate (by rw [hE]; exact hh) (commitDest_discard _ (by rw [hE]; exact hdest) _)
  have hres : resolveBranch (.relative inc) E (t.doing .commit) = ((t.doing .commit).countBranch, .correct) := by
    unfold resolveBranch
    exact if_pos hdir
  rw [hE, hret, i.profile_fw, hfw, commitFlags_none] at hu
  unfold commitRetire at hu
  rw [hres] at hu
  generalize hX : State.releaseHead _ = X at hu
  have hrob : X.rob = t.rob.set t.head { E with status := .empty } := by
    rw [← hX, ← h.entry]
    simp only [State.releaseHead, State.emitTrace, State.countBranch, State.doing, State.robAt]
  have hrest : X.head = t.robNext t.head ∧ X.tail = t.tail ∧ X.rs = t.rs ∧ X.rst = t.rst
      ∧ (X.lq = t.lq ∧ X.cq = t.cq ∧ X.dly = t.dly ∧ X.fb = t.fb ∧ X.iq = t.iq) ∧ X.fetchStall = t.fetchStall
      ∧ X.terminal = t.terminal ∧ X.regs = t.regs ∧ X.flags = t.flags ∧ X.mem = t.mem ∧ X.out = t.out ∧ X.specPc = t.specPc := by
    rw [← hX]
    simp [State.releaseHead, State.emitTrace, State.countBranch, State.doing, State.robNext, State.terminal]
  have hcount : X.counters.committed = t.counters.committed + 1 ∧ X.counters.branches = t.counters.branches + 1
      ∧ X.counters.mispredicts = t.counters.mispredicts := by
    rw [← hX]
    simp [State.releaseHead, State.emitTrace, State.countBranch, State.doing]
  obtain ⟨x1, x2, x3, x4, ⟨x5, x6, x7, x8, x9⟩, x10, x11, x12, x13, x14, x15, x16⟩ := hrest
  have hrun := x11.trans h.running
  obtain ⟨h1, h2⟩ := h.retire hu hrun hrob x1 x2 x3 (fun r => by rw [x4, hrst])
    ⟨x5.trans h.lq, x6.trans h.cq, x7.trans h.dly, x8.trans h.fb, x9.trans h.iq⟩ (x10.trans h.stalled)
  exact ⟨X.tickOver, h1, h2, x12, x13, x14, x15, hrun, x16, hcount⟩

end Sys2Proof.Machine
end

