-- ==== Sys2Proof/Laws/Memory.lean ====
section
/-! SUPPORT. Memory: the canonical form and reading after writing, the addresses of an access, and bytes joined to and split from a
word (R46, R60, R61, R64). -/

namespace Sys2Proof.Machine

/-! The canonical form. -/

theorem canonicalFrom_cons {low : Option Nat} {k : Nat} {b : Byte} {rest : List Host.Cell} :
    canonicalFrom low ((k, b) :: rest) = true ↔
      (∀ l, low = some l → l < k) ∧ b ≠ Memory.unlisted ∧ canonicalFrom (some k) rest = true := by
  cases low <;> simp [canonicalFrom, and_assoc]

theorem canonicalFrom_weaken {low low' : Option Nat} {cells : List Host.Cell} (h : canonicalFrom low cells = true)
    (hl : ∀ l', low' = some l' → ∃ l, low = some l ∧ l' ≤ l) : canonicalFrom low' cells = true := by
  cases cells with
  | nil => rfl
  | cons c rest =>
    obtain ⟨k, b⟩ := c
    obtain ⟨h1, h2, h3⟩ := canonicalFrom_cons.mp h
    refine canonicalFrom_cons.mpr ⟨fun l' hl' => ?_, h2, h3⟩
    obtain ⟨l, hlow, hle⟩ := hl l' hl'
    exact Nat.lt_of_le_of_lt hle (h1 l hlow)

/-- Every entry of a canonical list lies above the bound, so an address at or below it reads as unlisted. -/
theorem readCells_below {l : Nat} {cells : List Host.Cell} (h : canonicalFrom (some l) cells = true) {a : Nat} (ha : a ≤ l) :
    readCells cells a = Memory.unlisted := by
  induction cells generalizing l with
  | nil => rfl
  | cons c rest ih =>
    obtain ⟨k, b⟩ := c
    obtain ⟨h1, _, h3⟩ := canonicalFrom_cons.mp h
    have hk := h1 l rfl
    have hne : k ≠ a := by omega
    simp only [readCells, if_neg hne]
    exact ih h3 (by omega)

/-- Writing keeps the canonical form. -/
theorem writeCells_canonical {low : Option Nat} {cells : List Host.Cell} (h : canonicalFrom low cells = true) (a : Nat) (v : Byte)
    (hlow : ∀ l, low = some l → l < a) : canonicalFrom low (writeCells cells a v) = true := by
  induction cells generalizing low with
  | nil =>
    unfold writeCells
    split
    · rfl
    · next hv => exact canonicalFrom_cons.mpr ⟨hlow, hv, rfl⟩
  | cons c rest ih =>
    obtain ⟨k, b⟩ := c
    obtain ⟨h1, h2, h3⟩ := canonicalFrom_cons.mp h
    unfold writeCells
    split
    · next hk => exact canonicalFrom_cons.mpr ⟨h1, h2, ih h3 (fun l hl => by cases hl; exact hk)⟩
    · split
      · next hk =>
        split
        · exact canonicalFrom_weaken h3 (fun l' hl' => ⟨k, rfl, Nat.le_of_lt (h1 l' hl')⟩)
        · next hv => exact canonicalFrom_cons.mpr ⟨hlow, hv, hk ▸ h3⟩
      · split
        · exact h
        · next hv =>
          exact canonicalFrom_cons.mpr ⟨hlow, hv, canonicalFrom_cons.mpr ⟨fun l hl => by cases hl; omega, h2, h3⟩⟩

/-- Reading after writing one byte. -/
theorem readCells_writeCells {low : Option Nat} {cells : List Host.Cell} (h : canonicalFrom low cells = true) (a x : Nat)
    (v : Byte) : readCells (writeCells cells a v) x = if x = a then v else readCells cells x := by
  induction cells generalizing low with
  | nil =>
    unfold writeCells
    split
    · next hv => simp [readCells, hv]
    · simp [readCells, eq_comm]
  | cons c rest ih =>
    obtain ⟨k, b⟩ := c
    obtain ⟨h1, h2, h3⟩ := canonicalFrom_cons.mp h
    unfold writeCells
    split
    · next hk =>
      by_cases hx : k = x
      · have hxa : x ≠ a := by omega
        simp [readCells, hx, hxa]
      · simp only [readCells, if_neg hx]
        exact ih h3
    · split
      · next hk =>
        subst hk
        split
        · next hv =>
          by_cases hx : x = k
          · subst hx; simpa [hv] using readCells_below h3 (Nat.le_refl x)
          · simp [readCells, hx, Ne.symm hx]
        · by_cases hx : x = k
          · simp [readCells, hx]
          · simp [readCells, hx, Ne.symm hx]
      · next hk hka =>
        split
        · next hv =>
          by_cases hx : x = a
          · subst hx
            have hkx : k ≠ x := hka
            simp only [readCells, if_neg hkx, if_true, hv]
            exact readCells_below h3 (by omega)
          · simp [hx]
        · by_cases hx : x = a
          · simp [readCells, hx]
          · simp [readCells, hx, Ne.symm hx]

theorem writeAll_canonical {cells : List Host.Cell} (h : canonicalFrom none cells = true) (as : List Nat) (bs : List Byte) :
    canonicalFrom none (writeAll cells as bs) = true := by
  induction as generalizing cells bs with
  | nil => simpa [writeAll] using h
  | cons a as ih =>
    cases bs with
    | nil => simpa [writeAll] using h
    | cons b bs => exact ih (writeCells_canonical h a b (by simp)) bs

/-- A byte at none of the addresses written is as before. -/
theorem readCells_writeAll_of_not_mem {cells : List Host.Cell} (h : canonicalFrom none cells = true) (as : List Nat)
    (bs : List Byte) {x : Nat} (hx : x ∉ as) : readCells (writeAll cells as bs) x = readCells cells x := by
  induction as generalizing cells bs with
  | nil => rfl
  | cons a as ih =>
    cases bs with
    | nil => rfl
    | cons b bs =>
      obtain ⟨hxa, hxas⟩ : x ≠ a ∧ x ∉ as := by simpa using hx
      rw [writeAll, ih (writeCells_canonical h a b (by simp)) bs hxas, readCells_writeCells h, if_neg hxa]

/-- The bytes at the addresses written are the ones written. -/
theorem readCells_writeAll {cells : List Host.Cell} (h : canonicalFrom none cells = true) {as : List Nat} {bs : List Byte}
    (hn : as.Nodup) (hl : as.length = bs.length) : as.map (readCells (writeAll cells as bs)) = bs := by
  induction as generalizing cells bs with
  | nil => exact (List.eq_nil_of_length_eq_zero hl.symm).symm
  | cons a as ih =>
    cases bs with
    | nil => simp at hl
    | cons b bs =>
      obtain ⟨ha, hn'⟩ := List.nodup_cons.mp hn
      have hc := writeCells_canonical h a b (by simp)
      simp only [List.map_cons, writeAll, ih hc hn' (by simpa using hl)]
      rw [readCells_writeAll_of_not_mem hc as bs ha, readCells_writeCells h, if_pos rfl]

/-! The addresses of an access. -/

theorem accessAddresses_succ {cfg : Cfg} {ok : Nat → Bool} {a : Word} {n : Nat} {l : List Nat} :
    accessAddresses cfg ok a (n + 1) = some l ↔
      ∃ l' b, accessAddresses cfg ok a n = some l' ∧ byteAddress cfg a n = some b ∧ ok b = true ∧ l = l' ++ [b] := by
  rw [accessAddresses]
  cases hl : accessAddresses cfg ok a n with
  | none => simp
  | some l' =>
    cases hb : byteAddress cfg a n with
    | none => simp
    | some b =>
      show (if ok b = true then some (l' ++ [b]) else none) = some l ↔ _
      by_cases hk : ok b = true
      · rw [if_pos hk]
        constructor
        · exact fun h => ⟨l', b, rfl, rfl, hk, (Option.some.inj h).symm⟩
        · rintro ⟨l'', b', h1, h2, _, rfl⟩
          cases h1; cases h2; rfl
      · rw [if_neg hk]
        constructor
        · exact fun h => by cases h
        · rintro ⟨l'', b', _, h2, h3, _⟩
          cases h2; exact absurd h3 hk

/-- The address of byte `k` of an access, modulo 2^32. -/
theorem byteAddress_eq {cfg : Cfg} {a : Word} {k b : Nat} (h : byteAddress cfg a k = some b) (hk : k < 4294967296) :
    b = (a.toNat + k) % 4294967296 := by
  have ha := a.isLt
  unfold byteAddress at h
  by_cases hlt : a.toNat + k < 4294967296
  · rw [if_pos hlt] at h
    have := Option.some.inj h
    omega
  · rw [if_neg hlt] at h
    cases hw : cfg.memWraps with
    | true =>
      rw [hw, if_pos rfl] at h
      have := Option.some.inj h
      omega
    | false => rw [hw] at h; simp at h

theorem byteAddress_of_lt {cfg : Cfg} {a : Word} {k : Nat} (h : a.toNat + k < 4294967296) :
    byteAddress cfg a k = some (a.toNat + k) := by
  unfold byteAddress
  rw [if_pos h]

/-- The addresses of an access are its consecutive bytes modulo 2^32, each of them acceptable. -/
theorem accessAddresses_eq {cfg : Cfg} {ok : Nat → Bool} {a : Word} {n : Nat} {l : List Nat} (hn : n ≤ 4294967296)
    (h : accessAddresses cfg ok a n = some l) :
    l = (List.range n).map (fun k => (a.toNat + k) % 4294967296) ∧ ∀ b ∈ l, ok b = true := by
  induction n generalizing l with
  | zero => cases h; simp
  | succ n ih =>
    obtain ⟨l', b, hl', hb, hok, rfl⟩ := accessAddresses_succ.mp h
    obtain ⟨h1, h2⟩ := ih (by omega) hl'
    refine ⟨?_, fun x hx => ?_⟩
    · rw [List.range_succ, List.map_append, ← h1, byteAddress_eq hb (by omega)]
      rfl
    · rcases List.mem_append.mp hx with hx | hx
      · exact h2 x hx
      · simp only [List.mem_singleton] at hx
        exact hx ▸ hok

theorem accessAddresses_nodup {cfg : Cfg} {ok : Nat → Bool} {a : Word} {n : Nat} {l : List Nat} (hn : n ≤ 4294967296)
    (h : accessAddresses cfg ok a n = some l) : l.Nodup := by
  rw [(accessAddresses_eq hn h).1]
  refine (List.nodup_map_iff_inj_on List.nodup_range).mpr ?_
  intro x hx y hy hxy
  simp only [List.mem_range] at hx hy
  omega

/-- An access that does not run past the last address. -/
theorem accessAddresses_of_lt {cfg : Cfg} {ok : Nat → Bool} {a : Word} {n : Nat} (h : a.toNat + n ≤ 4294967296)
    (hok : ∀ k, k < n → ok (a.toNat + k) = true) :
    accessAddresses cfg ok a n = some ((List.range n).map (fun k => a.toNat + k)) := by
  induction n with
  | zero => rfl
  | succ n ih =>
    refine accessAddresses_succ.mpr ⟨_, _, ih (by omega) (fun k hk => hok k (by omega)),
      byteAddress_of_lt (by omega), hok n (by omega), ?_⟩
    rw [List.range_succ, List.map_append]
    rfl

/-- Which accesses are accepted (R67, R68). -/
theorem accessAddresses_isSome {cfg : Cfg} {ok : Nat → Bool} {a : Word} {n : Nat} (hn : n ≤ 4294967296) :
    (accessAddresses cfg ok a n).isSome = true ↔
      ∀ k, k < n → (a.toNat + k < 4294967296 ∨ cfg.memWraps = true) ∧ ok ((a.toNat + k) % 4294967296) = true := by
  induction n with
  | zero => simp [accessAddresses]
  | succ n ih =>
    have hb : (byteAddress cfg a n).isSome = true ↔ a.toNat + n < 4294967296 ∨ cfg.memWraps = true := by
      unfold byteAddress
      split
      · simp [*]
      · cases cfg.memWraps <;> simp [*]
    constructor
    · intro h
      obtain ⟨l, hl⟩ := Option.isSome_iff_exists.mp h
      obtain ⟨l', b, hl', hb', hok, rfl⟩ := accessAddresses_succ.mp hl
      intro k hk
      by_cases hkn : k = n
      · subst hkn
        exact ⟨hb.mp (by rw [hb']; rfl), byteAddress_eq hb' (by omega) ▸ hok⟩
      · exact (ih (by omega)).mp (by rw [hl']; rfl) k (by omega)
    · intro h
      obtain ⟨l', hl'⟩ := Option.isSome_iff_exists.mp ((ih (by omega)).mpr fun k hk => h k (by omega))
      obtain ⟨b, hb'⟩ := Option.isSome_iff_exists.mp (hb.mpr (h n (by omega)).1)
      have hok : ok b = true := byteAddress_eq hb' (by omega) ▸ (h n (by omega)).2
      rw [accessAddresses_succ.mpr ⟨l', b, hl', hb', hok, rfl⟩]
      rfl

/-- What is acceptable to one test and to a weaker one has the same addresses. -/
theorem accessAddresses_mono {cfg : Cfg} {ok ok' : Nat → Bool} (hok : ∀ b, ok b = true → ok' b = true) {a : Word} {n : Nat}
    {l : List Nat} (h : accessAddresses cfg ok a n = some l) : accessAddresses cfg ok' a n = some l := by
  induction n generalizing l with
  | zero => exact h
  | succ n ih =>
    obtain ⟨l', b, hl', hb, hk, rfl⟩ := accessAddresses_succ.mp h
    exact accessAddresses_succ.mpr ⟨l', b, ih hl', hb, hok b hk, rfl⟩

theorem Memory.readable_of_writable {m : Memory} {a : Nat} (h : m.writable a = true) : m.readable a = true := by
  simp only [Memory.writable, Bool.and_eq_true] at h
  exact h.1

/-! Bytes and words. -/

theorem joinLittle_toNat (bs : List Byte) (h : bs.length ≤ 4) :
    (joinLittle bs).toNat = (bs.map (·.toNat)).foldr (fun b acc => b + 256 * acc) 0
    ∧ (joinLittle bs).toNat < 2 ^ (8 * bs.length) := by
  induction bs with
  | nil => simp [joinLittle]
  | cons b bs ih =>
    obtain ⟨h1, h2⟩ := ih (by rw [List.length_cons] at h; omega)
    have hb : b.toNat < 2 ^ 8 := b.isLt
    have hle : 2 ^ (8 * bs.length) ≤ 2 ^ 24 := Nat.pow_le_pow_right (by decide) (by rw [List.length_cons] at h; omega)
    have hpow : 2 ^ (8 * (bs.length + 1)) = 2 ^ (8 * bs.length) * 2 ^ 8 := by rw [Nat.mul_add, Nat.pow_add]
    rw [List.length_cons, hpow]
    generalize 2 ^ (8 * bs.length) = P at h2 hle hpow ⊢
    have hshift : ((joinLittle bs) <<< 8).toNat = (joinLittle bs).toNat * 2 ^ 8 := by
      rw [BitVec.toNat_shiftLeft, Nat.shiftLeft_eq]
      omega
    have hz : (b.setWidth 32).toNat = b.toNat := by
      rw [BitVec.toNat_setWidth]
      omega
    have hval : (joinLittle (b :: bs)).toNat = (joinLittle bs).toNat * 2 ^ 8 + b.toNat := by
      rw [joinLittle, BitVec.toNat_or, hshift, hz, ← Nat.shiftLeft_eq, ← Nat.shiftLeft_add_eq_or_of_lt hb]
    rw [hval]
    refine ⟨?_, by omega⟩
    simp only [List.map_cons, List.foldr_cons, ← h1]
    omega

theorem splitLittle_length (n : Nat) (v : Word) : (splitLittle n v).length = n := by
  induction n generalizing v with
  | zero => rfl
  | succ n ih => simp [splitLittle, ih]

theorem splitLittle_get (n : Nat) (v : Word) {k : Nat} (h : k < n) :
    (splitLittle n v)[k]'(by rw [splitLittle_length]; exact h) = (v >>> (8 * k)).setWidth 8 := by
  induction n generalizing v k with
  | zero => omega
  | succ n ih =>
    cases k with
    | zero => simp [splitLittle]
    | succ k =>
      simp only [splitLittle, List.getElem_cons_succ]
      rw [ih (v >>> 8) (by omega), ← BitVec.shiftRight_add, show 8 + 8 * k = 8 * (k + 1) by omega]

/-- Joining what was split gives the word back, if it fits. -/
theorem joinLittle_splitLittle (n : Nat) (hn : n ≤ 4) (v : Word) (h : v.toNat < 2 ^ (8 * n)) :
    joinLittle (splitLittle n v) = v := by
  induction n generalizing v with
  | zero => exact BitVec.eq_of_toNat_eq (by simp [splitLittle, joinLittle] at h ⊢; exact h.symm)
  | succ n ih =>
    have hv : (v >>> 8).toNat < 2 ^ (8 * n) := by
      rw [BitVec.toNat_ushiftRight, Nat.shiftRight_eq_div_pow]
      have : 2 ^ (8 * (n + 1)) = 2 ^ (8 * n) * 2 ^ 8 := by rw [← Nat.pow_add]; ring_nf
      exact Nat.div_lt_of_lt_mul (by rw [Nat.mul_comm]; omega)
    rw [splitLittle, joinLittle, ih (by omega) _ hv]
    ext i hi
    by_cases h8 : i < 8
    · simp [h8, BitVec.getLsbD_eq_getElem hi]
    · simp [h8, show 8 + (i - 8) = i by omega, BitVec.getLsbD_eq_getElem hi]

/-- Byte `k` of the joined word is byte `k` of the list. -/
theorem joinLittle_get (bs : List Byte) (h : bs.length ≤ 4) {k : Nat} (hk : k < bs.length) :
    ((joinLittle bs) >>> (8 * k)).setWidth 8 = bs[k] := by
  induction bs generalizing k with
  | nil => simp at hk
  | cons b bs ih =>
    rw [List.length_cons] at h hk
    cases k with
    | zero =>
      rw [joinLittle]
      ext i hi
      simp
    | succ k =>
      have hlow := ih (by omega) (k := k) (by omega)
      rw [joinLittle, List.getElem_cons_succ, ← hlow]
      ext i hi
      have h32 : 8 * (k + 1) + i < 32 := by omega
      have h8 : ¬ 8 * (k + 1) + i < 8 := by omega
      have hb : b.getLsbD (8 * (k + 1) + i) = false := BitVec.getLsbD_of_ge b _ (by omega)
      have hi' : 8 * k + i < 32 := by omega
      simp [h32, h8, show 8 * (k + 1) + i - 8 = 8 * k + i by omega, hb, BitVec.getLsbD_eq_getElem hi']

/-- A word read is below 2^(8n) (R60). -/
theorem memRead_lt {s : State} {a : Word} {n : Nat} {m : Word} (hn : n ≤ 4) (h : s.memRead a n = some m) :
    m.toNat < 2 ^ (8 * n) := by
  unfold State.memRead at h
  split at h
  · cases h
  · split at h
    · cases h
    · next l hl =>
      cases h
      have hlen : l.length = n := by rw [(accessAddresses_eq (by omega) hl).1]; simp
      unfold joinBytes
      split
      · simpa [hlen] using (joinLittle_toNat (l.map s.mem.byteAt) (by simp [hlen]; omega)).2
      · simpa [hlen] using (joinLittle_toNat (l.map s.mem.byteAt).reverse (by simp [hlen]; omega)).2

/-- What a successful write stores (R61). -/
theorem memWrite_cases {s : State} {a : Word} {n : Nat} {v : Word} {m : Memory} (h : s.memWrite a n v = some m) :
    misaligned s.cfg a n = false ∧ ∃ l, accessAddresses s.cfg s.mem.writable a n = some l
      ∧ m = { s.mem with cells := writeAll s.mem.cells l (splitBytes s.cfg.byteOrder n v) } := by
  unfold State.memWrite at h
  split at h
  · cases h
  · next hm =>
    split at h
    · cases h
    · next l hl => exact ⟨by simpa using hm, l, hl, (Option.some.inj h).symm⟩

/-- A successful write keeps the canonical form and the map of memory. -/
theorem memWrite_wf {s : State} {a : Word} {n : Nat} {v : Word} {m : Memory} (h : s.memWrite a n v = some m)
    (hs : s.mem.wf = true) : m.wf = true ∧ m.regions = s.mem.regions := by
  obtain ⟨_, l, _, rfl⟩ := memWrite_cases h
  exact ⟨writeAll_canonical hs l _, rfl⟩

/-- A successful write changes no byte but those of the access (R61). -/
theorem memWrite_frame {s : State} {a : Word} {n : Nat} {v : Word} {m : Memory} (hn : n ≤ 4294967296)
    (h : s.memWrite a n v = some m) (hs : s.mem.wf = true) {x : Nat}
    (hx : ∀ k, k < n → x ≠ (a.toNat + k) % 4294967296) : m.byteAt x = s.mem.byteAt x := by
  obtain ⟨_, l, hl, rfl⟩ := memWrite_cases h
  refine readCells_writeAll_of_not_mem hs l _ fun hmem => ?_
  rw [(accessAddresses_eq hn hl).1] at hmem
  obtain ⟨k, hk, rfl⟩ := List.mem_map.mp hmem
  exact hx k (List.mem_range.mp hk) rfl

/-- The memory that `State.reset` starts from is in canonical form. -/
theorem launchMem_wf : State.launchMem.wf = true := rfl

end Sys2Proof.Machine
end

