-- ==== Sys2Proof/Laws/PerInstr.lean ====
section
/-! SUPPORT. Laws about every micro-op as syntax, one lemma per constructor of `Instr`. `KindCode`: the record of a micro-op carries
its kind code (R84) and its flag write mask (R83, R90). -/

namespace Sys2Proof.Laws.KindCode

def Statement (i : Instr) : Prop := (Fields.unpack (encode i)).kind = i.kind ∧ (Fields.unpack (encode i)).fw = i.fw

theorem of_fields {i : Instr} (hk : (Encode.fields i).kind = i.kind) (hf : (Encode.fields i).fw = i.fw) : Statement i := by
  unfold Statement encode
  rw [Fields.unpack_pack]
  exact ⟨hk, hf⟩

theorem alu (sub : BitVec 6) (rd : Reg) (a : Option Reg) (b : Src) (cin : Bool) (fw : BitVec 4) (pi : PcInc) : Statement (.alu sub rd a b cin fw pi) :=
  of_fields (by cases a <;> cases b <;> rfl) (by cases a <;> cases b <;> rfl)
theorem cmp (sub : BitVec 6) (a : Option Reg) (b : Src) (cin : Bool) (fw : BitVec 4) (pi : PcInc) : Statement (.cmp sub a b cin fw pi) :=
  of_fields (by cases a <;> cases b <;> rfl) (by cases a <;> cases b <;> rfl)
theorem mul (rd rn : Reg) (b : Src) (fw : BitVec 2) (pi : PcInc) : Statement (.mul rd rn b fw pi) :=
  of_fields (by cases b <;> rfl) (by cases b <;> rfl)
theorem ldb (r rn : Reg) (off : Src) (pi : PcInc) : Statement (.ldb r rn off pi) :=
  of_fields (by cases off <;> rfl) (by cases off <;> rfl)
theorem ldsb (r rn : Reg) (off : Src) (pi : PcInc) : Statement (.ldsb r rn off pi) :=
  of_fields (by cases off <;> rfl) (by cases off <;> rfl)
theorem ldh (r rn : Reg) (off : Src) (pi : PcInc) : Statement (.ldh r rn off pi) :=
  of_fields (by cases off <;> rfl) (by cases off <;> rfl)
theorem ldsh (r rn : Reg) (off : Src) (pi : PcInc) : Statement (.ldsh r rn off pi) :=
  of_fields (by cases off <;> rfl) (by cases off <;> rfl)
theorem ldw (r rn : Reg) (off : Src) (pi : PcInc) : Statement (.ldw r rn off pi) :=
  of_fields (by cases off <;> rfl) (by cases off <;> rfl)
theorem ldsw (r rn : Reg) (off : Src) (pi : PcInc) : Statement (.ldsw r rn off pi) :=
  of_fields (by cases off <;> rfl) (by cases off <;> rfl)
theorem stb (r rn : Reg) (off : Src) (pi : PcInc) : Statement (.stb r rn off pi) :=
  of_fields (by cases off <;> rfl) (by cases off <;> rfl)
theorem sth (r rn : Reg) (off : Src) (pi : PcInc) : Statement (.sth r rn off pi) :=
  of_fields (by cases off <;> rfl) (by cases off <;> rfl)
theorem stw (r rn : Reg) (off : Src) (pi : PcInc) : Statement (.stw r rn off pi) :=
  of_fields (by cases off <;> rfl) (by cases off <;> rfl)
theorem b (simm : Word) (pi : PcInc) : Statement (.b simm pi) :=
  of_fields rfl rfl
theorem bcond (cond : Cond) (simm : Word) (pi : PcInc) : Statement (.bcond cond simm pi) :=
  of_fields rfl rfl
theorem bl (simm : Word) (pi : PcInc) : Statement (.bl simm pi) :=
  of_fields rfl rfl
theorem bx (rn : Reg) (pi : PcInc) : Statement (.bx rn pi) :=
  of_fields rfl rfl
theorem blx (rn : Reg) (pi : PcInc) : Statement (.blx rn pi) :=
  of_fields rfl rfl
theorem setpc (rn : Reg) (pi : PcInc) : Statement (.setpc rn pi) :=
  of_fields rfl rfl
theorem svcPuts (rn : Reg) (pi : PcInc) : Statement (.svcPuts rn pi) :=
  of_fields rfl rfl
theorem svcPuti (rn : Reg) (pi : PcInc) : Statement (.svcPuti rn pi) :=
  of_fields rfl rfl
theorem svcHalt (pi : PcInc) : Statement (.svcHalt pi) :=
  of_fields rfl rfl

end Sys2Proof.Laws.KindCode
end

