-- ==== Sys2Proof/Laws/Producers.lean ====
section
/-! SUPPORT. Who names whom in flight (R51): the invariant of the producers, as the operations of a step keep it. -/

namespace Sys2Proof.Machine

/-- The entry in ROB slot `p` is not empty and its result is still due. -/
def State.Awaited (s : State) (p : Nat) : Prop := (s.robAt p).status ≠ .empty ∧ (s.robAt p).ready = false

/-- `State.Coherent` and `State.Tracked` by the status of the slots: under the FIFO range the two say the same (`flow_iff`). -/
structure State.Flow (s : State) : Prop where
  rst : ∀ r p, s.rst.get r = some p → (s.robAt p).status ≠ .empty ∧ s.Writes p r
  pending : ∀ c j p r, (s.rsAt c j).busy = true → (s.rsAt c j).Waits p r →
    s.Awaited p ∧ s.robAge p < s.robAge (s.rsAt c j).dest ∧ s.Writes p r
  station : ∀ c j, (s.rsAt c j).busy = true → s.Awaited (s.rsAt c j).dest
    ∧ (s.robAt (s.rsAt c j).dest).uop = (s.rsAt c j).uop
    ∧ ∀ i, decode (s.rsAt c j).uop = .ok i → i.cls = c ∧ (s.robAt (s.rsAt c j).dest).dest = i.dest
  one : ∀ c d j k, (s.rsAt c j).busy = true → (s.rsAt d k).busy = true →
    (s.rsAt c j).dest = (s.rsAt d k).dest → c = d ∧ j = k
  lq : ∀ l ∈ s.lq, s.Awaited l.dest ∧ (∃ i, decode (s.robAt l.dest).uop = .ok i ∧ i.isLoad = true) ∧ s.StartedFor l.dest
  record : ∀ r ∈ s.records, s.Awaited r.p ∧ s.StartedFor r.p ∧ (r.halt = true → ∀ q, ¬ s.Writes r.p q)
  oneRecord : (s.records.map (·.p)).Nodup
  halt : ∀ p, (s.robAt p).status ≠ .empty → (s.robAt p).halt = true → ∀ q, ¬ s.Writes p q
  apart : s.fatal = none → (s.lq.map (·.dest)).Nodup ∧ ∀ l ∈ s.lq, ∀ r ∈ s.records, r.p ≠ l.dest

theorem occupied_iff_status {s : State} (hs : s.Fifo) (p : Nat) :
    (s.robAt p).status ≠ .empty ↔ p < s.cfg.robCapacity ∧ s.occupied p = true := by
  by_cases hp : p < s.cfg.robCapacity
  · rw [hs.occupied_iff p hp]; simp [hp]
  · rw [s.robAt_of_le (by rw [hs.size]; omega)]; simp [RobEntry.free, hp]

theorem due_iff {s : State} (hs : s.Fifo) (p : Nat) : s.Due p ↔ s.Awaited p := by
  unfold State.Awaited
  rw [occupied_iff_status hs]
  exact ⟨fun ⟨a, b, c⟩ => ⟨⟨a, b⟩, c⟩, fun ⟨⟨a, b⟩, c⟩ => ⟨a, b, c⟩⟩

theorem flow_iff {s : State} (hs : s.Fifo) : s.Flow ↔ s.Coherent ∧ s.Tracked := by
  constructor
  · intro h
    refine ⟨⟨fun r p hr => ?_, fun c j p r hb hw => ?_, fun c j hb => (due_iff hs _).mpr (h.station c j hb).1, h.one,
        fun l hl => ?_, fun r hr => (due_iff hs _).mpr (h.record r hr).1, h.oneRecord, fun p hp => ⟨?_, ?_, ?_⟩⟩,
      ⟨fun c j hb => (h.station c j hb).2, fun r hr => (h.record r hr).2, fun p hp ho => ?_, h.apart⟩⟩
    · obtain ⟨a, b⟩ := h.rst r p hr
      rw [occupied_iff_status hs] at a
      exact ⟨a.1, a.2, b⟩
    · obtain ⟨a, b⟩ := h.pending c j p r hb hw
      exact ⟨(due_iff hs _).mpr a, b⟩
    · obtain ⟨a, b⟩ := h.lq l hl
      exact ⟨(due_iff hs _).mpr a, b⟩
    · rintro c j hb rfl
      exact absurd hp (by simp [(h.station c j hb).1.2])
    · rintro l hl rfl
      exact absurd hp (by simp [(h.lq l hl).1.2])
    · rintro r hr rfl
      exact absurd hp (by simp [(h.record r hr).1.2])
    · exact h.halt p ((occupied_iff_status hs p).mpr ⟨hp, ho⟩)
  · rintro ⟨h, k⟩
    refine ⟨fun r p hr => ?_, fun c j p r hb hw => ?_, fun c j hb => ⟨(due_iff hs _).mp (h.station c j hb), k.station c j hb⟩,
      h.oneStation, fun l hl => ?_, fun r hr => ⟨(due_iff hs _).mp (h.record r hr), k.record r hr⟩, h.oneRecord,
      fun p hp => ?_, k.apart⟩
    · obtain ⟨a, b, c⟩ := h.rst r p hr
      exact ⟨(occupied_iff_status hs p).mpr ⟨a, b⟩, c⟩
    · obtain ⟨a, b⟩ := h.pending c j p r hb hw
      exact ⟨(due_iff hs _).mp a, b⟩
    · obtain ⟨a, b⟩ := h.lq l hl
      exact ⟨(due_iff hs _).mp a, b⟩
    · obtain ⟨a, b⟩ := (occupied_iff_status hs p).mp hp
      exact k.halt p a b

/-- The ROB entries of two states agree in all that the invariant reads of them. -/
structure SameProducers (s t : State) : Prop where
  status : ∀ k, (t.robAt k).status = (s.robAt k).status
  ready : ∀ k, (t.robAt k).ready = (s.robAt k).ready
  halt : ∀ k, (t.robAt k).halt = (s.robAt k).halt
  uop : ∀ k, (t.robAt k).uop = (s.robAt k).uop
  dest : ∀ k, (t.robAt k).dest = (s.robAt k).dest

theorem SameProducers.of_rob {s t : State} (h : t.rob = s.rob) : SameProducers s t := by
  have : ∀ k, t.robAt k = s.robAt k := fun k => by unfold State.robAt; rw [h]
  constructor <;> intro k <;> rw [this]

theorem SameProducers.awaited {s t : State} (h : SameProducers s t) (p : Nat) : t.Awaited p ↔ s.Awaited p := by
  unfold State.Awaited; rw [h.status, h.ready]

theorem SameProducers.writes {s t : State} (h : SameProducers s t) (p : Nat) (r : Slot) : t.Writes p r ↔ s.Writes p r := by
  unfold State.Writes; rw [h.uop, h.dest]

theorem robAge_congr {s t : State} (hc : t.cfg = s.cfg) (hh : t.head = s.head) (k : Nat) : t.robAge k = s.robAge k := by
  unfold State.robAge; rw [hc, hh]

/-- A change of what the invariant does not read, of the order of the records, or a fatal. -/
theorem flow_congr {s t : State} (h : s.Flow) (hrob : SameProducers s t) (hrs : t.rs = s.rs) (hrst : t.rst = s.rst)
    (hlq : t.lq = s.lq) (hrec : t.records.Perm s.records) (hc : t.cfg = s.cfg) (hh : t.head = s.head)
    (hf : t.fatal = none → s.fatal = none) : t.Flow := by
  have hat : ∀ c j, t.rsAt c j = s.rsAt c j := fun c j => by unfold State.rsAt; rw [hrs]
  have hst : ∀ p, t.StartedFor p ↔ s.StartedFor p := fun p => by unfold State.StartedFor; simp only [hat]
  refine ⟨fun r p => ?_, fun c j p r => ?_, fun c j => ?_, fun c d j k => ?_, fun l => ?_, fun r hr => ?_,
    ((hrec.map _).nodup_iff).mpr h.oneRecord, fun p => ?_, fun hn => ?_⟩
  · rw [hrst, hrob.status, hrob.writes]; exact h.rst r p
  · rw [hat, hrob.awaited, hrob.writes, robAge_congr hc hh, robAge_congr hc hh]; exact h.pending c j p r
  · rw [hat, hrob.awaited, hrob.uop, hrob.dest]; exact h.station c j
  · rw [hat, hat]; exact h.one c d j k
  · rw [hlq, hrob.awaited, hrob.uop, hst]; exact h.lq l
  · rw [hrob.awaited, hst]; simp only [hrob.writes]; exact h.record r (hrec.subset hr)
  · rw [hrob.status, hrob.halt]; simp only [hrob.writes]; exact h.halt p
  · rw [hlq]
    exact ⟨(h.apart (hf hn)).1, fun l hl r hr => (h.apart (hf hn)).2 l hl r (hrec.subset hr)⟩

/-- No record and no queued load belongs to an entry that execute has not started. -/
theorem unstarted_of_ready {s : State} (h : s.Flow) {c : FuClass} {j : Nat} (hr : (s.rsAt c j).isReady = true) :
    ¬ s.StartedFor (s.rsAt c j).dest := by
  rintro ⟨d, k, hb, hd, he⟩
  obtain ⟨rfl, rfl⟩ := h.one d c k j hb (s.rsAt_ready hr).2 he
  simp [RsEntry.isReady, hd] at hr

theorem rsAt_setRs (s : State) (c d : FuClass) (j k : Nat) (e : RsEntry) (hj : j < (s.rs.get c).length) :
    (s.setRs c j e).rsAt d k = if d = c ∧ k = j then e else s.rsAt d k := by
  simp only [State.rsAt, State.setRs, PerClass.get_set]
  by_cases hd : d = c
  · subst hd
    by_cases hk : k = j
    · subst hk; simp [List.getD, hj]
    · simp [List.getD, hk, List.getElem?_set_ne (Ne.symm hk)]
  · simp [hd]

theorem rsAt_dispatched (s : State) (c d : FuClass) (j k : Nat) (hj : j < (s.rs.get c).length) :
    (s.dispatched c j).rsAt d k = if d = c ∧ k = j then { s.rsAt c j with disp := true } else s.rsAt d k :=
  rsAt_setRs s c d j k _ hj

theorem rsAt_lt {s : State} {c : FuClass} {j : Nat} (h : (s.rsAt c j).isReady = true) : j < (s.rs.get c).length := by
  by_contra hn
  have hfree : s.rsAt c j = RsEntry.free := by simp [State.rsAt, List.getD, Nat.not_lt.mp hn]
  simp [hfree, RsEntry.isReady, RsEntry.free] at h

/-- The start of a ready entry (R160, R164): with a record for its producer on the bus, or a load of its producer in the queue. -/
theorem flow_started {s t : State} (h : s.Flow) {c : FuClass} {j : Nat} (hr : (s.rsAt c j).isReady = true)
    (hrob : SameProducers s t) (hat : ∀ d k, t.rsAt d k = if d = c ∧ k = j then { s.rsAt c j with disp := true } else s.rsAt d k)
    (hrst : t.rst = s.rst) (hc : t.cfg = s.cfg) (hh : t.head = s.head) (hf : t.fatal = none → s.fatal = none)
    (hnew : (∃ r, r.p = (s.rsAt c j).dest ∧ t.records.Perm (r :: s.records) ∧ t.lq = s.lq
        ∧ (r.halt = true → ∀ q, ¬ s.Writes r.p q))
      ∨ (∃ l, l.dest = (s.rsAt c j).dest ∧ t.records = s.records ∧ t.lq = s.lq ++ [l]
        ∧ ∃ i, decode (s.rsAt c j).uop = .ok i ∧ i.isLoad = true)) : t.Flow := by
  have hb := (s.rsAt_ready hr).2
  have hun := unstarted_of_ready h hr
  have hkeep : ∀ d k, (t.rsAt d k).busy = (s.rsAt d k).busy ∧ (t.rsAt d k).dest = (s.rsAt d k).dest
      ∧ (t.rsAt d k).uop = (s.rsAt d k).uop ∧ (∀ p r, (t.rsAt d k).Waits p r ↔ (s.rsAt d k).Waits p r) := by
    intro d k
    rw [hat]
    split
    · next he => obtain ⟨rfl, rfl⟩ := he; exact ⟨rfl, rfl, rfl, fun _ _ => Iff.rfl⟩
    · exact ⟨rfl, rfl, rfl, fun _ _ => Iff.rfl⟩
  have hst : ∀ p, s.StartedFor p → t.StartedFor p := by
    rintro p ⟨d, k, h1, h2, h3⟩
    refine ⟨d, k, (hkeep d k).1.trans h1, ?_, (hkeep d k).2.1.trans h3⟩
    rw [hat]; split
    · rfl
    · exact h2
  have hself : t.StartedFor (s.rsAt c j).dest := ⟨c, j, (hkeep c j).1.trans hb, by simp [hat], (hkeep c j).2.1⟩
  obtain ⟨haw, huop, hcls⟩ := h.station c j hb
  have hlqs : ∀ l ∈ s.lq, t.Awaited l.dest ∧ (∃ i, decode (t.robAt l.dest).uop = .ok i ∧ i.isLoad = true)
      ∧ t.StartedFor l.dest := by
    intro l hl
    obtain ⟨a, b, e⟩ := h.lq l hl
    rw [hrob.awaited, hrob.uop]
    exact ⟨a, b, hst _ e⟩
  have hrecs : ∀ r ∈ s.records, t.Awaited r.p ∧ t.StartedFor r.p ∧ (r.halt = true → ∀ q, ¬ t.Writes r.p q) := by
    intro r hr
    obtain ⟨a, b, e⟩ := h.record r hr
    simp only [hrob.awaited, hrob.writes]
    exact ⟨a, hst _ b, e⟩
  refine ⟨fun r p => ?_, fun d k p r hb' hw => ?_, fun d k hb' => ?_, fun d e k l h1 h2 h3 => ?_, ?_, ?_, ?_, fun p => ?_, fun hn => ?_⟩
  · rw [hrst, hrob.status, hrob.writes]; exact h.rst r p
  · rw [(hkeep d k).2.1, hrob.awaited, hrob.writes, robAge_congr hc hh, robAge_congr hc hh]
    exact h.pending d k p r ((hkeep d k).1 ▸ hb') (((hkeep d k).2.2.2 p r).mp hw)
  · rw [(hkeep d k).2.1, (hkeep d k).2.2.1, hrob.awaited, hrob.uop, hrob.dest]
    exact h.station d k ((hkeep d k).1 ▸ hb')
  · rw [(hkeep d k).2.1, (hkeep e l).2.1] at h3
    exact h.one d e k l ((hkeep d k).1 ▸ h1) ((hkeep e l).1 ▸ h2) h3
  · rcases hnew with ⟨r, _, _, hlq, _⟩ | ⟨l, hl, _, hlq, i, hi⟩
    · rw [hlq]; exact hlqs
    · rw [hlq]; intro x hx
      rcases List.mem_append.mp hx with hx | hx
      · exact hlqs x hx
      · rw [List.mem_singleton] at hx; subst hx
        rw [hl, hrob.awaited, hrob.uop, huop]
        exact ⟨haw, ⟨i, hi⟩, hself⟩
  · rcases hnew with ⟨r, hp, hrec, _, hhalt⟩ | ⟨_, _, hrec, _⟩
    · intro x hx
      rcases List.mem_cons.mp (hrec.subset hx) with rfl | hx
      · simp only [hrob.awaited, hrob.writes]
        rw [hp]
        exact ⟨haw, hself, hp ▸ hhalt⟩
      · exact hrecs x hx
    · rw [hrec]; exact hrecs
  · rcases hnew with ⟨r, hp, hrec, _, _⟩ | ⟨_, _, hrec, _⟩
    · rw [(hrec.map _).nodup_iff, List.map_cons, List.nodup_cons]
      refine ⟨fun hmem => ?_, h.oneRecord⟩
      obtain ⟨x, hx, he⟩ := List.mem_map.mp hmem
      exact hun (hp ▸ he ▸ (h.record x hx).2.1)
    · rw [hrec]; exact h.oneRecord
  · rw [hrob.status, hrob.halt]; simp only [hrob.writes]; exact h.halt p
  · obtain ⟨a, b⟩ := h.apart (hf hn)
    rcases hnew with ⟨r, hp, hrec, hlq, _⟩ | ⟨l, hl, hrec, hlq, _⟩
    · rw [hlq]
      refine ⟨a, fun l hl x hx => ?_⟩
      rcases List.mem_cons.mp (hrec.subset hx) with rfl | hx
      · rw [hp]; intro he; exact hun (he ▸ (h.lq l hl).2.2)
      · exact b l hl x hx
    · rw [hlq, hrec]
      refine ⟨?_, fun x hx r hr => ?_⟩
      · rw [List.map_append, List.nodup_append]
        refine ⟨a, by simp, fun x hx y hy => ?_⟩
        obtain ⟨z, hz, rfl⟩ := List.mem_map.mp hx
        simp only [List.map_cons, List.map_nil, List.mem_singleton] at hy
        rw [hy, hl]; intro he; exact hun (he ▸ (h.lq z hz).2.2)
      · rcases List.mem_append.mp hx with hx | hx
        · exact b x hx r hr
        · rw [List.mem_singleton] at hx; subst hx
          rw [hl]; intro he; exact hun (he ▸ (h.record r hr).2.1)


theorem sameProducers_value (s : State) (p : Nat) (v : Word) :
    SameProducers s (s.setRob p { s.robAt p with value := v }) := by
  constructor <;> intro k
  · exact State.robAt_setRob_keeps (·.status) s p k _ rfl
  · exact State.robAt_setRob_keeps (·.ready) s p k _ rfl
  · exact State.robAt_setRob_keeps (·.halt) s p k _ rfl
  · exact State.robAt_setRob_keeps (·.uop) s p k _ rfl
  · exact State.robAt_setRob_keeps (·.dest) s p k _ rfl

theorem records_push (s : State) (r : BusRecord) (n : Nat) : (s.push r n).records.Perm (r :: s.records) := by
  simp only [State.records, State.push, List.map_append, List.map_cons, List.map_nil, List.append_assoc, List.singleton_append]
  exact List.perm_middle

/-- What starting the producer `p` of the micro-op `i` does to the producers, the records and the load queue (R164). -/
structure StartEffect (i : Instr) (p : Nat) (s t : State) : Prop where
  rob : SameProducers s t
  rs : t.rs = s.rs
  rst : t.rst = s.rst
  cfg : t.cfg = s.cfg
  head : t.head = s.head
  fatal : t.fatal = s.fatal
  new : (∃ r, r.p = p ∧ t.records.Perm (r :: s.records) ∧ t.lq = s.lq
      ∧ (r.halt = true → ∀ q, writesSlot i.dest i.fw q = false))
    ∨ (∃ l : LqEntry, l.dest = p ∧ t.records = s.records ∧ t.lq = s.lq ++ [l] ∧ i.isLoad = true)

theorem start_effect {i : Instr} {st : Started} {s t : State} (h : i.profile.start st s = some t) :
    StartEffect i st.p s t := by
  have load : ∀ sz sg, i.isLoad = true → startLoad sz sg st s = some t → StartEffect i st.p s t := by
    intro sz sg hi h
    unfold startLoad at h
    split at h
    · cases h
    · cases h
      exact ⟨.of_rob rfl, rfl, rfl, rfl, rfl, rfl, .inr ⟨_, rfl, rfl, rfl, hi⟩⟩
  have push : ∀ (u : State) (r : BusRecord) (n : Nat), SameProducers s u → u.rs = s.rs → u.rst = s.rst → u.cfg = s.cfg →
      u.head = s.head → u.fatal = s.fatal → u.records = s.records → u.lq = s.lq → r.p = st.p →
      (r.halt = true → ∀ q, writesSlot i.dest i.fw q = false) → startPush r n u = some t → StartEffect i st.p s t := by
    intro u r n h1 h2 h3 h4 h5 h6 h7 h8 h9 h10 h
    cases h
    exact ⟨⟨h1.status, h1.ready, h1.halt, h1.uop, h1.dest⟩, h2, h3, h4, h5, h6,
      .inl ⟨r, h9, h7 ▸ records_push u r n, h8, h10⟩⟩
  cases i with
  | ldb | ldsb | ldh | ldsh | ldw | ldsw => exact load _ _ rfl h
  | stb | sth | stw =>
    exact push _ _ _ (sameProducers_value s st.p st.v2) rfl rfl rfl rfl rfl rfl rfl rfl (fun h => by simp at h) h
  | svcHalt =>
    exact push s _ _ (.of_rob rfl) rfl rfl rfl rfl rfl rfl rfl rfl
      (fun _ q => by cases q <;> simp [writesSlot, Instr.dest, Instr.fw, Dest.slot, flagBit]) h
  | svcPuts =>
    exact push (s.emitOut (.puts st.v0)) _ _ (.of_rob rfl) rfl rfl rfl rfl rfl rfl rfl rfl (fun h => by simp at h) h
  | svcPuti =>
    exact push (s.emitOut (.puti st.v0)) _ _ (.of_rob rfl) rfl rfl rfl rfl rfl rfl rfl rfl (fun h => by simp at h) h
  | _ => exact push s _ _ (.of_rob rfl) rfl rfl rfl rfl rfl rfl rfl rfl (fun h => by simp at h) h

/-- One turn of the selection loop on a ready entry (R160). -/
theorem startUop_flow {s : State} (h : s.Flow) {c : FuClass} {j : Nat} {i : Instr} (hr : (s.rsAt c j).isReady = true)
    (hd : decode (s.rsAt c j).uop = .ok i) : (startUop i.profile c j s).Flow := by
  rcases startUop_cases i c j s with hs | ⟨t, ht, hs⟩ <;> rw [hs]
  · exact flow_congr h (.of_rob rfl) rfl rfl rfl (.refl _) rfl rfl id
  · obtain ⟨hrob, hrs, hrst, hc, hh, hf, hnew⟩ := start_effect ht
    have hat : ∀ d k, t.rsAt d k = s.rsAt d k := fun d k => by unfold State.rsAt; rw [hrs]
    refine flow_started h hr (t := t.dispatched c j) ⟨hrob.status, hrob.ready, hrob.halt, hrob.uop, hrob.dest⟩
      (fun d k => ?_) hrst hc hh (fun hn => hf ▸ hn) ?_
    · rw [rsAt_dispatched t c d j k (by rw [hrs]; exact rsAt_lt hr), hat, hat]
    · have hb := (s.rsAt_ready hr).2
      rcases hnew with ⟨r, hp, hrec, hlq, hhalt⟩ | ⟨l, hl, hrec, hlq, hi⟩
      · refine .inl ⟨r, hp, hrec, hlq, fun hr q => ?_⟩
        obtain ⟨_, huop, hi⟩ := h.station c j hb
        have hp' : r.p = (s.rsAt c j).dest := hp
        unfold State.Writes
        rw [hp', huop, (hi i hd).2, ← fw_of_decode hd, hhalt hr q]
        simp
      · exact .inr ⟨l, hl, hrec, hlq, i, hd, hi⟩

/-! Writeback. -/

theorem operand_wake_pending {o : Operand} {p : Nat} {r : Slot} {w : Word} {q : Nat} {x : Slot}
    (h : o.wake p r w = .pending q x) : o = .pending q x ∧ (q, x) ≠ (p, r) := by
  unfold Operand.wake at h
  split at h
  · cases h
  · next hn => subst h; exact ⟨rfl, fun he => hn (by cases he; rfl)⟩

/-- A busy entry after a wake-up waits for what it waited for, but for the slot woken (R194). -/
theorem wake_waits {e : RsEntry} {p : Nat} {r : Slot} {w : Word} {q : Nat} {x : Slot} (hb : e.busy = true)
    (h : (e.wake p r w).Waits q x) : e.Waits q x ∧ (q, x) ≠ (p, r) := by
  unfold RsEntry.wake at h
  rw [if_pos hb] at h
  rcases h with h | h | h <;> obtain ⟨h1, h2⟩ := operand_wake_pending h
  · exact ⟨.inl h1, h2⟩
  · exact ⟨.inr (.inl h1), h2⟩
  · exact ⟨.inr (.inr h1), h2⟩

/-- The entries of all sets after the wake-ups of the producer `p`: of a busy entry the identity is kept, and it waits for none of the
slots in `woke` of `p`. -/
structure WokenBy (p : Nat) (woke : Slot → Prop) (s t : State) : Prop where
  entry : ∀ c j, (s.rsAt c j).SameEntry (t.rsAt c j) ∧ (t.rsAt c j).busy = (s.rsAt c j).busy
  waits : ∀ c j q x, (s.rsAt c j).busy = true → (t.rsAt c j).Waits q x → (s.rsAt c j).Waits q x ∧ ¬ (q = p ∧ woke x)

theorem rsAt_map (s : State) (g : RsEntry → RsEntry) (hg : g RsEntry.free = RsEntry.free) (c : FuClass) (j : Nat) :
    ({ s with rs := s.rs.map (fun es => es.map g) } : State).rsAt c j = g (s.rsAt c j) := by
  simp only [State.rsAt, PerClass.get_map, List.getD, List.getElem?_map]
  cases (s.rs.get c)[j]? with
  | none => exact hg.symm
  | some e => rfl

theorem wokenBy_wake (s : State) (p : Nat) (r : Slot) (w : Word) : WokenBy p (· = r) s (s.wake p r w) := by
  have hat : ∀ c j, (s.wake p r w).rsAt c j = (s.rsAt c j).wake p r w := fun c j => rsAt_map s (·.wake p r w) rfl c j
  refine ⟨fun c j => ?_, fun c j q x hb hw => ?_⟩
  · rw [hat]
    refine ⟨RsEntry.wake_same _ _ _ _, ?_⟩
    unfold RsEntry.wake; split <;> rfl
  · rw [hat] at hw
    obtain ⟨h1, h2⟩ := wake_waits hb hw
    exact ⟨h1, fun he => h2 (by rw [he.1, he.2])⟩

theorem WokenBy.refl (s : State) (p : Nat) : WokenBy p (fun _ => False) s s :=
  ⟨fun _ _ => ⟨.rfl' _, rfl⟩, fun _ _ _ _ _ hw => ⟨hw, fun h => h.2⟩⟩

theorem WokenBy.trans {p : Nat} {a b : Slot → Prop} {s t u : State} (h : WokenBy p a s t) (k : WokenBy p b t u) :
    WokenBy p (fun x => a x ∨ b x) s u := by
  refine ⟨fun c j => ⟨(h.entry c j).1.trans (k.entry c j).1, (k.entry c j).2.trans (h.entry c j).2⟩, fun c j q x hb hw => ?_⟩
  obtain ⟨h1, h2⟩ := k.waits c j q x ((h.entry c j).2.trans hb) hw
  obtain ⟨h3, h4⟩ := h.waits c j q x hb h1
  exact ⟨h3, fun ⟨hq, hx⟩ => hx.elim (fun hx => h4 ⟨hq, hx⟩) (fun hx => h2 ⟨hq, hx⟩)⟩

theorem WokenBy.mono {p : Nat} {a b : Slot → Prop} {s t : State} (h : WokenBy p a s t) (hab : ∀ x, b x → a x) : WokenBy p b s t :=
  ⟨h.entry, fun c j q x hb hw => ⟨(h.waits c j q x hb hw).1, fun ⟨hq, hx⟩ => (h.waits c j q x hb hw).2 ⟨hq, hab x hx⟩⟩⟩

/-- The wake-ups of a broadcast reach every slot the producer writes (R197). -/
theorem wokenBy_wakes (s : State) (d : Dest) (fw fl : BitVec 4) (p : Nat) (w : Word) :
    WokenBy p (fun x => writesSlot d fw x = true) s ((s.wakeDest d p w).wakeFlags fw fl p) := by
  have dest : WokenBy p (fun x => d.slot = some x) s (s.wakeDest d p w) := by
    unfold State.wakeDest
    split
    · next r hr => exact (wokenBy_wake s p r w).mono (fun x hx => by simpa [hr, eq_comm] using hx)
    · next hn => exact (WokenBy.refl s p).mono (fun x hx => by simp [hn] at hx)
  have flags : ∀ (fs : List Flag) (s : State), WokenBy p (fun x => ∃ f ∈ fs, flagBit fw f = true ∧ x = .flag f) s
      (fs.foldl (fun s f => if flagBit fw f then s.wake p (.flag f) (flagWord (flagBit fl f)) else s) s) := by
    intro fs
    induction fs with
    | nil => exact fun s => (WokenBy.refl s p).mono (by simp)
    | cons f fs ih =>
      intro s
      rw [List.foldl_cons]
      by_cases hf : flagBit fw f = true
      · rw [if_pos hf]
        refine ((wokenBy_wake s p (.flag f) _).trans (ih _)).mono ?_
        rintro x ⟨g, hg, hb, rfl⟩
        rcases List.mem_cons.mp hg with rfl | hg
        · exact .inl rfl
        · exact .inr ⟨g, hg, hb, rfl⟩
      · rw [if_neg hf]
        refine (ih s).mono ?_
        rintro x ⟨g, hg, hb, rfl⟩
        rcases List.mem_cons.mp hg with rfl | hg
        · exact absurd hb hf
        · exact ⟨g, hg, hb, rfl⟩
  refine (dest.trans (flags allFlags (s.wakeDest d p w))).mono (fun x hx => ?_)
  cases x with
  | reg r => exact .inl (by simpa [writesSlot] using hx)
  | flag f => exact .inr ⟨f, by cases f <;> simp [allFlags], hx, rfl⟩

theorem rsAt_freeRs (s : State) (c : FuClass) (p : Nat) (d : FuClass) (k : Nat) :
    (s.freeRs c p).rsAt d k =
      if d = c ∧ (s.rsAt d k).busy = true ∧ (s.rsAt d k).dest = p then { s.rsAt d k with busy := false } else s.rsAt d k := by
  simp only [State.rsAt, State.freeRs, PerClass.get_set]
  by_cases hd : d = c
  · subst hd
    simp only [if_true, freeEntries, List.getD, List.getElem?_map, true_and]
    cases (s.rs.get d)[k]? with
    | none => simp [RsEntry.free]
    | some e => simp
  · simp [hd]

/-- What a broadcast leaves of an entry (R194, R197, R198). -/
theorem broadcastUop_rsAt (pr : Profile) (r : BusRecord) (s : State) (c : FuClass) (j : Nat)
    (hb : ((broadcastUop pr r s).rsAt c j).busy = true) :
    (s.rsAt c j).busy = true ∧ (s.rsAt c j).SameEntry ((broadcastUop pr r s).rsAt c j)
    ∧ ¬ (c = pr.cls ∧ (s.rsAt c j).dest = r.p)
    ∧ ∀ q x, ((broadcastUop pr r s).rsAt c j).Waits q x →
        (s.rsAt c j).Waits q x ∧ ¬ (q = r.p ∧ writesSlot ((s.robAt r.p).receive r).dest pr.fw x = true) := by
  have hw := wokenBy_wakes (s.setRob r.p ((s.robAt r.p).receive r)) ((s.robAt r.p).receive r).dest pr.fw r.fl r.p r.val
  unfold broadcastUop at hb ⊢
  simp only at hb ⊢
  rw [rsAt_freeRs] at hb ⊢
  obtain ⟨h1, h2⟩ := hw.entry c j
  split at hb
  · cases hb
  · next hn =>
    rw [if_neg hn]
    have hb' : (s.rsAt c j).busy = true := h2.symm.trans hb
    exact ⟨hb', h1, fun ⟨hc, hd⟩ => hn ⟨hc, hb, h1.dest.trans hd⟩, fun q x hx => hw.waits c j q x hb' hx⟩

/-- The broadcast of a record taken off the completion queue (R194 to R199). -/
theorem broadcast_flow {s : State} (h : s.Flow) (hdead : s.fatal = none) {r : BusRecord} {rest : List BusRecord}
    {i : Instr} (hq : s.cq = r :: rest) (hd : decode (s.robAt r.p).uop = .ok i) :
    (broadcastUop i.profile r { s with cq := rest }).Flow := by
  obtain ⟨rs, hrs⟩ := broadcastUop_eq i.profile r { s with cq := rest }
  have hbk := broadcastUop_rsAt i.profile r { s with cq := rest }
  obtain ⟨u, hu⟩ : ∃ u, broadcastUop i.profile r { s with cq := rest } = u := ⟨_, rfl⟩
  rw [hu] at hrs hbk ⊢
  have hrec : s.records.Perm (r :: u.records) := by
    rw [hrs]
    show (s.dly.map (·.record) ++ s.cq).Perm (r :: (s.dly.map (·.record) ++ rest))
    rw [hq]; exact List.perm_middle
  have hr : r ∈ s.records := hrec.symm.subset (by simp)
  obtain ⟨hrl, hrs', hrh⟩ := h.record r hr
  have hlt : r.p < s.rob.length := by
    by_contra hn
    have := hrl.1
    rw [s.robAt_of_le (by omega)] at this
    exact this rfl
  have hkeep := (s.robAt r.p).receive_keeps r
  have hat : ∀ k, u.robAt k = if k = r.p then (s.robAt r.p).receive r else s.robAt k := by
    intro k; rw [hrs]; exact State.robAt_setRob s r.p k _ hlt
  have huop : ∀ k, (u.robAt k).uop = (s.robAt k).uop := by
    intro k; rw [hat]; split
    · next he => rw [he]; exact hkeep.2.1
    · rfl
  have hstat : ∀ k, (u.robAt k).status = (s.robAt k).status := by
    intro k; rw [hat]; split
    · next he => rw [he]; exact hkeep.2.2.1
    · rfl
  have hslot : ∀ k, (u.robAt k).dest.slot = (s.robAt k).dest.slot := by
    intro k; rw [hat]; split
    · next he => rw [he]; exact hkeep.2.2.2
    · rfl
  have hW : ∀ k q, u.Writes k q ↔ s.Writes k q := by
    intro k q; unfold State.Writes
    rw [huop]
    cases q with
    | reg g => simp only [writesSlot, hslot]
    | flag f => exact Iff.rfl
  have hA : ∀ k, k ≠ r.p → (u.Awaited k ↔ s.Awaited k) := by
    intro k hk; unfold State.Awaited; rw [hat, if_neg hk]
  have hage : ∀ k, u.robAge k = s.robAge k := fun k => robAge_congr (by rw [hrs]; rfl) (by rw [hrs]; rfl) k
  have hfw : i.profile.fw = Record.fw (s.robAt r.p).uop := by rw [i.profile_fw]; exact fw_of_decode hd
  -- the busy entries left are none of the producer's
  have hnot : ∀ c j, (u.rsAt c j).busy = true → (s.rsAt c j).dest ≠ r.p := by
    intro c j hb he
    obtain ⟨hb', _, hn, _⟩ := hbk c j hb
    obtain ⟨_, h2, h3⟩ := h.station c j hb'
    have : i.cls = c := (h3 i (by rw [← h2, he]; exact hd)).1
    exact hn ⟨by rw [i.profile_cls, this], he⟩
  have hst : ∀ p, p ≠ r.p → s.StartedFor p → u.StartedFor p := by
    rintro p hp ⟨c, j, h1, h2, h3⟩
    have hsame : (s.rsAt c j).SameEntry (u.rsAt c j) ∧ (u.rsAt c j).busy = true := by
      obtain ⟨e1, e2⟩ := (wokenBy_wakes (State.setRob { s with cq := rest } r.p ((s.robAt r.p).receive r))
        ((s.robAt r.p).receive r).dest i.profile.fw r.fl r.p r.val).entry c j
      rw [← hu]
      unfold broadcastUop
      simp only
      rw [rsAt_freeRs, if_neg]
      · exact ⟨e1, e2.trans h1⟩
      · rintro ⟨_, _, he⟩
        exact hp (h3.symm.trans (e1.dest.symm.trans he))
    exact ⟨c, j, hsame.2, hsame.1.disp.trans h2, hsame.1.dest.trans h3⟩
  have hnd := h.oneRecord
  rw [(hrec.map _).nodup_iff, List.map_cons, List.nodup_cons] at hnd
  have hother : ∀ x ∈ u.records, x.p ≠ r.p := fun x hx he => hnd.1 (List.mem_map.mpr ⟨x, hx, he⟩)
  have hsub : ∀ x ∈ u.records, x ∈ s.records := fun x hx => hrec.symm.subset (List.mem_cons_of_mem r hx)
  have hlq : u.lq = s.lq := by rw [hrs]; rfl
  have hap := h.apart hdead
  refine ⟨fun x p hx => ?_, fun c j p x hb hx => ?_, fun c j hb => ?_, fun c d j k h1 h2 h3 => ?_, fun l hl => ?_,
    fun x hx => ?_, hnd.2, fun p hp hh q => ?_, fun _ => ?_⟩
  · rw [hstat, hW]
    exact h.rst x p (by rw [hrs] at hx; exact hx)
  · obtain ⟨hb', hsame, _, hw⟩ := hbk c j hb
    obtain ⟨hw1, hw2⟩ := hw p x hx
    obtain ⟨a, b, e⟩ := h.pending c j p x hb' hw1
    have hp : p ≠ r.p := by
      rintro rfl
      refine hw2 ⟨rfl, ?_⟩
      have : u.Writes r.p x := (hW _ _).mpr e
      unfold State.Writes at this
      rw [huop, ← hfw, hat, if_pos rfl] at this
      exact this
    rw [hA p hp, hage, hage, hW, hsame.dest]
    exact ⟨a, b, e⟩
  · obtain ⟨hb', hsame, _, _⟩ := hbk c j hb
    obtain ⟨a, b, e⟩ := h.station c j hb'
    have hne := hnot c j hb
    have hd' : (u.rsAt c j).dest = (s.rsAt c j).dest := hsame.dest
    have hu' : (u.rsAt c j).uop = (s.rsAt c j).uop := hsame.uop
    rw [hd', hu', hA _ hne, huop, hat, if_neg hne]
    exact ⟨a, b, e⟩
  · obtain ⟨a1, a2, _⟩ := hbk c j h1
    obtain ⟨b1, b2, _⟩ := hbk d k h2
    exact h.one c d j k a1 b1 (a2.dest.symm.trans (h3.trans b2.dest))
  · rw [hlq] at hl
    obtain ⟨a, b, e⟩ := h.lq l hl
    have hne : l.dest ≠ r.p := fun he => hap.2 l hl r hr he.symm
    rw [hA _ hne, huop]
    exact ⟨a, b, hst _ hne e⟩
  · obtain ⟨a, b, e⟩ := h.record x (hsub x hx)
    have hne := hother x hx
    rw [hA _ hne]
    simp only [hW]
    exact ⟨a, hst _ hne b, e⟩
  · rw [hW]
    by_cases he : p = r.p
    · subst he
      refine hrh ?_ q
      rw [hat, if_pos rfl] at hh
      revert hh
      unfold RobEntry.receive
      split <;> exact id
    · rw [hstat] at hp
      rw [hat, if_neg he] at hh
      exact h.halt p hp hh q
  · rw [hlq]
    exact ⟨hap.1, fun l hl x hx => hap.2 l hl x (hsub x hx)⟩

/-! Issue. -/

/-- The slot that issue allocates is free, and every occupied slot is older than it (R27, R28, R140). -/
theorem tail_free {s : State} (hs : s.Fifo) (hf : s.robFull = false) :
    (s.robAt s.tail).status = .empty ∧ ∀ p, (s.robAt p).status ≠ .empty → s.robAge p < s.robAge s.tail := by
  have hcount : s.robCount = if s.head = s.tail then 0 else s.robAge s.tail := by simp [State.robCount, hf]
  have hocc : ∀ p, (s.robAt p).status ≠ .empty → s.head ≠ s.tail ∧ s.robAge p < s.robAge s.tail := by
    intro p hp
    have := ((occupied_iff_status hs p).mp hp).2
    rw [State.occupied, decide_eq_true_eq, hcount] at this
    split at this
    · omega
    · exact ⟨by assumption, this⟩
  refine ⟨?_, fun p hp => (hocc p hp).2⟩
  by_contra hn
  exact Nat.lt_irrefl _ (hocc _ hn).2

/-- What renaming waits for (R146). -/
theorem rename_pending {s : State} {x : SrcRef} {p : Nat} {r : Slot} (h : s.rename x = .pending p r) :
    s.rst.get r = some p ∧ (s.robAt p).ready = false := by
  cases x with
  | none => cases h
  | imm w => cases h
  | slot q =>
    simp only [State.rename, State.renameSlot] at h
    split at h
    · cases h
    · next hq =>
      split at h
      · cases h
      · next hr => cases h; exact ⟨hq, by simpa using hr⟩

/-- The allocation of a micro-op (R140, R149). -/
theorem allocate_flow {s : State} (hs : s.Fifo) (h : s.Flow) {i : Instr} {e : IqEntry} {rest : List IqEntry} {j : Nat}
    (hd : decode e.uop = .ok i) (hf : s.robFull = false) (hj : freeSlot (s.rs.get i.profile.cls) = some j) :
    (s.allocate i.profile e rest j).Flow := by
  obtain ⟨u, hu⟩ : ∃ u, s.allocate i.profile e rest j = u := ⟨_, rfl⟩
  obtain ⟨hj1, _, _⟩ := freeSlot_spec hj
  obtain ⟨hte, hold⟩ := tail_free hs hf
  have hat : ∀ k, u.robAt k = if k = s.tail then
      { pc := e.pc, uop := e.uop, status := .executing, value := 0#32, target := 0#32, flags := 0#4, ready := false
        halt := false, dest := i.profile.dest } else s.robAt k := by
    intro k; rw [← hu]
    exact State.robAt_setRob s s.tail k _ (by rw [hs.size]; exact hs.tail_lt)
  have hrs : ∀ c k, u.rsAt c k = if c = i.profile.cls ∧ k = j then
      { busy := true, op0 := s.rename i.profile.src0, op1 := s.rename i.profile.src1, op2 := s.rename i.profile.src2, dest := s.tail
        uop := e.uop, sf := decide (i.profile.fw ≠ 0#4), disp := false } else s.rsAt c k := by
    intro c k; rw [← hu]
    exact rsAt_setRs s _ c j k _ hj1
  have hrst : ∀ r, u.rst.get r = if writesSlot i.profile.dest i.profile.fw r then some s.tail else s.rst.get r := by
    intro r; rw [← hu]; exact Rst.get_claim _ _ _ _ _
  have hage : ∀ k, u.robAge k = s.robAge k := fun k => robAge_congr (by rw [← hu]; rfl) (by rw [← hu]; rfl) k
  have hrec : u.records = s.records := by rw [← hu]; rfl
  have hlq : u.lq = s.lq := by rw [← hu]; rfl
  have hfat : u.fatal = s.fatal := by rw [← hu]; rfl
  rw [hu]
  have hne : ∀ p, (s.robAt p).status ≠ .empty → p ≠ s.tail := fun p hp he => hp (he ▸ hte)
  have hA : ∀ p, s.Awaited p → u.Awaited p := by
    intro p hp; unfold State.Awaited; rw [hat, if_neg (hne p hp.1)]; exact hp
  have hW : ∀ p, (s.robAt p).status ≠ .empty → ∀ q, (u.Writes p q ↔ s.Writes p q) := by
    intro p hp q; unfold State.Writes; rw [hat, if_neg (hne p hp)]
  have htail : u.Awaited s.tail := by unfold State.Awaited; rw [hat, if_pos rfl]; simp
  have hWt : ∀ q, u.Writes s.tail q ↔ writesSlot i.profile.dest i.profile.fw q = true := by
    intro q; unfold State.Writes; rw [hat, if_pos rfl, i.profile_fw, fw_of_decode hd]
  have hst : ∀ p, s.StartedFor p → u.StartedFor p := by
    rintro p ⟨c, k, h1, h2, h3⟩
    have : ¬ (c = i.profile.cls ∧ k = j) := by
      rintro ⟨rfl, rfl⟩
      have := (freeSlot_spec hj).2.1
      rw [show (s.rs.get i.profile.cls).getD k RsEntry.free = s.rsAt i.profile.cls k from rfl, h1] at this
      cases this
    exact ⟨c, k, by rw [hrs, if_neg this]; exact h1, by rw [hrs, if_neg this]; exact h2, by rw [hrs, if_neg this]; exact h3⟩
  refine ⟨fun r p hr => ?_, fun c k p r hb hw => ?_, fun c k hb => ?_, fun c d k l h1 h2 h3 => ?_, fun l hl => ?_,
    fun r hr => ?_, hrec ▸ h.oneRecord, fun p hp hh q => ?_, fun hn => ?_⟩
  · rw [hrst] at hr
    split at hr
    · next hw => cases hr; exact ⟨htail.1, (hWt r).mpr hw⟩
    · obtain ⟨a, b⟩ := h.rst r p hr
      exact ⟨by rw [hat, if_neg (hne p a)]; exact a, (hW p a r).mpr b⟩
  · rw [hage, hage]
    rw [hrs] at hb hw ⊢
    split at hb
    · next hc =>
      rw [if_pos hc] at hw ⊢
      have : s.rst.get r = some p ∧ (s.robAt p).ready = false := by
        rcases hw with hw | hw | hw <;> exact rename_pending hw
      obtain ⟨a, b⟩ := h.rst r p this.1
      exact ⟨hA p ⟨a, this.2⟩, hold p a, (hW p a r).mpr b⟩
    · next hc =>
      rw [if_neg hc] at hw ⊢
      obtain ⟨a, b, d⟩ := h.pending c k p r hb hw
      exact ⟨hA p a, b, (hW p a.1 r).mpr d⟩
  · rw [hrs] at hb ⊢
    split at hb
    · next hc =>
      rw [if_pos hc]
      refine ⟨htail, by rw [hat, if_pos rfl], fun i' hi' => ?_⟩
      have : i' = i := by rw [hd] at hi'; exact (Except.ok.inj hi').symm
      subst this
      refine ⟨?_, by rw [hat, if_pos rfl]; exact i'.profile_dest⟩
      rw [hc.1, i'.profile_cls]
    · next hc =>
      rw [if_neg hc]
      obtain ⟨a, b, d⟩ := h.station c k hb
      refine ⟨hA _ a, ?_⟩
      rw [hat, if_neg (hne _ a.1)]
      exact ⟨b, d⟩
  · have hold' : ∀ c k, (s.rsAt c k).busy = true → (s.rsAt c k).dest ≠ s.tail := fun c k hb => hne _ (h.station c k hb).1.1
    rw [hrs] at h1 h2
    rw [hrs c, hrs d] at h3
    split at h1 <;> split at h2
    · next ha hb => exact ⟨ha.1.trans hb.1.symm, ha.2.trans hb.2.symm⟩
    · next ha hb => rw [if_pos ha, if_neg hb] at h3; exact absurd h3.symm (hold' d l h2)
    · next ha hb => rw [if_neg ha, if_pos hb] at h3; exact absurd h3 (hold' c k h1)
    · next ha hb => rw [if_neg ha, if_neg hb] at h3; exact h.one c d k l h1 h2 h3
  · rw [hlq] at hl
    obtain ⟨a, b, d⟩ := h.lq l hl
    refine ⟨hA _ a, ?_, hst _ d⟩
    rw [hat, if_neg (hne _ a.1)]
    exact b
  · rw [hrec] at hr
    obtain ⟨a, b, d⟩ := h.record r hr
    exact ⟨hA _ a, hst _ b, fun hh q => by rw [hW _ a.1]; exact d hh q⟩
  · rw [hat] at hp hh
    split at hh
    · cases hh
    · next hc =>
      rw [if_neg hc] at hp
      rw [hW p hp]; exact h.halt p hp hh q
  · rw [hlq, hrec]; exact h.apart (hfat ▸ hn)

/-! The load queue. -/

/-- A queued load whose access succeeds leaves the queue for the bus (R177). -/
theorem access_flow {s : State} {l : LqEntry} {before after : List LqEntry} {r : BusRecord} {n : Nat}
    (h : ({ s with lq := before ++ l :: after } : State).Flow) (hdead : s.fatal = none) (hp : r.p = l.dest) (hr : r.halt = false) :
    ({ s.push r n with lq := before ++ after } : State).Flow := by
  have hmem : l ∈ ({ s with lq := before ++ l :: after } : State).lq := by simp
  have hrec : ({ s.push r n with lq := before ++ after } : State).records.Perm (r :: s.records) := records_push s r n
  have hsub : ∀ x ∈ before ++ after, x ∈ ({ s with lq := before ++ l :: after } : State).lq := by
    intro x hx; simp only [List.mem_append, List.mem_cons] at hx ⊢; tauto
  obtain ⟨ha, _, hstart⟩ := h.lq l hmem
  obtain ⟨hnd, hap⟩ := h.apart hdead
  have hnd' : l.dest ∉ (before ++ after).map (·.dest) ∧ ((before ++ after).map (·.dest)).Nodup := by
    have := ((List.perm_middle (l₁ := before) (a := l) (l₂ := after)).map (·.dest)).nodup_iff.mp hnd
    rw [List.map_cons, List.nodup_cons] at this
    exact this
  refine ⟨h.rst, h.pending, h.station, h.one, fun x hx => h.lq x (hsub x hx), fun x hx => ?_, ?_, h.halt,
    fun _ => ⟨hnd'.2, fun x hx y hy he => ?_⟩⟩
  · rcases List.mem_cons.mp (hrec.subset hx) with rfl | hx
    · rw [hp]
      exact ⟨ha, hstart, fun hh => by rw [hr] at hh; cases hh⟩
    · exact h.record x hx
  · rw [(hrec.map _).nodup_iff, List.map_cons, List.nodup_cons]
    refine ⟨fun hm => ?_, h.oneRecord⟩
    obtain ⟨x, hx, he⟩ := List.mem_map.mp hm
    exact hap l hmem x hx (he.trans hp)
  · rcases List.mem_cons.mp (hrec.subset hy) with rfl | hy
    · exact hnd'.1 (List.mem_map.mpr ⟨x, hx, (he.symm.trans hp)⟩)
    · exact hap x (hsub x hx) y hy he

/-- The scan of the load queue (R175): with the loads kept and those not looked at as the queue, the invariant holds throughout. -/
theorem scanLoads_flow (ls : List LqEntry) (n : Nat) (keep : List LqEntry) {s t : State}
    (h : ({ s with lq := keep ++ ls } : State).Flow) (hdead : s.fatal = none)
    (hall : ∀ l ∈ s.lq, s.Awaited l.dest ∧ (∃ i, decode (s.robAt l.dest).uop = .ok i ∧ i.isLoad = true) ∧ s.StartedFor l.dest)
    (ht : scanLoads ls n keep s = .next t) : t.Flow := by
  induction ls generalizing n keep s with
  | nil => cases ht; simpa using h
  | cons l rest ih =>
    unfold scanLoads at ht
    split at ht
    · cases hd : decode (s.robAt l.dest).uop with
      | error r => simp [execRecord, hd, andThen] at ht
      | ok i =>
        rw [execRecord_ok hd] at ht
        have hp : (s.doing (.access l)).passage i.profile = memAccess l (s.doing (.access l)) := rfl
        rw [hp] at ht
        unfold memAccess at ht
        split at ht
        · cases ht
          exact ⟨h.rst, h.pending, h.station, h.one, hall, h.record, h.oneRecord, h.halt, fun hn => by cases hn⟩
        · simp only [andThen, State.push_fatal, State.doing_fatal, hdead, Option.isSome_none, Bool.false_eq_true, if_false] at ht
          exact ih (n + 1) keep (access_flow (s := s.doing (.access l)) (l := l)
            (flow_congr h (.of_rob rfl) rfl rfl rfl (.refl _) rfl rfl id) hdead rfl rfl) hdead hall ht
    · exact ih n (keep ++ [l]) (by simpa using h) hdead hall ht

/-! Commit. -/

/-- After the architectural writes of a commit no slot of `RST` names the committing entry, and the others are as they were
(R214, R216). -/
theorem commitWrites_rst {s x : State} {i : Instr} {size : Size} (hi : decode (s.robAt s.head).uop = .ok i)
    (hx : commitDest size (s.robAt s.head) s = .ok x) (r : Slot) (p : Nat)
    (hr : (commitFlags i.profile.fw (s.robAt s.head) x).rst.get r = some p) :
    s.rst.get r = some p ∧ (p = s.head → ¬ s.Writes p r) := by
  have hxh : x.head = s.head := by
    rcases commitDest_ok_cases hx with ⟨_, _, _, rfl⟩ | ⟨_, _, _, hm, rfl⟩ | ⟨_, rfl⟩ <;> rfl
  have hfw : i.profile.fw = Record.fw (s.robAt s.head).uop := by rw [i.profile_fw]; exact fw_of_decode hi
  obtain ⟨_, hflag, hreg⟩ := commitFlags_get i.profile.fw (s.robAt s.head) x
  have hdest : ∀ q, x.rst.get q = some p → s.rst.get q = some p ∧ (p = s.head → (s.robAt s.head).dest.slot ≠ some q) := by
    intro q hq
    rcases commitDest_ok_cases hx with ⟨id, uf, hd, rfl⟩ | ⟨_, _, hd, hm, rfl⟩ | ⟨hd, rfl⟩
    · have hq' : (s.rst.release (.reg id) s.head).get q = some p := hq
      rw [Rst.get_release] at hq'
      split at hq'
      · cases hq'
      · next hn =>
        refine ⟨hq', fun hp he => hn ⟨?_, hp ▸ hq'⟩⟩
        rw [hd] at he
        exact (Option.some.inj he).symm
    · exact ⟨hq, fun _ => by rw [hd]; simp [Dest.slot]⟩
    · exact ⟨hq, fun _ => by rw [hd]; simp [Dest.slot]⟩
  cases r with
  | reg g =>
    rw [hreg] at hr
    obtain ⟨a, b⟩ := hdest _ hr
    refine ⟨a, ?_⟩
    rintro rfl hw
    exact b rfl (by simpa [State.Writes, writesSlot] using hw)
  | flag f =>
    rw [hflag] at hr
    split at hr
    · cases hr
    · next hn =>
      obtain ⟨a, _⟩ := hdest _ hr
      refine ⟨a, ?_⟩
      rintro rfl hw
      refine hn ⟨?_, hxh ▸ hr⟩
      rw [hfw]
      exact hw

/-- Ages after the head slot has been released (R27, R219). -/
theorem robAge_next {s t : State} (hs : s.Fifo) (hc : t.cfg = s.cfg) (hh : t.head = s.robNext s.head) {p : Nat}
    (hp : (s.robAt p).status ≠ .empty) (hn : p ≠ s.head) : t.robAge p + 1 = s.robAge p := by
  have hlt := ((occupied_iff_status hs p).mp hp).1
  have hcap := hs.capacity
  have h1 := hs.head_lt
  have hnx := robNext_cases s h1
  rw [robAge_eq s hlt h1, robAge_eq t (by rw [hc]; exact hlt) (by rw [hc, hh]; exact Nat.mod_lt _ (by omega)), hc, hh]
  split <;> split <;> omega

/-- The release of the head slot, once no slot of `RST` names it (R219). -/
theorem releaseHead_flow {s : State} (hs : s.Fifo) (h : s.Flow) (hhead : (s.robAt s.head).ready = true)
    (hrst : ∀ r p, s.rst.get r = some p → p ≠ s.head) : s.releaseHead.Flow := by
  obtain ⟨t, ht⟩ : ∃ t, s.releaseHead = t := ⟨_, rfl⟩
  have hrob : t.rob = s.rob.set s.head { s.robAt s.head with status := .empty } := by rw [← ht]; rfl
  have hrs : t.rs = s.rs := by rw [← ht]; rfl
  have hlq : t.lq = s.lq := by rw [← ht]; rfl
  have hrec : t.records = s.records := by rw [← ht]; rfl
  have hc : t.cfg = s.cfg := by rw [← ht]; rfl
  have hh : t.head = s.robNext s.head := by rw [← ht]; rfl
  have hf : t.fatal = s.fatal := by rw [← ht]; rfl
  have htr : t.rst = s.rst := by rw [← ht]; rfl
  rw [ht]
  have hlt : s.head < s.rob.length := by rw [hs.size]; exact hs.head_lt
  have hat : ∀ k, t.robAt k = if k = s.head then { s.robAt s.head with status := .empty } else s.robAt k := by
    intro k
    have := State.robAt_setRob s s.head k { s.robAt s.head with status := .empty } hlt
    unfold State.robAt at this ⊢
    rw [hrob]; exact this
  have hrsat : ∀ c j, t.rsAt c j = s.rsAt c j := fun c j => by unfold State.rsAt; rw [hrs]
  have hst : ∀ p, t.StartedFor p ↔ s.StartedFor p := fun p => by unfold State.StartedFor; simp only [hrsat]
  have hne : ∀ p, s.Awaited p → p ≠ s.head := by rintro p ⟨_, hp⟩ rfl; rw [hhead] at hp; cases hp
  have hA : ∀ p, s.Awaited p → t.Awaited p := by
    intro p hp; unfold State.Awaited; rw [hat, if_neg (hne p hp)]; exact hp
  have hW : ∀ p q, t.Writes p q ↔ s.Writes p q := by
    intro p q; unfold State.Writes; rw [hat]; split
    · next he => rw [he]
    · rfl
  have huop : ∀ p, (t.robAt p).uop = (s.robAt p).uop ∧ (t.robAt p).dest = (s.robAt p).dest := by
    intro p; rw [hat]; split
    · next he => rw [he]; exact ⟨rfl, rfl⟩
    · exact ⟨rfl, rfl⟩
  refine ⟨fun r p hr => ?_, fun c j p r hb hw => ?_, fun c j hb => ?_, fun c d j k => ?_, fun l hl => ?_, fun r hr => ?_,
    hrec ▸ h.oneRecord, fun p hp hh q => ?_, fun hn => ?_⟩
  · rw [htr] at hr
    rw [hW, hat, if_neg (hrst r p hr)]
    exact h.rst r p hr
  · rw [hrsat] at hb hw ⊢
    obtain ⟨a, b, d⟩ := h.pending c j p r hb hw
    have hs' := (h.station c j hb).1
    have h1 := robAge_next hs hc hh a.1 (hne p a)
    have h2 := robAge_next hs hc hh hs'.1 (hne _ hs')
    exact ⟨hA p a, by omega, (hW p r).mpr d⟩
  · rw [hrsat] at hb ⊢
    obtain ⟨a, b⟩ := h.station c j hb
    rw [(huop _).1, (huop _).2]
    exact ⟨hA _ a, b⟩
  · rw [hrsat, hrsat]; exact h.one c d j k
  · rw [hlq] at hl
    obtain ⟨a, b, d⟩ := h.lq l hl
    rw [hst, (huop _).1]
    exact ⟨hA _ a, b, d⟩
  · rw [hrec] at hr
    obtain ⟨a, b, d⟩ := h.record r hr
    rw [hst]; simp only [hW]
    exact ⟨hA _ a, b, d⟩
  · rw [hW]
    rw [hat] at hp hh
    split at hp
    · exact absurd rfl hp
    · next hn => rw [if_neg hn] at hh; exact h.halt p hp hh q
  · rw [hlq, hrec]; exact h.apart (hf ▸ hn)

/-- After a recovery `RST` names only producers that it named before and that were not flushed (R232). -/
theorem recover_rst {s : State} {target : Word} {r : Slot} {p : Nat} (h : (s.recover target).rst.get r = some p) :
    s.rst.get r = some p ∧ p ∉ s.flushed := by
  have h' : (s.rst.map (fun o => match o with
    | some i => if i ∈ s.flushed then none else some i
    | none => none)).get r = some p := h
  rw [Rst.get_map] at h'
  cases ho : s.rst.get r with
  | none => rw [ho] at h'; cases h'
  | some k =>
    rw [ho] at h'
    simp only at h'
    split at h'
    · cases h'
    · next hn => cases h'; exact ⟨rfl, hn⟩

/-- A recovery flushes every slot in use but the head's (R232). -/
theorem mem_flushed_of_status {s : State} (hs : s.Fifo) {p : Nat} (hp : (s.robAt p).status ≠ .empty) (hn : p ≠ s.head) :
    p ∈ s.flushed := by
  have h1 := hs.head_lt
  obtain ⟨a, b⟩ := (occupied_iff_status hs p).mp hp
  refine (mem_flushed s a h1).mpr ⟨?_, by simpa [State.occupied] using b⟩
  rw [robAge_eq s a h1]
  split <;> omega

/-- After a recovery no entry is busy, where none was the head's (R234). -/
theorem recover_busy_of {s : State} (hs : s.Fifo)
    (h : ∀ c j, (s.rsAt c j).busy = true → (s.robAt (s.rsAt c j).dest).status ≠ .empty ∧ (s.rsAt c j).dest ≠ s.head)
    (target : Word) (c : FuClass) (j : Nat) : ((s.recover target).rsAt c j).busy = false := by
  have hat : (s.recover target).rsAt c j = if (s.rsAt c j).busy && decide ((s.rsAt c j).dest ∈ s.flushed)
      then { s.rsAt c j with busy := false } else s.rsAt c j :=
    rsAt_map s (fun e => if e.busy && decide (e.dest ∈ s.flushed) then { e with busy := false } else e)
      (by simp [RsEntry.free]) c j
  rw [hat]
  cases hb : (s.rsAt c j).busy with
  | false => simp [hb]
  | true => simp [mem_flushed_of_status hs (h c j hb).1 (h c j hb).2]

/-- No busy entry is that of a ready head. -/
theorem busy_not_head {s : State} (h : s.Flow) (hhead : (s.robAt s.head).ready = true) (c : FuClass) (j : Nat)
    (hb : (s.rsAt c j).busy = true) : (s.robAt (s.rsAt c j).dest).status ≠ .empty ∧ (s.rsAt c j).dest ≠ s.head := by
  have ha := (h.station c j hb).1
  exact ⟨ha.1, fun he => by have := ha.2; rw [he, hhead] at this; cases this⟩

/-- A recovery (R230 to R235): what is left in flight is nothing, and `RST` names the committing entry only. -/
theorem recover_flow {s : State} (hs : s.Fifo) (h : s.Flow) (hhead : (s.robAt s.head).ready = true) (target : Word) :
    (s.recover target).Flow := by
  have hbusy := recover_busy_of hs (busy_not_head h hhead) target
  refine ⟨fun r p hr => ?_, fun c j p r hb => ?_, fun c j hb => ?_, fun c d j k hb => ?_, fun l hl => ?_, fun r hr => ?_,
    .nil, fun p hp hh q => ?_, fun _ => ⟨.nil, fun l hl => ?_⟩⟩
  · obtain ⟨ho, hn⟩ := recover_rst hr
    unfold State.Writes
    rw [recover_robAt, if_neg hn]
    exact h.rst r p ho
  · rw [hbusy] at hb; cases hb
  · rw [hbusy] at hb; cases hb
  · rw [hbusy] at hb; cases hb
  · cases hl
  · cases hr
  · rw [recover_robAt] at hp hh
    unfold State.Writes
    rw [recover_robAt]
    split at hp
    · exact absurd rfl hp
    · next hn => rw [if_neg hn] at hh ⊢; exact h.halt p hp hh q
  · cases hl

/-- Commit (R210). -/
theorem commitStage_flow {s t : State} (hs : s.Fifo) (h : s.Flow) (ht : commitStage s = .next t) : t.Flow := by
  refine commit_keeps ht h (fun _ => flow_congr h (.of_rob rfl) rfl rfl rfl (.refl _) rfl rfl (fun hn => by cases hn)) ?_
  intro u hg hu
  obtain ⟨hst, hready⟩ : (s.robAt s.head).status ≠ .empty ∧ (s.robAt s.head).ready = true := by
    unfold State.commitGate at hg
    split at hg <;> simp_all
  cases hu with
  | halt hh =>
    have hend : ∀ z : State, z.cfg = s.cfg → z.rob = s.rob → z.head = s.head → z.tail = s.tail → z.rs = s.rs → z.rst = s.rst →
        z.lq = s.lq → z.records = s.records → z.fatal = s.fatal → z.releaseHead.Flow := by
      intro z e1 e2 e3 e4 e5 e6 e7 e8 e9
      have erob : ∀ k, z.robAt k = s.robAt k := fun k => by unfold State.robAt; rw [e2]
      refine releaseHead_flow (fifo_congr hs e1 (by rw [e2]) e3 e4 (fun n => by rw [erob]))
        (flow_congr h (.of_rob e2) e5 e6 e7 (by rw [e8]) e1 e3 (fun hn => e9 ▸ hn)) (by rw [erob, e3]; exact hready) (fun r p hr => ?_)
      rw [e3]; rw [e6] at hr
      rintro rfl
      exact h.halt s.head hst hh r (h.rst r s.head hr).2
    exact hend _ rfl rfl rfl rfl rfl rfl rfl rfl rfl
  | storeFault a hd => exact flow_congr h (.of_rob rfl) rfl rfl rfl (.refl _) rfl rfl (fun hn => by cases hn)
  | unresolved hd => exact flow_congr h (.of_rob rfl) rfl rfl rfl (.refl _) rfl rfl (fun hn => by cases hn)
  | retire i x hi hx =>
    have hrst := commitWrites_rst (s := s.doing .commit) hi hx
    obtain ⟨y, hy⟩ : ∃ y, commitFlags i.profile.fw (s.robAt s.head) x = y := ⟨_, rfl⟩
    have hrst : ∀ r p, y.rst.get r = some p → s.rst.get r = some p ∧ p ≠ s.head := by
      intro r p hr
      rw [← hy] at hr
      obtain ⟨a, b⟩ := hrst r p hr
      exact ⟨a, fun he => b he (h.rst r p a).2⟩
    obtain ⟨fl, rst, hfl⟩ := commitFlags_eq i.profile.fw (s.robAt s.head) x
    have hxy : y.rob = s.rob ∧ y.rs = s.rs ∧ y.lq = s.lq ∧ y.dly = s.dly ∧ y.cq = s.cq ∧ y.cfg = s.cfg ∧ y.head = s.head
        ∧ y.tail = s.tail ∧ y.fatal = s.fatal := by
      rw [← hy, hfl]
      rcases commitDest_ok_cases hx with ⟨_, _, _, rfl⟩ | ⟨_, _, _, hm, rfl⟩ | ⟨_, rfl⟩ <;>
        exact ⟨rfl, rfl, rfl, rfl, rfl, rfl, rfl, rfl, rfl⟩
    obtain ⟨e1, e2, e3, e4, e5, e6, e7, e8, e9⟩ := hxy
    have erec : y.records = s.records := by unfold State.records; rw [e4, e5]
    have erob : ∀ k, y.robAt k = s.robAt k := fun k => by unfold State.robAt; rw [e1]
    have hyr : (y.robAt y.head).ready = true := by rw [erob, e7]; exact hready
    have hyf : y.Fifo := fifo_congr hs e6 (by rw [e1]) e7 e8 (fun n => by rw [erob])
    have hyl : y.Flow := by
      have k : ({ y with rst := s.rst } : State).Flow :=
        flow_congr h (.of_rob e1) e2 rfl e3 (by rw [show ({ y with rst := s.rst } : State).records = y.records from rfl, erec]) e6 e7
          (fun hn => e9 ▸ hn)
      exact ⟨fun r p hr => k.rst r p (hrst r p hr).1, k.pending, k.station, k.one, k.lq, k.record, k.oneRecord, k.halt, k.apart⟩
    have hend : ∀ z : State, z.Fifo → z.Flow → (z.robAt z.head).ready = true → (∀ r p, z.rst.get r = some p → p ≠ z.head) →
        ∀ tr, (z.emitTrace tr).releaseHead.Flow := fun z h1 h2 h3 h4 tr =>
      releaseHead_flow (s := z.emitTrace tr) (fifo_congr h1 rfl rfl rfl rfl (fun _ => Iff.rfl))
        (flow_congr h2 (.of_rob rfl) rfl rfl rfl (.refl _) rfl rfl id) h3 h4
    have hplain : ∀ r p, y.rst.get r = some p → p ≠ y.head := fun r p hr => e7 ▸ (hrst r p hr).2
    have hrecover : ∀ z : State, z.Fifo → z.Flow → (z.robAt z.head).status ≠ .empty → (z.robAt z.head).ready = true →
        (∀ r p, z.rst.get r = some p → p ≠ z.head) → ∀ target tr, ((z.recover target).emitTrace tr).releaseHead.Flow := by
      intro z h1 h2 h3 h4 h5 target tr
      refine hend _ (recover_fifo h1 h3 target).1 (recover_flow h1 h2 h4 target) ?_ (fun r p hr => ?_) tr
      · show ((z.recover target).robAt z.head).ready = true
        rw [recover_robAt]; split <;> exact h4
      · exact h5 r p (recover_rst hr).1
    have hys : (y.robAt y.head).status ≠ .empty := by rw [erob, e7]; exact hst
    rw [hy]
    obtain ⟨z, tr, hz, hzr, _⟩ := commitRetire_eq i.profile.retire (s.robAt s.head) y
    rw [hz, hzr]
    have count : ∀ n, ({ y with counters := n } : State).Flow ∧ ({ y with counters := n } : State).Fifo := fun n =>
      ⟨flow_congr hyl (.of_rob rfl) rfl rfl rfl (.refl _) rfl rfl id, fifo_congr hyf rfl rfl rfl rfl (fun _ => Iff.rfl)⟩
    rcases resolveBranch_cases i.profile.retire (s.robAt s.head) y with
      ⟨_, h⟩ | ⟨_, h⟩ | ⟨_, _, _, h⟩ | ⟨_, _, _, h⟩ | ⟨_, h⟩ <;> rw [h]
    · exact hend y hyf hyl hyr hplain tr
    · exact hrecover y hyf hyl hys hyr hplain _ tr
    · exact hend y.countBranch (count _).2 (count _).1 hyr hplain tr
    · exact hrecover y.countBranch.countMispredict (count _).2 (count _).1 hys hyr hplain _ tr
    · exact hend { y with fetchStall := false } (fifo_congr hyf rfl rfl rfl rfl (fun _ => Iff.rfl))
        (flow_congr hyl (.of_rob rfl) rfl rfl rfl (.refl _) rfl rfl id) hyr hplain tr

/-! The stages. -/

/-- A stage that ends without a fatal hands its state on (R110, R291). -/
theorem andThen_keeps {P : State → Prop} {o : StepOutcome} {f : State → StepOutcome} {t : State} (ht : andThen o f = .next t)
    (ho : ∀ u, o = .next u → P u) (hf : ∀ u, o = .next u → P u → u.fatal = none → f u = .next t → P t) : P t := by
  cases o with
  | next u =>
    simp only [andThen] at ht
    split at ht
    · cases ht; exact ho _ rfl
    · next hn => exact hf u rfl (ho u rfl) (by simpa using hn) ht
  | fault r => cases ht
  | refused r => cases ht

/-- The broadcasts of a cycle (R190). -/
theorem drain_flow (k : Nat) {s t : State} (h : s.Flow) (hdead : s.fatal = none) (ht : drain k s = .next t) : t.Flow := by
  induction k generalizing s with
  | zero => cases ht; exact h
  | succ k ih =>
    unfold drain at ht
    split at ht
    · cases ht; exact h
    · next r rest hq =>
      refine andThen_keeps ht (fun u hu => ?_) (fun u _ h hd ht => ih h hd ht)
      cases hd : decode (s.robAt r.p).uop with
      | error e => simp [execRecord, hd] at hu
      | ok i =>
        rw [execRecord_ok hd] at hu
        cases hu
        exact broadcast_flow (s := s.doing (.broadcast r)) (flow_congr h (.of_rob rfl) rfl rfl rfl (.refl _) rfl rfl id) hdead hq hd

/-- The selection loop of one class (R160). -/
theorem startEntries_flow (c : FuClass) (js : List Nat) (n : Nat) {s t : State} (h : s.Flow)
    (hn : js.Nodup) (hj : ∀ j ∈ js, (s.rsAt c j).isReady = true) (ht : startEntries c js n s = .next t) : t.Flow := by
  induction js generalizing n s with
  | nil => cases ht; exact h
  | cons j js ih =>
    unfold startEntries at ht
    split at ht
    · cases ht; exact h
    · cases hd : decode (s.rsAt c j).uop with
      | error r => simp [execRecord, hd, andThen] at ht
      | ok i =>
        rw [execRecord_ok hd] at ht
        have hfl : (startUop i.profile c j (s.doing (.start c j))).Flow :=
          startUop_flow (s := s.doing (.start c j)) (flow_congr h (.of_rob rfl) rfl rfl rfl (.refl _) rfl rfl id) (hj j (by simp)) hd
        refine andThen_keeps ht (fun u hu => by cases hu; exact hfl) (fun u hu hf _ ht => ?_)
        cases hu
        refine ih _ hf (List.nodup_cons.mp hn).2 (fun k hk => ?_) ht
        show ((startUop i.profile c j (s.doing (.start c j))).rsAt c k).isReady = true
        rw [startUop_rsAt i c j k _ (fun h => (List.nodup_cons.mp hn).1 (h ▸ hk))]
        exact hj k (List.mem_cons_of_mem j hk)

/-- The countdown loses no record and adds none (R190). -/
theorem completed_perm (ds : List Delayed) (q : List BusRecord) :
    ((countedDown ds).map (·.record) ++ (q ++ completed ds)).Perm (ds.map (·.record) ++ q) := by
  induction ds with
  | nil => simp [countedDown, completed]
  | cons d ds ih =>
    unfold countedDown completed
    split
    · refine List.Perm.trans ?_ (ih.cons d.record)
      rw [← List.append_assoc, ← List.append_assoc]
      exact List.perm_middle
    · exact ih.cons d.record

/-- Every move after commit keeps the FIFO range (R28). -/
theorem lateMove_fifo {s t : State} (hm : LateMove s t) (hs : s.Fifo) : t.Fifo := by
  cases hm.update with
  | broadcast i r rest rs =>
    exact fifo_congr hs rfl (by simp) rfl rfl (fun n => by
      have := State.robAt_setRob_keeps (·.status) s r.p n ((s.robAt r.p).receive r) ((s.robAt r.p).receive_keeps r).2.2.1
      exact iff_of_eq (congrArg (· = Status.empty) this))
  | store c j v r n =>
    exact fifo_congr hs rfl (by simp) rfl rfl (fun n => by
      have := State.robAt_setRob_keeps (·.status) s r.p n { s.robAt r.p with value := v } rfl
      exact iff_of_eq (congrArg (· = Status.empty) this))
  | allocate i e rest j hq hd hf => exact allocate_fifo hs hf _ _ _ _
  | _ => exact fifo_congr hs rfl rfl rfl rfl (fun _ => Iff.rfl)

/-- The issue stage (R140). -/
theorem issue_flow {s t : State} (hs : s.Fifo) (h : s.Flow) (ht : issueStage s = .next t) : t.Flow := by
  have frame : ∀ u : State, u.rob = s.rob → u.rs = s.rs → u.rst = s.rst → u.lq = s.lq → u.records = s.records →
      u.cfg = s.cfg → u.head = s.head → (u.fatal = none → s.fatal = none) → u.Flow := fun u h1 h2 h3 h4 h5 h6 h7 h8 =>
    flow_congr h (.of_rob h1) h2 h3 h4 (by rw [h5]) h6 h7 h8
  unfold issueStage at ht
  split at ht
  · cases ht; exact h
  · next e rest hq =>
    split at ht
    · next i hd =>
      rw [exec_eq] at ht
      cases ht
      show (issueUop i.profile (s.doing .issue)).Flow
      rcases issueUop_cases i.profile (s := s.doing .issue) hq with
        ⟨_, h⟩ | ⟨_, d, _, h⟩ | ⟨_, _, _, h⟩ | ⟨hf, hw, j, hj, h⟩ <;> rw [h]
      · exact frame _ rfl rfl rfl rfl rfl rfl rfl id
      · exact frame _ rfl rfl rfl rfl rfl rfl rfl (fun hn => by cases hn)
      · exact frame _ rfl rfl rfl rfl rfl rfl rfl id
      · exact allocate_flow (s := s.doing .issue) (fifo_congr hs rfl rfl rfl rfl (fun _ => Iff.rfl))
          (frame _ rfl rfl rfl rfl rfl rfl rfl id) hd hf hj
    · split at ht <;> cases ht
      · exact frame _ rfl rfl rfl rfl rfl rfl rfl id
      · exact frame _ rfl rfl rfl rfl rfl rfl rfl (fun hn => by cases hn)

end Sys2Proof.Machine
end

