-- ==== Sys2Proof/Laws/Renaming.lean ====
section
/-! SUPPORT. The renaming invariant (R147): `RST` and the operand tags name the youngest writer, and the result of a ready producer is
final; as the operations of a step keep it. -/

namespace Sys2Proof.Machine

/-- `State.Renamed` by the status of the slots, with what it needs to be kept by each move: a busy entry names a slot in use. -/
structure State.Youngest (s : State) : Prop where
  none : ∀ r, s.rst.get r = none → ∀ q, (s.robAt q).status ≠ .empty → ¬ s.Writes q r
  some : ∀ r p, s.rst.get r = some p → ∀ q, (s.robAt q).status ≠ .empty → s.Writes q r → s.robAge q ≤ s.robAge p
  pending : ∀ c j p r, (s.rsAt c j).busy = true → (s.rsAt c j).Waits p r →
    ∀ q, (s.robAt q).status ≠ .empty → s.Writes q r → s.robAge q < s.robAge (s.rsAt c j).dest → s.robAge q ≤ s.robAge p
  station : ∀ c j, (s.rsAt c j).busy = true → (s.robAt (s.rsAt c j).dest).status ≠ .empty

theorem youngest_iff {s : State} (hs : s.Fifo) (h : s.Coherent) : s.Youngest ↔ s.Renamed := by
  constructor
  · intro k
    refine ⟨fun r hr q hq ho => ?_, fun r p hr q hq ho => ?_, fun c j p r hb hw q hq ho => ?_⟩
    · exact k.none r hr q ((occupied_iff_status hs q).mpr ⟨hq, ho⟩)
    · exact k.some r p hr q ((occupied_iff_status hs q).mpr ⟨hq, ho⟩)
    · exact k.pending c j p r hb hw q ((occupied_iff_status hs q).mpr ⟨hq, ho⟩)
  · intro k
    refine ⟨fun r hr q hq => ?_, fun r p hr q hq => ?_, fun c j p r hb hw q hq => ?_,
      fun c j hb => ((due_iff hs _).mp (h.station c j hb)).1⟩ <;> obtain ⟨a, b⟩ := (occupied_iff_status hs q).mp hq
    · exact k.none r hr q a b
    · exact k.some r p hr q a b
    · exact k.pending c j p r hb hw q a b

/-- A change that keeps `RST`, the writers and their ages, and gives no entry a new tag. -/
theorem youngest_congr {s t : State} (h : s.Youngest) (hrst : t.rst = s.rst)
    (hst : ∀ k, (t.robAt k).status = (s.robAt k).status) (hW : ∀ k r, t.Writes k r ↔ s.Writes k r)
    (hc : t.cfg = s.cfg) (hh : t.head = s.head)
    (hrs : ∀ c j, (t.rsAt c j).busy = true → (s.rsAt c j).busy = true ∧ (t.rsAt c j).dest = (s.rsAt c j).dest
      ∧ ∀ p r, (t.rsAt c j).Waits p r → (s.rsAt c j).Waits p r) : t.Youngest := by
  have hage := robAge_congr hc hh
  refine ⟨fun r hr q hq => ?_, fun r p hr q hq hw => ?_, fun c j p r hb hw q hq hq' ha => ?_, fun c j hb => ?_⟩
  · rw [hW]; exact h.none r (hrst ▸ hr) q (hst q ▸ hq)
  · rw [hage, hage]; exact h.some r p (hrst ▸ hr) q (hst q ▸ hq) ((hW q r).mp hw)
  · obtain ⟨a, b, c'⟩ := hrs c j hb
    rw [hage, hage, b] at ha
    rw [hage, hage]
    exact h.pending c j p r a (c' p r hw) q (hst q ▸ hq) ((hW q r).mp hq') ha
  · obtain ⟨a, b, _⟩ := hrs c j hb
    rw [b, hst]; exact h.station c j a

/-- The same, where the stations are as they were. -/
theorem youngest_same {s t : State} (h : s.Youngest) (hrob : t.rob = s.rob) (hrs : t.rs = s.rs) (hrst : t.rst = s.rst)
    (hc : t.cfg = s.cfg) (hh : t.head = s.head) : t.Youngest := by
  have hp := SameProducers.of_rob hrob
  have hat : ∀ c j, t.rsAt c j = s.rsAt c j := fun c j => by unfold State.rsAt; rw [hrs]
  exact youngest_congr h hrst hp.status hp.writes hc hh
    (fun c j hb => ⟨hat c j ▸ hb, by rw [hat], fun p r hw => hat c j ▸ hw⟩)

/-- The dispatch of an entry, with a change of the ROB that keeps the producers (R178). -/
theorem youngest_dispatched {s t : State} (h : s.Youngest) (hp : SameProducers s t) (hrs : t.rs = s.rs) (hrst : t.rst = s.rst)
    (hc : t.cfg = s.cfg) (hh : t.head = s.head) {c : FuClass} {j : Nat} (hj : (s.rsAt c j).isReady = true) :
    (t.dispatched c j).Youngest := by
  have hat : ∀ d k, t.rsAt d k = s.rsAt d k := fun c j => by unfold State.rsAt; rw [hrs]
  refine youngest_congr h hrst hp.status hp.writes hc hh (fun d k => ?_)
  rw [rsAt_dispatched t c d j k (by rw [hrs]; exact rsAt_lt hj), hat, hat]
  split
  · next he => obtain ⟨rfl, rfl⟩ := he; exact fun hb => ⟨hb, rfl, fun _ _ hw => hw⟩
  · exact fun hb => ⟨hb, rfl, fun _ _ hw => hw⟩

/-- What the broadcast of a record leaves of the ROB (R194). -/
theorem broadcastUop_rob (pr : Profile) (r : BusRecord) (s : State) :
    (broadcastUop pr r s).rob = s.rob.set r.p ((s.robAt r.p).receive r) := by
  obtain ⟨rs, h⟩ := broadcastUop_eq pr r s
  rw [h]; rfl

theorem broadcast_youngest {s : State} (h : s.Youngest) (pr : Profile) (r : BusRecord) : (broadcastUop pr r s).Youngest := by
  obtain ⟨rs, hrs⟩ := broadcastUop_eq pr r s
  have hbk := broadcastUop_rsAt pr r s
  obtain ⟨u, hu⟩ : ∃ u, broadcastUop pr r s = u := ⟨_, rfl⟩
  rw [hu] at hrs hbk ⊢
  have hk := (s.robAt r.p).receive_keeps r
  have hrob : ∀ k, u.robAt k = (s.setRob r.p ((s.robAt r.p).receive r)).robAt k := fun k => by rw [hrs]; rfl
  have hslot : ∀ k, (u.robAt k).dest.slot = (s.robAt k).dest.slot := fun k => by
    rw [hrob]; exact State.robAt_setRob_keeps (·.dest.slot) s r.p k _ hk.2.2.2
  have huop : ∀ k, (u.robAt k).uop = (s.robAt k).uop := fun k => by
    rw [hrob]; exact State.robAt_setRob_keeps (·.uop) s r.p k _ hk.2.1
  refine youngest_congr h (by rw [hrs]; rfl) (fun k => ?_) (fun k q => ?_) (by rw [hrs]; rfl) (by rw [hrs]; rfl) (fun c j hb => ?_)
  · rw [hrob]; exact State.robAt_setRob_keeps (·.status) s r.p k _ hk.2.2.1
  · unfold State.Writes
    cases q with
    | reg g => simp only [writesSlot, hslot]
    | flag f => simp only [writesSlot, huop]
  · obtain ⟨a, b, _, w⟩ := hbk c j hb
    exact ⟨a, b.dest, fun p q hw => (w p q hw).1⟩

/-- The allocation of a micro-op: it is the youngest writer of what it writes, and waits for the youngest of what it reads (R147, R149,
R150). -/
theorem allocate_youngest {s : State} (hs : s.Fifo) (h : s.Youngest) {i : Instr} {e : IqEntry} {rest : List IqEntry} {j : Nat}
    (hd : decode e.uop = .ok i) (hf : s.robFull = false) (hj : freeSlot (s.rs.get i.profile.cls) = some j) :
    (s.allocate i.profile e rest j).Youngest := by
  obtain ⟨u, hu⟩ : ∃ u, s.allocate i.profile e rest j = u := ⟨_, rfl⟩
  obtain ⟨hj1, _, _⟩ := freeSlot_spec hj
  obtain ⟨hte, hold⟩ := tail_free hs hf
  have hat : ∀ k, u.robAt k = if k = s.tail then
      { pc := e.pc, uop := e.uop, status := .executing, value := 0#32, target := 0#32, flags := 0#4, ready := false
        halt := false, dest := i.profile.dest } else s.robAt k := by
    intro k; rw [← hu]
    exact State.robAt_setRob s s.tail k _ (by rw [hs.size]; exact hs.tail_lt)
  have hrs : ∀ c k, u.rsAt c k = if c = i.profile.cls ∧ k = j then
      { busy := true, op0 := s.rename i.profile.src0, op1 := s.rename i.profile.src1, op2 := s.rename i.profile.src2, dest := s.tail
        uop := e.uop, sf := decide (i.profile.fw ≠ 0#4), disp := false } else s.rsAt c k := by
    intro c k; rw [← hu]
    exact rsAt_setRs s _ c j k _ hj1
  have hrst : ∀ r, u.rst.get r = if writesSlot i.profile.dest i.profile.fw r then some s.tail else s.rst.get r := by
    intro r; rw [← hu]; exact Rst.get_claim _ _ _ _ _
  have hage : ∀ k, u.robAge k = s.robAge k := fun k => robAge_congr (by rw [← hu]; rfl) (by rw [← hu]; rfl) k
  rw [hu]
  have hWt : ∀ q, u.Writes s.tail q ↔ writesSlot i.profile.dest i.profile.fw q = true := by
    intro q; unfold State.Writes; rw [hat, if_pos rfl, i.profile_fw, fw_of_decode hd]
  -- every slot in use is the new one, or was in use before, older, and writes what it wrote
  have hin : ∀ q, (u.robAt q).status ≠ .empty → q = s.tail ∨
      (q ≠ s.tail ∧ (s.robAt q).status ≠ .empty ∧ s.robAge q < s.robAge s.tail ∧ ∀ r, u.Writes q r ↔ s.Writes q r) := by
    intro q hq
    by_cases hqt : q = s.tail
    · exact .inl hqt
    · rw [hat, if_neg hqt] at hq
      exact .inr ⟨hqt, hq, hold q hq, fun r => by unfold State.Writes; rw [hat, if_neg hqt]⟩
  refine ⟨fun r hr q hq hw => ?_, fun r p hr q hq hw => ?_, fun c k p r hb hw q hq hq' ha => ?_, fun c k hb => ?_⟩
  · rw [hrst] at hr
    split at hr
    · cases hr
    · next hn =>
      rcases hin q hq with rfl | ⟨_, hq, _, hiff⟩
      · exact hn ((hWt r).mp hw)
      · exact h.none r hr q hq ((hiff r).mp hw)
  · rw [hrst] at hr
    rw [hage, hage]
    split at hr
    · cases hr
      rcases hin q hq with rfl | ⟨_, _, hlt, _⟩
      · exact Nat.le_refl _
      · exact Nat.le_of_lt hlt
    · next hn =>
      rcases hin q hq with rfl | ⟨_, hq, _, hiff⟩
      · exact absurd ((hWt r).mp hw) hn
      · exact h.some r p hr q hq ((hiff r).mp hw)
  · rw [hage, hage] at ha
    rw [hage, hage]
    rw [hrs] at hb hw ha
    split at hb
    · next hc =>
      rw [if_pos hc] at hw ha
      have : s.rst.get r = some p := by rcases hw with hw | hw | hw <;> exact (rename_pending hw).1
      rcases hin q hq with rfl | ⟨_, hq, _, hiff⟩
      · exact absurd ha (Nat.lt_irrefl _)
      · exact h.some r p this q hq ((hiff r).mp hq')
    · next hc =>
      rw [if_neg hc] at hw ha
      rcases hin q hq with rfl | ⟨_, hq, _, hiff⟩
      · have := hold _ (h.station c k hb); omega
      · exact h.pending c k p r hb hw q hq ((hiff r).mp hq') ha
  · rw [hrs] at hb ⊢
    split at hb
    · next hc => rw [if_pos hc, hat, if_pos rfl]; simp
    · next hc =>
      rw [if_neg hc]
      have := h.station c k hb
      rw [hat, if_neg (fun he => this (by rw [he]; exact hte))]
      exact this

/-- Every move after commit keeps the renaming invariant. -/
theorem lateMove_youngest {s t : State} (hm : LateMove s t) (hs : s.Fifo) (h : s.Youngest) : t.Youngest := by
  have value : ∀ (p : Nat) (v : Word), SameProducers s (s.setRob p { s.robAt p with value := v }) := sameProducers_value s
  cases hm with
  | broadcast i r rest _ hq hd => exact broadcast_youngest (s := { s with cq := rest }) (youngest_same h rfl rfl rfl rfl rfl) _ r
  | access i l _ hl hm hd =>
    obtain ⟨d, f, he⟩ := memAccess_frame l s
    rw [he]; exact youngest_same h rfl rfl rfl rfl rfl
  | start i c j _ hr hd =>
    rcases startUop_cases i c j s with he | ⟨u, hu, he⟩ <;> rw [he]
    · exact youngest_same h rfl rfl rfl rfl rfl
    · have k := start_effect hu
      exact youngest_dispatched h k.rob k.rs k.rst k.cfg k.head hr
  | issue i e rest _ hq hd =>
    rcases issueUop_cases i.profile hq with ⟨_, he⟩ | ⟨_, d, _, he⟩ | ⟨_, _, _, he⟩ | ⟨hf, _, j, hj, he⟩ <;> rw [he]
    · exact youngest_same h rfl rfl rfl rfl rfl
    · exact youngest_same h rfl rfl rfl rfl rfl
    · exact youngest_same h rfl rfl rfl rfl rfl
    · exact allocate_youngest hs h hd hf hj
  | _ => exact youngest_same h rfl rfl rfl rfl rfl

/-! Commit. -/

theorem robAge_head {s : State} (hs : s.Fifo) {p : Nat} (hp : p < s.cfg.robCapacity) : s.robAge p = 0 ↔ p = s.head := by
  have := hs.head_lt
  rw [robAge_eq s hp this]
  split <;> omega

/-- The commit of the head entry with no recovery: the slots of `RST` that named it name nothing, the others what they named. -/
theorem retired_youngest {s t : State} (hs : s.Fifo) (hf : s.Flow) (h : s.Youngest) (hhead : (s.robAt s.head).ready = true)
    (hrob : t.rob = s.rob.set s.head { s.robAt s.head with status := .empty }) (hrs : t.rs = s.rs) (hc : t.cfg = s.cfg)
    (hh : t.head = s.robNext s.head) (hkeep : ∀ r p, t.rst.get r = some p → s.rst.get r = some p)
    (hclear : ∀ r, t.rst.get r = none → s.rst.get r = none ∨ s.rst.get r = some s.head) : t.Youngest := by
  have hlt : s.head < s.rob.length := by rw [hs.size]; exact hs.head_lt
  have hat : ∀ k, t.robAt k = if k = s.head then { s.robAt s.head with status := .empty } else s.robAt k := by
    intro k
    have := State.robAt_setRob s s.head k { s.robAt s.head with status := .empty } hlt
    unfold State.robAt at this ⊢
    rw [hrob]; exact this
  have hrsat : ∀ c j, t.rsAt c j = s.rsAt c j := fun c j => by unfold State.rsAt; rw [hrs]
  have hW : ∀ p q, t.Writes p q ↔ s.Writes p q := by
    intro p q; unfold State.Writes; rw [hat]; split
    · next he => rw [he]
    · rfl
  have hin : ∀ q, (t.robAt q).status ≠ .empty → q ≠ s.head ∧ (s.robAt q).status ≠ .empty ∧ t.robAge q + 1 = s.robAge q := by
    intro q hq
    rw [hat] at hq
    split at hq
    · exact absurd rfl hq
    · next hn => exact ⟨hn, hq, robAge_next hs hc hh hq hn⟩
  have hne : ∀ p, s.Awaited p → p ≠ s.head := by rintro p ⟨_, hp⟩ rfl; rw [hhead] at hp; cases hp
  have hzero := (robAge_head hs hs.head_lt).mpr rfl
  refine ⟨fun r hr q hq hw => ?_, fun r p hr q hq hw => ?_, fun c j p r hb hw q hq hq' ha => ?_, fun c j hb => ?_⟩
  · obtain ⟨_, a, b⟩ := hin q hq
    rcases hclear r hr with hr | hr
    · exact h.none r hr q a ((hW q r).mp hw)
    · have := h.some r _ hr q a ((hW q r).mp hw); omega
  · obtain ⟨_, a, b⟩ := hin q hq
    have hle := h.some r p (hkeep r p hr) q a ((hW q r).mp hw)
    have hp : p ≠ s.head := by rintro rfl; omega
    have := robAge_next hs hc hh (hf.rst r p (hkeep r p hr)).1 hp
    omega
  · rw [hrsat] at hb hw ha
    obtain ⟨_, a, b⟩ := hin q hq
    obtain ⟨hp, _, _⟩ := hf.pending c j p r hb hw
    have hd := (hf.station c j hb).1
    have h1 := robAge_next hs hc hh hd.1 (hne _ hd)
    have h2 := robAge_next hs hc hh hp.1 (hne _ hp)
    have := h.pending c j p r hb hw q a ((hW q r).mp hq') (by omega)
    omega
  · rw [hrsat] at hb ⊢
    have hd := (hf.station c j hb).1
    rw [hat, if_neg (hne _ hd)]
    exact hd.1

/-- With no slot in use and no entry busy there is nothing to name. -/
theorem youngest_empty {s : State} (hrob : ∀ q, (s.robAt q).status = .empty) (hrs : ∀ c j, (s.rsAt c j).busy = false) :
    s.Youngest := by
  refine ⟨fun _ _ q hq => absurd (hrob q) hq, fun _ _ _ q hq => absurd (hrob q) hq, fun c j _ _ hb => ?_, fun c j hb => ?_⟩ <;>
    rw [hrs] at hb <;> cases hb

/-- The architectural writes of a commit clear the slots of `RST` that name the committing entry, and no others (R214, R216). -/
theorem commitWrites_clear {s x : State} {fw : BitVec 4} {size : Size} (hx : commitDest size (s.robAt s.head) s = .ok x) (r : Slot)
    (hr : (commitFlags fw (s.robAt s.head) x).rst.get r = none) : s.rst.get r = none ∨ s.rst.get r = some s.head := by
  have hxh : x.head = s.head := by
    rcases commitDest_ok_cases hx with ⟨_, _, _, rfl⟩ | ⟨_, _, _, _, rfl⟩ | ⟨_, rfl⟩ <;> rfl
  have hdest : x.rst.get r = none → s.rst.get r = none ∨ s.rst.get r = some s.head := by
    rcases commitDest_ok_cases hx with ⟨id, _, _, rfl⟩ | ⟨_, _, _, _, rfl⟩ | ⟨_, rfl⟩
    · intro h
      have h' : (s.rst.release (.reg id) s.head).get r = none := h
      rw [Rst.get_release] at h'
      split at h'
      · next hc => exact .inr hc.2
      · exact .inl h'
    · exact .inl
    · exact .inl
  have hrst : ∀ p, x.rst.get r = some p → s.rst.get r = some p := by
    rcases commitDest_ok_cases hx with ⟨id, _, _, rfl⟩ | ⟨_, _, _, _, rfl⟩ | ⟨_, rfl⟩
    · intro p h
      have h' : (s.rst.release (.reg id) s.head).get r = some p := h
      rw [Rst.get_release] at h'
      split at h'
      · cases h'
      · exact h'
    · exact fun _ h => h
    · exact fun _ h => h
  obtain ⟨_, hflag, hreg⟩ := commitFlags_get fw (s.robAt s.head) x
  cases r with
  | reg g => exact hdest (hreg g ▸ hr)
  | flag f =>
    rw [hflag] at hr
    split at hr
    · next hc => exact .inr (hrst _ (hxh ▸ hc.2))
    · exact hdest hr

/-- Commit keeps the renaming invariant (R210). -/
theorem commitStage_youngest {s t : State} (hs : s.Fifo) (hf : s.Flow) (h : s.Youngest) (ht : commitStage s = .next t) :
    t.Youngest := by
  refine commit_keeps ht h (fun _ => youngest_same h rfl rfl rfl rfl rfl) ?_
  intro u hg hu
  obtain ⟨hst, hready⟩ : (s.robAt s.head).status ≠ .empty ∧ (s.robAt s.head).ready = true := by
    unfold State.commitGate at hg
    split at hg <;> simp_all
  cases hu with
  | halt hh => exact retired_youngest hs hf h hready rfl rfl rfl rfl (fun _ _ hr => hr) (fun _ hr => .inl hr)
  | storeFault a hd => exact youngest_same h rfl rfl rfl rfl rfl
  | unresolved hd => exact youngest_same h rfl rfl rfl rfl rfl
  | retire i x hi hx =>
    have hkeep := fun r p hr => (commitWrites_rst (s := s.doing .commit) hi hx r p hr).1
    have hclear := fun r => commitWrites_clear (s := s.doing .commit) (fw := i.profile.fw) hx r
    obtain ⟨fl, rst, hfl⟩ := commitFlags_eq i.profile.fw (s.robAt s.head) x
    obtain ⟨y, hy⟩ : ∃ y, commitFlags i.profile.fw (s.robAt s.head) x = y := ⟨_, rfl⟩
    have hkeep : ∀ r p, y.rst.get r = some p → s.rst.get r = some p := fun r p hr => hkeep r p (hy ▸ hr)
    have hclear : ∀ r, y.rst.get r = none → s.rst.get r = none ∨ s.rst.get r = some s.head := fun r hr => hclear r (hy ▸ hr)
    have hxy : y.rob = s.rob ∧ y.rs = s.rs ∧ y.cfg = s.cfg ∧ y.head = s.head ∧ y.tail = s.tail := by
      rw [← hy, hfl]
      rcases commitDest_ok_cases hx with ⟨_, _, _, rfl⟩ | ⟨_, _, _, hm, rfl⟩ | ⟨_, rfl⟩ <;> exact ⟨rfl, rfl, rfl, rfl, rfl⟩
    obtain ⟨e1, e2, e3, e4, e5⟩ := hxy
    rw [hy]
    have hplain : ∀ z : State, z.rob = y.rob → z.rs = y.rs → z.cfg = y.cfg → z.head = y.head → z.rst = y.rst → ∀ tr,
        (z.emitTrace tr).releaseHead.Youngest := by
      intro z h1 h2 h3 h4 h5 tr
      have erob : ∀ k, z.robAt k = s.robAt k := fun k => by unfold State.robAt; rw [h1, e1]
      refine retired_youngest hs hf h hready ?_ (h2.trans e2) (h3.trans e3) ?_ (fun r p hr => hkeep r p ?_) (fun r hr => hclear r ?_)
      · show z.rob.set z.head { z.robAt z.head with status := .empty } = _
        rw [h1, h4, e1, e4, erob]
      · show z.robNext z.head = _
        unfold State.robNext
        rw [h3, h4, e3, e4]
      · exact h5 ▸ hr
      · exact h5 ▸ hr
    have hrecover : ∀ z : State, z.rob = y.rob → z.rs = y.rs → z.cfg = y.cfg → z.head = y.head → z.tail = y.tail →
        ∀ target tr, ((z.recover target).emitTrace tr).releaseHead.Youngest := by
      intro z h1 h2 h3 h4 h5 target tr
      have erob : ∀ k, z.robAt k = s.robAt k := fun k => by unfold State.robAt; rw [h1, e1]
      have hzf : z.Fifo := fifo_congr hs (h3.trans e3) (by rw [h1, e1]) (h4.trans e4) (h5.trans e5) (fun n => by rw [erob])
      have ers : ∀ c j, z.rsAt c j = s.rsAt c j := fun c j => by unfold State.rsAt; rw [h2, e2]
      have hlen : z.head < (z.recover target).rob.length := by
        rw [(recover_arch z target).robLength, hzf.size]; exact hzf.head_lt
      refine youngest_empty (fun q => ?_) (fun c j => ?_)
      · have := State.robAt_setRob (z.recover target) z.head q { (z.recover target).robAt z.head with status := .empty } hlen
        have hq : (((z.recover target).emitTrace tr).releaseHead).robAt q =
            if q = z.head then { (z.recover target).robAt z.head with status := .empty } else (z.recover target).robAt q := this
        rw [hq]
        split
        · rfl
        · next hn =>
          rw [recover_robAt]
          split
          · rfl
          · next hnf =>
            by_contra hc
            exact hnf (mem_flushed_of_status hzf hc hn)
      · refine recover_busy_of hzf (fun c j hb => ?_) target c j
        rw [ers] at hb ⊢
        rw [erob, h4, e4]
        exact busy_not_head hf hready c j hb
    obtain ⟨z, tr, hz, hzr, _⟩ := commitRetire_eq i.profile.retire (s.robAt s.head) y
    rw [hz, hzr]
    rcases resolveBranch_cases i.profile.retire (s.robAt s.head) y with
      ⟨_, h⟩ | ⟨_, h⟩ | ⟨_, _, _, h⟩ | ⟨_, _, _, h⟩ | ⟨_, h⟩ <;> rw [h]
    · exact hplain y rfl rfl rfl rfl rfl tr
    · exact hrecover y rfl rfl rfl rfl rfl _ tr
    · exact hplain y.countBranch rfl rfl rfl rfl rfl tr
    · exact hrecover y.countBranch.countMispredict rfl rfl rfl rfl rfl _ tr
    · exact hplain { y with fetchStall := false } rfl rfl rfl rfl rfl tr

/-! The result of a ready producer is final (R147): its value and its flags are written once, at its broadcast. -/

/-- What is ready in `s` is ready in `t`, with the value and the flags it had. -/
def KeepsReady (s t : State) : Prop := ∀ p, (s.robAt p).ready = true →
  (t.robAt p).ready = true ∧ (t.robAt p).value = (s.robAt p).value ∧ (t.robAt p).flags = (s.robAt p).flags

theorem KeepsReady.of_rob {s t : State} (h : t.rob = s.rob) : KeepsReady s t := by
  intro p hp
  have : t.robAt p = s.robAt p := by unfold State.robAt; rw [h]
  rw [this]; exact ⟨hp, rfl, rfl⟩

theorem KeepsReady.trans {s t u : State} (h : KeepsReady s t) (k : KeepsReady t u) : KeepsReady s u := by
  intro p hp
  obtain ⟨a, b, c⟩ := h p hp
  obtain ⟨a', b', c'⟩ := k p a
  exact ⟨a', b'.trans b, c'.trans c⟩

/-- A change of the entry of a producer whose result is due. -/
theorem keepsReady_setRob {s : State} {p : Nat} {e : RobEntry} (h : (s.robAt p).ready = false) : KeepsReady s (s.setRob p e) := by
  intro q hq
  have hne : q ≠ p := by rintro rfl; rw [h] at hq; cases hq
  have : (s.setRob p e).robAt q = s.robAt q := by
    unfold State.robAt State.setRob
    simp [List.getD, List.getElem?_set_ne (Ne.symm hne)]
  rw [this]; exact ⟨hq, rfl, rfl⟩

/-- The broadcasts of a cycle: the producer of a record is not ready before (R51 item 5). -/
theorem drain_keepsReady (k : Nat) {s t : State} (h : s.Flow) (hdead : s.fatal = none) (ht : drain k s = .next t) :
    KeepsReady s t := by
  induction k generalizing s with
  | zero => cases ht; exact .of_rob rfl
  | succ k ih =>
    unfold drain at ht
    split at ht
    · cases ht; exact .of_rob rfl
    · next r rest hq =>
      cases hd : decode (s.robAt r.p).uop with
      | error e => simp [execRecord, hd, andThen] at ht
      | ok i =>
        have hfl : (broadcastUop i.profile r { s.doing (.broadcast r) with cq := rest }).Flow :=
          broadcast_flow (s := s.doing (.broadcast r)) (flow_congr h (.of_rob rfl) rfl rfl rfl (.refl _) rfl rfl id) hdead hq hd
        have hnr : (s.robAt r.p).ready = false := (h.record r (by simp [State.records, hq])).1.2
        have hk : KeepsReady s (broadcastUop i.profile r { s.doing (.broadcast r) with cq := rest }) :=
          (keepsReady_setRob (e := (s.robAt r.p).receive r) hnr).trans (.of_rob (broadcastUop_rob _ _ _))
        rw [execRecord_ok hd] at ht
        refine andThen_keeps ht (fun u hu => by cases hu; exact hk) (fun u hu _ hd ht => ?_)
        cases hu
        exact hk.trans (ih hfl hd ht)

/-- The scan leaves the ROB as it is. -/
theorem scanLoads_rob (ls : List LqEntry) (n : Nat) (keep : List LqEntry) {s t : State}
    (ht : scanLoads ls n keep s = .next t) : t.rob = s.rob := by
  induction ls generalizing n keep s with
  | nil => cases ht; rfl
  | cons l rest ih =>
    unfold scanLoads at ht
    split at ht
    · cases hd : decode (s.robAt l.dest).uop with
      | error r => simp [execRecord, hd, andThen] at ht
      | ok i =>
        rw [execRecord_ok hd] at ht
        obtain ⟨d, f, hm⟩ := memAccess_frame l (s.doing (.access l))
        have hp : (s.doing (.access l)).passage i.profile = memAccess l (s.doing (.access l)) := rfl
        rw [hp, hm] at ht
        exact andThen_keeps (P := fun u => u.rob = s.rob) ht (fun u hu => by cases hu; rfl)
          (fun u hu _ _ ht => by cases hu; have := ih _ _ ht; exact this)
    · exact ih _ _ ht

/-- A start: the only entry it may change is that of its own producer, which is not ready (R170). -/
theorem startUop_keepsReady {s : State} (h : s.Flow) {c : FuClass} {j : Nat} {i : Instr} (hr : (s.rsAt c j).isReady = true) :
    KeepsReady s (startUop i.profile c j s) := by
  rcases startUop_cases i c j s with hs | ⟨t, ht, hs⟩ <;> rw [hs]
  · exact .of_rob rfl
  · rcases start_cases ht with ⟨r, n, _, rfl⟩ | ⟨o, r, n, _, rfl⟩ | ⟨v, r, n, _, rfl⟩ | ⟨l, _, _, rfl⟩
    · exact .of_rob rfl
    · exact .of_rob rfl
    · exact (keepsReady_setRob (h.station c j (s.rsAt_ready hr).2).1.2).trans (.of_rob rfl)
    · exact .of_rob rfl

/-- The selection loop of one class (R160). -/
theorem startEntries_keepsReady (c : FuClass) (js : List Nat) (n : Nat) {s t : State} (h : s.Flow)
    (hn : js.Nodup) (hj : ∀ j ∈ js, (s.rsAt c j).isReady = true) (ht : startEntries c js n s = .next t) : KeepsReady s t := by
  induction js generalizing n s with
  | nil => cases ht; exact .of_rob rfl
  | cons j js ih =>
    unfold startEntries at ht
    split at ht
    · cases ht; exact .of_rob rfl
    · cases hd : decode (s.rsAt c j).uop with
      | error r => simp [execRecord, hd, andThen] at ht
      | ok i =>
        rw [execRecord_ok hd] at ht
        have hF : (s.doing (.start c j)).Flow := flow_congr h (.of_rob rfl) rfl rfl rfl (.refl _) rfl rfl id
        have hfl := startUop_flow hF (hj j (by simp)) hd
        have hk : KeepsReady s (startUop i.profile c j (s.doing (.start c j))) := startUop_keepsReady hF (hj j (by simp))
        refine andThen_keeps ht (fun u hu => by cases hu; exact hk) (fun u hu _ _ ht => ?_)
        cases hu
        refine hk.trans (ih _ hfl (List.nodup_cons.mp hn).2 (fun k hk => ?_) ht)
        show ((startUop i.profile c j (s.doing (.start c j))).rsAt c k).isReady = true
        rw [startUop_rsAt i c j k _ (fun h => (List.nodup_cons.mp hn).1 (h ▸ hk))]
        exact hj k (List.mem_cons_of_mem j hk)

/-- Commit marks slots empty and changes nothing else of an entry (R219, R232). -/
theorem commitStage_keepsReady {s t : State} (ht : commitStage s = .next t) : KeepsReady s t := by
  have keep : ∀ z : State, KeepsReady s z → KeepsReady s z.releaseHead := by
    intro z hz p hp
    obtain ⟨a, b, c⟩ := hz p hp
    have k1 := State.robAt_setRob_keeps (·.ready) z z.head p { z.robAt z.head with status := .empty } rfl
    have k2 := State.robAt_setRob_keeps (·.value) z z.head p { z.robAt z.head with status := .empty } rfl
    have k3 := State.robAt_setRob_keeps (·.flags) z z.head p { z.robAt z.head with status := .empty } rfl
    exact ⟨k1.trans a, k2.trans b, k3.trans c⟩
  refine commit_keeps ht (.of_rob rfl) (fun _ => .of_rob rfl) (fun u hg hu => ?_)
  cases hu with
  | halt hh => exact keep _ (.of_rob rfl)
  | storeFault a hd => exact .of_rob rfl
  | unresolved hd => exact .of_rob rfl
  | retire i x hi hx =>
    obtain ⟨fl, rst, hfl⟩ := commitFlags_eq i.profile.fw (s.robAt s.head) x
    have hy : (commitFlags i.profile.fw (s.robAt s.head) x).rob = s.rob := by
      rw [hfl]
      rcases commitDest_ok_cases hx with ⟨_, _, _, rfl⟩ | ⟨_, _, _, hm, rfl⟩ | ⟨_, rfl⟩ <;> rfl
    obtain ⟨z, tr, hz, hzr, _⟩ := commitRetire_eq i.profile.retire (s.robAt s.head) (commitFlags i.profile.fw (s.robAt s.head) x)
    have recov : ∀ (y : State) target, y.rob = s.rob → KeepsReady s (y.recover target) := by
      intro y target hy p hp
      have : y.robAt p = s.robAt p := by unfold State.robAt; rw [hy]
      rw [recover_robAt, this]
      split <;> exact ⟨hp, rfl, rfl⟩
    rw [hz]
    refine keep (z.emitTrace tr) (KeepsReady.trans (t := z) ?_ (.of_rob rfl))
    rw [hzr]
    rcases resolveBranch_cases i.profile.retire (s.robAt s.head) (commitFlags i.profile.fw (s.robAt s.head) x) with
      ⟨_, h⟩ | ⟨_, h⟩ | ⟨_, _, _, h⟩ | ⟨_, _, _, h⟩ | ⟨_, h⟩ <;> rw [h]
    · exact .of_rob hy
    · exact recov _ _ hy
    · exact .of_rob hy
    · exact recov _ _ hy
    · exact .of_rob hy

/-- Issue: a slot that was ready and is ready afterwards has not been allocated, so it holds what it held (R140, R148). -/
theorem issue_final {s t : State} (hs : s.Fifo) (ht : issueStage s = .next t) (p : Nat) (hp : (s.robAt p).ready = true)
    (hq : (t.robAt p).ready = true) :
    (t.robAt p).value = (s.robAt p).value ∧ (t.robAt p).flags = (s.robAt p).flags := by
  have frame : ∀ u : State, u.rob = s.rob → (u.robAt p).value = (s.robAt p).value
      ∧ (u.robAt p).flags = (s.robAt p).flags := fun u h =>
    ((KeepsReady.of_rob h) p hp).2
  unfold issueStage at ht
  split at ht
  · cases ht; exact frame _ rfl
  · next e rest hq' =>
    split at ht
    · next i hd =>
      rw [exec_eq] at ht
      cases ht
      have hx : ((s.doing .issue).passage i.profile) = issueUop i.profile (s.doing .issue) := rfl
      rw [hx] at hq ⊢
      rcases issueUop_cases i.profile (s := s.doing .issue) hq' with
        ⟨_, h⟩ | ⟨_, d, _, h⟩ | ⟨_, _, _, h⟩ | ⟨hf, hw, j, hj, h⟩ <;> rw [h] at hq ⊢
      · exact frame _ rfl
      · exact frame _ rfl
      · exact frame _ rfl
      · have hat := fun e => State.robAt_setRob s s.tail p e (by rw [hs.size]; exact hs.tail_lt)
        have hat' : ((s.doing .issue).allocate i.profile e rest j).robAt p = if p = s.tail then _ else s.robAt p := hat _
        rw [hat'] at hq ⊢
        split at hq
        · cases hq
        · next hn => rw [if_neg hn]; exact ⟨rfl, rfl⟩
    · split at ht <;> cases ht <;> exact frame _ rfl

end Sys2Proof.Machine
end

