-- ==== Sys2Proof/Tests/Slice0.lean ====
section
/-! SUPPORT. Tests: the smoke test of `WF`, words written from the encoding tables, one-step checks worked out by hand from the rules,
and for every statement with hypotheses a state that meets them. -/

open Sys2Proof Sys2Proof.Machine

/-! `WF` (R92): one ill-formed term for each check. -/

theorem test_wf_pi : (Instr.b 4#32 .reserved).defects = [.reservedIncrement] := by decide
theorem test_wf_destination_15 : (Instr.alu 1#6 15#4 (some 0#4) .absent false 0#4 .two).defects = [.register15] := by decide
theorem test_wf_load_destination_15 : (Instr.ldw 15#4 1#4 (.simm 0#32) .two).illFormed = some .badUop := by decide
theorem test_wf_source_15 : (Instr.cmp 2#6 (some 0#4) (.reg 15#4) false 15#4 .two).defects = [.register15] := by decide
theorem test_wf_data_15 : (Instr.stw 15#4 1#4 (.simm 0#32) .two).defects = [.register15] := by decide
theorem test_wf_missing_operand : (Instr.mul 0#4 1#4 .absent 0#2 .two).defects = [.missingOperand] := by decide
theorem test_wf_condition : (Instr.bcond .invalid14 8#32 .two).illFormed = some .badCond := by decide
theorem test_wf_condition_and_pi : (Instr.bcond .invalid15 8#32 .reserved).illFormed = some .badUop := by decide
theorem test_wf_accepts : (Instr.alu 1#6 14#4 (some 14#4) (.reg 14#4) true 15#4 .zero).wf = true := by decide

/-! Records that belong to no row: the reasons of `decode`, on the records of spec/95_test_vectors.md 3.1. -/

theorem test_reject_kind_0 : decode 0x00000000000000000000000560000000#128 = .error .reservedKind := by decide
theorem test_reject_kind_13 : decode 0x0000000000000000000000056000000D#128 = .error .reservedKind := by decide
theorem test_reject_bit_118 : decode 0x00400000000000000000000560000001#128 = .error .reservedBits := by decide
theorem test_reject_size_3 : decode 0x00000000000000000000000078009864#128 = .error .badSub := by decide
theorem test_reject_svc_0 : decode 0x0000000000000000000000004000000C#128 = .error .badSub := by decide
theorem test_reject_store_without_data : decode 0x00000000000000000000000079008045#128 = .error .badSelector := by decide
theorem test_reject_mul_carry : decode 0x00040000000000000000000058198003#128 = .error .badFlagMask := by decide
theorem test_verdict_rd_15 : (Fields.unpack 0x00000000000000000000000560007801#128).verdict = some .badUop := by decide
theorem test_verdict_pi_3 : (Fields.unpack 0x000000000000000000000005E0000001#128).verdict = some .badUop := by decide
theorem test_verdict_cond_14 : (Fields.unpack 0x000000000000000800000000400001C7#128).verdict = some .badCond := by decide

/-! Decoding. The words of spec/95_test_vectors.md 3.1 and of R250 to R258; for a constructor with none there, the word is written
from R81 to R83: kind in bits 4:0, sub in 10:5, rd in 14:11, rn in 18:15, s0 in 27, s1 in 29:28, pi in 31:30, simm in 95:64. -/

theorem test_decode_alu_imm : decode 0x00000000000000000000000560000001#128 = .ok (.alu 0#6 0#4 none (.uimm 5#32) false 0#4 .two) := by
  decide
theorem test_decode_alu_flags : decode 0x000F0000000000000000000168008841#128 =
    .ok (.alu 2#6 1#4 (some 1#4) (.uimm 1#32) false 15#4 .two) := by decide
theorem test_decode_cmp : decode 0x000F0000000000000000000168000042#128 =
    .ok (.cmp 2#6 (some 0#4) (.uimm 1#32) false 15#4 .two) := by decide
theorem test_decode_mul : decode 0x00000000000000000000000058112803#128 = .ok (.mul 5#4 2#4 (.reg 2#4) 0#2 .two) := by decide
theorem test_decode_ldb : decode 0x00000000000000000000000078009804#128 = .ok (.ldb 3#4 1#4 (.simm 0#32) .two) := by decide
theorem test_decode_ldsb : decode 0x0000000000000004000000003806B884#128 = .ok (.ldsb 7#4 13#4 (.simm 4#32) .zero) := by decide
theorem test_decode_ldh : decode 0x0000000000000004000000007800A024#128 = .ok (.ldh 4#4 1#4 (.simm 4#32) .two) := by decide
theorem test_decode_ldsh : decode 0x0000000000000002000000007800B0A4#128 = .ok (.ldsh 6#4 1#4 (.simm 2#32) .two) := by decide
theorem test_decode_ldw : decode 0x00000000000000000000000078009844#128 = .ok (.ldw 3#4 1#4 (.simm 0#32) .two) := by decide
theorem test_decode_ldsw : decode 0x000000000000000000000000780098C4#128 = .ok (.ldsw 3#4 1#4 (.simm 0#32) .two) := by decide
theorem test_decode_stb : decode 0x00100000000000000000000079008005#128 = .ok (.stb 2#4 1#4 (.simm 0#32) .two) := by decide
theorem test_decode_sth : decode 0x00100000000000020000000079008025#128 = .ok (.sth 2#4 1#4 (.simm 2#32) .two) := by decide
theorem test_decode_stw : decode 0x00100000FFFFFFF8000000003A068045#128 = .ok (.stw 4#4 13#4 (.simm 0xFFFFFFF8#32) .zero) := by decide
theorem test_decode_b : decode 0x00000000000000100000000080000006#128 = .ok (.b 16#32 .four) := by decide
theorem test_decode_bcond : decode 0x00000000FFFFFFFC0000000040000027#128 = .ok (.bcond .ne 0xFFFFFFFC#32 .two) := by decide
theorem test_decode_bcond_le : decode 0x000000000000000800000000400001A7#128 = .ok (.bcond .le 8#32 .two) := by decide
theorem test_decode_bl : decode 0x00000000000000100000000080000008#128 = .ok (.bl 16#32 .four) := by decide
theorem test_decode_bx : decode 0x00000000000000000000000048020009#128 = .ok (.bx 4#4 .two) := by decide
theorem test_decode_blx : decode 0x0000000000000000000000004807000A#128 = .ok (.blx 14#4 .two) := by decide
theorem test_decode_setpc : decode 0x0000000000000000000000004801800B#128 = .ok (.setpc 3#4 .two) := by decide
theorem test_decode_puts : decode 0x0000000000000000000000004800802C#128 = .ok (.svcPuts 1#4 .two) := by decide
theorem test_decode_puti : decode 0x0000000000000000000000004800004C#128 = .ok (.svcPuti 0#4 .two) := by decide
theorem test_decode_halt : decode 0x0000000000000000000000004000006C#128 = .ok (.svcHalt .two) := by decide
theorem test_decode_ignores_regs : decode 0x000000000000000000000000478F0006#128 = .ok (.b 0#32 .two) := by decide
theorem test_encode_cmp : encode (.cmp 2#6 (some 0#4) (.uimm 1#32) false 15#4 .two) = 0x000F0000000000000000000168000042#128 := by decide
theorem test_encode_stw : encode (.stw 4#4 13#4 (.simm 0xFFFFFFF8#32) .zero) = 0x00100000FFFFFFF8000000003A068045#128 := by decide
theorem test_table_word : decodeTableWord 128 0x48020009 = some (.bx 4#4 .two) := by decide

/-! One stage action of one micro-op. The expected values are worked out by hand from the rules named. -/

namespace Sys2Proof.Tests

/-- The machine after reset with the ALU fixture of spec/95_test_vectors.md part 1. -/
def fixture : State := { State.reset with cfg := { Cfg.ref with aluUnit := .vectors } }

/-- The micro-op in ROB slot 2 with the address 0x100, its station (slot 0 of its class) ready with the given values, about to be
started. -/
def starting (i : Instr) (v0 v1 v2 : Word) : State :=
  { fixture with
    act := .start i.cls 0
    head := 2
    tail := 3
    rob := fixture.rob.set 2 { RobEntry.free with pc := 0x100#32, uop := encode i, status := .executing, dest := i.dest }
    rs := fixture.rs.set i.cls ((fixture.rs.get i.cls).set 0
      { RsEntry.free with
        busy := true, op0 := .value v0, op1 := .value v1, op2 := .value v2, dest := 2, uop := encode i
        sf := decide (i.fw ≠ 0#4) }) }

/-- The micro-op at the head, in ROB slot 2 with the address 0x100, broadcast and about to commit. -/
def committing (i : Instr) (value target : Word) (flags : BitVec 4) (dest : Dest) : State :=
  { fixture with
    act := .commit
    head := 2
    tail := 3
    fetchStall := true
    regs := fixture.regs.set 0 7#32
    rob := fixture.rob.set 2
      { pc := 0x100#32, uop := encode i, status := .executing, value := value, target := target, flags := flags, ready := true
        halt := decide (i = .svcHalt .two), dest := dest } }

/-- Memory with the bytes 0x80, 0x81, 0x82, 0x83 from 0x1000 up. -/
def bytes : Memory := { State.launchMem with cells := [(0x1000, 0x80#8), (0x1001, 0x81#8), (0x1002, 0x82#8), (0x1003, 0x83#8)] }

/-- The load of the given size at 0x1000, in ROB slot 2, about to read memory. -/
def accessing (i : Instr) (size : Size) (signed : Bool) : State :=
  { starting i 0#32 0#32 0#32 with mem := bytes, act := .access { addr := 0x1000#32, dest := 2, size := size, signed := signed } }

/-- What the next state of an outcome shows. -/
def seen {α : Type} (o : Host.Outcome State Fault Refusal) (f : State → α) : Option α :=
  match o with
  | .next t => some (f t)
  | _ => none

/-- The values and latencies on the delay list. -/
def pushed (o : Host.Outcome State Fault Refusal) : Option (List (Word × Option Word × BitVec 4 × Nat)) :=
  seen o (fun t => t.dly.map (fun d => (d.record.val, d.record.tgt, d.record.fl, d.ctr)))

end Sys2Proof.Tests

open Sys2Proof.Tests

/-! ALU, ALUCMP, MUL (R166, R167, R216, R240 to R242). -/

def addFlags : Instr := .alu 1#6 2#4 (some 0#4) (.reg 1#4) false 3#4 .two
def compare : Instr := .cmp 2#6 (some 0#4) (.uimm 1#32) false 15#4 .two
def multiply : Instr := .mul 5#4 2#4 (.reg 3#4) 3#2 .two

theorem test_alu_start : pushed (exec addFlags (starting addFlags 0xFFFFFFFF#32 1#32 0#32)) = some [(0#32, none, 6#4, 1)] := by decide
theorem test_alu_commit : seen (exec addFlags (committing addFlags 9#32 0#32 6#4 (.register 2#4 true)))
    (fun t => (t.getReg 2#4, t.flags, t.head, t.counters.committed))
    = some (9#32, { n := false, z := true, c := false, v := false }, 3, 1) := by decide
theorem test_cmp_start : pushed (exec compare (starting compare 0#32 1#32 0#32)) = some [(0xFFFFFFFF#32, none, 1#4, 1)] := by decide
theorem test_cmp_commit : seen (exec compare (committing compare 0xFFFFFFFF#32 0#32 1#4 .discard))
    (fun t => (decide (t.regs = (committing compare 0#32 0#32 0#4 .discard).regs), t.flags))
    = some (true, { n := true, z := false, c := false, v := false }) := by decide
theorem test_mul_start : pushed (exec multiply (starting multiply 0x10000#32 0x10000#32 0#32)) = some [(0#32, none, 2#4, 2)] := by
  decide
theorem test_mul_sign : pushed (exec multiply (starting multiply 0xFFFFFFFF#32 3#32 0#32)) = some [(0xFFFFFFFD#32, none, 1#4, 2)] := by
  decide

/-! Loads: the start computes the address modulo 2^32 (R169, R171), the access extends (R65, R177). -/

def loadOf (f : Reg → Reg → Src → PcInc → Instr) : Instr := f 3#4 1#4 (.simm 4#32) .two

theorem test_ldb_start : seen (exec (loadOf .ldb) (starting (loadOf .ldb) 0xFFFFFFFF#32 4#32 0#32)) (·.lq)
    = some [{ addr := 3#32, dest := 2, size := .byte, signed := false }] := by decide
theorem test_ldb : pushed (exec (loadOf .ldb) (accessing (loadOf .ldb) .byte false)) = some [(0x80#32, none, 0#4, 1)] := by decide
theorem test_ldsb : pushed (exec (loadOf .ldsb) (accessing (loadOf .ldsb) .byte true)) = some [(0xFFFFFF80#32, none, 0#4, 1)] := by
  decide
theorem test_ldsb_start : seen (exec (loadOf .ldsb) (starting (loadOf .ldsb) 1#32 4#32 0#32)) (·.lq)
    = some [{ addr := 5#32, dest := 2, size := .byte, signed := true }] := by decide
theorem test_ldh : pushed (exec (loadOf .ldh) (accessing (loadOf .ldh) .half false)) = some [(0x8180#32, none, 0#4, 1)] := by decide
theorem test_ldsh : pushed (exec (loadOf .ldsh) (accessing (loadOf .ldsh) .half true)) = some [(0xFFFF8180#32, none, 0#4, 1)] := by
  decide
theorem test_ldw : pushed (exec (loadOf .ldw) (accessing (loadOf .ldw) .word false)) = some [(0x83828180#32, none, 0#4, 1)] := by decide
theorem test_ldsw : pushed (exec (loadOf .ldsw) (accessing (loadOf .ldsw) .word true)) = some [(0x83828180#32, none, 0#4, 1)] := by
  decide

/-! Stores: the start (R170) and the memory write at commit (R215). -/

def storeOf (f : Reg → Reg → Src → PcInc → Instr) : Instr := f 2#4 1#4 (.simm 4#32) .two

theorem test_stw_start : seen (exec (storeOf .stw) (starting (storeOf .stw) 0x1000#32 4#32 0xAABBCCDD#32))
    (fun t => ((t.robAt 2).value, t.dly.map (·.record.val), t.mem.cells)) = some (0xAABBCCDD#32, [0x1004#32], []) := by decide
theorem test_stb : seen (exec (storeOf .stb) (committing (storeOf .stb) 0xAABBCCDD#32 0#32 0#4 (.resolved 0x1000#32))) (·.mem.cells)
    = some [(0x1000, 0xDD#8)] := by decide
theorem test_sth : seen (exec (storeOf .sth) (committing (storeOf .sth) 0xAABBCCDD#32 0#32 0#4 (.resolved 0x1000#32))) (·.mem.cells)
    = some [(0x1000, 0xDD#8), (0x1001, 0xCC#8)] := by decide
theorem test_stw : seen (exec (storeOf .stw) (committing (storeOf .stw) 0xAABBCCDD#32 0#32 0#4 (.resolved 0xFFFFFFFC#32))) (·.mem.cells)
    = some [(0xFFFFFFFC, 0xDD#8), (0xFFFFFFFD, 0xCC#8), (0xFFFFFFFE, 0xBB#8), (0xFFFFFFFF, 0xAA#8)] := by decide
theorem test_sth_past_the_end : seen (exec (storeOf .sth) (committing (storeOf .sth) 1#32 0#32 0#4 (.resolved 0xFFFFFFFF#32)))
    (fun t => (t.fatal, t.mem.cells)) = some (some { code := .memStore, pc := 0x100#32, info := .word 0xFFFFFFFF#32 }, []) := by decide

/-! Branches (R173, R217, R220, R270 to R277) under AlwaysTaken. -/

def branchOf (f : Word → PcInc → Instr) : Instr := f 0xFFFFFFF0#32 .two
def greater : Instr := .bcond .gt 8#32 .two
def jumpOf (f : Reg → PcInc → Instr) : Instr := f 4#4 .two

theorem test_b_start : pushed (exec (branchOf .b) (starting (branchOf .b) 0#32 0#32 0#32)) = some [(1#32, some 0xF0#32, 0#4, 1)] := by
  decide
theorem test_b_commit : seen (exec (branchOf .b) (committing (branchOf .b) 1#32 0xF0#32 0#4 .discard))
    (fun t => (t.counters.branches, t.counters.mispredicts, t.specPc, t.head)) = some (1, 0, 0#32, 3) := by decide
theorem test_bcond_start : pushed (exec greater (starting greater 0#32 1#32 1#32)) = some [(1#32, some 0x108#32, 0#4, 1)] := by decide
theorem test_bcond_not_taken : seen (exec greater (committing greater 0#32 0x108#32 0#4 .discard))
    (fun t => (t.counters.branches, t.counters.mispredicts, t.specPc, t.fetchDelay, t.tail)) = some (1, 1, 0x102#32, 1, 3) := by decide
theorem test_bl_start : pushed (exec (branchOf .bl) (starting (branchOf .bl) 0#32 0#32 0#32)) = some [(1#32, some 0xF0#32, 0#4, 1)] := by
  decide
theorem test_bl_commit : seen (exec (branchOf .bl) (committing (branchOf .bl) 1#32 0xF0#32 0#4 .discard))
    (fun t => (t.counters.branches, decide (t.regs = fixture.regs.set 0 7#32))) = some (1, true) := by decide
theorem test_bx_start : pushed (exec (jumpOf .bx) (starting (jumpOf .bx) 0x2001#32 0#32 0#32)) = some [(1#32, some 0x2001#32, 0#4, 1)] := by
  decide
theorem test_bx_commit : seen (exec (jumpOf .bx) (committing (jumpOf .bx) 1#32 0x2001#32 0#4 .discard))
    (fun t => (t.specPc, t.fetchStall, t.counters.branches, t.robEmpty)) = some (0x2001#32, false, 0, true) := by decide
theorem test_blx_commit : seen (exec (jumpOf .blx) (committing (jumpOf .blx) 1#32 0x2000#32 0#4 .discard))
    (fun t => (t.specPc, decide (t.regs = fixture.regs.set 0 7#32))) = some (0x2000#32, true) := by decide
theorem test_setpc_commit : seen (exec (jumpOf .setpc) (committing (jumpOf .setpc) 1#32 0x2000#32 0#4 .discard))
    (fun t => (t.specPc, t.trace.map (·.outcome))) = some (0x2000#32, [.redirect]) := by decide

/-! Supervisor calls (R174, R213, R218, R278 to R280). -/

theorem test_puts_start : seen (exec (jumpOf .svcPuts) (starting (jumpOf .svcPuts) 0x2000#32 0#32 0#32))
    (fun t => (t.out, t.dly.length)) = some ([.puts 0x2000#32], 1) := by decide
theorem test_puts_commit : seen (exec (jumpOf .svcPuts) (committing (jumpOf .svcPuts) 0#32 0#32 0#4 .discard))
    (fun t => (t.fetchStall, t.out)) = some (false, []) := by decide
theorem test_puti_start : seen (exec (jumpOf .svcPuti) (starting (jumpOf .svcPuti) 42#32 0#32 0#32)) (·.out) = some [.puti 42#32] := by
  decide
theorem test_halt_start : seen (exec (.svcHalt .two) (starting (.svcHalt .two) 0#32 0#32 0#32)) (fun t => (t.dly.map (·.record.halt), t.out))
    = some ([true], []) := by decide
theorem test_halt_commit : seen (exec (.svcHalt .two) (committing (.svcHalt .two) 0#32 0#32 0#4 .discard))
    (fun t => (t.halted, t.exitCode, t.fetchStall, t.trace.length)) = some (true, 7#32, true, 1) := by decide

/-! The stages. -/

/-- R194, R198: the tag of the second entry is answered, the producer's station freed. -/
theorem test_broadcast_wakes :
    seen (exec addFlags { starting addFlags 1#32 1#32 0#32 with
        act := .broadcast { p := 2, val := 9#32, tgt := none, fl := 2#4, halt := false }
        rs := (starting addFlags 1#32 1#32 0#32).rs.set .ctrl
          [{ RsEntry.free with busy := true, op0 := .pending 2 (.flag .z), op1 := .pending 2 (.flag .v), op2 := .pending 2 (.reg 2#4) }] })
      (fun t => (t.rs.ctrl.map (fun e => (e.op0, e.op1, e.op2)), (t.rsAt .alu 0).busy, (t.robAt 2).ready))
    = some ([(.value 1#32, .pending 2 (.flag .v), .value 9#32)], false, true) := by decide

/-- R140, R146, R149: an issue, with a source still to be written by slot 5 of the ROB. -/
theorem test_issue_renames :
    seen (exec addFlags { fixture with
        iq := [{ pc := 4#32, uop := encode addFlags }], rst := fixture.rst.set (.reg 1#4) (some 5), regs := fixture.regs.set 0 7#32 })
      (fun t => ([(t.rsAt .alu 0).op0, (t.rsAt .alu 0).op1],
        [t.rst.get (.reg 2#4), t.rst.get (.flag .z), t.rst.get (.flag .c)], t.tail))
    = some ([.value 7#32, .pending 5 (.reg 1#4)], [some 0, some 0, none], 1) := by decide

/-- R92, R142: MUL of register 15 is fatal at issue. -/
theorem test_issue_bad_uop :
    seen (exec (.mul 0#4 15#4 (.reg 1#4) 0#2 .two)
        { fixture with iq := [{ pc := 4#32, uop := encode (.mul 0#4 15#4 (.reg 1#4) 0#2 .two) }] })
      (fun t => (t.fatal.map (·.code), t.tail)) = some (some .badUop, 0) := by decide

/-! For every statement with hypotheses, states that meet them together: one for each clause, at a boundary of its range. -/

namespace Sys2Proof.Tests

/-- `fixture` with the micro-op at the front of the instruction queue, at the address 0x100. -/
def queued (i : Instr) : State := { fixture with iq := [{ pc := 0x100#32, uop := encode i }] }

/-- An occupied ROB slot that is not ready. -/
def waiting (i : Instr) : RobEntry := { RobEntry.free with pc := 0x80#32, uop := encode i, status := .executing, dest := i.dest }

/-- `queued` behind a full ROB: `head = tail = 2`, every slot occupied. -/
def blocked (i : Instr) : State :=
  { queued i with head := 2, tail := 2, rob := List.replicate 8 (waiting (.svcHalt .two)) }

/-- A set of stations of which the last only is free, at the last slot of the ROB. -/
def lastFree (i : Instr) : State :=
  { queued i with
    tail := 7
    head := 7
    rs := fixture.rs.set .alu [{ RsEntry.free with busy := true }, { RsEntry.free with busy := true }, { RsEntry.free with busy := true },
      RsEntry.free] }

/-- No free station of the multiplier. -/
def stationsTaken (i : Instr) : State :=
  { queued i with rs := fixture.rs.set .mul [{ RsEntry.free with busy := true }, { RsEntry.free with busy := true }] }

/-- An ill-formed micro-op (`pi = 3`). -/
def illPi : Instr := .alu 0#6 0#4 none (.uimm 5#32) false 0#4 .reserved

/-- An ill-formed micro-op (condition 15). -/
def illCond : Instr := .bcond .invalid15 8#32 .two

end Sys2Proof.Tests

/-! Encoding and issue. -/

theorem witness_EncodeOfDecode : decode 0x000000000000000000000000478F0006#128 = .ok (.b 0#32 .two) := by decide
theorem witness_IssueJudgesRecord_full :
    (blocked addFlags).act = .issue ∧ (blocked addFlags).fatal = none
      ∧ (blocked addFlags).iq = { pc := 0x100#32, uop := encode addFlags } :: [] ∧ (blocked addFlags).robFull = true := by decide
theorem witness_IssueJudgesRecord_fatal :
    (queued illCond).act = .issue ∧ (queued illCond).fatal = none ∧ (queued illCond).iq = { pc := 0x100#32, uop := encode illCond } :: []
      ∧ (queued illCond).robFull = false ∧ (Fields.unpack (encode illCond)).verdict = some .badCond := by decide
theorem witness_IssueJudgesRecord_passes :
    (queued addFlags).act = .issue ∧ (queued addFlags).fatal = none
      ∧ (queued addFlags).iq = { pc := 0x100#32, uop := encode addFlags } :: []
      ∧ (queued addFlags).robFull = false ∧ (Fields.unpack (encode addFlags)).verdict = none := by decide
theorem witness_IssueAllocates :
    (queued addFlags).act = .issue ∧ (queued addFlags).iq = { pc := 0x100#32, uop := encode addFlags } :: []
      ∧ (queued addFlags).robFull = false ∧ addFlags.wf = true ∧ freeSlot ((queued addFlags).rs.get addFlags.cls) = some 0 := by decide
theorem witness_IssueAllocates_last :
    (lastFree addFlags).act = .issue ∧ (lastFree addFlags).iq = { pc := 0x100#32, uop := encode addFlags } :: []
      ∧ (lastFree addFlags).robFull = false ∧ addFlags.wf = true ∧ freeSlot ((lastFree addFlags).rs.get addFlags.cls) = some 3 := by decide
theorem witness_IssueHeldBack_full :
    (blocked addFlags).act = .issue ∧ (blocked addFlags).iq = { pc := 0x100#32, uop := encode addFlags } :: []
      ∧ (blocked addFlags).robFull = true := by decide
theorem witness_IssueHeldBack_stations :
    (stationsTaken multiply).act = .issue ∧ (stationsTaken multiply).iq = { pc := 0x100#32, uop := encode multiply } :: []
      ∧ (stationsTaken multiply).robFull = false ∧ multiply.wf = true
      ∧ ∀ x ∈ (stationsTaken multiply).rs.get multiply.cls, x.busy = true := by decide
theorem witness_IssueHeldBack_ill :
    (queued illPi).act = .issue ∧ (queued illPi).iq = { pc := 0x100#32, uop := encode illPi } :: []
      ∧ (queued illPi).robFull = false ∧ illPi.wf = false := by decide

namespace Sys2Proof.Tests

/-- Slot 1 and Z have producers in slots 5 (ready) and 6 (not ready). -/
def renamed : State :=
  { fixture with
    rst := ((fixture.rst.set (.reg 1#4) (some 5)).set (.flag .z) (some 5)).set (.reg 2#4) (some 6)
    rob := fixture.rob.set 5 { waiting addFlags with ready := true } }

end Sys2Proof.Tests

theorem witness_RenameCases :
    renamed.rst.get (.reg 0#4) = none ∧ renamed.rst.get (.flag .n) = none
      ∧ (renamed.rst.get (.reg 1#4) = some 5 ∧ (renamed.robAt 5).ready = true)
      ∧ (renamed.rst.get (.flag .z) = some 5 ∧ (renamed.robAt 5).ready = true)
      ∧ (renamed.rst.get (.reg 2#4) = some 6 ∧ (renamed.robAt 6).ready = false) := by decide

/-! Execute. -/

theorem witness_AluStart_alu :
    (∃ rd a o cin fw pi, addFlags = .alu 1#6 rd a o cin fw pi) ∧ (starting addFlags 1#32 2#32 0#32).act = .start .alu 0 :=
  ⟨⟨_, _, _, _, _, _, rfl⟩, rfl⟩
theorem witness_AluStart_cmp : (∃ a o cin fw pi, compare = .cmp 2#6 a o cin fw pi) ∧ (starting compare 1#32 2#32 0#32).act = .start .alu 0 :=
  ⟨⟨_, _, _, _, _, rfl⟩, rfl⟩
theorem witness_MulStart : (starting multiply 1#32 2#32 0#32).act = .start .mul 0 := by decide

namespace Sys2Proof.Tests

/-- A load about to be started with `n` loads queued. -/
def queuedLoads (n : Nat) : State :=
  { starting (loadOf .ldh) 1#32 2#32 0#32 with lq := List.replicate n { addr := 0#32, dest := 0, size := .half, signed := false } }

end Sys2Proof.Tests

theorem witness_LoadStart_room :
    (loadOf .ldh).isLoad = true ∧ (loadOf .ldh).access = some (.half, false) ∧ (queuedLoads 3).act = .start .ls 0
      ∧ (queuedLoads 3).lq.length < (queuedLoads 3).cfg.lqCap := by decide
theorem witness_LoadStart_full :
    (loadOf .ldh).isLoad = true ∧ (loadOf .ldh).access = some (.half, false) ∧ (queuedLoads 4).act = .start .ls 0
      ∧ (queuedLoads 4).cfg.lqCap ≤ (queuedLoads 4).lq.length := by decide
theorem witness_StoreStart : (storeOf .stb).isStore = true ∧ (starting (storeOf .stb) 1#32 2#32 3#32).act = .start .ls 0 := by decide
theorem witness_BranchStart_relative :
    (∃ simm pi, (branchOf .b = .b simm pi ∨ branchOf .b = .bl simm pi)
        ∧ 0xF0#32 = ((starting (branchOf .b) 0#32 0#32 0#32).robAt ((starting (branchOf .b) 0#32 0#32 0#32).rsAt .ctrl 0).dest).pc + simm)
      ∧ (starting (branchOf .b) 0#32 0#32 0#32).act = .start .ctrl 0 :=
  ⟨⟨_, _, .inl rfl, by decide⟩, rfl⟩
theorem witness_BranchStart_register :
    (∃ rn pi, (jumpOf .bx = .bx rn pi ∨ jumpOf .bx = .blx rn pi ∨ jumpOf .bx = .setpc rn pi)
        ∧ 5#32 = ((starting (jumpOf .bx) 5#32 0#32 0#32).rsAt .ctrl 0).op0.word)
      ∧ (starting (jumpOf .bx) 5#32 0#32 0#32).act = .start .ctrl 0 :=
  ⟨⟨_, _, .inl rfl, by decide⟩, rfl⟩
theorem witness_CondBranchStart :
    greater.wf = true ∧ (starting greater 0#32 1#32 1#32).act = .start .ctrl 0
      ∧ ((starting greater 0#32 1#32 1#32).rsAt .ctrl 0).op0
        = (((condReads .gt)[0]?).map (fun g => Operand.value (flagWord (PerFlag.get ⟨true, false, true, true⟩ g)))).getD .absent
      ∧ ((starting greater 0#32 1#32 1#32).rsAt .ctrl 0).op1
        = (((condReads .gt)[1]?).map (fun g => Operand.value (flagWord (PerFlag.get ⟨true, false, true, true⟩ g)))).getD .absent
      ∧ ((starting greater 0#32 1#32 1#32).rsAt .ctrl 0).op2
        = (((condReads .gt)[2]?).map (fun g => Operand.value (flagWord (PerFlag.get ⟨true, false, true, true⟩ g)))).getD .absent := by
  decide
theorem witness_SupervisorStart : (starting (jumpOf .svcPuts) 1#32 0#32 0#32).act = .start .ctrl 0 := by decide
theorem witness_SelectionQuota : ∃ t, selectClass .alu (starting addFlags 1#32 2#32 0#32) = .next t := ⟨_, rfl⟩

/-! The load queue and memory. -/

namespace Sys2Proof.Tests

/-- Two queued loads: the first behind a store whose address is not known, the second not. -/
def scanning : State :=
  { fixture with
    head := 0
    tail := 3
    mem := bytes
    rob := ((fixture.rob.set 0 (waiting (loadOf .ldb))).set 1 (waiting (storeOf .stw))).set 2 (waiting (loadOf .ldh))
    lq := [{ addr := 0x1000#32, dest := 2, size := .half, signed := false }, { addr := 0x1000#32, dest := 0, size := .byte, signed := false }] }

/-- Memory that ends at 0x1004. -/
def shortMemory : State := { fixture with mem := { bytes with regions := [{ base := 0x1000, size := 4, readOnly := false }] } }

/-- The same, with accesses that wrap and addresses 0xFFFFFFFE to 0xFFFFFFFF and 0 to 1. -/
def wrappingMemory : State :=
  { fixture with
    cfg := { fixture.cfg with memWraps := true, byteOrder := .big }
    mem := { bytes with regions := [{ base := 0, size := 2, readOnly := false }, { base := 0xFFFFFFFE, size := 2, readOnly := false }] } }

end Sys2Proof.Tests

theorem witness_ScanHoldsBlockedLoads :
    (∃ t, lqScan scanning = .next t ∧ t.fatal = none)
      ∧ scanning.mayIssue { addr := 0x1000#32, dest := 2, size := .half, signed := false } = false :=
  ⟨⟨_, rfl, rfl⟩, by decide⟩
theorem witness_LoadAccess :
    (loadOf .ldsh).isLoad = true ∧ (loadOf .ldsh).access = some (.half, true)
      ∧ (accessing (loadOf .ldsh) .half true).act = .access { addr := 0x1000#32, dest := 2, size := .half, signed := true }
      ∧ (accessing (loadOf .ldsh) .half true).memRead 0x1000#32 Size.half.bytes = some 0x8180#32 := by decide
theorem witness_LoadAccess_fails :
    (loadOf .ldb).isLoad = true ∧ (loadOf .ldb).access = some (.byte, false)
      ∧ ({ shortMemory with act := .access { addr := 0x1004#32, dest := 2, size := .byte, signed := false } } : State).act
        = .access { addr := 0x1004#32, dest := 2, size := .byte, signed := false }
      ∧ shortMemory.memRead 0x1004#32 Size.byte.bytes = none := by decide
theorem witness_MemReadBytes : shortMemory.memRead 0x1000#32 4 = some 0x83828180#32 ∧ shortMemory.memRead 0x1001#32 4 = none := by decide
theorem witness_MemReadBytes_wraps :
    wrappingMemory.memRead 0xFFFFFFFE#32 4 = some 0#32 ∧ wrappingMemory.memRead 0xFFFFFFFF#32 4 = none := by decide
theorem witness_MemWriteBytes : shortMemory.mem.wf = true ∧ (shortMemory.memWrite 0x1003#32 1 0#32).isSome = true
    ∧ shortMemory.memWrite 0x1003#32 2 0#32 = none := by decide
theorem witness_ReadAfterWrite : (0x89ABCDEF#32).toNat < 2 ^ (8 * 4) ∧ wrappingMemory.mem.wf = true
    ∧ ∃ m, wrappingMemory.memWrite 0xFFFFFFFE#32 4 0x89ABCDEF#32 = some m :=
  ⟨by decide, by decide, _, rfl⟩

/-! Writeback. -/

namespace Sys2Proof.Tests

/-- Three records in flight, of the entries in slots 0 to 2; the first has one cycle to go. -/
def draining : State :=
  { scanning with
    lq := []
    dly := [{ record := { p := 0, val := 1#32, tgt := none, fl := 0#4, halt := false }, ctr := 1 },
      { record := { p := 1, val := 2#32, tgt := none, fl := 0#4, halt := false }, ctr := 2 }]
    cq := [{ p := 2, val := 3#32, tgt := none, fl := 0#4, halt := false }] }

end Sys2Proof.Tests

theorem witness_BroadcastEffect : (draining.doing (.broadcast { p := 2, val := 3#32, tgt := none, fl := 0#4, halt := false })).act
    = .broadcast { p := 2, val := 3#32, tgt := none, fl := 0#4, halt := false } := by decide
theorem witness_WritebackDrains :
    draining.fatal = none ∧ (∀ d ∈ draining.dly, 1 ≤ d.ctr) ∧ (∀ d ∈ draining.dly, knownRecord (draining.robAt d.record.p).uop)
      ∧ ∀ r ∈ draining.cq, knownRecord (draining.robAt r.p).uop := by
  refine ⟨by decide, by decide, ?_, ?_⟩
  · intro d hd
    simp only [draining, List.mem_cons, List.not_mem_nil, or_false] at hd
    rcases hd with rfl | rfl
    · exact ⟨loadOf .ldb, by decide⟩
    · exact ⟨storeOf .stw, by decide⟩
  · intro r hr
    simp only [draining, List.mem_cons, List.not_mem_nil, or_false] at hr
    subst hr
    exact ⟨loadOf .ldh, by decide⟩

/-! Commit. -/

theorem witness_CommitRegister :
    addFlags.kind = 1#5 ∧ (committing addFlags 9#32 0#32 6#4 (.register 2#4 true)).act = .commit
      ∧ (committing addFlags 9#32 0#32 6#4 (.register 2#4 true)).commitGate = .go
      ∧ ((committing addFlags 9#32 0#32 6#4 (.register 2#4 true)).robAt 2).halt = false
      ∧ ((committing addFlags 9#32 0#32 6#4 (.register 2#4 true)).robAt 2).dest = .register 2#4 true := by decide
theorem witness_CommitRegister_load :
    (loadOf .ldw).kind = 4#5 ∧ (committing (loadOf .ldw) 9#32 0#32 0#4 (.register 3#4 false)).act = .commit
      ∧ (committing (loadOf .ldw) 9#32 0#32 0#4 (.register 3#4 false)).commitGate = .go
      ∧ ((committing (loadOf .ldw) 9#32 0#32 0#4 (.register 3#4 false)).robAt 2).halt = false
      ∧ ((committing (loadOf .ldw) 9#32 0#32 0#4 (.register 3#4 false)).robAt 2).dest = .register 3#4 false := by decide
theorem witness_CommitCompare :
    (committing compare 9#32 0#32 1#4 .discard).act = .commit ∧ (committing compare 9#32 0#32 1#4 .discard).commitGate = .go
      ∧ ((committing compare 9#32 0#32 1#4 .discard).robAt 2).halt = false
      ∧ ((committing compare 9#32 0#32 1#4 .discard).robAt 2).dest = .discard := by decide
theorem witness_CommitStore :
    (storeOf .stw).isStore = true ∧ (storeOf .stw).access = some (.word, false)
      ∧ (committing (storeOf .stw) 9#32 0#32 0#4 (.resolved 0xFFFFFFFC#32)).act = .commit
      ∧ (committing (storeOf .stw) 9#32 0#32 0#4 (.resolved 0xFFFFFFFC#32)).commitGate = .go
      ∧ ((committing (storeOf .stw) 9#32 0#32 0#4 (.resolved 0xFFFFFFFC#32)).robAt 2).halt = false
      ∧ ((committing (storeOf .stw) 9#32 0#32 0#4 (.resolved 0xFFFFFFFC#32)).robAt 2).dest = .resolved 0xFFFFFFFC#32
      ∧ ((committing (storeOf .stw) 9#32 0#32 0#4 (.resolved 0xFFFFFFFC#32)).memWrite 0xFFFFFFFC#32 4 9#32).isSome = true
      ∧ (committing (storeOf .stw) 9#32 0#32 0#4 (.resolved 0xFFFFFFFC#32)).mem.wf = true := by decide
theorem witness_CommitStore_fails :
    (storeOf .stw).isStore = true ∧ (storeOf .stw).access = some (.word, false)
      ∧ (committing (storeOf .stw) 9#32 0#32 0#4 (.resolved 0xFFFFFFFD#32)).commitGate = .go
      ∧ ((committing (storeOf .stw) 9#32 0#32 0#4 (.resolved 0xFFFFFFFD#32)).robAt 2).halt = false
      ∧ ((committing (storeOf .stw) 9#32 0#32 0#4 (.resolved 0xFFFFFFFD#32)).robAt 2).dest = .resolved 0xFFFFFFFD#32
      ∧ (committing (storeOf .stw) 9#32 0#32 0#4 (.resolved 0xFFFFFFFD#32)).memWrite 0xFFFFFFFD#32 4 9#32 = none := by decide
theorem witness_CommitRelative :
    greater.kind = 7#5 ∧ (committing greater 1#32 0x108#32 0#4 .discard).act = .commit
      ∧ (committing greater 1#32 0x108#32 0#4 .discard).commitGate = .go
      ∧ ((committing greater 1#32 0x108#32 0#4 .discard).robAt 2).halt = false
      ∧ ((committing greater 1#32 0x108#32 0#4 .discard).robAt 2).dest = .discard
      ∧ (((committing greater 1#32 0x108#32 0#4 .discard).robAt 2).value ≠ 0#32
        ↔ (committing greater 1#32 0x108#32 0#4 .discard).cfg.policy = .alwaysTaken) := by decide
theorem witness_CommitRelative_mispredicted :
    greater.kind = 7#5 ∧ (committing greater 0#32 0x108#32 0#4 .discard).act = .commit
      ∧ (committing greater 0#32 0x108#32 0#4 .discard).commitGate = .go
      ∧ ((committing greater 0#32 0x108#32 0#4 .discard).robAt 2).halt = false
      ∧ ((committing greater 0#32 0x108#32 0#4 .discard).robAt 2).dest = .discard
      ∧ ¬ (((committing greater 0#32 0x108#32 0#4 .discard).robAt 2).value ≠ 0#32
        ↔ (committing greater 0#32 0x108#32 0#4 .discard).cfg.policy = .alwaysTaken) := by decide
theorem witness_CommitExchange :
    (jumpOf .bx = .bx 4#4 .two ∨ jumpOf .bx = .blx 4#4 .two ∨ jumpOf .bx = .setpc 4#4 .two)
      ∧ (committing (jumpOf .bx) 1#32 8#32 0#4 .discard).act = .commit ∧ (committing (jumpOf .bx) 1#32 8#32 0#4 .discard).commitGate = .go
      ∧ ((committing (jumpOf .bx) 1#32 8#32 0#4 .discard).robAt 2).halt = false
      ∧ ((committing (jumpOf .bx) 1#32 8#32 0#4 .discard).robAt 2).dest = .discard := by decide
theorem witness_CommitSupervisor :
    (committing (jumpOf .svcPuti) 0#32 0#32 0#4 .discard).act = .commit
      ∧ (committing (jumpOf .svcPuti) 0#32 0#32 0#4 .discard).commitGate = .go
      ∧ ((committing (jumpOf .svcPuti) 0#32 0#32 0#4 .discard).robAt 2).dest = .discard
      ∧ ((committing (jumpOf .svcPuti) 0#32 0#32 0#4 .discard).robAt 2).halt = false := by decide
theorem witness_CommitSupervisor_halt :
    (committing (.svcHalt .two) 0#32 0#32 0#4 .discard).act = .commit ∧ (committing (.svcHalt .two) 0#32 0#32 0#4 .discard).commitGate = .go
      ∧ ((committing (.svcHalt .two) 0#32 0#32 0#4 .discard).robAt 2).dest = .discard
      ∧ ((committing (.svcHalt .two) 0#32 0#32 0#4 .discard).robAt 2).halt = true := by decide
theorem witness_CommitWaits :
    (fixture.robAt fixture.head).status = .empty
      ∧ ((scanning.robAt scanning.head).status = .executing ∧ (scanning.robAt scanning.head).ready = false)
      ∧ (({ fixture with rob := fixture.rob.set 0 { RobEntry.free with status := .exception 1 } } : State).robAt 0).status = .exception 1 := by
  decide
theorem witness_CommitWaits_awaiting :
    ((committing (storeOf .stw) 1#32 0#32 0#4 .awaiting).robAt 2).status = .executing
      ∧ ((committing (storeOf .stw) 1#32 0#32 0#4 .awaiting).robAt 2).ready = true
      ∧ ((committing (storeOf .stw) 1#32 0#32 0#4 .awaiting).robAt 2).halt = false
      ∧ ((committing (storeOf .stw) 1#32 0#32 0#4 .awaiting).robAt 2).dest = .awaiting
      ∧ decode ((committing (storeOf .stw) 1#32 0#32 0#4 .awaiting).robAt 2).uop = .ok (storeOf .stw) := by decide

/-! Recovery and the front end. -/

theorem witness_RecoveryFlushes :
    scanning.rob.length = scanning.cfg.robCapacity ∧ scanning.head < scanning.cfg.robCapacity
      ∧ 2 < scanning.cfg.robCapacity ∧ 0 < scanning.robAge 2 ∧ scanning.robAge 2 < scanning.robCount := by decide
theorem witness_RobEmptyAfterRedirect :
    (committing (jumpOf .bx) 1#32 8#32 0#4 .discard).Fifo ∧ (committing (jumpOf .bx) 1#32 8#32 0#4 .discard).act = .commit
      ∧ (committing (jumpOf .bx) 1#32 8#32 0#4 .discard).commitGate = .go
      ∧ ((committing (jumpOf .bx) 1#32 8#32 0#4 .discard).robAt 2).halt = false
      ∧ ((committing (jumpOf .bx) 1#32 8#32 0#4 .discard).robAt 2).dest = .discard
      ∧ ∃ rn pi, jumpOf .bx = .bx rn pi ∨ jumpOf .bx = .blx rn pi ∨ jumpOf .bx = .setpc rn pi :=
  ⟨⟨by decide, by decide, by decide, by decide, by decide⟩, by decide, by decide, by decide, by decide, _, _, .inl rfl⟩
theorem witness_RobEmptyAfterRedirect_relative :
    (committing greater 0#32 0x108#32 0#4 .discard).Fifo ∧ (committing greater 0#32 0x108#32 0#4 .discard).act = .commit
      ∧ (committing greater 0#32 0x108#32 0#4 .discard).commitGate = .go
      ∧ ((committing greater 0#32 0x108#32 0#4 .discard).robAt 2).halt = false
      ∧ ((committing greater 0#32 0x108#32 0#4 .discard).robAt 2).dest = .discard ∧ greater.kind = 7#5
      ∧ ¬ (((committing greater 0#32 0x108#32 0#4 .discard).robAt 2).value ≠ 0#32
        ↔ (committing greater 0#32 0x108#32 0#4 .discard).cfg.policy = .alwaysTaken) :=
  ⟨⟨by decide, by decide, by decide, by decide, by decide⟩, by decide, by decide, by decide, by decide, by decide, by decide⟩
theorem witness_FetchStage_delay : 0 < ({ fixture with fetchDelay := 1 } : State).fetchDelay := by decide
theorem witness_FetchStage_held :
    fixture.fetchDelay = 0 ∧ fixture.cfg.fbCap ≤ ({ fixture with fb := List.replicate 2 ⟨0#32, 0#32⟩ } : State).fb.length := by decide

namespace Sys2Proof.Tests

/-- A fixture whose decoder knows the 2-byte item 0x8180, and whose memory is the four bytes of `bytes`. -/
def fetching : State :=
  { shortMemory with
    specPc := 0x1002#32
    cfg := { fixture.cfg with decoder := [{ raw := 0x8382#32, long := false, cls := .notCF, uops := some [encode (.svcHalt .two)] }] } }

end Sys2Proof.Tests

theorem witness_FetchStage_fails :
    ({ fetching with specPc := 0x1003#32 } : State).fetchDelay = 0 ∧ ({ fetching with specPc := 0x1003#32 } : State).fetchStall = false
      ∧ ({ fetching with specPc := 0x1003#32 } : State).fb.length < fetching.cfg.fbCap
      ∧ ({ fetching with specPc := 0x1003#32 } : State).ifetch 0x1003#32 = .fail := by decide
theorem witness_FetchStage_item :
    ({ fetching with specPc := 0x1000#32 } : State).fetchDelay = 0 ∧ ({ fetching with specPc := 0x1000#32 } : State).fetchStall = false
      ∧ ({ fetching with specPc := 0x1000#32 } : State).fb.length < fetching.cfg.fbCap
      ∧ ({ fetching with specPc := 0x1000#32 } : State).ifetch 0x1000#32 = .item 0x83828180#32 := by decide
theorem witness_FetchStage_short :
    fetching.fetchDelay = 0 ∧ fetching.fetchStall = false ∧ fetching.fb.length < fetching.cfg.fbCap
      ∧ ∃ raw, fetching.ifetch fetching.specPc = .short raw := by
  refine ⟨by decide, by decide, by decide, ((Config.freeHalf fetching.freeCount).setWidth 32 <<< 16) ||| 0x8382#32, ?_⟩
  have hlow : ∀ h : BitVec 16, ((h.setWidth 32 <<< 16) ||| 0x8382#32).setWidth 16 = 0x8382#16 := by
    intro h
    ext k hk
    simp
  have hread : fetching.memRead fetching.specPc 2 = some 0x8382#32 := by decide
  have hend : accessAddresses fetching.cfg fetching.mem.readable fetching.specPc 4 = none := by decide
  have hlong : isLong fetching.cfg (((Config.freeHalf fetching.freeCount).setWidth 32 <<< 16) ||| 0x8382#32) = false := by
    simp only [isLong, fetching, findRow, rowMatches, hlow]
    decide
  unfold State.ifetch
  rw [hread]
  simp only [hend, hlong]
  rfl
theorem witness_DecodeStage_holds :
    ({ fetching with fb := [⟨0#32, 0x8382#32⟩], iq := List.replicate 5 ⟨0#32, 0#128⟩ } : State).cfg.iqCap - 5 < fetching.cfg.iqHeadroom := by
  decide
theorem witness_DecodeStage_expands :
    fetching.cfg.iqHeadroom ≤ fetching.cfg.iqCap - ({ fetching with iq := List.replicate 4 ⟨0#32, 0#128⟩ } : State).iq.length
      ∧ decodeExpand fetching.cfg 0x8382#32 = some [encode (.svcHalt .two)] := by decide
theorem witness_DecodeStage_refuses :
    decodeExpand { fixture.cfg with decoder := [{ raw := 1#32, long := false, cls := .notCF, uops := none }] } 1#32 = none
      ∧ decodeExpand { fixture.cfg with decoder := [{ raw := 1#32, long := false, cls := .notCF, uops := some [] }] } 1#32 = some [] := by decide

/-! The whole machine. -/

theorem witness_TerminalUnchanged : ({ fixture with halted := true } : State).halted = true
    ∧ ({ fixture with fatal := some { code := .undef, pc := 0#32, info := .word 0#32 } } : State).fatal ≠ none := by decide
theorem witness_StepRunsDecodedInstruction :
    (queued addFlags).terminal = false ∧ (queued addFlags).act = .issue ∧ (queued addFlags).BackIdle
      ∧ (queued addFlags).iq = { pc := 0x100#32, uop := encode addFlags } :: [] ∧ decode (encode addFlags) = .ok addFlags :=
  ⟨by decide, by decide, ⟨by decide, by decide, by decide, by decide, fun c => by cases c <;> decide⟩, by decide, by decide⟩
theorem witness_StagesRun_commit :
    (committing addFlags 9#32 0#32 6#4 (.register 2#4 true)).commitGate = .go
      ∧ decode ((committing addFlags 9#32 0#32 6#4 (.register 2#4 true)).robAt 2).uop = .ok addFlags := by decide
theorem witness_StagesRun_broadcast :
    draining.cq = { p := 2, val := 3#32, tgt := none, fl := 0#4, halt := false } :: [] ∧ decode (draining.robAt 2).uop = .ok (loadOf .ldh) := by
  decide
theorem witness_StagesRun_access :
    0 < scanning.cfg.memPorts ∧ scanning.mayIssue { addr := 0x1000#32, dest := 0, size := .byte, signed := false } = true
      ∧ decode (scanning.robAt 0).uop = .ok (loadOf .ldb) := by decide
theorem witness_StagesRun_start :
    0 < (starting addFlags 1#32 2#32 0#32).cfg.units.get .alu
      ∧ decode ((starting addFlags 1#32 2#32 0#32).rsAt .alu 0).uop = .ok addFlags := by decide
theorem witness_FirstStepIssues : addFlags.wf = true := by decide
theorem witness_HaltEndsCycle :
    (committing (.svcHalt .two) 0#32 0#32 0#4 .discard).terminal = false ∧ (committing (.svcHalt .two) 0#32 0#32 0#4 .discard).commitGate = .go
      ∧ ((committing (.svcHalt .two) 0#32 0#32 0#4 .discard).robAt 2).halt = true
      ∧ decode ((committing (.svcHalt .two) 0#32 0#32 0#4 .discard).robAt 2).uop = .ok (.svcHalt .two) := by decide
theorem witness_CyclesCounted : (queued addFlags).terminal = false ∧ ∃ t, step (queued addFlags) = .next t := ⟨by decide, _, rfl⟩
theorem witness_CyclesCounted_fatal :
    (queued illPi).terminal = false ∧ seen (step (queued illPi)) (fun t => (t.fatal.isSome, t.counters.cycles)) = some (true, 0) := by
  decide
theorem witness_OneCommitPerStep_commits :
    seen (step (committing addFlags 9#32 0#32 6#4 (.register 2#4 true))) (fun t => (t.counters.committed, t.trace.length, t.counters.cycles))
      = some (1, 1, 1) := by decide

namespace Sys2Proof.Tests

/-- A machine at work: a load in slot 0 waits for memory behind no store, a store in slot 1 waits for its data, and `x[3]` is to be
written by slot 0. -/
def working : State :=
  { scanning with
    rst := fixture.rst.set (.reg 3#4) (some 0)
    rob := (fixture.rob.set 0 (waiting (loadOf .ldb))).set 1 (waiting (storeOf .stw))
    tail := 2
    lq := [{ addr := 0x1000#32, dest := 0, size := .byte, signed := false }]
    rs := fixture.rs.set .ls
      [{ RsEntry.free with busy := true, op0 := .value 0x1000#32, op1 := .value 0#32, dest := 0, uop := encode (loadOf .ldb), disp := true },
        { RsEntry.free with
          busy := true, op0 := .value 0#32, op1 := .value 4#32, op2 := .pending 0 (.reg 3#4), dest := 1, uop := encode (storeOf .stw) },
        RsEntry.free, RsEntry.free] }

theorem working_steps : ∃ t, step working = .next t := ⟨_, rfl⟩

end Sys2Proof.Tests

theorem witness_StepKeepsMemoryForm : working.mem.wf = true ∧ ∃ t, step working = .next t := ⟨by decide, working_steps⟩
theorem witness_StepKeepsFifo : working.Fifo ∧ ∃ t, step working = .next t :=
  ⟨⟨by decide, by decide, by decide, by decide, by decide⟩, working_steps⟩
theorem witness_StepAlwaysAnswers : working.InFlight := by
  have hload : knownRecord (encode (loadOf .ldb)) := ⟨loadOf .ldb, by decide⟩
  have hstore : knownRecord (encode (storeOf .stw)) := ⟨storeOf .stw, by decide⟩
  refine ⟨by decide, by decide, ?_, ?_, ?_, by simp [working, scanning, fixture, State.reset], by simp [working, scanning, fixture, State.reset]⟩
  · have h : ∀ e ∈ working.rob, e.status ≠ .empty → e.uop = encode (loadOf .ldb) ∨ e.uop = encode (storeOf .stw) := by decide
    intro e he hs
    rcases h e he hs with hu | hu <;> rw [hu] <;> assumption
  · intro c
    have h : ∀ e ∈ working.rs.get c, e.busy = true → (e.uop = encode (loadOf .ldb) ∨ e.uop = encode (storeOf .stw))
        ∧ ((working.robAt e.dest).uop = encode (loadOf .ldb) ∨ (working.robAt e.dest).uop = encode (storeOf .stw)) := by
      cases c <;> decide
    intro e he hb
    obtain ⟨h1, h2⟩ := h e he hb
    exact ⟨by rcases h1 with hu | hu <;> rw [hu] <;> assumption, by rcases h2 with hu | hu <;> rw [hu] <;> assumption⟩
  · intro l hl
    simp only [working, List.mem_cons, List.not_mem_nil, or_false] at hl
    subst hl
    exact hload
theorem witness_RegisterFifteenInert : working.Reg15Idle ∧ ∃ t, step working = .next t :=
  ⟨⟨by decide, by decide⟩, working_steps⟩
theorem witness_StepKeepsBounds : working.Bounded ∧ ∃ t, step working = .next t :=
  ⟨⟨by decide, by decide, by decide, by decide⟩, working_steps⟩
theorem witness_StepKeepsStoreReady : working.StoreReady ∧ working.NoException ∧ working.fatal = none ∧ ∃ t, step working = .next t := by
  refine ⟨?_, ?_, by decide, working_steps⟩
  · have h : ∀ e ∈ working.rob, (e.dest = .awaiting ∨ e.dest = .discard ∨ e.dest = .register 3#4 false) ∧ e.ready = false := by decide
    intro e he
    obtain ⟨hd, hr⟩ := h e he
    refine ⟨fun _ => hr, fun a ha => ?_⟩
    rw [ha] at hd
    simp at hd
  · have h : ∀ e ∈ working.rob, e.status = .empty ∨ e.status = .executing := by decide
    intro e he k hk
    have hs := h e he
    rw [hk] at hs
    simp at hs
theorem witness_StepKeepsRenaming : working.Fifo ∧ (working.halted = true ∨ working.RstInv) ∧ ∃ t, step working = .next t := by
  refine ⟨witness_StepKeepsFifo.1, .inr ?_, working_steps⟩
  have h : ∀ q : Reg, working.rst.get (.reg q) = if q = 3#4 then some 0 else none := by decide
  intro r p hr
  cases r with
  | reg q =>
    rw [h] at hr
    split at hr
    · next hq =>
      subst hq
      injection hr with hr
      subst hr
      decide
    · cases hr
  | flag f =>
    have hn : working.rst.get (.flag f) = none := by cases f <;> decide
    rw [hn] at hr
    cases hr

theorem working_stations {c : FuClass} {j : Nat} (h : (working.rsAt c j).busy = true) : c = .ls ∧ (j = 0 ∨ j = 1) := by
  have hidle : ∀ d, d ≠ FuClass.ls → ∀ e ∈ working.rs.get d, e.busy = false := fun d hd => by cases d <;> first | decide | exact absurd rfl hd
  by_cases hj : j < (working.rs.get c).length
  · by_cases hc : c = .ls
    · subst hc
      have hlt : ∀ k, k < 4 → (working.rsAt .ls k).busy = true → k = 0 ∨ k = 1 := by decide
      exact ⟨rfl, hlt j hj h⟩
    · exact absurd (hidle c hc _ (State.rsAt_mem _ c hj)) (by simp [h])
  · simp [State.rsAt, List.getD, Nat.not_lt.mp hj, RsEntry.free] at h

theorem working_flow : working.Flow := by
  have hload : decode (encode (loadOf .ldb)) = .ok (loadOf .ldb) := by decide
  have hstore : decode (encode (storeOf .stw)) = .ok (storeOf .stw) := by decide
  have h0 : working.Awaited 0 := ⟨by decide, by decide⟩
  have h1 : working.Awaited 1 := ⟨by decide, by decide⟩
  have hw : working.Writes 0 (.reg 3#4) := by unfold State.Writes; decide
  have hs : working.StartedFor 0 := ⟨.ls, 0, by decide, by decide, by decide⟩
  refine ⟨fun r p hr => ?_, fun c j p r hb hwt => ?_, fun c j hb => ?_, fun c d j k hj hk he => ?_, fun l hl => ?_,
    fun r hr => absurd hr (by simp [State.records, working, scanning, fixture, State.reset]), by decide, fun p _ hh => ?_, fun _ => ⟨by decide, fun l _ r hr => ?_⟩⟩
  · obtain ⟨rfl, rfl⟩ : r = .reg 3#4 ∧ p = 0 := by
      have hr' : (fixture.rst.set (.reg 3#4) (some 0)).get r = some p := hr
      rw [Rst.get_set] at hr'
      split at hr'
      · next h => cases hr'; exact ⟨h, rfl⟩
      · exact absurd (show Rst.empty.get r = some p from hr') (by simp)
    exact ⟨h0.1, hw⟩
  · obtain ⟨rfl, rfl | rfl⟩ := working_stations hb
    · rcases hwt with h | h | h <;> cases h
    · rcases hwt with h | h | h <;> cases h
      exact ⟨h0, by decide, hw⟩
  · obtain ⟨rfl, rfl | rfl⟩ := working_stations hb
    · refine ⟨h0, by decide, fun i hi => ?_⟩
      cases (show decode (encode (loadOf .ldb)) = .ok i from hi).symm.trans hload
      exact ⟨rfl, rfl⟩
    · refine ⟨h1, by decide, fun i hi => ?_⟩
      cases (show decode (encode (storeOf .stw)) = .ok i from hi).symm.trans hstore
      exact ⟨rfl, rfl⟩
  · obtain ⟨rfl, rfl | rfl⟩ := working_stations hj <;> obtain ⟨rfl, rfl | rfl⟩ := working_stations hk
    · exact ⟨rfl, rfl⟩
    · cases he
    · cases he
    · exact ⟨rfl, rfl⟩
  · simp only [working, List.mem_cons, List.not_mem_nil, or_false] at hl
    subst hl
    exact ⟨h0, ⟨loadOf .ldb, hload, rfl⟩, hs⟩
  · have hall : ∀ e ∈ working.rob, e.halt = false := by decide
    by_cases hp : p < working.rob.length
    · rw [hall _ (State.robAt_mem _ hp)] at hh; cases hh
    · rw [State.robAt_of_le _ (by omega)] at hh; cases hh
  · exact absurd hr (by simp [State.records, working, scanning, fixture, State.reset])

theorem working_youngest : working.Youngest := by
  have hin : ∀ q, (working.robAt q).status ≠ .empty → q = 0 ∨ q = 1 := by
    intro q hq
    have h : ∀ k, k < 8 → (working.robAt k).status ≠ .empty → k = 0 ∨ k = 1 := by decide
    by_cases hk : q < 8
    · exact h q hk hq
    · exact absurd (by rw [State.robAt_of_le _ (show working.rob.length ≤ q from Nat.not_lt.mp hk)]; rfl) hq
  have hw0 : ∀ r, working.Writes 0 r → r = .reg 3#4 := by
    intro r
    cases r with
    | reg g => exact (by unfold State.Writes; decide : ∀ g : Reg, working.Writes 0 (.reg g) → Slot.reg g = .reg 3#4) g
    | flag f => unfold State.Writes; cases f <;> decide
  have hw1 : ∀ r, ¬ working.Writes 1 r := by
    intro r
    cases r with
    | reg g => exact (by unfold State.Writes; decide : ∀ g : Reg, ¬ working.Writes 1 (.reg g)) g
    | flag f => unfold State.Writes; cases f <;> decide
  have hzero : ∀ q r, (working.robAt q).status ≠ .empty → working.Writes q r → q = 0 ∧ r = .reg 3#4 := by
    intro q r hq hw
    rcases hin q hq with rfl | rfl
    · exact ⟨rfl, hw0 r hw⟩
    · exact absurd hw (hw1 r)
  have hle : ∀ p, working.robAge 0 ≤ p := fun p => by rw [show working.robAge 0 = 0 from by decide]; exact Nat.zero_le p
  refine ⟨fun r hr q hq hw => ?_, fun r p _ q hq hw => ?_, fun _ _ p r _ _ q hq hw _ => ?_, fun c j hb => (working_flow.station c j hb).1.1⟩
  · obtain ⟨_, rfl⟩ := hzero q r hq hw
    exact absurd hr (by decide)
  · rw [(hzero q r hq hw).1]; exact hle _
  · rw [(hzero q r hq hw).1]; exact hle _

theorem witness_StepKeepsRenaming_producers :
    working.Fifo ∧ working.Coherent ∧ working.Tracked ∧ working.Renamed ∧ ∃ t, step working = .next t :=
  have h := (flow_iff witness_StepKeepsFifo.1).mp working_flow
  ⟨witness_StepKeepsFifo.1, h.1, h.2, (youngest_iff witness_StepKeepsFifo.1 h.1).mp working_youngest, working_steps⟩

namespace Sys2Proof.Tests

/-- A finished branch in slot 1 behind an unfinished entry in slot 0. -/
def settled : State :=
  { fixture with
    head := 0
    tail := 2
    rob := (fixture.rob.set 0 (waiting (.svcHalt .two))).set 1 { waiting (branchOf .b) with value := 1#32, ready := true } }

end Sys2Proof.Tests

theorem settled_flow : settled.Flow := by
  have hb : ∀ c j, (settled.rsAt c j).busy = false := by
    intro c j
    have h : ∀ c, ∀ e ∈ settled.rs.get c, e.busy = false := fun c => by cases c <;> decide
    by_cases hj : j < (settled.rs.get c).length
    · exact h c _ (State.rsAt_mem _ c hj)
    · simp [State.rsAt, List.getD, Nat.not_lt.mp hj, RsEntry.free]
  have hh : ∀ e ∈ settled.rob, e.halt = false := by decide
  refine ⟨fun r p hr => absurd (show Rst.empty.get r = some p from hr) (by simp), fun c j p r h => ?_, fun c j h => ?_,
    fun c d j k h => ?_, fun l hl => (by cases hl), fun r hr => (by cases hr), by decide, fun p _ h => ?_,
    fun _ => ⟨by decide, fun l hl => (by cases hl)⟩⟩
  · rw [hb] at h; cases h
  · rw [hb] at h; cases h
  · rw [hb] at h; cases h
  · by_cases hp : p < settled.rob.length
    · rw [hh _ (State.robAt_mem _ hp)] at h; cases h
    · rw [State.robAt_of_le _ (by omega)] at h; cases h

theorem witness_StepKeepsRenaming_ready :
    settled.Fifo ∧ settled.Coherent ∧ settled.Tracked ∧ (settled.robAt 1).ready = true
      ∧ seen (step settled) (fun t => ((t.robAt 1).ready, (t.robAt 1).value)) = some (true, 1#32) := by
  have hs : settled.Fifo := ⟨by decide, by decide, by decide, by decide, by decide⟩
  have h := (flow_iff hs).mp settled_flow
  exact ⟨hs, h.1, h.2, by decide, by decide⟩

/-! One micro-op alone. -/

namespace Sys2Proof.Tests

/-- The fixture with one micro-op in the instruction queue, fetch stalled, x[0] = 0x80000001, x[1] = 0x1000. -/
def alone (i : Instr) : State :=
  { queued i with fetchStall := true, mem := bytes, regs := (fixture.regs.set 0 0x80000001#32).set 1 0x1000#32 }

theorem alone_lone (i : Instr) : (alone i).Lone 0x100#32 (encode i) :=
  { ok := (by decide : fixture.cfg.ok = true)
    running := (by decide : fixture.terminal = false)
    act := rfl
    robSize := (by decide : fixture.rob.length = fixture.cfg.robCapacity)
    head_lt := (by decide : fixture.head < fixture.cfg.robCapacity)
    head_tail := rfl
    rob := (by decide : ∀ e ∈ fixture.rob, e.status = .empty)
    rsSize := fun c => (by cases c <;> decide : (fixture.rs.get c).length = fixture.cfg.rsSize.get c)
    rs := fun c => (by cases c <;> decide : ∀ e ∈ fixture.rs.get c, e.busy = false)
    rst := fun r =>
      match r with
      | .reg q => (by decide : ∀ q : Reg, fixture.rst.get (.reg q) = none) q
      | .flag f => (by cases f <;> decide : fixture.rst.get (.flag f) = none)
    lq := rfl
    dly := rfl
    cq := rfl
    fb := rfl
    iq := rfl
    stalled := rfl }

end Sys2Proof.Tests

theorem witness_AluPassage :
    (alone addFlags).Lone 0x100#32 (encode addFlags) ∧ decode (encode addFlags) = .ok addFlags ∧ addFlags.wf = true
      ∧ ∃ rd a o cin fw pi, addFlags = .alu 1#6 rd a o cin fw pi :=
  ⟨alone_lone _, by decide, by decide, _, _, _, _, _, _, rfl⟩
theorem witness_MulPassage :
    (alone multiply).Lone 0x100#32 (encode multiply) ∧ decode (encode multiply) = .ok (.mul 5#4 2#4 (.reg 3#4) 3#2 .two)
      ∧ multiply.wf = true :=
  ⟨alone_lone _, by decide, by decide⟩
theorem witness_StorePassage :
    (alone (storeOf .stw)).Lone 0x100#32 (encode (storeOf .stw)) ∧ decode (encode (storeOf .stw)) = .ok (storeOf .stw)
      ∧ (storeOf .stw).wf = true ∧ (storeOf .stw).isStore = true ∧ (storeOf .stw).access = some (.word, false)
      ∧ (0x1004#32).toNat = (((alone (storeOf .stw)).sourceValue (storeOf .stw).sources.1).toNat
        + ((alone (storeOf .stw)).sourceValue (storeOf .stw).sources.2.1).toNat) % 2 ^ 32
      ∧ ∃ m, (alone (storeOf .stw)).memWrite 0x1004#32 4 ((alone (storeOf .stw)).sourceValue (storeOf .stw).sources.2.2) = some m :=
  ⟨alone_lone _, by decide, by decide, by decide, by decide, by decide, _, rfl⟩
theorem witness_LoadPassage :
    (alone (.ldsh 3#4 1#4 (.simm 0#32) .two)).Lone 0x100#32 (encode (.ldsh 3#4 1#4 (.simm 0#32) .two))
      ∧ decode (encode (.ldsh 3#4 1#4 (.simm 0#32) .two)) = .ok (.ldsh 3#4 1#4 (.simm 0#32) .two)
      ∧ (Instr.ldsh 3#4 1#4 (.simm 0#32) .two).wf = true ∧ (Instr.ldsh 3#4 1#4 (.simm 0#32) .two).isLoad = true
      ∧ (Instr.ldsh 3#4 1#4 (.simm 0#32) .two).access = some (.half, true)
      ∧ (Instr.ldsh 3#4 1#4 (.simm 0#32) .two).dest = .register 3#4 false
      ∧ (0x1000#32).toNat = (((alone (.ldsh 3#4 1#4 (.simm 0#32) .two)).sourceValue (.slot (.reg 1#4))).toNat
        + ((alone (.ldsh 3#4 1#4 (.simm 0#32) .two)).sourceValue (.imm 0#32)).toNat) % 2 ^ 32
      ∧ (alone (.ldsh 3#4 1#4 (.simm 0#32) .two)).memRead 0x1000#32 Size.half.bytes = some 0x8180#32 :=
  ⟨alone_lone _, by decide, by decide, by decide, by decide, by decide, by decide, by decide⟩
theorem witness_LoadPassage_unsigned :
    (alone (.ldh 3#4 1#4 (.simm 0#32) .two)).Lone 0x100#32 (encode (.ldh 3#4 1#4 (.simm 0#32) .two))
      ∧ decode (encode (.ldh 3#4 1#4 (.simm 0#32) .two)) = .ok (.ldh 3#4 1#4 (.simm 0#32) .two)
      ∧ (Instr.ldh 3#4 1#4 (.simm 0#32) .two).wf = true ∧ (Instr.ldh 3#4 1#4 (.simm 0#32) .two).isLoad = true
      ∧ (Instr.ldh 3#4 1#4 (.simm 0#32) .two).access = some (.half, false)
      ∧ (Instr.ldh 3#4 1#4 (.simm 0#32) .two).dest = .register 3#4 false
      ∧ (0x1000#32).toNat = (((alone (.ldh 3#4 1#4 (.simm 0#32) .two)).sourceValue (.slot (.reg 1#4))).toNat
        + ((alone (.ldh 3#4 1#4 (.simm 0#32) .two)).sourceValue (.imm 0#32)).toNat) % 2 ^ 32
      ∧ (alone (.ldh 3#4 1#4 (.simm 0#32) .two)).memRead 0x1000#32 Size.half.bytes = some 0x8180#32 :=
  ⟨alone_lone _, by decide, by decide, by decide, by decide, by decide, by decide, by decide⟩
theorem witness_BranchPassage :
    (alone (branchOf .b)).Lone 0x100#32 (encode (branchOf .b)) ∧ decode (encode (branchOf .b)) = .ok (branchOf .b)
      ∧ (branchOf .b).wf = true ∧ (∃ simm pi, (branchOf .b = .b simm pi ∨ branchOf .b = .bl simm pi) ∧ true = true)
      ∧ (true = true ↔ (alone (branchOf .b)).cfg.policy = .alwaysTaken) :=
  ⟨alone_lone _, by decide, by decide, ⟨_, _, .inl rfl, rfl⟩, by decide⟩
theorem witness_BranchPassage_conditional :
    (alone (.bcond .ne 8#32 .two)).Lone 0x100#32 (encode (.bcond .ne 8#32 .two))
      ∧ decode (encode (.bcond .ne 8#32 .two)) = .ok (.bcond .ne 8#32 .two) ∧ (Instr.bcond .ne 8#32 .two).wf = true
      ∧ (∃ cond simm pi, Instr.bcond .ne 8#32 .two = .bcond cond simm pi ∧ true = condHolds cond (alone (.bcond .ne 8#32 .two)).flags)
      ∧ (true = true ↔ (alone (.bcond .ne 8#32 .two)).cfg.policy = .alwaysTaken) :=
  ⟨alone_lone _, by decide, by decide, ⟨_, _, _, rfl, by decide⟩, by decide⟩
theorem witness_HaltPassage :
    (alone (.svcHalt .two)).Lone 0x100#32 (encode (.svcHalt .two)) ∧ decode (encode (.svcHalt .two)) = .ok (.svcHalt .two)
      ∧ (Instr.svcHalt .two).wf = true :=
  ⟨alone_lone _, by decide, by decide⟩
end

section
/-! PROOFS. What a step leaves of the shape of the machine and of its two event streams: the relations `State.SameSizes` and
`State.SameLog`, kept by every update of the later stages and by the writes of a commit; a retirement adds one trace record
(`State.CommitsAtMostOne`). A lemma named `…_same` states both: the sizes are the same, and what the streams gained. -/

namespace Sys2Proof

/-- A set of stations replaced by one of the same length leaves the length of every set. -/
theorem PerClass.length_get_set {α : Type} (p : PerClass (List α)) (c d : FuClass) {xs : List α}
    (h : xs.length = (p.get c).length) : ((p.set c xs).get d).length = (p.get d).length := by
  rw [PerClass.get_set]
  split
  · next hd => rw [hd, h]
  · rfl

namespace Machine

/-- The configuration, the numbers of ROB slots and of stations, and the map of memory are the same (R10, R25, R31, R68). -/
structure State.SameSizes (s t : State) : Prop where
  cfg : t.cfg = s.cfg
  rob : t.rob.length = s.rob.length
  rs : ∀ c, (t.rs.get c).length = (s.rs.get c).length
  regions : t.mem.regions = s.mem.regions

theorem State.SameSizes.refl (s : State) : s.SameSizes s := ⟨rfl, rfl, fun _ => rfl, rfl⟩

theorem State.SameSizes.trans {s t u : State} (h : s.SameSizes t) (k : t.SameSizes u) : s.SameSizes u :=
  ⟨k.cfg.trans h.cfg, k.rob.trans h.rob, fun c => (k.rs c).trans (h.rs c), k.regions.trans h.regions⟩

/-- Nothing has committed in between: the count and the trace are the same, the `Out` events have at most grown (R47, R48). -/
structure State.SameLog (s t : State) : Prop where
  out : s.out <+: t.out
  committed : t.counters.committed = s.counters.committed
  trace : t.trace = s.trace

theorem State.SameLog.refl (s : State) : s.SameLog s := ⟨List.prefix_rfl, rfl, rfl⟩

theorem State.SameLog.trans {s t u : State} (h : s.SameLog t) (k : t.SameLog u) : s.SameLog u :=
  ⟨h.out.trans k.out, k.committed.trans h.committed, k.trace.trans h.trace⟩

/-- At most one entry has committed in between, with one trace record (R116, R212). -/
structure State.CommitsAtMostOne (s t : State) : Prop where
  out : s.out <+: t.out
  commit : (t.counters.committed = s.counters.committed ∧ t.trace = s.trace)
    ∨ (t.counters.committed = s.counters.committed + 1 ∧ ∃ x, t.trace = s.trace ++ [x])

theorem State.SameLog.commitsAtMostOne {s t : State} (h : s.SameLog t) : s.CommitsAtMostOne t :=
  ⟨h.out, .inl ⟨h.committed, h.trace⟩⟩

theorem State.CommitsAtMostOne.trans_sameLog {s t u : State} (h : s.CommitsAtMostOne t) (k : t.SameLog u) :
    s.CommitsAtMostOne u :=
  ⟨h.out.trans k.out, by rw [k.committed, k.trace]; exact h.commit⟩

theorem State.SameLog.trans_commitsAtMostOne {s t u : State} (h : s.SameLog t) (k : t.CommitsAtMostOne u) :
    s.CommitsAtMostOne u :=
  ⟨h.out.trans k.out, by rw [← h.committed, ← h.trace]; exact k.commit⟩

/-! The updates that several stages share. -/

theorem State.doing_same (s : State) (a : Activity) : s.SameSizes (s.doing a) ∧ s.SameLog (s.doing a) :=
  ⟨⟨rfl, rfl, fun _ => rfl, rfl⟩, ⟨List.prefix_rfl, rfl, rfl⟩⟩

theorem State.raise_same (s : State) (k : FatalCode) (pc : Word) (info : FatalInfo) :
    s.SameSizes (s.raise k pc info) ∧ s.SameLog (s.raise k pc info) :=
  ⟨⟨rfl, rfl, fun _ => rfl, rfl⟩, ⟨List.prefix_rfl, rfl, rfl⟩⟩

/-! The stages after commit. -/

theorem State.dispatched_sameSizes (s : State) (c : FuClass) (j : Nat) : s.SameSizes (s.dispatched c j) :=
  ⟨rfl, rfl, fun _ => PerClass.length_get_set _ _ _ List.length_set, rfl⟩

/-- Updates that write stations or a ROB slot replace entries in place; the others do not touch what has a size. -/
theorem LateUpdate.sameSizes {s t : State} (h : LateUpdate s t) : s.SameSizes t := by
  cases h with
  | broadcast i r rest rs _ _ hrs =>
    subst hrs
    exact ⟨rfl, List.length_set, fun c => (broadcastUop_same i.profile r { s with cq := rest } c).length, rfl⟩
  | compute c j r n =>
    have hpush : s.SameSizes (s.push r n) := ⟨rfl, rfl, fun _ => rfl, rfl⟩
    exact hpush.trans (State.dispatched_sameSizes _ c j)
  | print c j o r n =>
    have hpush : s.SameSizes ((s.emitOut o).push r n) := ⟨rfl, rfl, fun _ => rfl, rfl⟩
    exact hpush.trans (State.dispatched_sameSizes _ c j)
  | store c j v r n =>
    have hpush : s.SameSizes ((s.setRob r.p { s.robAt r.p with value := v }).push r n) :=
      ⟨rfl, List.length_set, fun _ => rfl, rfl⟩
    exact hpush.trans (State.dispatched_sameSizes _ c j)
  | load c j l =>
    have hqueue : s.SameSizes { s with lq := s.lq ++ [l] } := ⟨rfl, rfl, fun _ => rfl, rfl⟩
    exact hqueue.trans (State.dispatched_sameSizes _ c j)
  | allocate => exact ⟨rfl, List.length_set, fun _ => PerClass.length_get_set _ _ _ List.length_set, rfl⟩
  | _ => exact ⟨rfl, rfl, fun _ => rfl, rfl⟩

/-- Of the updates after commit only the start of a print writes an event, at the end of `Out` (R115). -/
theorem LateUpdate.sameLog {s t : State} (h : LateUpdate s t) : s.SameLog t := by
  cases h with
  | print c j o => exact ⟨List.prefix_append s.out [o], rfl, rfl⟩
  | _ => exact ⟨List.prefix_rfl, rfl, rfl⟩

/-! Commit. -/

theorem SameArch.sameSizes {s t : State} (h : SameArch s t) : s.SameSizes t :=
  ⟨h.cfg, h.robLength, h.rsLength, congrArg Memory.regions h.mem⟩

theorem SameArch.sameLog {s t : State} (h : SameArch s t) : s.SameLog t :=
  ⟨h.out ▸ List.prefix_rfl, h.committed, h.trace⟩

/-- The register or memory write of a commit (R214, R215): a store changes bytes, not the regions. -/
theorem commitDest_ok_same {size : Size} {e : RobEntry} {s x : State} (h : commitDest size e s = .ok x) :
    s.SameSizes x ∧ s.SameLog x := by
  rcases commitDest_ok_cases h with ⟨_, _, _, rfl⟩ | ⟨_, _, _, hm, rfl⟩ | ⟨_, rfl⟩
  · exact ⟨⟨rfl, rfl, fun _ => rfl, rfl⟩, ⟨List.prefix_rfl, rfl, rfl⟩⟩
  · obtain ⟨_, _, _, rfl⟩ := memWrite_cases hm
    exact ⟨⟨rfl, rfl, fun _ => rfl, rfl⟩, ⟨List.prefix_rfl, rfl, rfl⟩⟩
  · exact ⟨.refl _, .refl _⟩

theorem commitFlags_same (fw : BitVec 4) (e : RobEntry) (s : State) :
    s.SameSizes (commitFlags fw e s) ∧ s.SameLog (commitFlags fw e s) := by
  obtain ⟨fl, rst, h⟩ := commitFlags_eq fw e s
  rw [h]
  exact ⟨⟨rfl, rfl, fun _ => rfl, rfl⟩, ⟨List.prefix_rfl, rfl, rfl⟩⟩

/-- A trace record and the release of the slot go together (R116, R212, R219). -/
theorem State.emitTrace_releaseHead (s : State) (r : TraceRecord) :
    s.SameSizes (s.emitTrace r).releaseHead ∧ s.CommitsAtMostOne (s.emitTrace r).releaseHead :=
  ⟨⟨rfl, List.length_set, fun _ => rfl, rfl⟩, ⟨List.prefix_rfl, .inr ⟨rfl, r, rfl⟩⟩⟩

theorem commitHalt_same (e : RobEntry) (s : State) :
    s.SameSizes (commitHalt e s) ∧ s.CommitsAtMostOne (commitHalt e s) :=
  ⟨⟨rfl, List.length_set, fun _ => rfl, rfl⟩, ⟨List.prefix_rfl, .inr ⟨rfl, _, rfl⟩⟩⟩

theorem commitRetire_same (rt : Retire) (e : RobEntry) (s : State) :
    s.SameSizes (commitRetire rt e s) ∧ s.CommitsAtMostOne (commitRetire rt e s) := by
  obtain ⟨y, tr, hy, _, harch⟩ := commitRetire_eq rt e s
  obtain ⟨hsize, hone⟩ := y.emitTrace_releaseHead tr
  rw [hy]
  exact ⟨harch.sameSizes.trans hsize, harch.sameLog.trans_commitsAtMostOne hone⟩

theorem CommitUpdate.same {s u : State} {e : RobEntry} (h : CommitUpdate s e u) :
    s.SameSizes u ∧ s.CommitsAtMostOne u := by
  have fatal : ∀ k pc info, s.SameSizes (s.raise k pc info) ∧ s.CommitsAtMostOne (s.raise k pc info) :=
    fun k pc info => (s.raise_same k pc info).imp_right (·.commitsAtMostOne)
  cases h with
  | halt => exact commitHalt_same e s
  | storeFault => exact fatal _ _ _
  | unresolved => exact fatal _ _ _
  | retire i x _ hx =>
    obtain ⟨hsizeDest, hlogDest⟩ := commitDest_ok_same hx
    obtain ⟨hsizeFlags, hlogFlags⟩ := commitFlags_same i.profile.fw e x
    obtain ⟨hsize, hone⟩ := commitRetire_same i.profile.retire e (commitFlags i.profile.fw e x)
    exact ⟨(hsizeDest.trans hsizeFlags).trans hsize, (hlogDest.trans hlogFlags).trans_commitsAtMostOne hone⟩

theorem commitStage_same {s u : State} (h : commitStage s = .next u) : s.SameSizes u ∧ s.CommitsAtMostOne u := by
  obtain ⟨hsizeDoing, hlogDoing⟩ := s.doing_same .commit
  refine commit_keeps (P := fun u => s.SameSizes u ∧ s.CommitsAtMostOne u) h ?idle ?internal ?go
  case idle => exact ⟨.refl s, (State.SameLog.refl s).commitsAtMostOne⟩
  case internal => exact fun _ => (s.raise_same _ _ _).imp_right (·.commitsAtMostOne)
  case go =>
    intro u _ hu
    exact ⟨hsizeDoing.trans hu.same.1, hlogDoing.trans_commitsAtMostOne hu.same.2⟩

/-! The end of the cycle and the whole step. -/

theorem endCycle_same (s : State) : s.SameSizes (endCycle s) ∧ s.SameLog (endCycle s) := by
  rcases endCycle_cases s with h | h <;> rw [h] <;>
    exact ⟨⟨rfl, rfl, fun _ => rfl, rfl⟩, ⟨List.prefix_rfl, rfl, rfl⟩⟩

theorem step_sameSizes {s t : State} (h : step s = .next t) : s.SameSizes t :=
  step_keeps h (.refl s) (fun _ hu _ => (commitStage_same hu).1)
    (fun _ _ hm hs => hs.trans hm.update.sameSizes) (fun u hs => hs.trans (endCycle_same u).1)

theorem step_commitsAtMostOne {s t : State} (h : step s = .next t) : s.CommitsAtMostOne t :=
  step_keeps h (State.SameLog.refl s).commitsAtMostOne (fun _ hu _ => (commitStage_same hu).2)
    (fun _ _ hm hs => hs.trans_sameLog hm.update.sameLog) (fun u hs => hs.trans_sameLog (endCycle_same u).2)

/-- Settles O43: commit emits at most one trace record, and the stages after it add `Out` events only. -/
theorem oneCommitPerStep : Obligations.OneCommitPerStep := by
  intro s t h
  obtain ⟨hout, hcommit⟩ := step_commitsAtMostOne h
  exact ⟨hout, hcommit⟩

/-- Settles O45: commit, every update of the later stages and the end of the cycle keep the sizes. -/
theorem stepKeepsSizes : Obligations.StepKeepsSizes := by
  intro s t h
  obtain ⟨hcfg, hrob, hrs, hregions⟩ := step_sameSizes h
  exact ⟨hcfg, hrob, hrs, hregions⟩

end Machine

end Sys2Proof
end

section
/-! PROOFS. The commit of the head entry, said once: its architectural writes (`ArchWrite`), what branch resolution makes of the machine
(`Resolution`), and the four ways a commit stage can end (`CommitOutcome`). An invariant of commit is one goal per way. -/

namespace Sys2Proof.Machine

/-- An entry that commits is in use and ready (R211). -/
theorem commitGate_go {s : State} (h : s.commitGate = .go) :
    (s.robAt s.head).status ≠ .empty ∧ (s.robAt s.head).ready = true := by
  unfold State.commitGate at h
  split at h
  · cases h
  · cases h
  · next hst =>
    split at h
    · next hr => exact ⟨by simp [hst], hr⟩
    · cases h

/-- Commit raises `INTERNAL` by itself for the status `exception` only (R211, R300). -/
theorem commitGate_internal {s : State} (h : s.commitGate = .internal) : ∃ k, (s.robAt s.head).status = .exception k := by
  unfold State.commitGate at h
  split at h
  · cases h
  · next k hst => exact ⟨k, hst⟩
  · split at h <;> cases h

/-- What the architectural writes of a commit may be (R214 to R216): the register of the head entry's descriptor, or one accepted memory
access; and slots of `RST` cleared, among them every one that the head entry writes and that names it. -/
structure ArchWrite (s w : State) : Prop where
  frame : w = { s with regs := w.regs, flags := w.flags, rst := w.rst, mem := w.mem, act := w.act }
  regs : w.regs = s.regs ∨ ∃ id uf, (s.robAt s.head).dest = .register id uf
    ∧ w.regs = (s.setReg id (s.robAt s.head).value).regs
  mem : w.mem = s.mem ∨ ∃ a n v, s.memWrite a n v = some w.mem
  rst : ∀ r p, w.rst.get r = some p → s.rst.get r = some p ∧ (p = s.head → ¬ s.Writes p r)

theorem archWrite_of_commit {s x : State} {i : Instr} (hi : decode (s.robAt s.head).uop = .ok i)
    (hx : commitDest i.profile.size (s.robAt s.head) (s.doing .commit) = .ok x) :
    ArchWrite s (commitFlags i.profile.fw (s.robAt s.head) x) := by
  have hrst := commitWrites_rst (s := s.doing .commit) hi hx
  obtain ⟨fl, rst, hfl⟩ := commitFlags_eq i.profile.fw (s.robAt s.head) x
  refine ⟨?frame, ?regs, ?mem, hrst⟩ <;> rw [hfl]
  case frame => rcases commitDest_ok_cases hx with ⟨_, _, _, rfl⟩ | ⟨_, _, _, _, rfl⟩ | ⟨_, rfl⟩ <;> rfl
  case regs =>
    rcases commitDest_ok_cases hx with ⟨id, uf, hd, rfl⟩ | ⟨_, _, _, _, rfl⟩ | ⟨_, rfl⟩
    · exact .inr ⟨id, uf, hd, rfl⟩
    · exact .inl rfl
    · exact .inl rfl
  case mem =>
    rcases commitDest_ok_cases hx with ⟨_, _, _, rfl⟩ | ⟨_, _, _, hm, rfl⟩ | ⟨_, rfl⟩
    · exact .inl rfl
    · exact .inr ⟨_, _, _, hm⟩
    · exact .inl rfl

/-- What branch resolution makes of the machine (R217, R218, R220): it goes on, with other counters or fetch no longer stalled, or it
recovers. -/
inductive Resolution (w : State) : State → Prop
  | goOn (counters : Counters) (stall : Bool) : Resolution w { w with counters := counters, fetchStall := stall }
  | recovery (counters : Counters) (target : Word) : Resolution w (State.recover { w with counters := counters } target)

theorem resolveBranch_resolution (rt : Retire) (e : RobEntry) (w : State) : Resolution w (resolveBranch rt e w).1 := by
  rcases resolveBranch_cases rt e w with ⟨_, h⟩ | ⟨_, h⟩ | ⟨_, _, _, h⟩ | ⟨_, _, _, h⟩ | ⟨_, h⟩ <;> rw [h]
  · exact .goOn w.counters w.fetchStall
  · exact .recovery w.counters _
  · exact .goOn w.countBranch.counters w.fetchStall
  · exact .recovery w.countBranch.countMispredict.counters _
  · exact .goOn w.counters false

/-! Branch resolution touches neither the head nor the architectural state (R237). -/

theorem Resolution.head_eq {w y : State} (h : Resolution w y) : y.head = w.head := by cases h <;> rfl

theorem Resolution.regs_eq {w y : State} (h : Resolution w y) : y.regs = w.regs := by cases h <;> rfl

theorem Resolution.mem_eq {w y : State} (h : Resolution w y) : y.mem = w.mem := by cases h <;> rfl

/-- After branch resolution `RST` names only what it named before, and nothing that a recovery flushed (R232). -/
theorem Resolution.rst {w y : State} (h : Resolution w y) {r : Slot} {p : Nat} (hr : y.rst.get r = some p) :
    w.rst.get r = some p ∧ y.robAt p = w.robAt p := by
  cases h with
  | goOn => exact ⟨hr, rfl⟩
  | recovery counters target =>
    obtain ⟨hold, hkept⟩ := recover_rst hr
    exact ⟨hold, by rw [recover_robAt, if_neg hkept]; rfl⟩

/-- The ways a commit stage can end (R210, R211, R213). -/
inductive CommitOutcome (s : State) : State → Prop
  | idle : CommitOutcome s s
  | fatal (a : Activity) (k : FatalCode) (pc : Word) (info : FatalInfo)
      (hk : k = .internal → (∃ n, (s.robAt s.head).status = .exception n)
        ∨ ((s.robAt s.head).dest = .awaiting ∧ (s.robAt s.head).ready = true)) :
      CommitOutcome s ((s.doing a).raise k pc info)
  | halt (hg : s.commitGate = .go) (hh : (s.robAt s.head).halt = true) :
      CommitOutcome s (commitHalt (s.robAt s.head) (s.doing .commit))
  | retire (w y : State) (tr : TraceRecord) (hg : s.commitGate = .go) (hw : ArchWrite s w) (hy : Resolution w y) :
      CommitOutcome s (y.emitTrace tr).releaseHead

theorem commitStage_outcome {s u : State} (h : commitStage s = .next u) : CommitOutcome s u := by
  refine commit_keeps h .idle (fun hg => .fatal s.act _ _ _ fun _ => .inl (commitGate_internal hg)) ?go
  case go =>
    intro u hg hu
    cases hu with
    | halt hh => exact .halt hg hh
    | storeFault a hd => exact .fatal .commit .memStore _ _ (fun hk => by cases hk)
    | unresolved hd => exact .fatal .commit .internal _ _ (fun _ => .inr ⟨hd, (commitGate_go hg).2⟩)
    | retire i x hi hx =>
      obtain ⟨y, tr, hy, hres, _⟩ := commitRetire_eq i.profile.retire (s.robAt s.head)
        (commitFlags i.profile.fw (s.robAt s.head) x)
      rw [hy]
      exact .retire _ y tr hg (archWrite_of_commit hi hx) (hres ▸ resolveBranch_resolution _ _ _)

end Sys2Proof.Machine
end

section
/-! PROOFS. Who writes the architectural state: nothing after commit (`LateUpdate.sameCommitted`), and commit keeps memory in canonical
form and register 15 as it is (R20 to R22, R46, R61). -/

namespace Sys2Proof

/-- R21, R92: a well-formed micro-op does not write register 15. -/
theorem Instr.dest_slot_ne_reg15 {i : Instr} (h : i.illFormed = none) : i.dest.slot ≠ some (.reg 15#4) := by
  have hdefects : i.defects = [] := by
    unfold Instr.illFormed at h
    split at h
    · assumption
    · split at h <;> cases h
  have hreg : ∀ {rd : Reg}, WF.reg rd = [] → some (Machine.Slot.reg rd) ≠ some (.reg 15#4) := by
    intro rd hrd he
    cases he
    cases hrd
  cases i with
  | alu sub rd | mul rd | ldb rd | ldsb rd | ldh rd | ldsh rd | ldw rd | ldsw rd =>
    simp only [Instr.defects, List.append_eq_nil_iff] at hdefects
    exact hreg (by tauto)
  | _ => simp [Instr.dest, Machine.Dest.slot]

namespace Machine

/-- Registers, flags, memory, the halt and its exit code are the same (R20, R22, R44, R46). -/
structure State.SameCommitted (s t : State) : Prop where
  regs : t.regs = s.regs
  flags : t.flags = s.flags
  mem : t.mem = s.mem
  halted : t.halted = s.halted
  exitCode : t.exitCode = s.exitCode

theorem State.SameCommitted.refl (s : State) : s.SameCommitted s := ⟨rfl, rfl, rfl, rfl, rfl⟩

theorem State.SameCommitted.trans {s t u : State} (h : s.SameCommitted t) (k : t.SameCommitted u) : s.SameCommitted u :=
  ⟨k.regs.trans h.regs, k.flags.trans h.flags, k.mem.trans h.mem, k.halted.trans h.halted, k.exitCode.trans h.exitCode⟩

theorem State.SameCommitted.getReg {s t : State} (h : s.SameCommitted t) (r : Reg) : t.getReg r = s.getReg r := by
  unfold State.getReg
  rw [h.regs]

/-- No update of the stages after commit writes a committed field. -/
theorem LateUpdate.sameCommitted {s t : State} (h : LateUpdate s t) : s.SameCommitted t := by
  cases h <;> exact ⟨rfl, rfl, rfl, rfl, rfl⟩

theorem LateMoves.sameCommitted {s t : State} (h : LateMoves s t) : s.SameCommitted t :=
  h.keeps (P := s.SameCommitted) (fun _ _ hm hs => hs.trans hm.update.sameCommitted) (.refl s)

theorem endCycle_sameCommitted (s : State) : s.SameCommitted (endCycle s) := by
  rcases endCycle_cases s with h | h <;> rw [h] <;> exact ⟨rfl, rfl, rfl, rfl, rfl⟩

/-- Settles O44: after the commit stage come later moves and the end of the cycle, which write none of the five fields. -/
theorem onlyCommitWrites : Obligations.OnlyCommitWrites := by
  intro s t hrun h
  rcases step_cases h with ⟨hterm, _⟩ | ⟨_, u, v, hu, hv, rfl, _⟩
  · simp [hrun] at hterm
  · obtain ⟨hregs, hflags, hmem, hhalted, hexit⟩ := hv.sameCommitted.trans (endCycle_sameCommitted v)
    exact ⟨u, hu, hregs, hflags, hmem, hhalted, hexit⟩

/-- The only write of a commit to memory is one accepted access (R215, R61). -/
theorem CommitOutcome.mem_wf {s u : State} (h : CommitOutcome s u) (hs : s.mem.wf = true) : u.mem.wf = true := by
  cases h with
  | retire w y tr _ hw hy =>
    have hym : (y.emitTrace tr).releaseHead.mem = w.mem := hy.mem_eq
    rw [hym]
    rcases hw.mem with hm | ⟨a, n, v, hm⟩
    · rw [hm]; exact hs
    · exact (memWrite_wf hm hs).1
  | _ => exact hs

/-- Settles O46: a store commits through `memWrite`, which keeps the canonical form; nothing else writes memory. -/
theorem stepKeepsMemoryForm : Obligations.StepKeepsMemoryForm := by
  intro s t hs h
  exact step_keeps (P := fun s => s.mem.wf = true) h hs (fun u hu hs => (commitStage_outcome hu).mem_wf hs)
    (fun u v hm hu => by rw [hm.update.sameCommitted.mem]; exact hu)
    (fun u hu => by rw [(endCycle_sameCommitted u).mem]; exact hu)

/-- A descriptor of the ROB that names no register 15, also that of a slot outside it (R21). -/
theorem State.Reg15Idle.robAt {s : State} (h : s.Reg15Idle) (p : Nat) : (s.robAt p).dest.slot ≠ some (.reg 15#4) := by
  by_cases hp : p < s.rob.length
  · exact h.rob _ (s.robAt_mem hp)
  · rw [s.robAt_of_le (by omega)]
    simp [RobEntry.free, Dest.slot]

/-- Commit clears slots of `RST` and names nothing (R214, R216, R232). -/
theorem CommitOutcome.rst_none {s u : State} (h : CommitOutcome s u) {r : Slot} (hs : s.rst.get r = none) :
    u.rst.get r = none := by
  cases h with
  | retire w y tr _ hw hy =>
    refine Option.eq_none_iff_forall_ne_some.mpr fun p hp => ?_
    have hold : s.rst.get r = some p := (hw.rst r p (hy.rst (p := p) hp).1).1
    rw [hs] at hold
    cases hold
  | _ => exact hs

/-- Commit writes the register that the descriptor of the head entry names, and no other (R214). -/
theorem CommitOutcome.getReg {s u : State} (h : CommitOutcome s u) {r : Reg}
    (hr : (s.robAt s.head).dest.slot ≠ some (.reg r)) : u.getReg r = s.getReg r := by
  cases h with
  | retire w y tr _ hw hy =>
    have hyw : (y.emitTrace tr).releaseHead.getReg r = w.getReg r := by
      unfold State.getReg
      rw [← hy.regs_eq]
      rfl
    rw [hyw]
    rcases hw.regs with hregs | ⟨id, uf, hd, hregs⟩
    · unfold State.getReg
      rw [hregs]
    · have hne : r ≠ id := by
        rintro rfl
        exact hr (by rw [hd]; rfl)
      have hset : w.getReg r = (s.setReg id (s.robAt s.head).value).getReg r := by
        unfold State.getReg
        rw [hregs]
      rw [hset, State.getReg_setReg, if_neg hne]
  | _ => rfl

theorem commitStage_reg15 {s u : State} (hu : commitStage s = .next u) (h : s.Reg15Idle) :
    u.Reg15Idle ∧ u.getReg 15#4 = s.getReg 15#4 :=
  ⟨⟨(commitStage_outcome hu).rst_none h.rst,
      commit_rob (Q := fun e => e.dest.slot ≠ some (.reg 15#4)) (fun _ he => he) (by simp [RobEntry.free, Dest.slot]) h.rob hu⟩,
    (commitStage_outcome hu).getReg (h.robAt s.head)⟩

/-- Only issue writes `RST` after commit, and only slots that a well-formed micro-op writes (R92, R149). -/
theorem lateMove_reg15 {s t : State} (hm : LateMove s t) (h : s.Reg15Idle) : t.Reg15Idle := by
  refine ⟨?rst, late_rob (Q := fun e => e.dest.slot ≠ some (.reg 15#4)) (by simp [RobEntry.free, Dest.slot])
    (fun e r he => by obtain ⟨_, _, _, hslot⟩ := e.receive_keeps r; rw [hslot]; exact he) (fun _ _ he => he)
    (fun i _ _ hwf => i.dest_slot_ne_reg15 hwf) hm h.rob⟩
  case rst =>
    cases hm.update with
    | allocate i e rest j _ _ _ hwf =>
      have hw : writesSlot i.profile.dest i.profile.fw (.reg 15#4) = false := by
        simpa [writesSlot, i.profile_dest] using i.dest_slot_ne_reg15 hwf
      show (s.rst.claim i.profile.dest i.profile.fw s.tail).get (.reg 15#4) = none
      rw [Rst.get_claim, hw]
      exact h.rst
    | _ => exact h.rst

/-- Settles O49: no descriptor names register 15, so commit does not write it and issue does not rename it. -/
theorem registerFifteenInert : Obligations.RegisterFifteenInert := by
  intro s t hs h
  refine step_keeps (P := fun t => t.Reg15Idle ∧ t.getReg 15#4 = s.getReg 15#4) h ⟨hs, rfl⟩ ?commit ?move ?last
  case commit =>
    rintro u hu ⟨hidle, _⟩
    exact commitStage_reg15 hu hidle
  case move =>
    rintro u v hm ⟨hidle, hreg⟩
    exact ⟨lateMove_reg15 hm hidle, (hm.update.sameCommitted.getReg _).trans hreg⟩
  case last =>
    rintro u ⟨hidle, hreg⟩
    refine ⟨?_, ((endCycle_sameCommitted u).getReg _).trans hreg⟩
    rcases endCycle_cases u with h | h <;> rw [h] <;> exact ⟨hidle.rst, hidle.rob⟩

end Machine

end Sys2Proof
end

section
/-! PROOFS. The bounds of the queues (R35, R41 to R43), and the store entries of the ROB (R51 item 7): two invariants of one entry or one
list at a time. -/

namespace Sys2Proof.Machine

/-- The bounds speak of the queues, the delay and the configuration only. -/
theorem State.Bounded.congr {s t : State} (h : s.Bounded) (hc : t.cfg = s.cfg) (hlq : t.lq = s.lq) (hiq : t.iq = s.iq)
    (hfb : t.fb = s.fb) (hd : t.fetchDelay = s.fetchDelay) : t.Bounded :=
  ⟨by rw [hc, hlq]; exact h.lq, by rw [hc, hiq]; exact h.iq, by rw [hc, hfb]; exact h.fb, by rw [hc, hd]; exact h.fetchDelay⟩

/-- A recovery empties the queues and sets the delay to its bound (R230, R235). -/
theorem recover_bounded (s : State) (target : Word) : (s.recover target).Bounded :=
  ⟨Nat.zero_le _, Nat.zero_le _, Nat.zero_le _, Nat.le_refl _⟩

theorem CommitOutcome.bounded {s u : State} (h : CommitOutcome s u) (hs : s.Bounded) : u.Bounded := by
  cases h with
  | retire w y tr _ hw hy =>
    have hwb : w.Bounded := by
      rw [hw.frame]
      exact hs.congr rfl rfl rfl rfl rfl
    have hyb : y.Bounded := by
      cases hy with
      | goOn => exact hwb.congr rfl rfl rfl rfl rfl
      | recovery => exact recover_bounded _ _
    exact hyb.congr rfl rfl rfl rfl rfl
  | _ => exact hs.congr rfl rfl rfl rfl rfl

/-- A queue grows only where the stage that fills it found room: a started load (R172), a decoded item (R129), a fetched item (R123). -/
theorem LateUpdate.bounded {s t : State} (h : LateUpdate s t) (hs : s.Bounded) : t.Bounded := by
  obtain ⟨hlq, hiq, hfb, hdelay⟩ := hs
  cases h with
  | loads keep hk => exact ⟨hk.length_le.trans hlq, hiq, hfb, hdelay⟩
  | load c j l _ _ hroom => exact ⟨by simpa using hroom, hiq, hfb, hdelay⟩
  | allocate i e rest j hq =>
    rw [hq] at hiq
    exact ⟨hlq, (Nat.le_succ _).trans hiq, hfb, hdelay⟩
  | pop e rest hq =>
    rw [hq] at hfb
    exact ⟨hlq, hiq, (Nat.le_succ _).trans hfb, hdelay⟩
  | expand e rest l hq hroom hl =>
    rw [hq] at hfb
    exact ⟨hlq, by simp; omega, (Nat.le_succ _).trans hfb, hdelay⟩
  | delay => exact ⟨hlq, hiq, hfb, (Nat.sub_le _ _).trans hdelay⟩
  | fetch raw hroom => exact ⟨hlq, hiq, by simpa using hroom, hdelay⟩
  | _ => exact ⟨hlq, hiq, hfb, hdelay⟩

/-- Settles O50: the queues grow by moves that found room, and a recovery sets the delay to its bound. -/
theorem stepKeepsBounds : Obligations.StepKeepsBounds := by
  intro s t hs h
  refine step_keeps h hs (fun u hu hs => (commitStage_outcome hu).bounded hs) (fun u v hm hu => hm.update.bounded hu) ?_
  intro u hu
  rcases endCycle_cases u with h | h <;> rw [h] <;> exact hu.congr rfl rfl rfl rfl rfl

/-- What O51 says of one ROB entry: an unresolved store is not ready, a resolved one is, and the status is never `exception`. -/
structure RobEntry.StoreOk (e : RobEntry) : Prop where
  awaiting : e.dest = .awaiting → e.ready = false
  resolved : ∀ a, e.dest = .resolved a → e.ready = true
  status : ∀ k, e.status ≠ .exception k

theorem storeOk_iff {s : State} : (∀ e ∈ s.rob, e.StoreOk) ↔ s.StoreReady ∧ s.NoException :=
  ⟨fun h => ⟨fun e he => ⟨(h e he).awaiting, (h e he).resolved⟩, fun e he => (h e he).status⟩,
    fun ⟨hstore, hstatus⟩ e he => ⟨(hstore e he).1, (hstore e he).2, hstatus e he⟩⟩

theorem RobEntry.StoreOk.free : RobEntry.free.StoreOk :=
  ⟨(nomatch ·), fun _ => (nomatch ·), fun _ => (nomatch ·)⟩

theorem RobEntry.StoreOk.emptied {e : RobEntry} (h : e.StoreOk) : RobEntry.StoreOk { e with status := .empty } :=
  ⟨h.awaiting, h.resolved, fun k hk => by cases hk⟩

/-- A broadcast resolves an unresolved store and makes the entry ready (R194, R196). -/
theorem RobEntry.StoreOk.receive {e : RobEntry} (h : e.StoreOk) (r : BusRecord) : (e.receive r).StoreOk := by
  obtain ⟨_, _, hstatus, _⟩ := e.receive_keeps r
  refine ⟨fun hd => ?_, fun _ _ => e.receive_ready r, fun k => by rw [hstatus]; exact h.status k⟩
  unfold RobEntry.receive at hd
  split at hd
  · cases hd
  · next hne => exact absurd hd hne

/-- The descriptor of a micro-op is never resolved at issue (R144). -/
theorem dest_ne_resolved (i : Instr) (a : Word) : i.dest ≠ .resolved a := by
  cases i <;> simp [Instr.dest]

theorem State.robAt_storeOk {s : State} (h : ∀ e ∈ s.rob, e.StoreOk) (p : Nat) : (s.robAt p).StoreOk := by
  by_cases hp : p < s.rob.length
  · exact h _ (s.robAt_mem hp)
  · rw [s.robAt_of_le (by omega)]
    exact .free

theorem lateMove_storeOk {s t : State} (hm : LateMove s t) (h : ∀ e ∈ s.rob, e.StoreOk) : ∀ e ∈ t.rob, e.StoreOk :=
  late_rob .free (fun _ r he => he.receive r) (fun _ _ he => ⟨he.awaiting, he.resolved, he.status⟩)
    (fun i _ _ _ => ⟨fun _ => rfl, fun a ha => absurd ha (dest_ne_resolved i a), fun k hk => by cases hk⟩) hm h

/-- A commit stage ends with the fatal it found or with one that is not `INTERNAL` (R211). -/
theorem CommitOutcome.fatal_ne_internal {s u : State} (h : CommitOutcome s u) (hs : (s.robAt s.head).StoreOk)
    (hn : s.fatal = none) {f : FatalRecord} (hf : u.fatal = some f) : f.code ≠ .internal := by
  have running : u.fatal = s.fatal → f.code ≠ .internal := fun he => by rw [he, hn] at hf; cases hf
  cases h with
  | fatal a k pc info hk =>
    cases hf
    intro hcode
    rcases hk hcode with ⟨n, hst⟩ | ⟨hd, hready⟩
    · exact hs.status n hst
    · rw [hs.awaiting hd] at hready
      cases hready
  | retire w y tr _ hw hy =>
    have hwf : w.fatal = s.fatal := by rw [hw.frame]
    exact running (by cases hy <;> exact hwf)
  | _ => exact running rfl

/-- Settles O51: entry by entry, and a head entry as the invariant has it gives commit no reason for `INTERNAL`. -/
theorem stepKeepsStoreReady : Obligations.StepKeepsStoreReady := by
  intro s t hstore hstatus h
  have hs : ∀ e ∈ s.rob, e.StoreOk := storeOk_iff.mpr ⟨hstore, hstatus⟩
  have ht : ∀ e ∈ t.rob, e.StoreOk :=
    step_keeps (P := fun s => ∀ e ∈ s.rob, e.StoreOk) h hs (fun _ hu hs => commit_rob (fun _ he => he.emptied) .free hs hu)
      (fun _ _ hm hu => lateMove_storeOk hm hu) (fun u hu => by rcases endCycle_cases u with h | h <;> rw [h] <;> exact hu)
  obtain ⟨hstore', hstatus'⟩ := storeOk_iff.mp ht
  exact ⟨hstore', hstatus', fun u hu hn f hf => (commitStage_outcome hu).fatal_ne_internal (State.robAt_storeOk hs _) hn hf⟩

end Sys2Proof.Machine
end

section
/-! PROOFS. The ROB as a FIFO and the producers that `RST` names (R28, R51 item 1): commit releases the head, and no slot of `RST` names it
then. -/

namespace Sys2Proof.Machine

theorem fifo_of_rob {s t : State} (hs : s.Fifo) (hc : t.cfg = s.cfg) (hrob : t.rob = s.rob) (hh : t.head = s.head)
    (ht : t.tail = s.tail) : t.Fifo :=
  fifo_congr hs hc (by rw [hrob]) hh ht (fun n => by unfold State.robAt; rw [hrob])

theorem endCycle_fifo {s : State} (hs : s.Fifo) : (endCycle s).Fifo := by
  rcases endCycle_cases s with h | h <;> rw [h] <;> exact fifo_of_rob hs rfl rfl rfl rfl

/-- Branch resolution keeps the FIFO range and the head entry in use (R232). -/
theorem Resolution.fifo {w y : State} (h : Resolution w y) (hw : w.Fifo) (hst : (w.robAt w.head).status ≠ .empty) :
    y.Fifo ∧ (y.robAt y.head).status ≠ .empty := by
  cases h with
  | goOn => exact ⟨fifo_of_rob hw rfl rfl rfl rfl, hst⟩
  | recovery counters target => exact recover_fifo (s := { w with counters := counters }) (fifo_of_rob hw rfl rfl rfl rfl) hst target

theorem CommitOutcome.fifo {s u : State} (h : CommitOutcome s u) (hs : s.Fifo) : u.Fifo := by
  cases h with
  | idle => exact hs
  | fatal => exact fifo_of_rob hs rfl rfl rfl rfl
  | halt hg => exact releaseHead_fifo (fifo_of_rob hs rfl rfl rfl rfl) (commitGate_go hg).1
  | retire w y tr hg hw hy =>
    have hwf : w.Fifo ∧ (w.robAt w.head).status ≠ .empty := by
      rw [hw.frame]
      exact ⟨fifo_of_rob hs rfl rfl rfl rfl, (commitGate_go hg).1⟩
    obtain ⟨hyf, hst⟩ := hy.fifo hwf.1 hwf.2
    exact releaseHead_fifo (fifo_of_rob hyf rfl rfl rfl rfl) hst

theorem commitStage_fifo {s u : State} (hu : commitStage s = .next u) (hs : s.Fifo) : u.Fifo :=
  (commitStage_outcome hu).fifo hs

/-- Settles O47: commit releases the head, after a recovery if any; of the later moves only issue moves a pointer. -/
theorem stepKeepsFifo : Obligations.StepKeepsFifo := by
  intro s t hs h
  exact step_keeps h hs (fun _ hu hs => commitStage_fifo hu hs) (fun _ _ hm hs => lateMove_fifo hm hs) (fun _ hs => endCycle_fifo hs)

/-- `State.RstInv` by the status of the slots. -/
def State.NamesWriters (s : State) : Prop :=
  ∀ r p, s.rst.get r = some p → (s.robAt p).status ≠ .empty ∧ s.Writes p r

theorem rstInv_iff {s : State} (hs : s.Fifo) : s.RstInv ↔ s.NamesWriters := by
  unfold State.RstInv State.NamesWriters
  simp only [occupied_iff_status hs, State.Writes, and_assoc]

/-- Nothing but the status of an entry, its record and the slot of its descriptor matters to `RST`. -/
theorem State.NamesWriters.congr {s t : State} (h : s.NamesWriters) (hrst : t.rst = s.rst)
    (hrob : ∀ k, (t.robAt k).status = (s.robAt k).status ∧ (t.robAt k).uop = (s.robAt k).uop
      ∧ (t.robAt k).dest.slot = (s.robAt k).dest.slot) : t.NamesWriters := by
  intro r p hr
  obtain ⟨hstatus, huop, hslot⟩ := hrob p
  obtain ⟨hst, hw⟩ := h r p (hrst ▸ hr)
  refine ⟨by rw [hstatus]; exact hst, ?_⟩
  unfold State.Writes at hw ⊢
  rw [huop]
  cases r with
  | reg g => simpa only [writesSlot, hslot] using hw
  | flag f => exact hw

theorem endCycle_names {s : State} (h : s.NamesWriters) : (endCycle s).NamesWriters := by
  rcases endCycle_cases s with he | he <;> rw [he] <;> exact h

/-- A producer that `RST` names after the commit of the head entry is another one, named before, and its entry is as it was (R214, R216,
R219, R232). -/
theorem names_of_retire {s w y : State} {tr : TraceRecord} (hnames : s.NamesWriters) (hw : ArchWrite s w)
    (hy : Resolution w y) : (y.emitTrace tr).releaseHead.NamesWriters := by
  intro r p hr
  obtain ⟨hwr, hat⟩ := hy.rst (p := p) hr
  obtain ⟨hsr, hhead⟩ := hw.rst r p hwr
  obtain ⟨hst, hwrites⟩ := hnames r p hsr
  have hyh : y.head = s.head := hy.head_eq.trans (by rw [hw.frame])
  have hsame : (y.emitTrace tr).releaseHead.robAt p = s.robAt p := by
    have hne : y.head ≠ p := fun he => hhead (he.symm.trans hyh) hwrites
    have hrel : (y.emitTrace tr).releaseHead.robAt p = y.robAt p := by
      show (y.rob.set y.head _).getD p RobEntry.free = y.rob.getD p RobEntry.free
      simp [List.getD, List.getElem?_set_ne hne]
    rw [hrel, hat, hw.frame]
    rfl
  unfold State.Writes at hwrites ⊢
  rw [hsame]
  exact ⟨hst, hwrites⟩

/-- A commit that does not halt keeps what `RST` names (R210). -/
theorem CommitOutcome.names {s u : State} (h : CommitOutcome s u) (hs : s.NamesWriters) : u.halted = true ∨ u.NamesWriters := by
  cases h with
  | halt => exact .inl rfl
  | retire w y tr _ hw hy => exact .inr (names_of_retire hs hw hy)
  | _ => exact .inr hs

/-- The later moves keep it: issue claims slots for the entry it allocates, and no other move writes `RST` or frees an entry (R149). -/
theorem lateMove_names {s t : State} (hm : LateMove s t) (hfifo : s.Fifo) (h : s.NamesWriters) : t.NamesWriters := by
  cases hm.update with
  | broadcast i r rest rs =>
    obtain ⟨_, huop, hstatus, hslot⟩ := (s.robAt r.p).receive_keeps r
    exact h.congr rfl fun k => ⟨State.robAt_setRob_keeps (·.status) s r.p k _ hstatus,
      State.robAt_setRob_keeps (·.uop) s r.p k _ huop, State.robAt_setRob_keeps (·.dest.slot) s r.p k _ hslot⟩
  | store c j v r n =>
    exact h.congr rfl fun k => ⟨State.robAt_setRob_keeps (·.status) s r.p k _ rfl,
      State.robAt_setRob_keeps (·.uop) s r.p k _ rfl, State.robAt_setRob_keeps (·.dest.slot) s r.p k _ rfl⟩
  | allocate i e rest j _ hd hfull =>
    intro r p hr
    have hat := fun e => State.robAt_setRob s s.tail p e (by rw [hfifo.size]; exact hfifo.tail_lt)
    have hr' : (s.rst.claim i.profile.dest i.profile.fw s.tail).get r = some p := hr
    rw [Rst.get_claim] at hr'
    unfold State.Writes
    have hrob : (s.allocate i.profile e rest j).robAt p = if p = s.tail then _ else s.robAt p := hat _
    rw [hrob]
    split at hr'
    · next hw =>
      cases hr'
      rw [if_pos rfl]
      exact ⟨by simp, by rw [← fw_of_decode hd, ← i.profile_fw]; exact hw⟩
    · obtain ⟨hst, hw⟩ := h r p hr'
      have hne : p ≠ s.tail := by
        rintro rfl
        exact hst (tail_free hfifo hfull).1
      rw [if_neg hne]
      exact ⟨hst, hw⟩
  | _ => exact h

/-- Only the commit of a halt leaves a slot of `RST` that names the released head (R213). -/
theorem step_rstInv {s t : State} (hfifo : s.Fifo) (hs : s.halted = true ∨ s.RstInv) (h : step s = .next t) :
    t.halted = true ∨ t.RstInv := by
  have hs' : s.halted = true ∨ s.NamesWriters := hs.imp_right (rstInv_iff hfifo).mp
  have ht : t.Fifo ∧ (t.halted = true ∨ t.NamesWriters) := by
    rcases step_cases h with ⟨_, rfl⟩ | ⟨hrun, u, v, hu, hv, rfl, _⟩
    · exact ⟨hfifo, hs'⟩
    · have hnames : s.NamesWriters := hs'.resolve_left (by simp [State.terminal] at hrun; simp [hrun])
      have hlate : v.Fifo ∧ (v.halted = true ∨ v.NamesWriters) :=
        hv.keeps (P := fun v => v.Fifo ∧ (v.halted = true ∨ v.NamesWriters))
          (fun a b hm ⟨hf, ha⟩ => ⟨lateMove_fifo hm hf, ha.imp (hm.update.sameCommitted.halted.trans ·) (lateMove_names hm hf)⟩)
          ⟨commitStage_fifo hu hfifo, (commitStage_outcome hu).names hnames⟩
      exact ⟨endCycle_fifo hlate.1, hlate.2.imp ((endCycle_sameCommitted v).halted.trans ·) endCycle_names⟩
  exact ht.2.imp_right (rstInv_iff ht.1).mpr

end Sys2Proof.Machine
end

section
/-! PROOFS. Renaming over a whole step (R51, R147): the invariant of the producers stage by stage (`laterStages_flow`), that of the youngest
writers move by move (`step_youngest`), and the result of a ready entry, which no stage writes again (`KeepsResults`). -/

namespace Sys2Proof.Machine

/-- An entry that is ready in both states has the same value and the same flags in both. -/
def KeepsResults (s t : State) : Prop := ∀ p, (s.robAt p).ready = true → (t.robAt p).ready = true →
  (t.robAt p).value = (s.robAt p).value ∧ (t.robAt p).flags = (s.robAt p).flags

theorem KeepsReady.keepsResults {s t : State} (h : KeepsReady s t) : KeepsResults s t := fun p hp _ => (h p hp).2

theorem KeepsReady.trans_keepsResults {s t u : State} (h : KeepsReady s t) (k : KeepsResults t u) : KeepsResults s u := by
  intro p hs hu
  obtain ⟨ht, hvalue, hflags⟩ := h p hs
  obtain ⟨hvalue', hflags'⟩ := k p ht hu
  exact ⟨hvalue'.trans hvalue, hflags'.trans hflags⟩

theorem KeepsResults.of_rob {s t u : State} (h : KeepsResults s t) (hrob : u.rob = t.rob) : KeepsResults s u := by
  intro p hs hu
  have hat : u.robAt p = t.robAt p := by unfold State.robAt; rw [hrob]
  rw [hat] at hu ⊢
  exact h p hs hu

/-- The back end is as it was, but for a fatal: all that the invariant of the producers reads. -/
structure SameBackEnd (s t : State) : Prop where
  rob : t.rob = s.rob
  rs : t.rs = s.rs
  rst : t.rst = s.rst
  lq : t.lq = s.lq
  records : t.records = s.records
  cfg : t.cfg = s.cfg
  head : t.head = s.head
  fatal : t.fatal = none → s.fatal = none

theorem SameBackEnd.flow {s t : State} (h : SameBackEnd s t) (hs : s.Flow) : t.Flow :=
  flow_congr hs (.of_rob h.rob) h.rs h.rst h.lq (h.records ▸ .refl _) h.cfg h.head h.fatal

/-- Every arm writes the front end, or a fatal (R128 to R134). -/
theorem decodeStage_sameBackEnd {s t : State} (ht : decodeStage s = .next t) : SameBackEnd s t := by
  unfold decodeStage at ht
  repeat' split at ht
  all_goals
    cases ht
    exact ⟨rfl, rfl, rfl, rfl, rfl, rfl, rfl, by simp⟩

/-- Every arm writes the front end, or a fatal (R123 to R127). -/
theorem fetchStage_sameBackEnd {s t : State} (ht : fetchStage s = .next t) : SameBackEnd s t := by
  unfold fetchStage at ht
  repeat' split at ht
  all_goals
    cases ht
    exact ⟨rfl, rfl, rfl, rfl, rfl, rfl, rfl, by simp⟩

theorem endCycle_sameBackEnd (s : State) : SameBackEnd s (endCycle s) := by
  rcases endCycle_cases s with h | h <;> rw [h] <;> exact ⟨rfl, rfl, rfl, rfl, rfl, rfl, rfl, id⟩

/-! The stages that move what is in flight. -/

/-- Writeback (R190): the countdown only moves records from `DLY` to `CQ`; then come the broadcasts. -/
theorem writebackStage_flow {s t : State} (h : s.Flow) (hdead : s.fatal = none) (ht : writebackStage s = .next t) :
    t.Flow ∧ KeepsReady s t := by
  have haged : s.ageDelays.Flow :=
    flow_congr h (.of_rob rfl) rfl rfl rfl (completed_perm s.dly s.cq) rfl rfl id
  have hcount : KeepsReady s s.ageDelays := .of_rob rfl
  exact ⟨drain_flow _ haged hdead ht, hcount.trans (drain_keepsReady _ haged hdead ht)⟩

theorem lqScan_flow {s t : State} (h : s.Flow) (hdead : s.fatal = none) (ht : lqScan s = .next t) : t.Flow ∧ KeepsReady s t :=
  ⟨scanLoads_flow s.lq 0 [] h hdead h.lq ht, .of_rob (scanLoads_rob s.lq 0 [] ht)⟩

theorem selectClass_flow (c : FuClass) {s t : State} (h : s.Flow) (ht : selectClass c s = .next t) : t.Flow ∧ KeepsReady s t :=
  have hready : ∀ j ∈ s.candidates c, (s.rsAt c j).isReady = true := fun _ hj => (mem_candidates.mp hj).2
  ⟨startEntries_flow c _ 0 h (candidates_nodup s c) hready ht, startEntries_keepsReady c _ 0 h (candidates_nodup s c) hready ht⟩

/-- Two stages in a row that keep the invariant and the ready entries. -/
theorem andThen_flow {s t : State} {o : StepOutcome} {f : State → StepOutcome}
    (ho : ∀ u, o = .next u → u.Flow ∧ KeepsReady s u)
    (hf : ∀ u v, u.Flow → u.fatal = none → f u = .next v → v.Flow ∧ KeepsReady u v) (ht : andThen o f = .next t) :
    t.Flow ∧ KeepsReady s t :=
  andThen_keeps (P := fun u => u.Flow ∧ KeepsReady s u) ht ho fun u _ ⟨hflow, hkeep⟩ hdead hu =>
    ⟨(hf u t hflow hdead hu).1, hkeep.trans (hf u t hflow hdead hu).2⟩

/-- The execute stage (R160): the scan of the load queue, then the four classes. -/
theorem executeStage_flow {s t : State} (h : s.Flow) (hdead : s.fatal = none) (ht : executeStage s = .next t) :
    t.Flow ∧ KeepsReady s t := by
  have select : ∀ c u v, State.Flow u → u.fatal = none → selectClass c u = .next v → v.Flow ∧ KeepsReady u v :=
    fun c _ _ hu _ hv => selectClass_flow c hu hv
  have scan : ∀ u, lqScan s = .next u → u.Flow ∧ KeepsReady s u := fun _ hu => lqScan_flow h hdead hu
  exact andThen_flow (fun _ => andThen_flow (fun _ => andThen_flow (fun _ => andThen_flow scan (select .alu)) (select .mul))
    (select .ls)) (select .ctrl) ht

/-- Writeback and execute, with the FIFO range that issue needs. -/
theorem writebackExecute_flow {s t : State} (hfifo : s.Fifo) (h : s.Flow) (hdead : s.fatal = none)
    (ht : andThen (writebackStage s) executeStage = .next t) : t.Fifo ∧ t.Flow ∧ KeepsReady s t :=
  have hmoves : LateMoves s t := reaches_andThen (writeback_moves s) (fun u _ => execute_moves u) t ht
  ⟨hmoves.keeps (fun _ _ hm hs => lateMove_fifo hm hs) hfifo,
    andThen_flow (fun _ => writebackStage_flow h hdead) (fun _ _ => executeStage_flow) ht⟩

/-- The five stages after commit: until issue every ready entry stays as it is; issue may give its slot to a new entry, which is not
ready; decode and fetch leave the back end alone. -/
theorem laterStages_flow {s t : State} (hfifo : s.Fifo) (h : s.Flow) (hdead : s.fatal = none) (ht : laterStages s = .next t) :
    t.Flow ∧ KeepsResults s t := by
  have issued : ∀ u, andThen (andThen (writebackStage s) executeStage) issueStage = .next u → u.Flow ∧ KeepsResults s u := by
    intro u hu
    refine andThen_keeps (P := fun u => u.Flow ∧ KeepsResults s u) hu (fun v hv => ?_) (fun v hv _ _ hi => ?_) <;>
      obtain ⟨hvfifo, hvflow, hkeep⟩ := writebackExecute_flow hfifo h hdead hv
    · exact ⟨hvflow, hkeep.keepsResults⟩
    · exact ⟨issue_flow hvfifo hvflow hi, hkeep.trans_keepsResults (issue_final hvfifo hi)⟩
  have frontEnd : ∀ u v, SameBackEnd u v → u.Flow ∧ KeepsResults s u → v.Flow ∧ KeepsResults s v :=
    fun _ _ hsame ⟨hflow, hkeep⟩ => ⟨hsame.flow hflow, hkeep.of_rob hsame.rob⟩
  exact andThen_keeps ht
    (fun u hu => andThen_keeps hu issued (fun v _ hv _ hd => frontEnd v u (decodeStage_sameBackEnd hd) hv))
    (fun v _ hv _ hd => frontEnd v t (fetchStage_sameBackEnd hd) hv)

/-! The whole step. -/

/-- `step_cases` with the later stages in their order (R110): they run after a commit that neither halts nor ends with a fatal. -/
theorem step_stages {s t : State} (h : step s = .next t) :
    t = s ∨ ∃ u v, commitStage s = .next u ∧ (v = u ∨ (u.fatal = none ∧ laterStages u = .next v)) ∧ t = endCycle v := by
  unfold step at h
  split at h
  · cases h; exact .inl rfl
  · cases hc : cycleStages s with
    | fault r => simp [hc] at h
    | refused r => simp [hc] at h
    | next v =>
      rw [hc] at h
      cases h
      obtain ⟨u, hu, huv⟩ : ∃ u, commitStage s = .next u ∧ (v = u ∨ (u.fatal = none ∧ laterStages u = .next v)) := by
        refine andThen_keeps
          (P := fun v => ∃ u, commitStage s = .next u ∧ (v = u ∨ (u.fatal = none ∧ laterStages u = .next v))) hc
          (fun u hu => ⟨u, hu, .inl rfl⟩) (fun u hu _ hdead hl => ?_)
        split at hl
        · cases hl; exact ⟨_, hu, .inl rfl⟩
        · exact ⟨u, hu, .inr ⟨hdead, hl⟩⟩
      exact .inr ⟨u, v, hu, huv, rfl⟩

theorem step_flow {s t : State} (hfifo : s.Fifo) (hs : s.Flow) (h : step s = .next t) : t.Flow ∧ KeepsResults s t := by
  rcases step_stages h with rfl | ⟨u, v, hu, huv, rfl⟩
  · exact ⟨hs, fun _ _ _ => ⟨rfl, rfl⟩⟩
  · have huflow : u.Flow := commitStage_flow hfifo hs hu
    have hcommit : KeepsReady s u := commitStage_keepsReady hu
    have hv : v.Flow ∧ KeepsResults s v := by
      rcases huv with rfl | ⟨hdead, hl⟩
      · exact ⟨huflow, hcommit.keepsResults⟩
      · obtain ⟨hvflow, hkeep⟩ := laterStages_flow (commitStage_fifo hu hfifo) huflow hdead hl
        exact ⟨hvflow, hcommit.trans_keepsResults hkeep⟩
    have hsame := endCycle_sameBackEnd v
    exact ⟨hsame.flow hv.1, hv.2.of_rob hsame.rob⟩

theorem step_youngest {s t : State} (hfifo : s.Fifo) (hflow : s.Flow) (hs : s.Youngest) (h : step s = .next t) : t.Youngest := by
  rcases step_cases h with ⟨_, rfl⟩ | ⟨_, u, v, hu, hv, rfl, _⟩
  · exact hs
  · have hlate : v.Fifo ∧ v.Youngest := hv.keeps (P := fun v => v.Fifo ∧ v.Youngest)
      (fun _ _ hm ⟨hf, hy⟩ => ⟨lateMove_fifo hm hf, lateMove_youngest hm hf hy⟩)
      ⟨commitStage_fifo hu hfifo, commitStage_youngest hfifo hflow hs hu⟩
    have hsame := endCycle_sameBackEnd v
    exact youngest_same hlate.2 hsame.rob hsame.rs hsame.rst hsame.cfg hsame.head

/-- Settles O52: the first part by `State.NamesWriters` from the FIFO range, the second by the invariants `State.Flow` and
`State.Youngest`, which under that range say what the items of R51 and R147 say. -/
theorem stepKeepsRenaming : Obligations.StepKeepsRenaming := by
  refine ⟨fun s t hfifo hs h => step_rstInv hfifo hs h, fun s t hfifo hcoherent htracked h => ?_⟩
  have hflow : s.Flow := (flow_iff hfifo).mpr ⟨hcoherent, htracked⟩
  have hfifo' : t.Fifo := stepKeepsFifo s t hfifo h
  obtain ⟨hflow', hresults⟩ := step_flow hfifo hflow h
  obtain ⟨hcoherent', htracked'⟩ := (flow_iff hfifo').mp hflow'
  refine ⟨hcoherent', htracked', fun hrenamed => ?_, hresults⟩
  exact (youngest_iff hfifo' hcoherent').mp (step_youngest hfifo hflow ((youngest_iff hfifo hcoherent).mpr hrenamed) h)

end Sys2Proof.Machine
end

section
/-! PROOFS. The machine with nothing in flight, as reset leaves it (R52, R320). -/

namespace Sys2Proof.Machine

/-- Nothing is in flight in the back end: no slot of the ROB and no station is in use, no slot of `RST` names a producer, and the queues
between the stations and the bus are empty. -/
structure State.Vacant (s : State) : Prop where
  rst : ∀ r, s.rst.get r = none
  rob : ∀ p, (s.robAt p).status = .empty
  rs : ∀ c j, (s.rsAt c j).busy = false
  lq : s.lq = []
  dly : s.dly = []
  cq : s.cq = []

/-- With nothing in flight there is nothing that names a producer. -/
theorem State.Vacant.flow {s : State} (h : s.Vacant) : s.Flow := by
  have hrec : s.records = [] := by simp [State.records, h.dly, h.cq]
  refine ⟨fun r p hr => ?_, fun c j p r hb => ?_, fun c j hb => ?_, fun c d j k hb => ?_, by simp [h.lq], by simp [hrec],
    by simp [hrec], fun p hp => absurd (h.rob p) hp, fun _ => by simp [h.lq]⟩
  · rw [h.rst] at hr; cases hr
  · rw [h.rs] at hb; cases hb
  · rw [h.rs] at hb; cases hb
  · rw [h.rs] at hb; cases hb

theorem State.Vacant.youngest {s : State} (h : s.Vacant) : s.Youngest := youngest_empty h.rob h.rs

theorem reset_robAt (p : Nat) : State.reset.robAt p = RobEntry.free := by
  unfold State.robAt State.reset
  simp

theorem reset_mem_rob {e : RobEntry} (h : e ∈ State.reset.rob) : e = RobEntry.free := List.eq_of_mem_replicate h

theorem reset_mem_rs {c : FuClass} {e : RsEntry} (h : e ∈ State.reset.rs.get c) : e = RsEntry.free := by
  unfold State.reset at h
  rw [PerClass.get_map] at h
  exact List.eq_of_mem_replicate h

theorem reset_rsAt (c : FuClass) (j : Nat) : State.reset.rsAt c j = RsEntry.free := by
  unfold State.rsAt State.reset
  simp

theorem reset_vacant : State.reset.Vacant :=
  ⟨fun r => Rst.get_empty r, fun p => by rw [reset_robAt]; rfl, fun c j => by rw [reset_rsAt]; rfl, rfl, rfl, rfl⟩

theorem reset_fifo : State.reset.Fifo := by
  refine ⟨by decide, by decide, by decide, by decide, fun i _ => ?_⟩
  have hcount : State.reset.robCount = 0 := by decide
  rw [reset_robAt]
  simp [RobEntry.free, State.occupied, hcount]

theorem reset_inFlight : State.reset.InFlight := by
  refine ⟨by decide, by decide, fun e he hst => ?_, fun c e he hb => ?_, ?_, ?_, ?_⟩
  · rw [reset_mem_rob he] at hst
    exact absurd rfl hst
  · rw [reset_mem_rs he] at hb
    cases hb
  all_goals
    intro x hx
    cases hx

theorem reset_storeOk : ∀ e ∈ State.reset.rob, e.StoreOk := fun _ he => reset_mem_rob he ▸ .free

theorem reset_reg15Idle : State.reset.Reg15Idle :=
  ⟨Rst.get_empty _, fun _ he => by rw [reset_mem_rob he]; simp [RobEntry.free, Dest.slot]⟩

theorem reset_bounded : State.reset.Bounded := ⟨Nat.zero_le _, Nat.zero_le _, Nat.zero_le _, Nat.zero_le _⟩

/-- Settles O53: the reset state holds nothing in flight, so every invariant that speaks of something in flight holds of it. -/
theorem resetInvariants : Obligations.ResetInvariants := by
  obtain ⟨hcoherent, htracked⟩ := (flow_iff reset_fifo).mp reset_vacant.flow
  obtain ⟨hstore, hstatus⟩ := storeOk_iff.mp reset_storeOk
  exact ⟨launchMem_wf, reset_fifo, reset_inFlight, reset_reg15Idle, reset_bounded, hstore, hstatus, hcoherent.rst, hcoherent,
    htracked, (youngest_iff reset_fifo hcoherent).mp reset_vacant.youngest⟩

/-- Settles O54: the host's reset marks every ROB slot empty and every station free, one by one; the rest is set outright. -/
theorem hostResetTable : Obligations.HostResetTable := by
  intro s
  have hrob : ∀ e ∈ s.hostReset.rob, e.status = .empty := by
    intro e he
    obtain ⟨x, _, rfl⟩ := List.mem_map.mp he
    rfl
  have hrs : ∀ c, ∀ e ∈ s.hostReset.rs.get c, e.busy = false := by
    intro c e he
    have hmap : s.hostReset.rs.get c = (s.rs.get c).map (fun e => { e with busy := false }) := PerClass.get_map _ _ c
    rw [hmap] at he
    obtain ⟨x, _, rfl⟩ := List.mem_map.mp he
    rfl
  exact ⟨rfl, rfl, rfl, Rst.get_empty, hrob, rfl, rfl, hrs, rfl, rfl, rfl, rfl, rfl, rfl, rfl, rfl, rfl, rfl, rfl, rfl⟩

end Sys2Proof.Machine
end

section
/-! PROOFS. The memory collaborator (R60, R61, R64, R66 to R68): when an access is refused, and its bytes in address order
(`Memory.accessBytes`), which a read joins and a write splits; byte `k` of the access stands at bit `byteShift` of the integer. -/

namespace Sys2Proof.Machine

/-! When an access is refused. -/

theorem misaligned_iff {cfg : Cfg} {a : Word} {n : Nat} :
    misaligned cfg a n = true ↔ cfg.memAligned = true ∧ a.toNat % n ≠ 0 := by
  simp [misaligned]

/-- The access runs past the last address, or one of its bytes is not acceptable (R67, R68). -/
theorem accessAddresses_eq_none {cfg : Cfg} {ok : Nat → Bool} {a : Word} {n : Nat} (h0 : 0 < n) (hn : n ≤ 4294967296) :
    accessAddresses cfg ok a n = none ↔ (4294967296 < a.toNat + n ∧ cfg.memWraps = false)
      ∨ ∃ k, k < n ∧ ok ((a.toNat + k) % 4294967296) = false := by
  rw [← Option.not_isSome_iff_eq_none, accessAddresses_isSome hn]
  constructor
  · intro h
    push Not at h
    obtain ⟨k, hk, hbad⟩ := h
    by_cases hin : a.toNat + k < 4294967296 ∨ cfg.memWraps = true
    · exact .inr ⟨k, hk, Bool.eq_false_of_not_eq_true (hbad hin)⟩
    · push Not at hin
      exact .inl ⟨by omega, Bool.eq_false_of_not_eq_true hin.2⟩
  · rintro (⟨hpast, hwrap⟩ | ⟨k, hk, hbad⟩) hall
    · -- the byte that runs past, if any does, is the last one
      rcases (hall (n - 1) (by omega)).1 with hlt | hw
      · omega
      · exact Bool.false_ne_true (hwrap.symm.trans hw)
    · exact Bool.false_ne_true (hbad.symm.trans (hall k hk).2)

/-- What makes a read or a write fail: the alignment, the end of the address space, or a byte (R66, R67, R68). -/
theorem access_refused_iff {cfg : Cfg} {ok : Nat → Bool} {a : Word} {n : Nat} (h0 : 0 < n) (hn : n ≤ 4294967296) :
    misaligned cfg a n = true ∨ accessAddresses cfg ok a n = none ↔
      (cfg.memAligned = true ∧ a.toNat % n ≠ 0) ∨ (4294967296 < a.toNat + n ∧ cfg.memWraps = false)
        ∨ ∃ k, k < n ∧ ok ((a.toNat + k) % 4294967296) = false :=
  or_congr misaligned_iff (accessAddresses_eq_none h0 hn)

theorem memRead_eq_none {s : State} {a : Word} {n : Nat} :
    s.memRead a n = none ↔ misaligned s.cfg a n = true ∨ accessAddresses s.cfg s.mem.readable a n = none := by
  unfold State.memRead
  split
  · next hm => simp [hm]
  · next hm => cases accessAddresses s.cfg s.mem.readable a n <;> simp [hm]

theorem memWrite_eq_none {s : State} {a : Word} {n : Nat} {v : Word} :
    s.memWrite a n v = none ↔ misaligned s.cfg a n = true ∨ accessAddresses s.cfg s.mem.writable a n = none := by
  unfold State.memWrite
  split
  · next hm => simp [hm]
  · next hm => cases accessAddresses s.cfg s.mem.writable a n <;> simp [hm]

/-! Byte order (R64). -/

/-- The bit of an integer of `n` bytes at which byte `k` of the access begins (R64). -/
def byteShift (o : ByteOrder) (n k : Nat) : Nat :=
  match o with
  | .little => 8 * k
  | .big => 8 * (n - 1 - k)

theorem joinBytes_byte (o : ByteOrder) {bs : List Byte} {n : Nat} (hlen : bs.length = n) (h : n ≤ 4) {k : Nat} (hk : k < bs.length) :
    (joinBytes o bs >>> byteShift o n k).setWidth 8 = bs[k] := by
  subst hlen
  cases o with
  | little => exact joinLittle_get bs h hk
  | big =>
    have hrev := joinLittle_get bs.reverse (by simpa using h) (k := bs.length - 1 - k) (by rw [List.length_reverse]; omega)
    rw [List.getElem_reverse] at hrev
    simp only [show bs.length - 1 - (bs.length - 1 - k) = k by omega] at hrev
    exact hrev

theorem splitBytes_length (o : ByteOrder) (n : Nat) (v : Word) : (splitBytes o n v).length = n := by
  cases o with
  | little => exact splitLittle_length n v
  | big => exact List.length_reverse.trans (splitLittle_length n v)

theorem splitBytes_byte (o : ByteOrder) {n k : Nat} (v : Word) (h : k < n) :
    (splitBytes o n v)[k]'(by rw [splitBytes_length]; exact h) = (v >>> byteShift o n k).setWidth 8 := by
  cases o with
  | little => exact splitLittle_get n v h
  | big =>
    have hrev : (splitLittle n v).reverse[k]'(by simpa [splitLittle_length] using h) = (v >>> (8 * (n - 1 - k))).setWidth 8 := by
      simp only [List.getElem_reverse, splitLittle_length]
      exact splitLittle_get n v (by omega)
    exact hrev

/-- Joining what was split gives the word back, if it fits, in either order. -/
theorem joinBytes_splitBytes (o : ByteOrder) {n : Nat} (hn : n ≤ 4) {v : Word} (h : v.toNat < 2 ^ (8 * n)) :
    joinBytes o (splitBytes o n v) = v := by
  cases o with
  | little => exact joinLittle_splitLittle n hn v h
  | big =>
    show joinLittle (splitLittle n v).reverse.reverse = v
    rw [List.reverse_reverse, joinLittle_splitLittle n hn v h]

/-! The bytes of an access. -/

/-- The `n` bytes from `a` on, modulo 2^32, in address order. -/
def Memory.accessBytes (m : Memory) (a : Word) (n : Nat) : List Byte :=
  (List.range n).map (fun k => m.byteAt ((a.toNat + k) % 4294967296))

@[simp] theorem Memory.accessBytes_length (m : Memory) (a : Word) (n : Nat) : (m.accessBytes a n).length = n := by
  simp [Memory.accessBytes]

theorem Memory.accessBytes_get (m : Memory) (a : Word) {n k : Nat} (h : k < n) :
    (m.accessBytes a n)[k]'(by simpa using h) = m.byteAt ((a.toNat + k) % 4294967296) := by
  simp [Memory.accessBytes]

theorem Memory.accessBytes_eq {cfg : Cfg} {ok : Nat → Bool} {a : Word} {n : Nat} {l : List Nat} (m : Memory)
    (hn : n ≤ 4294967296) (h : accessAddresses cfg ok a n = some l) : l.map m.byteAt = m.accessBytes a n := by
  rw [(accessAddresses_eq hn h).1, List.map_map]
  rfl

/-- A read that is not refused joins the bytes of the access (R60). -/
theorem memRead_eq_some {s : State} {a : Word} {n : Nat} {l : List Nat} (hn : n ≤ 4294967296)
    (hm : misaligned s.cfg a n = false) (hl : accessAddresses s.cfg s.mem.readable a n = some l) :
    s.memRead a n = some (joinBytes s.cfg.byteOrder (s.mem.accessBytes a n)) := by
  simp [State.memRead, hm, hl, s.mem.accessBytes_eq hn hl]

/-- What a successful read answers (R60). -/
theorem eq_joinBytes_of_memRead {s : State} {a : Word} {n : Nat} {m : Word} (hn : n ≤ 4294967296)
    (h : s.memRead a n = some m) : m = joinBytes s.cfg.byteOrder (s.mem.accessBytes a n) := by
  have hok : ¬ (misaligned s.cfg a n = true ∨ accessAddresses s.cfg s.mem.readable a n = none) := by
    rw [← memRead_eq_none, h]
    simp
  push Not at hok
  obtain ⟨hm, hl⟩ := hok
  obtain ⟨l, hl⟩ := Option.ne_none_iff_exists'.mp hl
  rw [memRead_eq_some hn (Bool.eq_false_of_not_eq_true hm) hl] at h
  exact (Option.some.inj h).symm

/-- What a successful write leaves at the addresses of the access (R61). -/
theorem accessBytes_of_memWrite {s : State} {a : Word} {n : Nat} {v : Word} {m : Memory} (hn : n ≤ 4294967296)
    (hs : s.mem.wf = true) (h : s.memWrite a n v = some m) : m.accessBytes a n = splitBytes s.cfg.byteOrder n v := by
  obtain ⟨_, l, hl, rfl⟩ := memWrite_cases h
  have hlen : l.length = n := by rw [(accessAddresses_eq hn hl).1]; simp
  rw [← Memory.accessBytes_eq _ hn hl]
  exact readCells_writeAll hs (accessAddresses_nodup hn hl) (by rw [hlen, splitBytes_length])

/-! The statements. -/

/-- Settles O21: a read fails as every access does, and joins the bytes of the access, each at its bit by the byte order. -/
theorem memReadBytes : Obligations.MemReadBytes := by
  intro s a n hn
  refine ⟨memRead_eq_none.trans (access_refused_iff (by omega) (by omega)), fun m hm => ⟨memRead_lt (by omega) hm, fun k hk => ?_⟩⟩
  calc s.mem.byteAt ((a.toNat + k) % 4294967296)
      = (s.mem.accessBytes a n)[k]'(by simpa using hk) := (s.mem.accessBytes_get a hk).symm
    _ = (joinBytes s.cfg.byteOrder (s.mem.accessBytes a n) >>> byteShift s.cfg.byteOrder n k).setWidth 8 :=
      (joinBytes_byte _ (s.mem.accessBytes_length a n) (by omega) _).symm
    _ = (m >>> byteShift s.cfg.byteOrder n k).setWidth 8 := by rw [← eq_joinBytes_of_memRead (by omega) hm]
    _ = _ := by cases s.cfg.byteOrder <;> rfl

/-- Settles O22: a write fails as every access does; the bytes of the access become those the value splits into, and
`memWrite_frame` keeps the others. -/
theorem memWriteBytes : Obligations.MemWriteBytes := by
  intro s a n v hn hs
  refine ⟨memWrite_eq_none.trans (access_refused_iff (by omega) (by omega)),
    fun m hm => ⟨(memWrite_wf hm hs).2, fun k hk => ?_, fun x hx => memWrite_frame (by omega) hm hs hx⟩⟩
  have hbytes := accessBytes_of_memWrite (by omega) hs hm
  calc m.byteAt ((a.toNat + k) % 4294967296)
      = (m.accessBytes a n)[k]'(by simpa using hk) := (m.accessBytes_get a hk).symm
    _ = (splitBytes s.cfg.byteOrder n v)[k]'(by rw [splitBytes_length]; exact hk) := by simp only [hbytes]
    _ = (v >>> byteShift s.cfg.byteOrder n k).setWidth 8 := splitBytes_byte _ v hk
    _ = _ := by cases s.cfg.byteOrder <;> rfl

/-- Settles O23: what is writable is readable, in the same regions, so the read is not refused; it joins what the write split. -/
theorem readAfterWrite : Obligations.ReadAfterWrite := by
  intro s a n v m hn hv hs hm
  have hbytes := accessBytes_of_memWrite (by omega) hs hm
  obtain ⟨hal, l, hl, hcells⟩ := memWrite_cases hm
  have hread : accessAddresses s.cfg m.readable a n = some l := by
    rw [hcells]
    exact accessAddresses_mono (fun b => Memory.readable_of_writable) hl
  rw [memRead_eq_some (s := { s with mem := m }) (by omega) hal hread, hbytes, joinBytes_splitBytes _ (by omega) hv]

end Sys2Proof.Machine
end

section
/-! PROOFS. The load-queue scan (R175): what it keeps of the loads it looks at (`State.Sifts`). -/

namespace Sys2Proof.Machine

/-- `kept` is what a scan may keep of `loads` in `s` when `free` ports are left: in the same order, with every load that may not go,
and short of at most `free` loads (R71, R175). -/
structure State.Sifts (s : State) (free : Nat) (loads kept : List LqEntry) : Prop where
  order : kept.Sublist loads
  blocked : ∀ l ∈ loads, s.mayIssue l = false → l ∈ kept
  ports : loads.length ≤ kept.length + free

theorem State.Sifts.nil (s : State) (free : Nat) : s.Sifts free [] [] :=
  ⟨.refl _, fun _ hl => absurd hl List.not_mem_nil, Nat.zero_le _⟩

/-- A load that stays. -/
theorem State.Sifts.keep {s : State} {free : Nat} {loads kept : List LqEntry} (h : s.Sifts free loads kept) (l : LqEntry) :
    s.Sifts free (l :: loads) (l :: kept) := by
  refine ⟨h.order.cons_cons l, fun x hx hb => ?_, ?_⟩
  · rcases List.mem_cons.mp hx with rfl | hx
    · exact List.mem_cons_self
    · exact List.mem_cons_of_mem l (h.blocked x hx hb)
  · have := h.ports
    simp only [List.length_cons]
    omega

/-- A load that may go, and goes, takes a port. -/
theorem State.Sifts.release {s : State} {free : Nat} {loads kept : List LqEntry} {l : LqEntry} (h : s.Sifts free loads kept)
    (hl : s.mayIssue l = true) : s.Sifts (free + 1) (l :: loads) kept := by
  refine ⟨h.order.cons l, fun x hx hb => ?_, ?_⟩
  · rcases List.mem_cons.mp hx with rfl | hx
    · rw [hl] at hb
      cases hb
    · exact h.blocked x hx hb
  · have := h.ports
    simp only [List.length_cons]
    omega

/-- A memory access that the scan survives changes the delay list only (R177), so the rest of the queue is scanned with the same ROB,
configuration and load queue. -/
theorem scan_after_access {s t : State} {l : LqEntry} {f : State → StepOutcome}
    (h : andThen (execRecord (s.robAt l.dest).uop (.access l) s) f = .next t) (ht : t.fatal = none) :
    ∃ d fatal, f { s.doing (.access l) with dly := d, fatal := fatal } = .next t := by
  cases hd : decode (s.robAt l.dest).uop with
  | error r => simp [execRecord, hd, andThen] at h
  | ok i =>
    obtain ⟨d, fatal, hm⟩ := memAccess_frame l (s.doing (.access l))
    have hpassage : (s.doing (.access l)).passage i.profile = { s.doing (.access l) with dly := d, fatal := fatal } := hm
    rw [execRecord_ok hd, hpassage] at h
    simp only [andThen] at h
    split at h
    · next hfatal =>
      cases h
      have hnone : fatal = none := ht
      rw [hnone] at hfatal
      cases hfatal
    · exact ⟨d, fatal, h⟩

/-- The scan appends to the loads kept so far what it keeps of those it still looks at. -/
theorem scanLoads_sifts (ls : List LqEntry) (n : Nat) (keep : List LqEntry) {s t : State}
    (h : scanLoads ls n keep s = .next t) (ht : t.fatal = none) :
    ∃ kept, t.lq = keep ++ kept ∧ s.Sifts (s.cfg.memPorts - n) ls kept := by
  induction ls generalizing n keep s with
  | nil =>
    cases h
    exact ⟨[], (List.append_nil keep).symm, .nil s _⟩
  | cons l rest ih =>
    unfold scanLoads at h
    split at h
    · next hgo =>
      obtain ⟨d, fatal, hrest⟩ := scan_after_access h ht
      obtain ⟨kept, hlq, hsifts⟩ := ih (n + 1) keep hrest
      have hsifts : s.Sifts (s.cfg.memPorts - (n + 1)) rest kept := ⟨hsifts.order, hsifts.blocked, hsifts.ports⟩
      have hport : s.cfg.memPorts - (n + 1) + 1 = s.cfg.memPorts - n := by omega
      exact ⟨kept, hlq, hport ▸ hsifts.release hgo.2⟩
    · obtain ⟨kept, hlq, hsifts⟩ := ih n (keep ++ [l]) h
      exact ⟨l :: kept, by simpa using hlq, hsifts.keep l⟩

/-- Settles O19: the scan starts with all ports free and nothing kept. -/
theorem scanHoldsBlockedLoads : Obligations.ScanHoldsBlockedLoads := by
  intro s t h ht
  obtain ⟨kept, hlq, horder, hblocked, hports⟩ := scanLoads_sifts s.lq 0 [] h ht
  rw [List.nil_append] at hlq
  rw [hlq]
  exact ⟨horder, hblocked, hports⟩

end Sys2Proof.Machine
end

section
/-! PROOFS. The passage of a LOAD alone in the machine (R111, R177, R259): issue, start, memory access, the countdown, broadcast,
commit; and the extension of the integer read (R65). -/

namespace Sys2Proof.Machine

/-! The extension of a loaded integer (R65). -/

theorem extendLoad_toNat {size : Size} {m : Word} (h : m.toNat < 2 ^ (8 * size.bytes)) :
    (extendLoad size false m).toNat = m.toNat := by
  cases size with
  | word => rfl
  | byte | half =>
    simp only [Size.bytes, extendLoad, Bool.false_eq_true, if_false, BitVec.toNat_setWidth] at h ⊢
    omega

theorem extendLoad_toInt (size : Size) (m : Word) :
    (extendLoad size true m).toInt = (m.setWidth (8 * size.bytes)).toInt := by
  cases size with
  | word => exact congrArg BitVec.toInt (BitVec.setWidth_eq m).symm
  | byte | half => exact BitVec.toInt_signExtend_of_le (by decide)

theorem Size.bytes_le (size : Size) : size.bytes ≤ 4 := by cases size <;> decide

/-! The passage. -/

/-- Every LOAD runs the profile of loads, for its size and signedness (R259). -/
theorem load_profile {i : Instr} {size : Size} {signed : Bool} (hl : i.isLoad = true) (ha : i.access = some (size, signed)) :
    ∃ rd rn off, i.profile = loadProfile i.illFormed rd rn off size signed := by
  cases i with
  | ldb rd rn off | ldsb rd rn off | ldh rd rn off | ldsh rd rn off | ldw rd rn off | ldsw rd rn off =>
    cases ha
    exact ⟨rd, rn, off, rfl⟩
  | _ => exact absurd hl (by simp [Instr.isLoad, Instr.kind])

/-- The effective address as an integer sum modulo 2^32 (R169). -/
theorem effectiveAddress_eq {v0 v1 ea : Word} (h : ea.toNat = (v0.toNat + v1.toNat) % 2 ^ 32) : effectiveAddress v0 v1 = ea :=
  BitVec.eq_of_toNat_eq ((BitVec.toNat_add v0 v1).trans h.symm)

/-- What follows issue without touching `RST` keeps what issue left undisturbed. -/
theorem Undisturbed.after_issue {s s1 t : State} (h : Undisturbed { s with rst := s1.rst } s1) (k : Undisturbed s1 t) :
    Undisturbed { s with rst := t.rst } t := by
  rw [k.rst]
  exact h.trans k

theorem startedWith_undisturbed (s : State) (c : FuClass) (E : RobEntry) (d : List Delayed) (lq : List LqEntry) :
    Undisturbed s (s.startedWith c E s.out d lq).tickOver :=
  ⟨rfl, rfl, rfl, rfl, rfl, rfl, ⟨rfl, rfl, rfl⟩, rfl, rfl⟩

/-- The second cycle of a LOAD alone: it enters the load queue with its effective address (R171). -/
theorem OneInFlight.queueLoad {s s1 : State} {pc : Word} {u : Record} {i : Instr} {size : Size} {signed : Bool}
    (hrst : ∀ r, s.rst.get r = none) (h : OneInFlight s1 i (.issued pc u i.dest) (s.stationOf i u)) (hl : s1.lq = [])
    (hd : s1.dly = []) (hhead : s1.head = s.head) (hstart : i.profile.start = startLoad size signed) :
    ∃ t, step s1 = .next t ∧ OneInFlight t i (.issued pc u i.dest) { s.stationOf i u with disp := true }
      ∧ t.lq = [{ addr := effectiveAddress (s.sourceValue i.sources.1) (s.sourceValue i.sources.2.1), dest := s.head, size, signed }]
      ∧ t.dly = [] ∧ Undisturbed s1 t := by
  have hlt : s1.head < s1.rob.length := by
    rw [h.robSize]
    exact h.head_lt
  have hroom : ¬ s1.cfg.lqCap ≤ 0 := by
    have := (Cfg.ok_bounds h.ok).2.2.2.1
    omega
  have hrob : s1.rob.set s1.head (.issued pc u i.dest) = s1.rob := congrArg State.rob (setRob_issued h.entry hlt)
  have hst : startUop i.profile i.cls 0 (s1.doing (.start i.cls 0)) = s1.startedWith i.cls (.issued pc u i.dest) s1.out []
      [{ addr := effectiveAddress (s.sourceValue i.sources.1) (s.sourceValue i.sources.2.1), dest := s.head, size, signed }] := by
    have hv : (s1.doing (.start i.cls 0)).started i.cls 0 = s.loneStart pc i :=
      (show _ = s1.started i.cls 0 from rfl).trans (started_lone hrst h hhead)
    unfold startUop
    rw [hv, hstart]
    simp [startLoad, hl, hroom, State.loneStart, State.dispatched, State.setRs, State.doing, hd, State.startedSets,
      State.rsAt, State.startedWith, hrob]
  obtain ⟨h1, h2⟩ := h.start (stationOf_ready hrst i u) hl hd rfl rfl rfl hst
  exact ⟨_, h1, h2, rfl, rfl, startedWith_undisturbed s1 _ _ _ _⟩

/-- A LOAD alone whose address memory accepts is ready to commit `3 + LAT_LOAD` cycles after it was queued, with the extended integer
on its way to `rd`. -/
theorem passage_load {s : State} {pc : Word} {u : Record} {i : Instr} {size : Size} {signed : Bool} {ea m : Word} (h : s.Lone pc u)
    (hd : decode u = .ok i) (hw : i.wf = true) (hstart : i.profile.start = startLoad size signed)
    (hea : effectiveAddress (s.sourceValue i.sources.1) (s.sourceValue i.sources.2.1) = ea)
    (hm : s.memRead ea size.bytes = some m) :
    ∃ t : State, (∀ k, Sys2Proof.core.run (3 + s.cfg.latLoad + k) s = Sys2Proof.core.run k t)
      ∧ OneReady t i ((RobEntry.issued pc u i.dest).receive
          { p := s.head, val := extendLoad size signed m, tgt := none, fl := 0#4, halt := false })
      ∧ Undisturbed { s with rst := t.rst } t ∧ ∀ r, t.rst.get r = if writesSlot i.dest i.fw r then some s.head else none := by
  obtain ⟨n, hn⟩ : ∃ n, s.cfg.latLoad = n + 1 := ⟨s.cfg.latLoad - 1, by have := (Cfg.ok_bounds h.ok).2.2.2.2.2.2.2; omega⟩
  obtain ⟨s1, h1, f1, l1, d1, k1, t1⟩ := lone_issue h hd hw
  have hhead : s1.head = s.head := k1.head
  obtain ⟨s2, h2, f2, l2, d2, k2⟩ := f1.queueLoad h.rst l1 d1 hhead hstart
  have hbusy : ({ s.stationOf i u with disp := true } : RsEntry).isReady = false := by simp [RsEntry.isReady]
  have k12 := k1.after_issue k2
  have hread : s2.memRead ea size.bytes = some m := by
    unfold State.memRead at hm ⊢
    rw [k12.cfg, k12.mem]
    exact hm
  rw [hea] at l2
  obtain ⟨s3, h3, f3, l3, k3, d3⟩ := f2.access hbusy l2 d2 k12.head.symm hread
  rw [k12.head, k12.cfg, hn] at d3
  obtain ⟨s4, h4, f4, l4, d4, k4⟩ := f3.waits hbusy n l3 d3
  have khead : s4.head = s.head := k4.head.trans (k3.head.trans k12.head)
  obtain ⟨t, h5, f5, k5⟩ := f4.land l4 d4 khead.symm
  have kall := k2.trans (k3.trans (k4.trans k5))
  refine ⟨t, fun k => ?_, f5, k1.after_issue kall, fun r => by rw [kall.rst]; exact t1 r⟩
  rw [hn, show 3 + (n + 1) + k = (((n + (k + 1)) + 1) + 1) + 1 by omega, run_succ h1, run_succ h2, run_succ h3, h4, run_succ h5]

/-- Settles O58: `passage_load` and the commit of a micro-op that writes a register; the value is the extension of the integer read. -/
theorem loadPassage : Obligations.LoadPassage := by
  intro s pc u i rd size signed ea m h hd hw hload hacc hdest hea hm
  obtain ⟨rd', rn, off, hprofile⟩ := load_profile hload hacc
  have hfw : i.fw = 0#4 := by rw [← i.profile_fw, hprofile]; rfl
  obtain ⟨t, hrun, hready, hsame, hrst⟩ := passage_load h hd hw (by rw [hprofile]; rfl) (effectiveAddress_eq hea) hm
  have hentry : (RobEntry.issued pc u i.dest).receive
        { p := s.head, val := extendLoad size signed m, tgt := none, fl := 0#4, halt := false }
      = { RobEntry.issued pc u (.register rd false) with value := extendLoad size signed m, ready := true } := by
    rw [hdest]
    rfl
  rw [hentry] at hready
  obtain ⟨v, hstep, hdrained, hregs, hmem, hflags, hout, hterminal, hcommitted⟩ :=
    hready.retireRegister rfl hdest rfl (by rw [hprofile]; rfl) (fun r => by rw [hsame.head]; exact hrst r)
  have hreg : ∀ q, v.getReg q = if q = rd then extendLoad size signed m else s.getReg q := by
    intro q
    rw [hregs q]
    unfold State.getReg
    rw [hsame.regs]
  have hflags : v.flags = s.flags := PerFlag.ext_get fun f => by
    rw [hflags f, hfw, hsame.flags]
    simp [flagBit]
  have hrd : v.getReg rd = extendLoad size signed m := (hreg rd).trans (if_pos rfl)
  refine ⟨v, ?_, hdrained, ?_, ?_, fun q hq => (hreg q).trans (if_neg hq), hflags, hmem.trans hsame.mem, hout.trans hsame.out,
    hterminal, hcommitted.trans (congrArg (· + 1) hsame.counters.1)⟩
  · rw [show 4 + s.cfg.latLoad = 3 + s.cfg.latLoad + 1 by omega, hrun, run_succ hstep]
    rfl
  · rintro rfl
    rw [hrd, extendLoad_toNat (memRead_lt size.bytes_le hm)]
  · rintro rfl
    rw [hrd, extendLoad_toInt]

end Sys2Proof.Machine
end

section
/-! PROOFS. Decoding what was encoded (R81 to R88): the selectors and fields that stand for the operands of a micro-op, the encoder in
closed form over them, and the row of the decoder that reads each operand back. -/

namespace Sys2Proof

/-! Operands: the selector and the fields that stand for an operand (R81), and that they are what the operand was read from. -/

/-- `s0` of a record whose operand 0 is `a`. -/
def Fields.selA (a : Option Reg) : BitVec 1 := if a.isSome then 1#1 else 0#1

/-- `s1` of a record whose operand 1 is this. -/
def Src.sel : Src → BitVec 2
  | .absent => 0#2
  | .reg _ => 1#2
  | .uimm _ => 2#2
  | .simm _ => 3#2

/-- The field `rm`, 0 where operand 1 is no register. -/
def Src.rm : Src → Reg
  | .reg r => r
  | _ => 0#4

/-- The field `uimm`, 0 where operand 1 is no unsigned immediate. -/
def Src.uimmField : Src → Word
  | .uimm w => w
  | _ => 0#32

/-- The field `simm`, 0 where operand 1 is no signed immediate. -/
def Src.simmField : Src → Word
  | .simm w => w
  | _ => 0#32

/-- `s2` of an ALU or ALUCMP record: 2 selects the carry-in. -/
def Fields.selC (cin : Bool) : BitVec 2 := if cin then 2#2 else 0#2

/-- The encoding of two operands on blank fields, in closed form. -/
theorem Fields.withA_withB_blank (k : BitVec 5) (pi : PcInc) (a : Option Reg) (b : Src) :
    ((Fields.blank k pi).withA a).withB b =
      { Fields.blank k pi with
        s0 := Fields.selA a, rn := a.getD 0#4, s1 := b.sel, rm := b.rm, uimm := b.uimmField, simm := b.simmField } := by
  cases a <;> cases b <;> rfl

theorem Fields.selA_opA (f : Fields) : Fields.selA f.opA = f.s0 := by
  unfold Fields.selA Fields.opA
  rcases BitVec.eq_zero_or_eq_one f.s0 with h | h <;> simp [h]

theorem Fields.opA_getD (f : Fields) : f.opA.getD 0#4 = if f.s0 = 1#1 then f.rn else 0#4 := by
  unfold Fields.opA
  split <;> rfl

/-- The four cases of operand 1 by its selector (R81). -/
theorem Fields.opB_cases (f : Fields) :
    (f.s1 = 0#2 ∧ f.opB = .absent) ∨ (f.s1 = 1#2 ∧ f.opB = .reg f.rm) ∨ (f.s1 = 2#2 ∧ f.opB = .uimm f.uimm)
      ∨ (f.s1 = 3#2 ∧ f.opB = .simm f.simm) := by
  have hsel : ∀ x : BitVec 2, x = 0#2 ∨ x = 1#2 ∨ x = 2#2 ∨ x = 3#2 := by decide
  rcases hsel f.s1 with h | h | h | h <;> simp [Fields.opB, h]

theorem Fields.sel_opB (f : Fields) : f.opB.sel = f.s1 := by
  rcases f.opB_cases with ⟨hs, ho⟩ | ⟨hs, ho⟩ | ⟨hs, ho⟩ | ⟨hs, ho⟩ <;> rw [ho, hs] <;> rfl

theorem Fields.rm_opB (f : Fields) : f.opB.rm = if f.s1 = 1#2 then f.rm else 0#4 := by
  rcases f.opB_cases with ⟨hs, ho⟩ | ⟨hs, ho⟩ | ⟨hs, ho⟩ | ⟨hs, ho⟩ <;> rw [ho, hs] <;> rfl

theorem Fields.uimmField_opB (f : Fields) : f.opB.uimmField = if f.s1 = 2#2 then f.uimm else 0#32 := by
  rcases f.opB_cases with ⟨hs, ho⟩ | ⟨hs, ho⟩ | ⟨hs, ho⟩ | ⟨hs, ho⟩ <;> rw [ho, hs] <;> rfl

theorem Fields.simmField_opB (f : Fields) : f.opB.simmField = if f.s1 = 3#2 then f.simm else 0#32 := by
  rcases f.opB_cases with ⟨hs, ho⟩ | ⟨hs, ho⟩ | ⟨hs, ho⟩ | ⟨hs, ho⟩ <;> rw [ho, hs] <;> rfl

/-- Operand 0 is read back from its selector and its field. -/
@[simp] theorem Fields.opA_mk {kind : BitVec 5} {sub : BitVec 6} {rd rm ra : Reg} {s1 pi s2 : BitVec 2} {uimm simm : Word}
    {reglist : BitVec 16} {fw : BitVec 4} {zero : BitVec 10} (a : Option Reg) :
    (Fields.mk kind sub rd (a.getD 0#4) rm ra (Fields.selA a) s1 pi uimm simm reglist fw s2 zero).opA = a := by
  cases a <;> rfl

/-- Operand 1 is read back from its selector and its fields. -/
@[simp] theorem Fields.opB_mk {kind : BitVec 5} {sub : BitVec 6} {rd rn ra : Reg} {s0 : BitVec 1} {pi s2 : BitVec 2}
    {reglist : BitVec 16} {fw : BitVec 4} {zero : BitVec 10} (b : Src) :
    (Fields.mk kind sub rd rn b.rm ra s0 b.sel pi b.uimmField b.simmField reglist fw s2 zero).opB = b := by
  cases b <;> rfl

theorem PcInc.code_ofCode (p : BitVec 2) : (PcInc.ofCode p).code = p := by revert p; decide

theorem Cond.code_ofCode (c : BitVec 4) : (Cond.ofCode c).code = c := by revert c; decide

/-! The encoder in closed form, and decoding what was encoded. -/

theorem Encode.fields_alu (sub : BitVec 6) (rd : Reg) (a : Option Reg) (b : Src) (cin : Bool) (fw : BitVec 4) (pi : PcInc) :
    Encode.fields (.alu sub rd a b cin fw pi) =
      { kind := 1#5, sub := sub, rd := rd, rn := a.getD 0#4, rm := b.rm, ra := 0#4, s0 := Fields.selA a, s1 := b.sel
        pi := pi.code, uimm := b.uimmField, simm := b.simmField, reglist := 0#16, fw := fw, s2 := Fields.selC cin
        zero := 0#10 } := by
  rw [Encode.fields, Fields.withA_withB_blank]
  rfl

theorem Encode.fields_cmp (sub : BitVec 6) (a : Option Reg) (b : Src) (cin : Bool) (fw : BitVec 4) (pi : PcInc) :
    Encode.fields (.cmp sub a b cin fw pi) =
      { kind := 2#5, sub := sub, rd := 0#4, rn := a.getD 0#4, rm := b.rm, ra := 0#4, s0 := Fields.selA a, s1 := b.sel
        pi := pi.code, uimm := b.uimmField, simm := b.simmField, reglist := 0#16, fw := fw, s2 := Fields.selC cin
        zero := 0#10 } := by
  rw [Encode.fields, Fields.withA_withB_blank]
  rfl

theorem Encode.fields_mul (rd rn : Reg) (b : Src) (fw : BitVec 2) (pi : PcInc) :
    Encode.fields (.mul rd rn b fw pi) =
      { kind := 3#5, sub := 0#6, rd := rd, rn := rn, rm := b.rm, ra := 0#4, s0 := 1#1, s1 := b.sel
        pi := pi.code, uimm := b.uimmField, simm := b.simmField, reglist := 0#16, fw := fw.setWidth 4, s2 := 0#2
        zero := 0#10 } := by
  rw [Encode.fields, Fields.withA_withB_blank]
  rfl

theorem Encode.load_eq (sub : BitVec 6) (rd rn : Reg) (off : Src) (pi : PcInc) :
    Encode.load sub rd rn off pi =
      { kind := 4#5, sub := sub, rd := rd, rn := rn, rm := off.rm, ra := 0#4, s0 := 1#1, s1 := off.sel
        pi := pi.code, uimm := off.uimmField, simm := off.simmField, reglist := 0#16, fw := 0#4, s2 := 0#2
        zero := 0#10 } := by
  rw [Encode.load, Fields.withA_withB_blank]
  rfl

theorem Encode.store_eq (sub : BitVec 6) (ra rn : Reg) (off : Src) (pi : PcInc) :
    Encode.store sub ra rn off pi =
      { kind := 5#5, sub := sub, rd := 0#4, rn := rn, rm := off.rm, ra := ra, s0 := 1#1, s1 := off.sel
        pi := pi.code, uimm := off.uimmField, simm := off.simmField, reglist := 0#16, fw := 0#4, s2 := 1#2
        zero := 0#10 } := by
  rw [Encode.store, Fields.withA_withB_blank]
  rfl

/-! The two fields that hold less than their width: `sub` of a BCOND (R88), `fw` of a MUL (R242). -/

theorem Cond.code_field (c : Cond) :
    (c.code.setWidth 6).extractLsb' 4 2 = 0#2 ∧ (c.code.setWidth 6).extractLsb' 0 4 = c.code := by cases c <;> decide

theorem mul_mask_field (fw : BitVec 2) :
    (fw.setWidth 4).extractLsb' 2 2 = 0#2 ∧ (fw.setWidth 4).extractLsb' 0 2 = fw := by revert fw; decide

/-! Each micro-op, row by row. -/

/-- Each row of the decoder accepts the fields of its own micro-ops and reads their operands back. -/
theorem Decode.fields_encode (i : Instr) : Decode.fields (Encode.fields i) = .ok i := by
  cases i with
  | alu sub rd a b cin fw pi =>
    cases cin <;> simp [Encode.fields_alu, Decode.fields, Decode.alu, Fields.selC, PcInc.ofCode_code]
  | cmp sub a b cin fw pi =>
    cases cin <;> simp [Encode.fields_cmp, Decode.fields, Decode.cmp, Fields.selC, PcInc.ofCode_code]
  | mul rd rn b fw pi =>
    obtain ⟨hcv, hnz⟩ := mul_mask_field fw
    simp [Encode.fields_mul, Decode.fields, Decode.mul, PcInc.ofCode_code, hcv, hnz]
  | ldb rd rn off pi | ldsb rd rn off pi | ldh rd rn off pi | ldsh rd rn off pi | ldw rd rn off pi | ldsw rd rn off pi =>
    simp [Encode.fields, Encode.load_eq, Decode.fields, Decode.load, PcInc.ofCode_code]
  | stb ra rn off pi | sth ra rn off pi | stw ra rn off pi =>
    simp [Encode.fields, Encode.store_eq, Decode.fields, Decode.store, PcInc.ofCode_code]
  | b simm pi | bl simm pi | svcHalt pi =>
    simp [Encode.fields, Fields.blank, Decode.fields, Decode.noSub, Decode.svc, Decode.noOperand, PcInc.ofCode_code]
  | bcond c simm pi =>
    obtain ⟨hhigh, hlow⟩ := c.code_field
    simp [Encode.fields, Fields.blank, Decode.fields, Decode.bcond, Decode.noOperand, PcInc.ofCode_code, Cond.ofCode_code,
      hhigh, hlow]
  | bx rn pi | blx rn pi | setpc rn pi | svcPuts rn pi | svcPuti rn pi =>
    simp [Encode.fields, Fields.blank, Fields.withA, Decode.fields, Decode.noSub, Decode.svc, Decode.oneOperand, PcInc.ofCode_code]

/-- Settles O1: `decode` undoes the packing, and each row of the decoder reads back what the encoder wrote. -/
theorem decodeOfEncode : Obligations.DecodeOfEncode := fun i => by
  unfold decode encode
  rw [Fields.unpack_pack, Decode.fields_encode]

/-- A record that is an encoding decodes to what it encodes. -/
theorem decode_of_encode_eq {r : Record} {i : Instr} (h : encode i = r) : decode r = .ok i := h ▸ decodeOfEncode i

/-- Settles O4: each record is the encoding of its micro-op. -/
theorem workedEncodingsDecode : Obligations.WorkedEncodingsDecode :=
  ⟨decode_of_encode_eq (by decide), decode_of_encode_eq (by decide), decode_of_encode_eq (by decide),
    decode_of_encode_eq (by decide), decode_of_encode_eq (by decide), decode_of_encode_eq (by decide),
    decode_of_encode_eq (by decide), decode_of_encode_eq (by decide), decode_of_encode_eq (by decide),
    decode_of_encode_eq (by decide)⟩

end Sys2Proof
end

section
/-! PROOFS. What decodes is an encoding: the rows of the decoder read only the used fields of a record (R92), and what each answers
encodes to just these. -/

namespace Sys2Proof

/-- The kinds of R84: the reserved codes, ALU to STORE, SVC, and the branches. -/
theorem Fields.kind_cases (f : Fields) :
    (f.kind.toNat = 0 ∨ 12 < f.kind.toNat)
      ∨ f.kind = 1#5 ∨ f.kind = 2#5 ∨ f.kind = 3#5 ∨ f.kind = 4#5 ∨ f.kind = 5#5 ∨ f.kind = 12#5
      ∨ f.kind = 6#5 ∨ f.kind = 7#5 ∨ f.kind = 8#5 ∨ f.kind = 9#5 ∨ f.kind = 10#5 ∨ f.kind = 11#5 := by
  generalize f.kind = k
  revert k
  decide

theorem Decode.fields_reserved {f : Fields} (hz : f.zero = 0#10) (hk : f.kind.toNat = 0 ∨ 12 < f.kind.toNat) :
    Decode.fields f = .error .reservedKind := by
  unfold Decode.fields
  rw [if_neg (not_not_intro hz)]
  split <;> simp_all

/-! `used`: what it keeps, and where a field that it can clear is kept. -/

@[simp] theorem Fields.used_kind (f : Fields) : f.used.kind = f.kind := rfl
@[simp] theorem Fields.used_sub (f : Fields) : f.used.sub = f.sub := rfl
@[simp] theorem Fields.used_s0 (f : Fields) : f.used.s0 = f.s0 := rfl
@[simp] theorem Fields.used_s1 (f : Fields) : f.used.s1 = f.s1 := rfl
@[simp] theorem Fields.used_s2 (f : Fields) : f.used.s2 = f.s2 := rfl
@[simp] theorem Fields.used_pi (f : Fields) : f.used.pi = f.pi := rfl
@[simp] theorem Fields.used_fw (f : Fields) : f.used.fw = f.fw := rfl
@[simp] theorem Fields.used_zero (f : Fields) : f.used.zero = f.zero := rfl

theorem Fields.used_rd {f : Fields} (h : f.kind.toNat = 1 ∨ f.kind.toNat = 3 ∨ f.kind.toNat = 4) : f.used.rd = f.rd := if_pos h

theorem Fields.used_rn {f : Fields} (h : f.s0 = 1#1) : f.used.rn = f.rn := if_pos h

theorem Fields.used_ra {f : Fields} (h : f.s2 = 1#2) : f.used.ra = f.ra := if_pos h

theorem Fields.used_simm {f : Fields} (h : f.kind.toNat = 6 ∨ f.kind.toNat = 7 ∨ f.kind.toNat = 8) : f.used.simm = f.simm :=
  if_pos (.inr h)

@[simp] theorem Fields.used_opA (f : Fields) : f.used.opA = f.opA := by
  by_cases hs : f.s0 = 1#1 <;> simp [Fields.opA, hs, Fields.used_rn]

@[simp] theorem Fields.used_opB (f : Fields) : f.used.opB = f.opB := by
  rcases f.opB_cases with ⟨hs, ho⟩ | ⟨hs, ho⟩ | ⟨hs, ho⟩ | ⟨hs, ho⟩ <;> rw [ho] <;> simp [Fields.opB, Fields.used, hs]

/-! The rows of the decoder on the used fields: a register is read only behind the selector that names it. -/

@[simp] theorem Decode.noOperand_used (f : Fields) (i : Instr) : Decode.noOperand f.used i = Decode.noOperand f i := rfl

@[simp] theorem Decode.noSub_used (f : Fields) (r : Except Reject Instr) : Decode.noSub f.used r = Decode.noSub f r := rfl

theorem Decode.oneOperand_used (f : Fields) (g : Reg → Instr) :
    Decode.oneOperand f.used (g f.used.rn) = Decode.oneOperand f (g f.rn) := by
  by_cases hs : f.s0 = 1#1
  · rw [Fields.used_rn hs]
    rfl
  · simp [Decode.oneOperand, hs]

theorem Decode.alu_used {f : Fields} (hk : f.kind = 1#5) : Decode.alu f.used = Decode.alu f := by
  simp [Decode.alu, Fields.used_rd, hk]

theorem Decode.cmp_used (f : Fields) : Decode.cmp f.used = Decode.cmp f := by
  simp [Decode.cmp]

theorem Decode.mul_used {f : Fields} (hk : f.kind = 3#5) : Decode.mul f.used = Decode.mul f := by
  by_cases hs : f.s0 = 1#1
  · simp [Decode.mul, Fields.used_rd, Fields.used_rn hs, hk]
  · simp [Decode.mul, hs]

theorem Decode.load_used {f : Fields} (hk : f.kind = 4#5) : Decode.load f.used = Decode.load f := by
  by_cases hs : f.s0 = 1#1
  · simp [Decode.load, Fields.used_rd, Fields.used_rn hs, hk]
  · simp [Decode.load, hs]

theorem Decode.store_used (f : Fields) : Decode.store f.used = Decode.store f := by
  by_cases hs : f.s0 = 1#1 ∧ f.s2 = 1#2
  · simp [Decode.store, Fields.used_rn hs.1, Fields.used_ra hs.2]
  · have hbad : f.s0 ≠ 1#1 ∨ f.s2 ≠ 1#2 := by tauto
    simp [Decode.store, hbad]

theorem Decode.svc_used (f : Fields) : Decode.svc f.used = Decode.svc f := by
  unfold Decode.svc
  simp only [Fields.used_sub, Fields.used_pi, Decode.noOperand_used]
  rw [Decode.oneOperand_used f (.svcPuts · _), Decode.oneOperand_used f (.svcPuti · _)]

theorem Decode.fields_used (f : Fields) : Decode.fields f.used = Decode.fields f := by
  by_cases hz : f.zero = 0#10
  · rcases f.kind_cases with hk | hk | hk | hk | hk | hk | hk | hk | hk | hk | hk | hk | hk
    · rw [Decode.fields_reserved hz hk, Decode.fields_reserved (f := f.used) hz hk]
    · simp [Decode.fields, hk, Decode.alu_used hk]
    · simp [Decode.fields, hk, Decode.cmp_used]
    · simp [Decode.fields, hk, Decode.mul_used hk]
    · simp [Decode.fields, hk, Decode.load_used hk]
    · simp [Decode.fields, hk, Decode.store_used]
    · simp [Decode.fields, hk, Decode.svc_used]
    · simp [Decode.fields, hk, Fields.used_simm]
    · simp [Decode.fields, hk, Decode.bcond, Fields.used_simm]
    · simp [Decode.fields, hk, Fields.used_simm]
    · simp [Decode.fields, hk, Decode.oneOperand_used f (.bx · (.ofCode f.pi))]
    · simp [Decode.fields, hk, Decode.oneOperand_used f (.blx · (.ofCode f.pi))]
    · simp [Decode.fields, hk, Decode.oneOperand_used f (.setpc · (.ofCode f.pi))]
  · simp [Decode.fields, hz]

/-! What each row answers, and that it encodes to the used fields. -/

theorem Decode.noOperand_eq_ok {f : Fields} {i j : Instr} :
    Decode.noOperand f j = .ok i ↔ f.plainOk 0#1 = true ∧ j = i := by
  unfold Decode.noOperand Fields.plainOk
  split_ifs <;> simp_all
  tauto

theorem Decode.oneOperand_eq_ok {f : Fields} {i j : Instr} :
    Decode.oneOperand f j = .ok i ↔ f.plainOk 1#1 = true ∧ j = i := by
  unfold Decode.oneOperand Fields.plainOk
  split_ifs <;> simp_all
  tauto

theorem Decode.noSub_eq_ok {f : Fields} {i : Instr} {r : Except Reject Instr} :
    Decode.noSub f r = .ok i ↔ f.sub = 0#6 ∧ r = .ok i := by
  unfold Decode.noSub
  split <;> simp_all

theorem Fields.plainOk_iff {f : Fields} {s : BitVec 1} :
    f.plainOk s = true ↔ f.s0 = s ∧ f.s1 = 0#2 ∧ f.s2 = 0#2 ∧ f.fw = 0#4 := by
  simp [Fields.plainOk, and_assoc]

theorem Decode.alu_eq_ok {f : Fields} {i : Instr} :
    Decode.alu f = .ok i ↔ ∃ cin, f.s2 = Fields.selC cin ∧ .alu f.sub f.rd f.opA f.opB cin f.fw (.ofCode f.pi) = i := by
  unfold Decode.alu Fields.selC
  split_ifs <;> simp_all

theorem Decode.cmp_eq_ok {f : Fields} {i : Instr} :
    Decode.cmp f = .ok i ↔ ∃ cin, f.s2 = Fields.selC cin ∧ .cmp f.sub f.opA f.opB cin f.fw (.ofCode f.pi) = i := by
  unfold Decode.cmp Fields.selC
  split_ifs <;> simp_all

theorem Decode.mul_eq_ok {f : Fields} {i : Instr} :
    Decode.mul f = .ok i ↔ f.sub = 0#6 ∧ f.s0 = 1#1 ∧ f.s2 = 0#2 ∧ f.fw.extractLsb' 2 2 = 0#2
      ∧ .mul f.rd f.rn f.opB (f.fw.extractLsb' 0 2) (.ofCode f.pi) = i := by
  unfold Decode.mul
  split_ifs <;> simp_all
  tauto

theorem bitvec_eq_of_toNat {w n : Nat} {x : BitVec w} (h : x.toNat = n) : x = BitVec.ofNat w n := by
  rw [← h, BitVec.ofNat_toNat, BitVec.setWidth_eq]

/-- What a load decodes to encodes to the fields it was read from (R87). -/
theorem Decode.load_ok {f : Fields} {i : Instr} (h : Decode.load f = .ok i) :
    f.s0 = 1#1 ∧ f.s2 = 0#2 ∧ f.fw = 0#4 ∧ Encode.fields i = Encode.load f.sub f.rd f.rn f.opB (.ofCode f.pi) := by
  unfold Decode.load at h
  split at h
  · cases h
  · next hsel =>
    split at h
    · cases h
    · next hfw =>
      have hsub : Encode.fields i = Encode.load f.sub f.rd f.rn f.opB (.ofCode f.pi) := by
        split at h <;> cases h <;> rw [bitvec_eq_of_toNat ‹f.sub.toNat = _›] <;> rfl
      exact ⟨by tauto, by tauto, by tauto, hsub⟩

theorem Decode.store_ok {f : Fields} {i : Instr} (h : Decode.store f = .ok i) :
    f.s0 = 1#1 ∧ f.s2 = 1#2 ∧ f.fw = 0#4 ∧ Encode.fields i = Encode.store f.sub f.ra f.rn f.opB (.ofCode f.pi) := by
  unfold Decode.store at h
  split at h
  · cases h
  · next hsel =>
    split at h
    · cases h
    · next hfw =>
      have hsub : Encode.fields i = Encode.store f.sub f.ra f.rn f.opB (.ofCode f.pi) := by
        split at h <;> cases h <;> rw [bitvec_eq_of_toNat ‹f.sub.toNat = _›] <;> rfl
      exact ⟨by tauto, by tauto, by tauto, hsub⟩

theorem Decode.bcond_eq_ok {f : Fields} {i : Instr} :
    Decode.bcond f = .ok i ↔ f.sub.extractLsb' 4 2 = 0#2 ∧ f.plainOk 0#1 = true
      ∧ .bcond (.ofCode (f.sub.extractLsb' 0 4)) f.simm (.ofCode f.pi) = i := by
  unfold Decode.bcond
  split_ifs <;> simp_all [Decode.noOperand_eq_ok]

theorem Decode.svc_ok {f : Fields} {i : Instr} (h : Decode.svc f = .ok i) :
    (f.sub = 1#6 ∧ f.plainOk 1#1 = true ∧ .svcPuts f.rn (.ofCode f.pi) = i)
    ∨ (f.sub = 2#6 ∧ f.plainOk 1#1 = true ∧ .svcPuti f.rn (.ofCode f.pi) = i)
    ∨ (f.sub = 3#6 ∧ f.plainOk 0#1 = true ∧ .svcHalt (.ofCode f.pi) = i) := by
  unfold Decode.svc at h
  split at h
  · exact .inl ⟨BitVec.eq_of_toNat_eq ‹_›, Decode.oneOperand_eq_ok.mp h⟩
  · exact .inr (.inl ⟨BitVec.eq_of_toNat_eq ‹_›, Decode.oneOperand_eq_ok.mp h⟩)
  · exact .inr (.inr ⟨BitVec.eq_of_toNat_eq ‹_›, Decode.noOperand_eq_ok.mp h⟩)
  · cases h

theorem mul_mask_of_field (fw : BitVec 4) (h : fw.extractLsb' 2 2 = 0#2) : (fw.extractLsb' 0 2).setWidth 4 = fw := by
  revert fw; decide

theorem cond_field_of_sub (sub : BitVec 6) (h : sub.extractLsb' 4 2 = 0#2) : (sub.extractLsb' 0 4).setWidth 6 = sub := by
  revert sub; decide

/-- The rows of R84: when a record decodes, and to what. -/
theorem Decode.fields_eq_ok {f : Fields} {i : Instr} :
    Decode.fields f = .ok i ↔ f.zero = 0#10 ∧
      ((f.kind = 1#5 ∧ Decode.alu f = .ok i) ∨ (f.kind = 2#5 ∧ Decode.cmp f = .ok i) ∨ (f.kind = 3#5 ∧ Decode.mul f = .ok i)
      ∨ (f.kind = 4#5 ∧ Decode.load f = .ok i) ∨ (f.kind = 5#5 ∧ Decode.store f = .ok i)
      ∨ (f.kind = 12#5 ∧ Decode.svc f = .ok i) ∨ (f.kind = 7#5 ∧ Decode.bcond f = .ok i)
      ∨ (f.kind = 6#5 ∧ f.sub = 0#6 ∧ f.plainOk 0#1 = true ∧ .b f.simm (.ofCode f.pi) = i)
      ∨ (f.kind = 8#5 ∧ f.sub = 0#6 ∧ f.plainOk 0#1 = true ∧ .bl f.simm (.ofCode f.pi) = i)
      ∨ (f.kind = 9#5 ∧ f.sub = 0#6 ∧ f.plainOk 1#1 = true ∧ .bx f.rn (.ofCode f.pi) = i)
      ∨ (f.kind = 10#5 ∧ f.sub = 0#6 ∧ f.plainOk 1#1 = true ∧ .blx f.rn (.ofCode f.pi) = i)
      ∨ (f.kind = 11#5 ∧ f.sub = 0#6 ∧ f.plainOk 1#1 = true ∧ .setpc f.rn (.ofCode f.pi) = i)) := by
  by_cases hz : f.zero = 0#10
  · rcases f.kind_cases with hk | hk | hk | hk | hk | hk | hk | hk | hk | hk | hk | hk | hk
    · have hne : ∀ n, 1 ≤ n → n ≤ 12 → f.kind ≠ BitVec.ofNat 5 n := by
        rintro n h1 h12 he
        rw [he, BitVec.toNat_ofNat] at hk
        omega
      simp [Decode.fields_reserved hz hk, hz, hne]
    all_goals simp [Decode.fields, hz, hk, Decode.noSub_eq_ok, Decode.noOperand_eq_ok, Decode.oneOperand_eq_ok]
  · simp [Decode.fields, hz]

/-- The used fields of a record of R92's plain rows: kind, `sub`, `pi`, and `rn` or `simm` where they are used. -/
theorem Fields.used_of_plain {f : Fields} {s : BitVec 1} (hp : f.plainOk s = true) (hz : f.zero = 0#10) (hk : 5 < f.kind.toNat) :
    f.used = { (Fields.blank f.kind (.ofCode f.pi)).withA f.opA with sub := f.sub, simm := f.used.simm } := by
  obtain ⟨hs0, hs1, hs2, hfw⟩ := Fields.plainOk_iff.mp hp
  have hrd : ¬(f.kind.toNat = 1 ∨ f.kind.toNat = 3 ∨ f.kind.toNat = 4) := by omega
  rcases BitVec.eq_zero_or_eq_one f.s0 with h | h <;>
    simp [Fields.used, Fields.opA, Fields.withA, Fields.blank, PcInc.code_ofCode, h, hs1, hs2, hfw, hz, hrd]

theorem Decode.encode_of_alu {f : Fields} {i : Instr} (hz : f.zero = 0#10) (hk : f.kind = 1#5) (h : Decode.alu f = .ok i) :
    Encode.fields i = f.used := by
  obtain ⟨cin, hs2, rfl⟩ := Decode.alu_eq_ok.mp h
  rw [Encode.fields_alu, f.selA_opA, f.opA_getD, f.sel_opB, f.rm_opB, f.uimmField_opB, f.simmField_opB, PcInc.code_ofCode]
  cases cin <;> simp [Fields.used, Fields.selC, hz, hk, hs2]

theorem Decode.encode_of_cmp {f : Fields} {i : Instr} (hz : f.zero = 0#10) (hk : f.kind = 2#5) (h : Decode.cmp f = .ok i) :
    Encode.fields i = f.used := by
  obtain ⟨cin, hs2, rfl⟩ := Decode.cmp_eq_ok.mp h
  rw [Encode.fields_cmp, f.selA_opA, f.opA_getD, f.sel_opB, f.rm_opB, f.uimmField_opB, f.simmField_opB, PcInc.code_ofCode]
  cases cin <;> simp [Fields.used, Fields.selC, hz, hk, hs2]

theorem Decode.encode_of_mul {f : Fields} {i : Instr} (hz : f.zero = 0#10) (hk : f.kind = 3#5) (h : Decode.mul f = .ok i) :
    Encode.fields i = f.used := by
  obtain ⟨hsub, hs0, hs2, hfw, rfl⟩ := Decode.mul_eq_ok.mp h
  rw [Encode.fields_mul, f.sel_opB, f.rm_opB, f.uimmField_opB, f.simmField_opB, PcInc.code_ofCode, mul_mask_of_field _ hfw]
  simp [Fields.used, hz, hk, hsub, hs0, hs2]

theorem Decode.encode_of_load {f : Fields} {i : Instr} (hz : f.zero = 0#10) (hk : f.kind = 4#5) (h : Decode.load f = .ok i) :
    Encode.fields i = f.used := by
  obtain ⟨hs0, hs2, hfw, hi⟩ := Decode.load_ok h
  rw [hi, Encode.load_eq, f.sel_opB, f.rm_opB, f.uimmField_opB, f.simmField_opB, PcInc.code_ofCode]
  simp [Fields.used, hz, hk, hs0, hs2, hfw]

theorem Decode.encode_of_store {f : Fields} {i : Instr} (hz : f.zero = 0#10) (hk : f.kind = 5#5) (h : Decode.store f = .ok i) :
    Encode.fields i = f.used := by
  obtain ⟨hs0, hs2, hfw, hi⟩ := Decode.store_ok h
  rw [hi, Encode.store_eq, f.sel_opB, f.rm_opB, f.uimmField_opB, f.simmField_opB, PcInc.code_ofCode]
  simp [Fields.used, hz, hk, hs0, hs2, hfw]

theorem Decode.encode_of_bcond {f : Fields} {i : Instr} (hz : f.zero = 0#10) (hk : f.kind = 7#5) (h : Decode.bcond f = .ok i) :
    Encode.fields i = f.used := by
  obtain ⟨hsub, hp, rfl⟩ := Decode.bcond_eq_ok.mp h
  obtain ⟨hs0, -⟩ := Fields.plainOk_iff.mp hp
  rw [Fields.used_of_plain hp hz (by simp [hk])]
  simp [Encode.fields, Fields.opA, Fields.withA, Fields.blank, hs0, Fields.used_simm, hk, Cond.code_ofCode,
    cond_field_of_sub _ hsub]

theorem Decode.encode_of_svc {f : Fields} {i : Instr} (hz : f.zero = 0#10) (hk : f.kind = 12#5) (h : Decode.svc f = .ok i) :
    Encode.fields i = f.used := by
  rcases Decode.svc_ok h with ⟨hsub, hp, rfl⟩ | ⟨hsub, hp, rfl⟩ | ⟨hsub, hp, rfl⟩ <;>
  · obtain ⟨hs0, hs1, -⟩ := Fields.plainOk_iff.mp hp
    rw [Fields.used_of_plain hp hz (by simp [hk])]
    simp [Encode.fields, Fields.opA, Fields.withA, Fields.blank, Fields.used, hs0, hs1, hk, hsub]

/-- What a record decodes to encodes to its used fields: each row reads every field that R92 does not call ignored. -/
theorem Decode.encode_of_fields {f : Fields} {i : Instr} (h : Decode.fields f = .ok i) : Encode.fields i = f.used := by
  obtain ⟨hz, hrow⟩ := Decode.fields_eq_ok.mp h
  rcases hrow with ⟨hk, h⟩ | ⟨hk, h⟩ | ⟨hk, h⟩ | ⟨hk, h⟩ | ⟨hk, h⟩ | ⟨hk, h⟩ | ⟨hk, h⟩ | ⟨hk, hsub, hp, rfl⟩
    | ⟨hk, hsub, hp, rfl⟩ | ⟨hk, hsub, hp, rfl⟩ | ⟨hk, hsub, hp, rfl⟩ | ⟨hk, hsub, hp, rfl⟩
  · exact Decode.encode_of_alu hz hk h
  · exact Decode.encode_of_cmp hz hk h
  · exact Decode.encode_of_mul hz hk h
  · exact Decode.encode_of_load hz hk h
  · exact Decode.encode_of_store hz hk h
  · exact Decode.encode_of_svc hz hk h
  · exact Decode.encode_of_bcond hz hk h
  all_goals
    obtain ⟨hs0, hs1, -⟩ := Fields.plainOk_iff.mp hp
    rw [Fields.used_of_plain hp hz (by simp [hk])]
    simp [Encode.fields, Fields.opA, Fields.withA, Fields.blank, Fields.used, hs0, hs1, hk, hsub]

/-- Settles O2: `Decode.fields_used` and `Decode.encode_of_fields`, on packed fields. -/
theorem encodeOfDecode : Obligations.EncodeOfDecode := by
  refine fun r => ⟨?_, fun i h => congrArg Fields.pack (Decode.encode_of_fields h)⟩
  unfold decode
  rw [Fields.unpack_pack, Decode.fields_used]

end Sys2Proof
end

section
/-! PROOFS. The verdict of issue on a record (R92): the table on the raw fields and `illFormed` of the decoded micro-op agree, because a
record that the table accepts decodes, and on an encoding both can be compared operand by operand. -/

namespace Sys2Proof

open Machine

/-! A record that the rows of R92's table accept decodes. -/

/-- The load and store codes that R92's table accepts (R87). -/
theorem Fields.sizeOk_load {f : Fields} (hsize : f.sizeOk = true) (hsub : f.sub.extractLsb' 3 3 = 0#3) :
    f.sub = 0#6 ∨ f.sub = 1#6 ∨ f.sub = 2#6 ∨ f.sub = 4#6 ∨ f.sub = 5#6 ∨ f.sub = 6#6 := by
  unfold Fields.sizeOk at hsize
  generalize f.sub = sub at *
  revert sub
  decide

theorem Fields.sizeOk_store {f : Fields} (hsize : f.sizeOk = true) (hsub : f.sub.extractLsb' 2 4 = 0#4) :
    f.sub = 0#6 ∨ f.sub = 1#6 ∨ f.sub = 2#6 := by
  unfold Fields.sizeOk at hsize
  generalize f.sub = sub at *
  revert sub
  decide

theorem mul_mask_iff (fw : BitVec 4) : fw.extractLsb' 2 2 = 0#2 ↔ fw.getLsbD 2 = false ∧ fw.getLsbD 3 = false := by
  revert fw
  decide

theorem Fields.kindOk_reserved {f : Fields} (hk : f.kind.toNat = 0 ∨ 12 < f.kind.toNat) : f.kindOk = false := by
  unfold Fields.kindOk
  split <;> simp_all

/-- R92 on the raw fields is enough for a row of R84 to answer: nothing that `kindOk` accepts is rejected. -/
theorem Decode.ok_of_kindOk {f : Fields} (hz : f.zero = 0#10) (h : f.kindOk = true) : ∃ i, Decode.fields f = .ok i := by
  rcases f.kind_cases with hk | hk | hk | hk | hk | hk | hk | hk | hk | hk | hk | hk | hk
  · exact absurd h (by simp [Fields.kindOk_reserved hk])
  · have hs2 : f.s2 = 0#2 ∨ f.s2 = 2#2 := by simpa [Fields.kindOk, hk] using h
    rcases hs2 with hs2 | hs2 <;> simp [Decode.fields, hz, hk, Decode.alu, hs2]
  · have hs2 : f.s2 = 0#2 ∨ f.s2 = 2#2 := by simpa [Fields.kindOk, hk] using h
    rcases hs2 with hs2 | hs2 <;> simp [Decode.fields, hz, hk, Decode.cmp, hs2]
  · obtain ⟨hsub, hs0, -, hs2, hmask⟩ : f.sub = 0#6 ∧ f.s0 = 1#1 ∧ f.s1 ≠ 0#2 ∧ f.s2 = 0#2
        ∧ f.fw.getLsbD 2 = false ∧ f.fw.getLsbD 3 = false := by
      simpa [Fields.kindOk, hk, and_assoc] using h
    simp [Decode.fields, hz, hk, Decode.mul, hsub, hs0, hs2, (mul_mask_iff _).mpr hmask]
  · obtain ⟨hsize, hsub, hs0, -, hs2, hfw⟩ : f.sizeOk = true ∧ f.sub.extractLsb' 3 3 = 0#3 ∧ f.s0 = 1#1 ∧ f.s1 ≠ 0#2
        ∧ f.s2 = 0#2 ∧ f.fw = 0#4 := by
      simpa [Fields.kindOk, hk, and_assoc] using h
    rcases Fields.sizeOk_load hsize hsub with hsub | hsub | hsub | hsub | hsub | hsub <;>
      simp [Decode.fields, hz, hk, Decode.load, hsub, hs0, hs2, hfw]
  · obtain ⟨hsize, hsub, hs0, -, hs2, hfw⟩ : f.sizeOk = true ∧ f.sub.extractLsb' 2 4 = 0#4 ∧ f.s0 = 1#1 ∧ f.s1 ≠ 0#2
        ∧ f.s2 = 1#2 ∧ f.fw = 0#4 := by
      simpa [Fields.kindOk, hk, and_assoc] using h
    rcases Fields.sizeOk_store hsize hsub with hsub | hsub | hsub <;>
      simp [Decode.fields, hz, hk, Decode.store, hsub, hs0, hs2, hfw]
  · have hcall : ((f.sub = 1#6 ∨ f.sub = 2#6) ∧ f.plainOk 1#1 = true) ∨ f.sub = 3#6 ∧ f.plainOk 0#1 = true := by
      simpa [Fields.kindOk, hk] using h
    rcases hcall with ⟨hsub | hsub, hp⟩ | ⟨hsub, hp⟩ <;>
      simp [Decode.fields, hz, hk, Decode.svc, hsub, Decode.oneOperand_eq_ok, Decode.noOperand_eq_ok, hp]
  all_goals simpa [Fields.kindOk, hk, hz, Decode.fields_eq_ok, Decode.bcond_eq_ok] using h

/-! Ignored fields do not change the verdict. -/

/-- The common conditions of R92 as propositions, each behind its guard. -/
theorem Fields.commonOk_iff (f : Fields) :
    f.commonOk = true ↔ (1 ≤ f.kind.toNat ∧ f.kind.toNat ≤ 12) ∧ f.pi ≠ 3#2 ∧ f.s2 ≠ 3#2 ∧ f.zero = 0#10
      ∧ (f.s0 = 1#1 → f.rn ≠ 15#4) ∧ (f.s1 = 1#2 → f.rm ≠ 15#4) ∧ (f.s2 = 1#2 → f.ra ≠ 15#4)
      ∧ (f.kind.toNat = 1 ∨ f.kind.toNat = 3 ∨ f.kind.toNat = 4 → f.rd ≠ 15#4) := by
  simp only [Fields.commonOk, Bool.and_eq_true, Bool.or_eq_true, Bool.not_eq_true', decide_eq_true_eq, decide_eq_false_iff_not,
    ← imp_iff_not_or, and_assoc]

/-- A register is tested behind the guard under which `used` keeps it. -/
theorem Fields.commonOk_used (f : Fields) : f.used.commonOk = f.commonOk := by
  rw [Bool.eq_iff_iff, Fields.commonOk_iff, Fields.commonOk_iff]
  simp +contextual [Fields.used]

theorem Fields.verdict_used (f : Fields) : f.used.verdict = f.verdict := by
  have hkind : f.used.kindOk = f.kindOk := rfl
  have hcond : f.used.badCondition = f.badCondition := rfl
  unfold Fields.verdict
  rw [Fields.commonOk_used, hkind, hcond]

/-! The defects of a micro-op, operand by operand, as the tests of R92 on the fields that encode it. -/

/-- Only a condition code may be wrong: what leaves `BAD_COND` or no fatal. -/
def WF.onlyCondition (ds : List Defect) : Bool := ds.all (· == .condition)

theorem WF.onlyCondition_append (ds es : List Defect) :
    WF.onlyCondition (ds ++ es) = true ↔ WF.onlyCondition ds = true ∧ WF.onlyCondition es = true := by
  simp only [WF.onlyCondition, List.all_append, Bool.and_eq_true]

theorem WF.onlyCondition_pi (p : PcInc) : WF.onlyCondition (WF.pi p) = true ↔ p.code ≠ 3#2 := by cases p <;> decide

theorem WF.onlyCondition_reg (r : Reg) : WF.onlyCondition (WF.reg r) = true ↔ r ≠ 15#4 := by
  unfold WF.reg
  split <;> simp [WF.onlyCondition, *]

theorem WF.onlyCondition_optReg (a : Option Reg) :
    WF.onlyCondition (WF.optReg a) = true ↔ (Fields.selA a = 1#1 → a.getD 0#4 ≠ 15#4) := by
  cases a with
  | none => decide
  | some r => simpa [WF.optReg, Fields.selA] using WF.onlyCondition_reg r

theorem WF.onlyCondition_src (b : Src) : WF.onlyCondition (WF.src b) = true ↔ (b.sel = 1#2 → b.rm ≠ 15#4) := by
  cases b with
  | reg r => simpa [WF.src, Src.sel, Src.rm] using WF.onlyCondition_reg r
  | absent | uimm | simm => simp [WF.src, WF.onlyCondition, Src.sel]

theorem WF.onlyCondition_required (b : Src) :
    WF.onlyCondition (WF.required b) = true ↔ b.sel ≠ 0#2 ∧ (b.sel = 1#2 → b.rm ≠ 15#4) := by
  cases b with
  | reg r => simpa [WF.required, Src.sel, Src.rm] using WF.onlyCondition_reg r
  | absent | uimm | simm => simp [WF.required, WF.onlyCondition, Src.sel]

theorem WF.onlyCondition_cond (c : Cond) : WF.onlyCondition (WF.cond c) = true := by cases c <;> rfl

theorem WF.condition_not_mem_pi (p : PcInc) : Defect.condition ∉ WF.pi p := by cases p <;> decide

theorem WF.condition_not_mem_reg (r : Reg) : Defect.condition ∉ WF.reg r := by
  unfold WF.reg
  split <;> decide

theorem WF.condition_not_mem_optReg (a : Option Reg) : Defect.condition ∉ WF.optReg a := by
  cases a with
  | none => exact List.not_mem_nil
  | some r => exact WF.condition_not_mem_reg r

theorem WF.condition_not_mem_src (b : Src) : Defect.condition ∉ WF.src b := by
  cases b with
  | reg r => exact WF.condition_not_mem_reg r
  | absent | uimm | simm => exact List.not_mem_nil

theorem WF.condition_not_mem_required (b : Src) : Defect.condition ∉ WF.required b := by
  cases b with
  | reg r => exact WF.condition_not_mem_reg r
  | uimm | simm => exact List.not_mem_nil
  | absent => decide

theorem WF.condition_mem_cond (c : Cond) : Defect.condition ∈ WF.cond c ↔ 13 < c.code.toNat := by
  cases c <;> decide

/-- R92's choice of the fatal code, by the two questions the raw table asks. -/
theorem Instr.illFormed_code (i : Instr) :
    i.illFormed.map FatalCode.ofIllFormed =
      if WF.onlyCondition i.defects then (if Defect.condition ∈ i.defects then some .badCond else none) else some .badUop := by
  unfold Instr.illFormed
  cases i.defects with
  | nil => rfl
  | cons d ds =>
    change Option.map _ (if WF.onlyCondition (d :: ds) then _ else _) = _
    split
    · next ho =>
      have hd : Defect.condition ∈ d :: ds := by
        have hhead : d = .condition := eq_of_beq (List.all_eq_true.mp ho d List.mem_cons_self)
        simp [hhead]
      rw [if_pos hd]
      rfl
    · rfl

/-- A condition code is wrong in the record exactly where it is in the micro-op. -/
theorem Fields.badCondition_encode (i : Instr) : (Encode.fields i).badCondition = true ↔ Defect.condition ∈ i.defects := by
  cases i with
  | bcond c simm pi =>
    simp [Encode.fields, Fields.badCondition, Fields.blank, Instr.defects, c.code_field, WF.condition_not_mem_pi,
      WF.condition_mem_cond]
  | alu sub rd a b cin fw pi | cmp sub a b cin fw pi | mul rd rn b fw pi =>
    simp [Encode.fields_alu, Encode.fields_cmp, Encode.fields_mul, Fields.badCondition, Instr.defects, WF.condition_not_mem_pi,
      WF.condition_not_mem_reg, WF.condition_not_mem_optReg, WF.condition_not_mem_src, WF.condition_not_mem_required]
  | _ =>
    simp [Encode.fields, Encode.load_eq, Encode.store_eq, Fields.badCondition, Fields.blank, Fields.withA, Instr.defects,
      WF.condition_not_mem_pi, WF.condition_not_mem_reg, WF.condition_not_mem_required]

/-- On an encoding R92's table fails exactly where the micro-op has a defect other than its condition code. -/
theorem Fields.tableOk_encode (i : Instr) :
    (Encode.fields i).commonOk = true ∧ (Encode.fields i).kindOk = true ↔ WF.onlyCondition i.defects = true := by
  cases i with
  | alu sub rd a b cin fw pi =>
    rw [Fields.commonOk_iff]
    cases cin <;>
    · simp [Encode.fields_alu, Fields.kindOk, Fields.selC, Instr.defects, WF.onlyCondition_append, WF.onlyCondition_pi,
        WF.onlyCondition_reg, WF.onlyCondition_optReg, WF.onlyCondition_src]
      tauto
  | cmp sub a b cin fw pi =>
    rw [Fields.commonOk_iff]
    cases cin <;>
      simp [Encode.fields_cmp, Fields.kindOk, Fields.selC, Instr.defects, WF.onlyCondition_append, WF.onlyCondition_pi,
        WF.onlyCondition_optReg, WF.onlyCondition_src]
  | mul rd rn b fw pi =>
    rw [Fields.commonOk_iff]
    simp [Encode.fields_mul, Fields.kindOk, Instr.defects, WF.onlyCondition_append, WF.onlyCondition_pi, WF.onlyCondition_reg,
      WF.onlyCondition_required]
    tauto
  | ldb rd rn off pi | ldsb rd rn off pi | ldh rd rn off pi | ldsh rd rn off pi | ldw rd rn off pi | ldsw rd rn off pi =>
    rw [Fields.commonOk_iff]
    simp [Encode.fields, Encode.load_eq, Fields.kindOk, Fields.sizeOk, Instr.defects, WF.onlyCondition_append,
      WF.onlyCondition_pi, WF.onlyCondition_reg, WF.onlyCondition_required]
    tauto
  | stb ra rn off pi | sth ra rn off pi | stw ra rn off pi =>
    rw [Fields.commonOk_iff]
    simp [Encode.fields, Encode.store_eq, Fields.kindOk, Fields.sizeOk, Instr.defects, WF.onlyCondition_append,
      WF.onlyCondition_pi, WF.onlyCondition_reg, WF.onlyCondition_required]
    tauto
  | bcond c simm pi =>
    rw [Fields.commonOk_iff]
    simp [Encode.fields, Fields.blank, Fields.kindOk, Fields.plainOk, Instr.defects, WF.onlyCondition_append, WF.onlyCondition_pi,
      WF.onlyCondition_cond, c.code_field]
  | b simm pi | bl simm pi | svcHalt pi =>
    rw [Fields.commonOk_iff]
    simp [Encode.fields, Fields.blank, Fields.kindOk, Fields.plainOk, Instr.defects, WF.onlyCondition_pi]
  | bx rn pi | blx rn pi | setpc rn pi | svcPuts rn pi | svcPuti rn pi =>
    rw [Fields.commonOk_iff]
    simp [Encode.fields, Fields.blank, Fields.withA, Fields.kindOk, Fields.plainOk, Instr.defects, WF.onlyCondition_append,
      WF.onlyCondition_pi, WF.onlyCondition_reg]

theorem Fields.verdict_encode (i : Instr) : (Encode.fields i).verdict = i.illFormed.map FatalCode.ofIllFormed := by
  simp only [Fields.verdict, Bool.and_eq_true, Fields.tableOk_encode, Fields.badCondition_encode, Instr.illFormed_code]

/-! The verdict of issue. -/

/-- R92's table on the raw fields of a record says what the decoder makes of it. -/
theorem Record.verdict_eq (r : Record) : (Fields.unpack r).verdict = Record.verdict r := by
  unfold Record.verdict
  cases hd : decode r with
  | ok i =>
    rw [← Fields.verdict_used, ← Decode.encode_of_fields hd, Fields.verdict_encode]
  | error e =>
    have hbad : ¬((Fields.unpack r).commonOk && (Fields.unpack r).kindOk) = true := by
      intro h
      obtain ⟨hcommon, hkind⟩ := Bool.and_eq_true_iff.mp h
      obtain ⟨-, -, -, hz, -⟩ := (Fields.commonOk_iff _).mp hcommon
      obtain ⟨i, hi⟩ := Decode.ok_of_kindOk hz hkind
      cases hd.symm.trans hi
    exact if_neg hbad

/-- What issue does with the record at the front of the queue, by its verdict (R140 to R143, R92). -/
theorem issueStage_verdict {s : State} {e : IqEntry} {rest : List IqEntry} (hact : s.act = .issue) (hiq : s.iq = e :: rest) :
    (s.robFull = true ∧ issueStage s = .next s.stallRobFull)
    ∨ (s.robFull = false ∧ ∃ k, Record.verdict e.uop = some k ∧ issueStage s = .next (s.raise k e.pc (.record e.uop)))
    ∨ (s.robFull = false ∧ Record.verdict e.uop = none ∧ ∃ t, issueStage s = .next t ∧ t.fatal = s.fatal) := by
  unfold issueStage Record.verdict
  rw [hiq]
  cases hd : decode e.uop with
  | error r =>
    cases hf : s.robFull with
    | true => exact .inl ⟨rfl, by simp [hd]⟩
    | false => exact .inr (.inl ⟨rfl, .badUop, rfl, by simp [hd]⟩)
  | ok i =>
    have hexec : exec i (s.doing .issue) = .next (issueUop i.profile s) := by rw [doing_act hact, exec_of_issue i hact]
    have hill := i.profile_ill
    simp only [hd, hexec]
    rcases issueUop_cases i.profile hiq with ⟨hf, ht⟩ | ⟨hf, d, hd, ht⟩ | ⟨hf, hd, -, ht⟩ | ⟨hf, hd, j, -, ht⟩
    · exact .inl ⟨hf, by rw [ht]⟩
    · exact .inr (.inl ⟨hf, FatalCode.ofIllFormed d, by rw [← hill, hd]; rfl, by rw [ht]⟩)
    · exact .inr (.inr ⟨hf, by rw [← hill, hd]; rfl, _, congrArg _ ht, rfl⟩)
    · exact .inr (.inr ⟨hf, by rw [← hill, hd]; rfl, _, congrArg _ ht, rfl⟩)

/-- Settles O3: the cases of `issueStage_verdict`, the verdict taken from the raw fields by `Record.verdict_eq`. -/
theorem issueJudgesRecord : Obligations.IssueJudgesRecord := by
  intro s e rest hact hlive hiq
  rw [Record.verdict_eq]
  rcases issueStage_verdict hact hiq with ⟨hf, h⟩ | ⟨hf, k, hk, h⟩ | ⟨hf, hk, t, h, ht⟩
  · exact ⟨fun _ => h, fun hn => absurd hf (by simp [hn]), fun hn => absurd hf (by simp [hn])⟩
  · refine ⟨fun hn => absurd hf (by simp [hn]), fun _ k' hk' => ?_, fun _ hn => absurd hk (by simp [hn])⟩
    obtain rfl : k = k' := Option.some.inj (hk.symm.trans hk')
    exact h
  · exact ⟨fun hn => absurd hf (by simp [hn]), fun _ k' hk' => absurd hk (by simp [hk']), fun _ _ => ⟨t, h, ht.trans hlive⟩⟩

end Sys2Proof
end

section
/-! PROOFS. How a tick calls `exec` (R110, R112, R140): a terminal machine, the stage that hands a record on, the cycle of an idle back end, the
cycle in which a halt commits, and the count of cycles. -/

namespace Sys2Proof.Machine

/-! Terminal machines (R112). -/

theorem terminal_iff {s : State} : s.terminal = true ↔ s.halted = true ∨ s.fatal ≠ none := by
  simp [State.terminal, Option.isSome_iff_ne_none]

theorem step_terminal {s : State} (h : s.terminal = true) : step s = .next s := if_pos h

/-- Settles O37: the first test of `step`. -/
theorem terminalUnchanged : Obligations.TerminalUnchanged := fun _ h => step_terminal (terminal_iff.mpr h)

/-! The record a stage handles goes to `exec` (R110). -/

theorem execRecord_eq_exec {u : Record} {i : Instr} (h : decode u = .ok i) (a : Activity) (s : State) :
    execRecord u a s = exec i (s.doing a) := by
  unfold execRecord
  rw [h]

theorem commitStage_eq_exec {s : State} {i : Instr} (hg : s.commitGate = .go) (hi : decode (s.robAt s.head).uop = .ok i) :
    commitStage s = exec i (s.doing .commit) := by
  unfold commitStage
  rw [hg]
  exact execRecord_eq_exec hi _ s

theorem issueStage_eq_exec {s : State} {i : Instr} {e : IqEntry} {rest : List IqEntry} (hq : s.iq = e :: rest)
    (hi : decode e.uop = .ok i) : issueStage s = exec i (s.doing .issue) := by
  unfold issueStage
  rw [hq]
  dsimp only
  rw [hi]

/-- Settles O39: each stage runs `execRecord` on the record it handles (issue decodes by itself). -/
theorem stagesRunDecodedInstruction : Obligations.StagesRunDecodedInstruction := by
  intro s i
  refine ⟨commitStage_eq_exec, ?drain, ?scan, ?start, fun _ _ => issueStage_eq_exec⟩
  case drain =>
    intro r rest k hq hi
    unfold drain
    rw [hq, ← execRecord_eq_exec hi]
  case scan =>
    intro l rest keep n hport hmay hi
    rw [scanLoads, if_pos ⟨hport, hmay⟩, execRecord_eq_exec hi]
  case start =>
    intro c j js n hunits hi
    rw [startEntries, if_neg (Nat.not_le.mpr hunits), execRecord_eq_exec hi]

/-! A cycle in which the stages before issue find nothing to do. -/

theorem State.BackIdle.notReady {s : State} (h : s.BackIdle) (c : FuClass) (j : Nat) : (s.rsAt c j).isReady = false := by
  by_cases hj : j < (s.rs.get c).length
  · exact h.rs c _ (s.rsAt_mem c hj)
  · rw [rsAt_eq_free (Nat.le_of_not_lt hj)]
    rfl

/-- Where nothing is in flight that could move, the later stages begin with issue. -/
theorem State.BackIdle.laterStages_eq {s : State} (h : s.BackIdle) (hf : s.fatal = none) :
    laterStages s = andThen (andThen (issueStage s) decodeStage) fetchStage := by
  simp [laterStages, andThen, hf, writebackStage_none h.cq h.dly, executeStage_idle hf h.lq h.notReady]

theorem State.BackIdle.cycleStages_eq {s : State} (h : s.BackIdle) (hrun : s.terminal = false) :
    cycleStages s = andThen (andThen (issueStage s) decodeStage) fetchStage := by
  have hf := State.fatal_none hrun
  simp [cycleStages, andThen, commitStage_idle h.head, hf, State.halted_false hrun, h.laterStages_eq hf]

/-- Settles O38: with an idle back end the cycle is issue, decode and fetch, and issue is `exec` of the decoded record. -/
theorem stepRunsDecodedInstruction : Obligations.StepRunsDecodedInstruction := by
  intro s i e rest hrun hact hidle hq hi
  rw [step, hrun, hidle.cycleStages_eq hrun, issueStage_eq_exec hq hi, doing_act hact]
  rfl

/-! The cycle in which a halt commits (R113, R213). -/

/-- A cycle whose commit stage halts the machine ends there. -/
theorem step_of_halt {s u : State} (hrun : s.terminal = false) (hu : commitStage s = .next u) (hf : u.fatal = none)
    (hh : u.halted = true) : step s = .next (u.countCycle.doing .issue) := by
  have hcycle : cycleStages s = .next u := by simp [cycleStages, andThen, hu, hf, hh]
  rw [step, hrun, hcycle]
  simp [endCycle, hf]

/-- Settles O41: the commit of the head entry takes the halt path, so `step_of_halt` ends the cycle. -/
theorem haltEndsCycle : Obligations.HaltEndsCycle := by
  intro s i hrun hg hh hi
  have hcommit : commitStage s = .next (commitHalt (s.robAt s.head) (s.doing .commit)) := by
    rw [commitStage_eq_exec hg hi, exec_of_commit i rfl, commitUop_halt (s := s.doing .commit) i.profile hg hh]
    rfl
  have hf : s.fatal = none := State.fatal_none hrun
  rw [step_of_halt hrun hcommit hf rfl]
  rfl

/-! The count of cycles (R110, R291). -/

theorem LateUpdate.cycles {s t : State} (h : LateUpdate s t) : t.counters.cycles = s.counters.cycles := by cases h <;> rfl

theorem LateMoves.cycles {s t : State} (h : LateMoves s t) : t.counters.cycles = s.counters.cycles :=
  h.keeps (P := fun t => t.counters.cycles = s.counters.cycles) (fun _ _ hm hs => hm.update.cycles.trans hs) rfl

theorem commitDest_ok_cycles {size : Size} {e : RobEntry} {s x : State} (h : commitDest size e s = .ok x) :
    x.counters.cycles = s.counters.cycles := by
  rcases commitDest_ok_cases h with ⟨_, _, _, rfl⟩ | ⟨_, _, _, _, rfl⟩ | ⟨_, rfl⟩ <;> rfl

theorem CommitUpdate.cycles {s u : State} {e : RobEntry} (h : CommitUpdate s e u) : u.counters.cycles = s.counters.cycles := by
  cases h with
  | halt | storeFault | unresolved => rfl
  | retire i x _ hx =>
    obtain ⟨fl, rst, hflags⟩ := commitFlags_eq i.profile.fw e x
    obtain ⟨y, tr, hy, _, harch⟩ := commitRetire_eq i.profile.retire e (commitFlags i.profile.fw e x)
    rw [hy]
    calc y.counters.cycles = (commitFlags i.profile.fw e x).counters.cycles := harch.cycles
      _ = x.counters.cycles := by rw [hflags]
      _ = s.counters.cycles := commitDest_ok_cycles hx

theorem commitStage_cycles {s u : State} (h : commitStage s = .next u) : u.counters.cycles = s.counters.cycles :=
  commit_keeps (P := fun u => u.counters.cycles = s.counters.cycles) h rfl (fun _ => rfl) (fun _ _ hu => hu.cycles)

theorem endCycle_cycles (s : State) :
    (endCycle s).counters.cycles = if (endCycle s).fatal = none then s.counters.cycles + 1 else s.counters.cycles := by
  cases hf : s.fatal <;> simp [endCycle, hf, State.countCycle, State.doing]

/-- Settles O42: neither commit nor a later move touches the count; the end of the cycle adds one unless there is a fatal. -/
theorem cyclesCounted : Obligations.CyclesCounted := by
  intro s t hrun h
  rcases step_cases h with ⟨hterm, _⟩ | ⟨_, u, v, hu, hv, rfl, _⟩
  · simp [hrun] at hterm
  · rw [endCycle_cycles, hv.cycles, commitStage_cycles hu]

end Sys2Proof.Machine
end

section
/-! PROOFS. The passage of a micro-op alone in the machine that queues one bus record when it is started (R111, R164): from the instruction
queue to a ready entry at the head, and its last cycle; then ALU, ALUCMP and MUL (R166, R167, R240 to R242). -/

namespace Sys2Proof.Machine

/-! From the instruction queue to the last cycle. -/

/-- The entry of a micro-op other than a store, after its broadcast (R194). -/
theorem RobEntry.receive_issued {pc : Word} {u : Record} {d : Dest} (r : BusRecord) (h : d ≠ .awaiting) :
    (RobEntry.issued pc u d).receive r
      = { RobEntry.issued pc u d with value := r.val, target := r.tgt.getD 0#32, flags := r.fl, halt := r.halt, ready := true } := by
  cases d with
  | awaiting => exact absurd rfl h
  | discard | resolved | register => rfl

/-- A micro-op whose start pushes one record and writes nothing else is ready to commit `latency + 2` cycles after it was queued
alone. -/
theorem passage_record {s : State} {pc : Word} {u : Record} {i : Instr} {latency : Nat} (r : BusRecord) (h : s.Lone pc u)
    (hd : decode u = .ok i) (hw : i.wf = true) (hp : r.p = s.head) (hlat : 1 ≤ latency)
    (hstart : ∀ t : State, t.cfg = s.cfg → i.profile.start (s.loneStart pc i) t = some (t.push r latency)) :
    ∃ t : State, (∀ k, Sys2Proof.core.run (latency + 2 + k) s = Sys2Proof.core.run k t)
      ∧ OneReady t i ((RobEntry.issued pc u i.dest).receive r)
      ∧ Undisturbed { s with rst := t.rst } t ∧ ∀ q, t.rst.get q = if writesSlot i.dest i.fw q then some s.head else none := by
  obtain ⟨n, rfl⟩ : ∃ n, latency = n + 1 := ⟨latency - 1, by omega⟩
  obtain ⟨t, hrun, hready, hsame, hrst⟩ := passage_push (n := n) r 0#32 h hd hw hp fun t hcfg hentry hlt => by
    have hrob : t.setRob s.head { RobEntry.issued pc u i.dest with value := 0#32 } = t := setRob_issued hentry hlt
    rw [hstart t hcfg, hrob]
  exact ⟨t, fun k => (congrArg (Sys2Proof.core.run · s) (by omega)).trans (hrun k), hready, hsame, hrst⟩

/-- A micro-op without a register and without flags writes no slot (R149). -/
theorem writesSlot_nothing {d : Dest} (h : d.slot = none) (q : Slot) : writesSlot d 0#4 q = false := by
  cases q <;> simp [writesSlot, h, flagBit]

/-- The run that ends with the next step. -/
theorem run_last {s t v : State} {n : Nat} (hrun : ∀ k, Sys2Proof.core.run (n + k) s = Sys2Proof.core.run k t)
    (hstep : step t = .next v) : Sys2Proof.core.run (n + 1) s = .next v := by
  rw [hrun 1, run_succ hstep]
  rfl

theorem Undisturbed.getReg {s t : State} {rst : Rst} (h : Undisturbed { s with rst := rst } t) (q : Reg) :
    t.getReg q = s.getReg q := by
  unfold State.getReg
  rw [h.regs]

/-- The last cycle of a micro-op that writes its value to a register or discards it (R214, R216). -/
theorem OneReady.retireResult {t : State} {i : Instr} {E : RobEntry} (h : OneReady t i E) (hE : E.dest = i.dest)
    (hdest : (∃ rd uf, i.dest = .register rd uf) ∨ i.dest = .discard) (hh : E.halt = false) (hret : i.profile.retire = .plain)
    (hrst : ∀ q, t.rst.get q = if writesSlot i.dest i.fw q then some t.head else none) :
    ∃ v, step t = .next v ∧ v.Drained ∧ (∀ q, v.getReg q = if i.dest.slot = some (.reg q) then E.value else t.getReg q)
      ∧ v.mem = t.mem ∧ (∀ f, v.flags.get f = if flagBit i.fw f then flagBit E.flags f else t.flags.get f)
      ∧ v.out = t.out ∧ v.terminal = false ∧ v.counters.committed = t.counters.committed + 1 := by
  rcases hdest with ⟨rd, uf, hd⟩ | hd
  · obtain ⟨v, hstep, hdrained, hregs, hrest⟩ := h.retireRegister (hE.trans hd) hd hh hret hrst
    refine ⟨v, hstep, hdrained, fun q => ?_, hrest⟩
    simp [hregs, hd, Dest.slot, eq_comm]
  · obtain ⟨v, hstep, hdrained, hregs, hrest⟩ := h.retirePlain hh hret (commitDest_discard _ (hE.trans hd) _)
      ⟨rfl, rfl, rfl, rfl, rfl, rfl, rfl, rfl, rfl, rfl, rfl, rfl, rfl, rfl⟩
      (fun q => (hrst (.reg q)).trans (by simp [writesSlot, hd, Dest.slot]))
      (fun f => hrst (.flag f))
    refine ⟨v, hstep, hdrained, fun q => ?_, hrest⟩
    unfold State.getReg
    simp [hregs, hd, Dest.slot, State.doing]

/-- A micro-op alone whose start pushes its value and its flags: `latency + 3` cycles, and its architectural effect. -/
theorem passage_result {s : State} {pc : Word} {u : Record} {i : Instr} {latency : Nat} {val : Word} {fl : BitVec 4} (h : s.Lone pc u)
    (hd : decode u = .ok i) (hw : i.wf = true) (hdest : (∃ rd uf, i.dest = .register rd uf) ∨ i.dest = .discard)
    (hret : i.profile.retire = .plain) (hlat : 1 ≤ latency)
    (hstart : ∀ t : State, t.cfg = s.cfg → i.profile.start (s.loneStart pc i) t
      = some (t.push { p := s.head, val := val, tgt := none, fl := fl, halt := false } latency)) :
    ∃ v, Sys2Proof.core.run (latency + 3) s = .next v ∧ v.Drained
      ∧ (∀ q, v.getReg q = if i.dest.slot = some (.reg q) then val else s.getReg q)
      ∧ (∀ f, v.flags.get f = if flagBit i.fw f then flagBit fl f else s.flags.get f)
      ∧ v.mem = s.mem ∧ v.out = s.out ∧ v.terminal = false ∧ v.counters.committed = s.counters.committed + 1 := by
  have hne : i.dest ≠ .awaiting := by rcases hdest with ⟨rd, uf, hreg⟩ | hdiscard <;> simp [*]
  obtain ⟨t, hrun, hready, hsame, hrst⟩ := passage_record _ h hd hw rfl hlat hstart
  rw [RobEntry.receive_issued _ hne] at hready
  obtain ⟨v, hstep, hdrained, hregs, hmem, hflags, hout, hterminal, hcommitted⟩ :=
    hready.retireResult rfl hdest rfl hret fun q => by rw [hsame.head]; exact hrst q
  exact ⟨v, run_last hrun hstep, hdrained, fun q => by rw [hregs, hsame.getReg], fun f => by rw [hflags, hsame.flags],
    hmem.trans hsame.mem, hout.trans hsame.out, hterminal, hcommitted.trans (congrArg (· + 1) hsame.counters.1)⟩

/-! ALU and ALUCMP. -/

/-- ALU and ALUCMP start alike and retire alike; the one writes a register, the other none (R240, R241). -/
theorem alu_profile {i : Instr} {sub : BitVec 6}
    (h : (∃ rd a o cin fw pi, i = .alu sub rd a o cin fw pi) ∨ (∃ a o cin fw pi, i = .cmp sub a o cin fw pi)) :
    i.profile.start = startAlu sub ∧ i.profile.retire = .plain ∧ ((∃ rd uf, i.dest = .register rd uf) ∨ i.dest = .discard) := by
  rcases h with ⟨rd, a, o, cin, fw, pi, rfl⟩ | ⟨a, o, cin, fw, pi, rfl⟩
  · exact ⟨rfl, rfl, .inl ⟨rd, _, rfl⟩⟩
  · exact ⟨rfl, rfl, .inr rfl⟩

/-- Settles O55: `passage_result` on the record that the start of an ALU or ALUCMP pushes. -/
theorem aluPassage : Obligations.AluPassage := by
  intro s pc u i sub h hd hw hkind
  obtain ⟨hstart, hret, hdest⟩ := alu_profile hkind
  obtain ⟨v, hrun, hdrained, hregs, hflags, hrest⟩ := passage_result
    (val := (alu s.cfg sub (s.sourceValue i.sources.1) (s.sourceValue i.sources.2.1) ((s.sourceValue i.sources.2.2).getLsbD 0)).1)
    (fl := (alu s.cfg sub (s.sourceValue i.sources.1) (s.sourceValue i.sources.2.1) ((s.sourceValue i.sources.2.2).getLsbD 0)).2)
    (latency := Config.latAlu) h hd hw hdest hret (Nat.le_refl 1) fun t hcfg => by rw [hstart, startAlu, hcfg]; rfl
  exact ⟨v, _, hrun, hdrained, rfl, hregs, hflags, hrest⟩

/-! MUL. -/

theorem flagBit_flagRecord (n z c v : Bool) (f : Flag) :
    flagBit (flagRecord n z c v) f = PerFlag.get { n := n, z := z, c := c, v := v } f := by
  revert n z c v
  cases f <;> decide

theorem flagBit_mulFlags (r : Word) :
    flagBit (mulFlags r) .n = r.msb ∧ flagBit (mulFlags r) .z = decide (r = 0#32) := by
  unfold mulFlags
  exact ⟨flagBit_flagRecord .., flagBit_flagRecord ..⟩

/-- The flag mask of a MUL has no room for C and V (R242). -/
theorem flagBit_mulMask (fw : BitVec 2) :
    flagBit (fw.setWidth 4) .n = fw.getLsbD 0 ∧ flagBit (fw.setWidth 4) .z = fw.getLsbD 1
      ∧ flagBit (fw.setWidth 4) .c = false ∧ flagBit (fw.setWidth 4) .v = false := by
  revert fw
  decide

/-- Settles O56: `passage_result` on the record that the start of a MUL pushes. -/
theorem mulPassage : Obligations.MulPassage := by
  intro s pc u rd rn o fw pi h hd hw
  obtain ⟨v, hrun, hdrained, hregs, hflags, hrest⟩ := passage_result (val := s.getReg rn * s.sourceValue (.ofSrc o))
    (fl := mulFlags (s.getReg rn * s.sourceValue (.ofSrc o))) (latency := Config.latMul) h hd hw (.inl ⟨rd, _, rfl⟩) rfl
    (by decide) fun t _ => rfl
  have hrd : v.getReg rd = s.getReg rn * s.sourceValue (.ofSrc o) := (hregs rd).trans (if_pos rfl)
  have hother : ∀ q : Reg, q ≠ rd → v.getReg q = s.getReg q := fun q hq =>
    (hregs q).trans (if_neg fun hslot => hq (by cases hslot; rfl))
  obtain ⟨hn, hz, hc, hv⟩ := flagBit_mulMask fw
  obtain ⟨hsign, hzero⟩ := flagBit_mulFlags (s.getReg rn * s.sourceValue (.ofSrc o))
  refine ⟨v, hrun, hdrained, ?product, hother, ?n, ?z, ?c, ?v, hrest⟩
  case product => rw [hrd, BitVec.toNat_mul]
  case n => rw [hrd, ← hsign, ← hn]; exact hflags .n
  case z => rw [hrd, ← hzero, ← hz]; exact hflags .z
  case c => exact (hflags .c).trans (if_neg (by simp [Instr.fw, hc]))
  case v => exact (hflags .v).trans (if_neg (by simp [Instr.fw, hv]))

end Sys2Proof.Machine
end

section
/-! PROOFS. The passages of a STORE (R170, R215, R260), of a relative branch that goes as predicted (R217, R270 to R272) and of an SVC HALT
(R213, R280), each alone in the machine. -/

namespace Sys2Proof.Machine

/-! STORE. -/

/-- Every STORE runs the profile of stores, for its size (R260). -/
theorem store_profile {i : Instr} {size : Size} {sg : Bool} (hs : i.isStore = true) (ha : i.access = some (size, sg)) :
    ∃ ra rn off, i.profile = storeProfile i.illFormed ra rn off size := by
  cases i with
  | stb ra rn off | sth ra rn off | stw ra rn off =>
    cases ha
    exact ⟨ra, rn, off, rfl⟩
  | _ => exact absurd hs (by simp [Instr.isStore, Instr.kind])

/-- What a write makes of memory depends on the configuration and on memory only (R61). -/
theorem memWrite_congr {s t : State} (hc : t.cfg = s.cfg) (hm : t.mem = s.mem) (a : Word) (n : Nat) (v : Word) :
    t.memWrite a n v = s.memWrite a n v := by
  unfold State.memWrite
  rw [hc, hm]

theorem commitDest_resolved {size : Size} {e : RobEntry} {s : State} {a : Word} {m : Memory} (hd : e.dest = .resolved a)
    (hm : s.memWrite a size.bytes e.value = some m) : commitDest size e s = .ok { s with mem := m } := by
  simp [commitDest, hd, hm]

/-- A STORE alone is ready to commit `2 + LAT_LS` cycles after it was queued, its data and its address in its ROB entry (R170, R194). -/
theorem passage_store {s : State} {pc : Word} {u : Record} {i : Instr} {ea : Word} (h : s.Lone pc u) (hd : decode u = .ok i)
    (hw : i.wf = true) (hstart : i.profile.start = startStore) (hdest : i.dest = .awaiting)
    (hea : effectiveAddress (s.sourceValue i.sources.1) (s.sourceValue i.sources.2.1) = ea) :
    ∃ t : State, (∀ k, Sys2Proof.core.run (2 + s.cfg.latLs + k) s = Sys2Proof.core.run k t)
      ∧ OneReady t i { RobEntry.issued pc u (.resolved ea) with value := s.sourceValue i.sources.2.2, ready := true }
      ∧ Undisturbed { s with rst := t.rst } t ∧ ∀ q, t.rst.get q = if writesSlot i.dest i.fw q then some s.head else none := by
  obtain ⟨n, hn⟩ : ∃ n, s.cfg.latLs = n + 1 := ⟨s.cfg.latLs - 1, by have := (Cfg.ok_bounds h.ok).2.2.2.2.2.1; omega⟩
  obtain ⟨t, hrun, hready, hsame, hrst⟩ := passage_push (n := n)
    { p := s.head, val := ea, tgt := none, fl := 0#4, halt := false } (s.sourceValue i.sources.2.2) h hd hw rfl
    fun t hcfg hentry _ => by
      have hpc : t.robAt (s.loneStart pc i).p = .issued pc u i.dest := hentry
      rw [hstart, startStore, hpc, hcfg, hn, ← hea]
      rfl
  rw [hdest] at hready
  exact ⟨t, fun k => (congrArg (Sys2Proof.core.run · s) (by omega)).trans (hrun k), hready, hsame, hrst⟩

/-- Settles O57: `passage_store`, then a commit that writes memory as `memWrite` says. -/
theorem storePassage : Obligations.StorePassage := by
  intro s pc u i size sg ea m h hd hw hstore hacc hea hm
  obtain ⟨ra, rn, off, hprofile⟩ := store_profile hstore hacc
  have hdest : i.dest = .awaiting := by rw [← i.profile_dest, hprofile]; rfl
  have hfw : i.fw = 0#4 := by rw [← i.profile_fw, hprofile]; rfl
  obtain ⟨t, hrun, hready, hsame, hrst⟩ :=
    passage_store h hd hw (by rw [hprofile]; rfl) hdest (effectiveAddress_eq hea)
  have hnone : ∀ q, t.rst.get q = none := fun q => by
    rw [hrst, hdest, hfw, writesSlot_nothing rfl]
    rfl
  have hwrite : (t.doing .commit).memWrite ea i.profile.size.bytes (s.sourceValue i.sources.2.2) = some m := by
    rw [hprofile]
    exact (memWrite_congr (t := t.doing .commit) hsame.cfg hsame.mem _ _ _).trans hm
  obtain ⟨v, hstep, hdrained, hregs, hmem, hflags, hout, hterminal, hcommitted⟩ :=
    hready.retirePlain rfl (by rw [hprofile]; rfl) (commitDest_resolved rfl hwrite)
      ⟨rfl, rfl, rfl, rfl, rfl, rfl, rfl, rfl, rfl, rfl, rfl, rfl, rfl, rfl⟩
      (fun q => hnone (.reg q)) (fun f => by rw [hfw]; simpa [flagBit] using hnone (.flag f))
  have hflags : v.flags = s.flags := PerFlag.ext_get fun f => by
    rw [hflags f, hfw, ← hsame.flags]
    simp [flagBit, State.doing]
  refine ⟨v, ?run, hdrained, hmem, fun hwf x hx => ?frame, hregs.trans hsame.regs, hflags, hout.trans hsame.out, hterminal,
    hcommitted.trans (congrArg (· + 1) hsame.counters.1)⟩
  case run => exact (congrArg (Sys2Proof.core.run · s) (by omega)).trans (run_last hrun hstep)
  case frame =>
    rw [hmem]
    exact memWrite_frame (size.bytes_le.trans (by decide)) hm hwf hx

/-! B, BL and BCOND. -/

/-- The operands of a conditional branch carry the flags it reads, each at its position in `CondReads` (R271). -/
theorem operandFlag_reads (fl : PerFlag Bool) (f : Flag) (gs : List Flag) (rest : List Word) :
    operandFlag f gs (gs.map (fun g => flagWord (fl.get g)) ++ rest) = (decide (f ∈ gs) && fl.get f) := by
  induction gs with
  | nil => rfl
  | cons g gs ih =>
    by_cases hg : g = f
    · subst hg
      cases hb : fl.get g <;> simp [operandFlag, hb, flagWord]
    · have hne : f ≠ g := fun h => hg h.symm
      simpa [operandFlag, hg, hne] using ih

/-- A condition depends on no flag outside `CondReads` (R276). -/
theorem condHolds_reads (c : Cond) (fl : PerFlag Bool) (rest : List Word) :
    condHolds c (operandFlags c ((condReads c).map (fun g => flagWord (fl.get g)) ++ rest)) = condHolds c fl := by
  unfold operandFlags
  simp only [operandFlag_reads]
  cases c <;> simp [condReads, condHolds, PerFlag.get]

/-- What the operand slots of a conditional branch hold where no producer is pending (R89, R146). -/
theorem sourceValue_ofCond (s : State) (c : Cond) :
    ∃ rest, [s.sourceValue (.ofCond c 0), s.sourceValue (.ofCond c 1), s.sourceValue (.ofCond c 2)]
      = (condReads c).map (fun g => flagWord (s.flags.get g)) ++ rest := by
  cases c <;> exact ⟨_, rfl⟩

/-- B, BL and BCOND start alike on their outcome, and retire as relative branches that write nothing (R270 to R272). -/
theorem relative_profile {s : State} {pc : Word} {i : Instr} {taken : Bool}
    (h : (∃ simm pi, (i = .b simm pi ∨ i = .bl simm pi) ∧ taken = true)
      ∨ (∃ cond simm pi, i = .bcond cond simm pi ∧ taken = condHolds cond s.flags)) :
    ∃ simm inc, i.profile.start (s.loneStart pc i) = startRelative simm taken (s.loneStart pc i)
      ∧ i.profile.retire = .relative inc ∧ i.dest = .discard ∧ i.fw = 0#4 := by
  rcases h with ⟨simm, pi, rfl | rfl, rfl⟩ | ⟨cond, simm, pi, rfl, rfl⟩
  · exact ⟨simm, pcIncrement pi, rfl, rfl, rfl, rfl⟩
  · exact ⟨simm, pcIncrement pi, rfl, rfl, rfl, rfl⟩
  · refine ⟨simm, pcIncrement pi, funext fun t => ?_, rfl, rfl, rfl⟩
    obtain ⟨rest, hops⟩ := sourceValue_ofCond s cond
    show startCond cond simm _ t = _
    unfold startCond
    rw [← condHolds_reads cond s.flags rest, ← hops]
    rfl

/-- Settles O59: `passage_record` on the outcome of the branch, then a commit that finds the prediction right. -/
theorem branchPassage : Obligations.BranchPassage := by
  intro s pc u i taken h hd hw hkind hpolicy
  obtain ⟨simm, inc, hstart, hret, hdest, hfw⟩ := relative_profile (pc := pc) hkind
  have hlat : 1 ≤ s.cfg.latCtrl := (Cfg.ok_bounds h.ok).2.2.2.2.2.2.1
  obtain ⟨t, hrun, hready, hsame, hrst⟩ := passage_record
    { p := s.head, val := flagWord taken, tgt := some (pc + simm), fl := 0#4, halt := false } h hd hw rfl hlat
    fun t hcfg => by rw [hstart, startRelative, hcfg]; rfl
  rw [hdest, RobEntry.receive_issued _ (by simp)] at hready
  have hnone : ∀ q, t.rst.get q = none := fun q => by
    rw [hrst, hdest, hfw, writesSlot_nothing rfl]
    rfl
  have hdirection : decide (flagWord taken ≠ 0#32) = predictedTaken t.cfg := by
    rw [hsame.cfg, predictedTaken, decide_eq_decide, ← hpolicy]
    cases taken <;> simp [flagWord]
  obtain ⟨v, hstep, hdrained, hregs, hflags, hmem, hout, hterminal, hspec, hcommitted, hbranches, hmispredicts⟩ :=
    hready.retirePredicted rfl rfl hret hfw hdirection hnone
  obtain ⟨hcom, hbr, hmis⟩ := hsame.counters
  exact ⟨v, (congrArg (Sys2Proof.core.run · s) (by omega)).trans (run_last hrun hstep), hdrained, hregs.trans hsame.regs,
    hflags.trans hsame.flags, hmem.trans hsame.mem, hout.trans hsame.out, hterminal, hspec.trans hsame.specPc,
    hcommitted.trans (congrArg (· + 1) hcom), hbranches.trans (congrArg (· + 1) hbr), hmispredicts.trans hmis⟩

/-! SVC HALT. -/

/-- Settles O60: `passage_record` on the record that asks for a halt, then the cycle of `haltEndsCycle`. -/
theorem haltPassage : Obligations.HaltPassage := by
  intro s pc u pi h hd hw
  have hlat : 1 ≤ s.cfg.latCtrl := (Cfg.ok_bounds h.ok).2.2.2.2.2.2.1
  obtain ⟨t, hrun, hready, hsame, -⟩ := passage_record
    { p := s.head, val := 0#32, tgt := none, fl := 0#4, halt := true } h hd hw rfl hlat
    fun t hcfg => by rw [← hcfg]; rfl
  have hentry : (t.robAt t.head).halt = true := by rw [hready.entry]; rfl
  have hrecord : decode (t.robAt t.head).uop = .ok (.svcHalt pi) := by rw [hready.entry]; exact hready.uop
  have hfatal : t.fatal = none := State.fatal_none hready.running
  have hstep := haltEndsCycle t (.svcHalt pi) hready.running hready.gate hentry hrecord
  exact ⟨_, (congrArg (Sys2Proof.core.run · s) (by omega)).trans (run_last hrun hstep), rfl, hfatal,
    hsame.getReg 0#4, hsame.regs, hsame.flags, hsame.mem, hsame.out, congrArg (· + 1) hsame.counters.1⟩

end Sys2Proof.Machine
end

section
/-! PROOFS. The front end, one equation per branch: the fetch stage (R123, R124, R126, R127) and the decode stage (R128, R129, R132,
R134). -/

namespace Sys2Proof.Machine

/-! Fetch. -/

/-- While the redirection latency runs, only the delay counts down (R127). -/
theorem fetchStage_delayed {s : State} (h : 0 < s.fetchDelay) :
    fetchStage s = .next { s with fetchDelay := s.fetchDelay - 1 } := by
  unfold fetchStage
  rw [if_pos h]

/-- Fetch waits while a supervisor call holds it (R126) and while its buffer is full (R123). -/
theorem fetchStage_held {s : State} (hdelay : s.fetchDelay = 0) (h : s.fetchStall = true ∨ s.cfg.fbCap ≤ s.fb.length) :
    fetchStage s = .next s := by
  unfold fetchStage
  rw [if_neg (by omega)]
  rcases h with hstall | hfull
  · rw [if_pos hstall]
  · rw [if_pos hfull, ite_self]

/-- The fetch buffer takes an item in this cycle (R123). -/
structure State.FetchReady (s : State) : Prop where
  delay : s.fetchDelay = 0
  running : s.fetchStall = false
  room : s.fb.length < s.cfg.fbCap

/-- What a ready fetch makes of each answer of the instruction memory (R62, R123). -/
def State.afterFetch (s : State) : Fetched → State
  | .fail => s.raise .memFetch s.specPc (.word s.specPc)
  | .item raw => s.fetched raw
  | .short raw => { s.fetched raw with freeCount := s.freeCount + 1 }

theorem fetchStage_ready {s : State} (h : s.FetchReady) : fetchStage s = .next (s.afterFetch (s.ifetch s.specPc)) := by
  obtain ⟨hdelay, hrunning, hroom⟩ := h
  unfold fetchStage
  rw [if_neg (by omega), if_neg (by simp [hrunning]), if_neg (by omega)]
  cases s.ifetch s.specPc with
  | fail | item raw | short raw => rfl

/-- Where fetch was not stalled, the item alone decides whether it is (R126). -/
theorem State.fetched_of_running {s : State} (h : s.fetchStall = false) (raw : Word) :
    s.fetched raw = { s with
      fb := s.fb ++ [{ pc := s.specPc, raw := raw }]
      specPc := nextPc s.cfg (prescan s.cfg raw s.specPc) s.specPc (ilen s.cfg raw)
      fetchStall := decide (prescan s.cfg raw s.specPc = .svc) } := by
  rw [State.fetched, h, Bool.false_or]

/-- Settles O35: an equation for each reason to wait, and `fetchStage_ready` on each answer of the instruction memory. The statement
writes `nextPc` out (R124). -/
theorem fetchStage_spec : Obligations.FetchStage := by
  intro s
  refine ⟨fetchStage_delayed, fetchStage_held, fun hdelay hrunning hroom => ?_⟩
  have hready : s.FetchReady := ⟨hdelay, hrunning, hroom⟩
  refine ⟨fun hfail => ?_, fun raw drawn hanswer => ?_⟩
  · rw [fetchStage_ready hready, hfail]
    rfl
  · rcases hanswer with ⟨hitem, rfl⟩ | ⟨hshort, rfl⟩
    · rw [fetchStage_ready hready, hitem, State.afterFetch, State.fetched_of_running hrunning]
      rfl
    · rw [fetchStage_ready hready, hshort, State.afterFetch, State.fetched_of_running hrunning]
      rfl

/-! Decode. -/

theorem decodeStage_of_empty {s : State} (h : s.fb = []) : decodeStage s = .next s := by
  unfold decodeStage
  rw [h]

/-- Too little room in the instruction queue suppresses decode (R129). -/
theorem decodeStage_suppressed {s : State} (h : s.cfg.iqCap - s.iq.length < s.cfg.iqHeadroom) : decodeStage s = .next s := by
  cases hfb : s.fb with
  | nil => exact decodeStage_of_empty hfb
  | cons e rest =>
    unfold decodeStage
    rw [hfb]
    exact if_pos h

/-- What decode makes of the front item `e` of the buffer, with `rest` behind it, from the expansion of the item (R128). -/
def State.afterDecode (s : State) (e : FbEntry) (rest : List FbEntry) : Option (List Record) → State
  | none => { s with fb := rest }.raise .undef e.pc (.word e.raw)
  | some l =>
    if l.length = 0 ∨ s.cfg.iqHeadroom < l.length then { s with fb := rest }.raise .internal e.pc (.word e.raw)
    else { s with fb := rest, iq := s.iq ++ l.map (fun u => { pc := e.pc, uop := u }) }

theorem decodeStage_of_room {s : State} {e : FbEntry} {rest : List FbEntry} (hfb : s.fb = e :: rest)
    (hroom : s.cfg.iqHeadroom ≤ s.cfg.iqCap - s.iq.length) :
    decodeStage s = .next (s.afterDecode e rest (decodeExpand s.cfg e.raw)) := by
  unfold decodeStage
  simp only [hfb, if_neg (Nat.not_lt.mpr hroom)]
  cases decodeExpand s.cfg e.raw with
  | none => rfl
  | some l => exact (apply_ite Host.Outcome.next _ _ _).symm

/-- An expansion of no micro-ops, or of more than the headroom, is the fatal INTERNAL (R134). -/
theorem State.afterDecode_badLength (s : State) (e : FbEntry) (rest : List FbEntry) {l : List Record}
    (h : l.length = 0 ∨ s.cfg.iqHeadroom < l.length) :
    s.afterDecode e rest (some l) = { s with fb := rest }.raise .internal e.pc (.word e.raw) :=
  if_pos h

/-- An expansion that fits the headroom enters the queue (R128, R135). -/
theorem State.afterDecode_fits (s : State) (e : FbEntry) (rest : List FbEntry) {l : List Record}
    (hsome : 0 < l.length) (hfits : l.length ≤ s.cfg.iqHeadroom) :
    s.afterDecode e rest (some l) = { s with fb := rest, iq := s.iq ++ l.map (fun u => { pc := e.pc, uop := u }) } :=
  if_neg (by omega)

/-- Settles O36: the two reasons to wait, then `decodeStage_of_room` on each kind of expansion. -/
theorem decodeStage_spec : Obligations.DecodeStage := by
  intro s
  refine ⟨decodeStage_of_empty, fun e rest hfb => ⟨decodeStage_suppressed, fun hroom => ?_⟩⟩
  rw [decodeStage_of_room hfb hroom]
  refine ⟨fun hundef => ?_, fun l hl => ⟨fun hbad => ?_, fun hsome hfits => ?_⟩⟩
  · rw [hundef]
    rfl
  · rw [hl, s.afterDecode_badLength e rest hbad]
    rfl
  · rw [hl, s.afterDecode_fits e rest hsome hfits]

end Sys2Proof.Machine
end

section
/-! PROOFS. Issue (R140 to R150): what issue does with the micro-op at the front of the queue, one equation per branch, what
the allocation leaves in the slots it takes, and the cases of `rename`. -/

namespace Sys2Proof

theorem Instr.wf_iff {i : Instr} : i.wf = true ↔ i.illFormed = none := Option.isNone_iff_eq_none

theorem Instr.ill_of_not_wf {i : Instr} (h : i.wf = false) : ∃ d, i.illFormed = some d := by
  refine Option.ne_none_iff_exists'.mp fun hnone => ?_
  rw [Instr.wf_iff.mpr hnone] at h
  cases h

namespace Machine

/-! The branches of issue. -/

section

variable {i : Instr} {s : State} {e : IqEntry} {rest : List IqEntry}

/-- A full ROB holds issue back (R141). -/
theorem exec_issue_robFull (hact : s.act = .issue) (hq : s.iq = e :: rest) (hfull : s.robFull = true) :
    exec i s = .next s.stallRobFull := by
  rw [exec_of_issue i hact]
  simp [issueUop, hq, hfull]

/-- An ill-formed micro-op is a fatal (R142). -/
theorem exec_issue_illFormed (hact : s.act = .issue) (hq : s.iq = e :: rest) (hroom : s.robFull = false) {d : IllFormed}
    (hill : i.illFormed = some d) : exec i s = .next (s.raise (FatalCode.ofIllFormed d) e.pc (.record e.uop)) := by
  rw [exec_of_issue i hact]
  simp [issueUop, hq, hroom, i.profile_ill, hill]

/-- A class with no free station holds issue back (R143). -/
theorem exec_issue_rsFull (hact : s.act = .issue) (hq : s.iq = e :: rest) (hroom : s.robFull = false) (hwf : i.wf = true)
    (hnone : freeSlot (s.rs.get i.cls) = none) : exec i s = .next s.stallRsFull := by
  rw [exec_of_issue i hact]
  simp [issueUop, hq, hroom, i.profile_ill, Instr.wf_iff.mp hwf, i.profile_cls, hnone]

/-- Otherwise the micro-op takes the ROB slot at the tail and the lowest free station of its class (R140, R145). -/
theorem exec_issue_allocates (hact : s.act = .issue) (hq : s.iq = e :: rest) (hroom : s.robFull = false) (hwf : i.wf = true)
    {j : Nat} (hslot : freeSlot (s.rs.get i.cls) = some j) : exec i s = .next (s.allocate i.profile e rest j) := by
  rw [exec_of_issue i hact]
  simp [issueUop, hq, hroom, i.profile_ill, Instr.wf_iff.mp hwf, i.profile_cls, hslot]

end

/-- The ROB slot that issue takes (R148). -/
theorem allocate_robAt_tail {s : State} (ht : s.tail < s.rob.length) (pr : Profile) (e : IqEntry) (rest : List IqEntry) (j : Nat) :
    (s.allocate pr e rest j).robAt s.tail = .issued e.pc e.uop pr.dest := by
  have hset := s.robAt_setRob s.tail s.tail (.issued e.pc e.uop pr.dest) ht
  rw [if_pos rfl] at hset
  exact hset

/-- The station that issue takes is busy (R145). -/
theorem allocate_rsAt_busy {s : State} {pr : Profile} {j : Nat} (hj : j < (s.rs.get pr.cls).length) (e : IqEntry)
    (rest : List IqEntry) : ((s.allocate pr e rest j).rsAt pr.cls j).busy = true := by
  have hset := rsAt_setRs s pr.cls pr.cls j j
    { busy := true, op0 := s.rename pr.src0, op1 := s.rename pr.src1, op2 := s.rename pr.src2, dest := s.tail
      uop := e.uop, sf := decide (pr.fw ≠ 0#4), disp := false } hj
  rw [if_pos ⟨rfl, rfl⟩] at hset
  exact congrArg RsEntry.busy hset

/-- Settles O5: the allocation written out, by what each part of the profile is; `Rst.get_claim` says what the table names. -/
theorem issueAllocates : Obligations.IssueAllocates := by
  intro i s e rest j hact hq hroom hwf hslot
  have hsources := i.profile_sources
  refine ⟨s.rst.claim i.dest i.fw s.tail, ?_, Rst.get_claim s.rst i.dest i.fw s.tail⟩
  rw [exec_issue_allocates hact hq hroom hwf hslot, ← hsources, ← i.profile_dest, ← i.profile_fw, ← i.profile_cls]
  rfl

theorem FatalCode.ofIllFormed_cases (d : IllFormed) :
    FatalCode.ofIllFormed d = .badUop ∨ FatalCode.ofIllFormed d = .badCond := by
  cases d with
  | badUop => exact .inl rfl
  | badCond => exact .inr rfl

/-- Settles O6: the three other branches of issue. -/
theorem issueHeldBack : Obligations.IssueHeldBack := by
  intro i s e rest hact hq
  refine ⟨exec_issue_robFull hact hq, fun hroom hwf hbusy => ?_, fun hroom hwf => ?_⟩
  · exact exec_issue_rsFull hact hq hroom hwf (freeSlot_none hbusy)
  · obtain ⟨d, hd⟩ := Instr.ill_of_not_wf hwf
    exact ⟨_, FatalCode.ofIllFormed_cases d, exec_issue_illFormed hact hq hroom hd⟩

/-! Renaming (R146). -/

section

variable {s : State} {r : Slot} {p : Nat}

theorem renameSlot_of_current (h : s.rst.get r = none) : s.renameSlot r = .value (s.x r) := by
  unfold State.renameSlot
  rw [h]

theorem renameSlot_of_ready (h : s.rst.get r = some p) (hready : (s.robAt p).ready = true) :
    s.renameSlot r = .value ((s.robAt p).output r) := by
  unfold State.renameSlot
  rw [h]
  exact if_pos hready

theorem renameSlot_of_pending (h : s.rst.get r = some p) (hready : (s.robAt p).ready = false) :
    s.renameSlot r = .pending p r := by
  unfold State.renameSlot
  rw [h]
  exact if_neg (by simp [hready])

end

/-- Settles O7: a slot is renamed by the producer that `RST` names and whether that one is ready; `State.x` and `RobEntry.output` say what
a register and a flag read as (R22). -/
theorem renameCases : Obligations.RenameCases := fun _ =>
  ⟨rfl, fun _ => rfl, fun _ => renameSlot_of_current, fun _ => renameSlot_of_current, fun _ _ => renameSlot_of_ready,
    fun _ _ => renameSlot_of_ready, fun _ _ => renameSlot_of_pending⟩

end Machine

end Sys2Proof
end

section
/-! PROOFS. Everything in flight belongs to the opcode table (R92, R100, R142): one rule per state operation for `State.InFlight`, then
commit, the later moves and the whole step. -/

namespace Sys2Proof.Machine

/-! What the invariant says, and the operations that keep it. -/

/-- A ROB slot in use holds a micro-op, whatever its index: a slot outside the ROB reads as a free entry. -/
theorem State.InFlight.robAt {s : State} (h : s.InFlight) {p : Nat} (hp : (s.robAt p).status ≠ .empty) :
    knownRecord (s.robAt p).uop := by
  by_cases hlt : p < s.rob.length
  · exact h.rob _ (s.robAt_mem hlt) hp
  · rw [s.robAt_of_le (by omega)] at hp
    exact absurd rfl hp

/-- A ready station holds a micro-op, and so does the slot of its producer. -/
theorem State.InFlight.ready {s : State} (h : s.InFlight) {c : FuClass} {j : Nat} (hr : (s.rsAt c j).isReady = true) :
    knownRecord (s.rsAt c j).uop ∧ knownRecord (s.robAt (s.rsAt c j).dest).uop := by
  obtain ⟨hmem, hbusy⟩ := s.rsAt_ready hr
  exact h.rs c _ hmem hbusy

theorem State.InFlight.lateKnown {s : State} (h : s.InFlight) : LateKnown s :=
  ⟨h.cq, h.lq, fun _ _ hr => (h.ready hr).1⟩

/-- The invariant speaks of the ROB, its tail, the stations, the load queue and the bus only. -/
theorem State.InFlight.congr {s t : State} (h : s.InFlight) (hcfg : t.cfg = s.cfg) (hrob : t.rob = s.rob) (htail : t.tail = s.tail)
    (hrs : t.rs = s.rs) (hlq : t.lq = s.lq) (hdly : t.dly = s.dly) (hcq : t.cq = s.cq) : t.InFlight := by
  have hat : ∀ p, t.robAt p = s.robAt p := fun p => by unfold State.robAt; rw [hrob]
  constructor
  case size => rw [hrob, hcfg]; exact h.size
  case tail_lt => rw [htail, hcfg]; exact h.tail_lt
  case rob => rw [hrob]; exact h.rob
  case rs => rw [hrs]; simp only [hat]; exact h.rs
  case lq => rw [hlq]; simp only [hat]; exact h.lq
  case dly => rw [hdly]; simp only [hat]; exact h.dly
  case cq => rw [hcq]; simp only [hat]; exact h.cq

/-- New stations and queues, each entry of which is known. -/
theorem State.InFlight.requeue {s : State} (h : s.InFlight) {rs : PerClass (List RsEntry)} {lq : List LqEntry}
    {dly : List Delayed} {cq : List BusRecord}
    (hrs : ∀ c, ∀ e ∈ rs.get c, e.busy = true → knownRecord e.uop ∧ knownRecord (s.robAt e.dest).uop)
    (hlq : ∀ l ∈ lq, knownRecord (s.robAt l.dest).uop) (hdly : ∀ d ∈ dly, knownRecord (s.robAt d.record.p).uop)
    (hcq : ∀ r ∈ cq, knownRecord (s.robAt r.p).uop) :
    ({ s with rs := rs, lq := lq, dly := dly, cq := cq } : State).InFlight :=
  ⟨h.size, h.tail_lt, h.rob, hrs, hlq, hdly, hcq⟩

/-- Stations that are entry by entry those of before (`SameEntries`). -/
theorem State.InFlight.sameEntries {s : State} (h : s.InFlight) {rs : PerClass (List RsEntry)}
    (hrs : ∀ c, SameEntries (s.rs.get c) (rs.get c)) : ({ s with rs := rs } : State).InFlight := by
  refine h.requeue (fun c f hf hb => ?_) h.lq h.dly h.cq
  obtain ⟨e, he, hsame⟩ := (hrs c).mem hf
  rw [hsame.uop, hsame.dest]
  exact h.rs c e he (hsame.busy hb)

/-- One station replaced by a known entry. -/
theorem State.InFlight.setRs {s : State} (h : s.InFlight) {c : FuClass} {j : Nat} {e : RsEntry}
    (he : e.busy = true → knownRecord e.uop ∧ knownRecord (s.robAt e.dest).uop) : (s.setRs c j e).InFlight := by
  refine h.requeue (fun d x hx hb => ?_) h.lq h.dly h.cq
  rw [PerClass.get_set] at hx
  split at hx
  · next hd =>
    subst hd
    rcases List.mem_or_eq_of_mem_set hx with hold | rfl
    · exact h.rs d x hold hb
    · exact he hb
  · exact h.rs d x hx hb

/-- Starting a ready entry keeps its record and its producer (R178). -/
theorem State.InFlight.dispatched {s : State} (h : s.InFlight) {c : FuClass} {j : Nat}
    (hj : knownRecord (s.rsAt c j).uop ∧ knownRecord (s.robAt (s.rsAt c j).dest).uop) : (s.dispatched c j).InFlight :=
  h.setRs fun _ => hj

/-- A record pushed for a producer that is a micro-op (R164). -/
theorem State.InFlight.push {s : State} (h : s.InFlight) {r : BusRecord} (hr : knownRecord (s.robAt r.p).uop) (n : Nat) :
    (s.push r n).InFlight := by
  refine h.requeue h.rs h.lq (fun d hd => ?_) h.cq
  rcases List.mem_append.mp hd with hold | hnew
  · exact h.dly d hold
  · rw [List.mem_singleton.mp hnew]
    exact hr

/-- A ready entry that execute starts with a push for its producer (R164, R178). -/
theorem State.InFlight.pushStarted {s : State} (h : s.InFlight) {c : FuClass} {j : Nat} {r : BusRecord}
    (hj : (s.rsAt c j).isReady = true) (hr : r.p = (s.rsAt c j).dest) (n : Nat) : ((s.push r n).dispatched c j).InFlight := by
  have hknown := h.ready hj
  exact (h.push (hr ▸ hknown.2) n).dispatched hknown

theorem State.InFlight.queueLoad {s : State} (h : s.InFlight) {l : LqEntry} (hl : knownRecord (s.robAt l.dest).uop) :
    ({ s with lq := s.lq ++ [l] } : State).InFlight := by
  refine h.requeue h.rs (fun m hm => ?_) h.dly h.cq
  rcases List.mem_append.mp hm with hold | hnew
  · exact h.lq m hold
  · rw [List.mem_singleton.mp hnew]
    exact hl

/-- A ROB slot written with an entry that holds a micro-op if it is in use, and also if the old entry held one: a station, a load or a
record may name the slot. -/
theorem State.InFlight.setRob {s : State} (h : s.InFlight) {p : Nat} {e : RobEntry}
    (hnew : e.status ≠ .empty → knownRecord e.uop) (hkeep : knownRecord (s.robAt p).uop → knownRecord e.uop) :
    (s.setRob p e).InFlight := by
  have hat : ∀ q, knownRecord (s.robAt q).uop → knownRecord ((s.setRob p e).robAt q).uop := by
    intro q hq
    by_cases hp : p < s.rob.length
    · rw [s.robAt_setRob p q e hp]
      split
      · next hqp => exact hkeep (hqp ▸ hq)
      · exact hq
    · have hsame : (s.setRob p e).robAt q = s.robAt q := by
        unfold State.robAt
        rw [State.setRob_rob, List.set_eq_of_length_le (by omega)]
      rw [hsame]
      exact hq
  constructor
  case size => exact List.length_set.trans h.size
  case tail_lt => exact h.tail_lt
  case rob =>
    intro x hx
    rcases List.mem_or_eq_of_mem_set hx with hold | rfl
    · exact h.rob x hold
    · exact hnew
  case rs => exact fun c x hx hb => (h.rs c x hx hb).imp_right (hat _)
  case lq => exact fun l hl => hat _ (h.lq l hl)
  case dly => exact fun d hd => hat _ (h.dly d hd)
  case cq => exact fun r hr => hat _ (h.cq r hr)

/-- A ROB slot whose entry keeps its record, and is in use only if it was. -/
theorem State.InFlight.setRob_sameUop {s : State} (h : s.InFlight) {p : Nat} {e : RobEntry} (huop : e.uop = (s.robAt p).uop)
    (hst : e.status ≠ .empty → (s.robAt p).status ≠ .empty) : (s.setRob p e).InFlight :=
  h.setRob (fun he => huop ▸ h.robAt (hst he)) (fun hk => huop ▸ hk)

/-- The countdown moves records from the delay list to the completion queue and adds none (R190). -/
theorem State.InFlight.ageDelays {s : State} (h : s.InFlight) : s.ageDelays.InFlight := by
  have hold : ∀ r ∈ s.dly.map (·.record) ++ s.cq, knownRecord (s.robAt r.p).uop := by
    intro r hr
    rcases List.mem_append.mp hr with hd | hc
    · obtain ⟨d, hmem, rfl⟩ := List.mem_map.mp hd
      exact h.dly d hmem
    · exact h.cq r hc
  have hnew : ∀ r ∈ (countedDown s.dly).map (·.record) ++ (s.cq ++ completed s.dly), knownRecord (s.robAt r.p).uop :=
    fun r hr => hold r ((completed_perm s.dly s.cq).subset hr)
  exact h.requeue h.rs h.lq (fun d hd => hnew d.record (List.mem_append_left _ (List.mem_map_of_mem hd)))
    (fun r hr => hnew r (List.mem_append_right _ hr))

/-- Issue puts a record that decodes into the ROB slot and the station it takes, and each names the other (R148). -/
theorem State.InFlight.allocate {s : State} (h : s.InFlight) (pr : Profile) {e : IqEntry} (he : knownRecord e.uop)
    (rest : List IqEntry) (j : Nat) : (s.allocate pr e rest j).InFlight := by
  have hcap : 0 < s.cfg.robCapacity := Nat.zero_lt_of_lt h.tail_lt
  have hrob : (s.setRob s.tail (.issued e.pc e.uop pr.dest)).InFlight := h.setRob (fun _ => he) (fun _ => he)
  have hat : (s.setRob s.tail (.issued e.pc e.uop pr.dest)).robAt s.tail = .issued e.pc e.uop pr.dest :=
    allocate_robAt_tail (h.size ▸ h.tail_lt) pr e rest j
  have hboth := hrob.setRs (c := pr.cls) (j := j)
    (e := { busy := true, op0 := s.rename pr.src0, op1 := s.rename pr.src1, op2 := s.rename pr.src2, dest := s.tail
            uop := e.uop, sf := decide (pr.fw ≠ 0#4), disp := false }) (fun _ => ⟨he, by rw [hat]; exact he⟩)
  exact ⟨hboth.size, Nat.mod_lt _ hcap, hboth.rob, hboth.rs, hboth.lq, hboth.dly, hboth.cq⟩

/-- A recovery empties the queues, marks ROB slots empty and frees stations; no record changes (R230 to R235). -/
theorem State.InFlight.recover {s : State} (h : s.InFlight) (target : Word) : (s.recover target).InFlight := by
  have hcap : 0 < s.cfg.robCapacity := Nat.zero_lt_of_lt h.tail_lt
  have huop : ∀ p, ((s.recover target).robAt p).uop = (s.robAt p).uop := by
    intro p
    rw [recover_robAt]
    split <;> rfl
  constructor
  case size => exact (emptySlots_length _ _).trans h.size
  case tail_lt => exact Nat.mod_lt _ hcap
  case rob =>
    intro e he hst
    rcases mem_emptySlots he with hold | ⟨x, _, rfl⟩
    · exact h.rob e hold hst
    · exact absurd rfl hst
  case rs =>
    intro c e he hb
    have hget : (s.recover target).rs.get c = _ := PerClass.get_map s.rs _ c
    rw [hget] at he
    obtain ⟨x, hx, rfl⟩ := List.mem_map.mp he
    rw [huop]
    split at hb
    · cases hb
    · next hkept =>
      rw [if_neg hkept]
      exact h.rs c x hx hb
  all_goals exact fun x hx => absurd hx List.not_mem_nil

/-- The release of the head slot marks its entry empty (R219). -/
theorem State.InFlight.releaseHead {s : State} (h : s.InFlight) : s.releaseHead.InFlight := by
  have hrob : (s.setRob s.head { s.robAt s.head with status := .empty }).InFlight :=
    h.setRob_sameUop rfl (fun hst => absurd rfl hst)
  exact hrob.congr rfl rfl rfl rfl rfl rfl rfl

/-! The stages and the step. -/

theorem Resolution.inFlight {w y : State} (hy : Resolution w y) (h : w.InFlight) : y.InFlight := by
  cases hy with
  | goOn => exact h.congr rfl rfl rfl rfl rfl rfl rfl
  | recovery counters target =>
    have hcount : ({ w with counters := counters } : State).InFlight := h.congr rfl rfl rfl rfl rfl rfl rfl
    exact hcount.recover target

theorem CommitOutcome.inFlight {s u : State} (hu : CommitOutcome s u) (h : s.InFlight) : u.InFlight := by
  cases hu with
  | idle => exact h
  | fatal => exact h.congr rfl rfl rfl rfl rfl rfl rfl
  | halt => exact State.InFlight.releaseHead (h.congr rfl rfl rfl rfl rfl rfl rfl)
  | retire w y tr _ hw hy =>
    have hwk : w.InFlight := by
      rw [hw.frame]
      exact h.congr rfl rfl rfl rfl rfl rfl rfl
    have hyk : (y.emitTrace tr).InFlight := (hy.inFlight hwk).congr rfl rfl rfl rfl rfl rfl rfl
    exact hyk.releaseHead

/-- Commit hands `exec` the record of an entry in use (R211), so it answers. -/
theorem commitStage_answers {s : State} (h : s.InFlight) : Answers State.InFlight (commitStage s) := by
  suffices hnext : ∃ u, commitStage s = .next u by
    obtain ⟨u, hu⟩ := hnext
    exact ⟨u, hu, (commitStage_outcome hu).inFlight h⟩
  unfold commitStage
  cases hg : s.commitGate with
  | idle => exact ⟨_, rfl⟩
  | internal => exact ⟨_, rfl⟩
  | go =>
    obtain ⟨i, hi⟩ := h.robAt (commitGate_go hg).1
    exact ⟨_, execRecord_ok hi .commit s⟩

/-- What the later stages write names producers that were in flight already, or the one that issue has just allocated. -/
theorem LateUpdate.inFlight {s t : State} (ht : LateUpdate s t) (h : s.InFlight) : t.InFlight := by
  cases ht with
  | age => exact h.ageDelays
  | broadcast i r rest rs hq _ hrs =>
    obtain ⟨_, huop, hstatus, _⟩ := (s.robAt r.p).receive_keeps r
    have hrob : (s.setRob r.p ((s.robAt r.p).receive r)).InFlight := h.setRob_sameUop huop (fun hst => hstatus ▸ hst)
    have hsame : ∀ c, SameEntries (s.rs.get c) (rs.get c) := by
      rw [hrs]
      exact broadcastUop_same i.profile r { s with cq := rest }
    have hstations : ({ s.setRob r.p ((s.robAt r.p).receive r) with rs := rs } : State).InFlight := hrob.sameEntries hsame
    exact hstations.requeue hstations.rs hstations.lq hstations.dly
      (fun x hx => hstations.cq x (hq ▸ List.mem_cons_of_mem r hx))
  | access l r n hl hr => exact h.push (hr ▸ h.lq l hl) n
  | loads keep hk => exact h.requeue h.rs (fun l hl => h.lq l (hk.subset hl)) h.dly h.cq
  | compute c j r n hj hr => exact h.pushStarted hj hr n
  | print c j o r n hj hr =>
    have hout : (s.emitOut o).InFlight := h.congr rfl rfl rfl rfl rfl rfl rfl
    exact hout.pushStarted hj hr n
  | store c j v r n hj hr =>
    have hdata : (s.setRob r.p { s.robAt r.p with value := v }).InFlight := h.setRob_sameUop rfl id
    exact hdata.pushStarted hj hr n
  | load c j l hj hl => exact (h.queueLoad (hl ▸ (h.ready hj).2)).dispatched (h.ready hj)
  | allocate i e rest j _ hd => exact h.allocate i.profile ⟨i, hd⟩ rest j
  | _ => exact h.congr rfl rfl rfl rfl rfl rfl rfl

theorem steady_inFlight : Steady State.InFlight := ⟨fun _ _ hm h => hm.update.inFlight h, fun _ h => h.lateKnown⟩

theorem endCycle_inFlight {s : State} (h : s.InFlight) : (endCycle s).InFlight := by
  rcases endCycle_cases s with he | he <;> rw [he] <;> exact h.congr rfl rfl rfl rfl rfl rfl rfl

/-- Settles O48: `State.InFlight` is steady under the later moves, and commit answers under it, so every step does. -/
theorem stepAlwaysAnswers : Obligations.StepAlwaysAnswers :=
  fun _ h => step_answers steady_inFlight (fun _ => endCycle_inFlight) h (fun _ => commitStage_answers h)

end Sys2Proof.Machine
end

section
/-! PROOFS. The first step after reset (R140, R320): the micro-op placed at the front of the queue finds an empty back end, and the fetch
of that cycle finds an item at `ENTRY_PC`. -/

namespace Sys2Proof.Machine

/-- The reset state with the micro-op at the front of its queue. -/
def firstState (i : Instr) : State := State.reset.withFetchWord 128 (encode i).toNat

theorem firstState_iq (i : Instr) : (firstState i).iq = [{ pc := 0#32, uop := encode i }] := by
  have hrecord : BitVec.ofNat 128 ((encode i).toNat % 2 ^ 128) = encode i := by
    rw [Nat.mod_eq_of_lt (encode i).isLt]
    exact (BitVec.ofNat_toNat 128 (encode i)).trans (BitVec.setWidth_eq _)
  show [({ pc := 0#32, uop := _ } : IqEntry)] = _
  rw [hrecord]

theorem firstState_backIdle (i : Instr) : (firstState i).BackIdle := by
  have hgate : State.reset.commitGate = .idle := by
    unfold State.commitGate
    rw [reset_robAt]
    rfl
  exact ⟨hgate, rfl, rfl, rfl, fun c e he => by rw [reset_mem_rs he]; rfl⟩

theorem reset_freeSlot (c : FuClass) : freeSlot (State.reset.rs.get c) = some 0 := by cases c <;> rfl

/-- The four bytes at the entry address exist in the launch memory (notes/assumptions/4.md). -/
theorem launchMem_accessAddresses :
    accessAddresses Cfg.ref State.launchMem.readable 0#32 2 = some [0, 1]
      ∧ accessAddresses Cfg.ref State.launchMem.readable 0#32 4 = some [0, 1, 2, 3] := by decide

/-- With the reference configuration and the launch memory there is a whole item at the entry address (R62). -/
theorem ifetch_launch {s : State} (hcfg : s.cfg = Cfg.ref) (hmem : s.mem = State.launchMem) : ∃ raw, s.ifetch 0#32 = .item raw := by
  obtain ⟨htwo, hfour⟩ := launchMem_accessAddresses
  have hread : s.memRead 0#32 2 = some (joinBytes Cfg.ref.byteOrder ([0, 1].map State.launchMem.byteAt)) := by
    unfold State.memRead
    rw [hcfg, hmem, htwo]
    rfl
  unfold State.ifetch
  rw [hread, hcfg, hmem]
  simp only [hfour]
  exact ⟨_, rfl⟩

/-- What issue leaves of the first state: the micro-op in ROB slot 0 and in station 0 of its class. -/
def firstIssued (i : Instr) : State := (firstState i).allocate i.profile { pc := 0#32, uop := encode i } [] 0

theorem firstIssued_robAt (i : Instr) : (firstIssued i).robAt 0 = .issued 0#32 (encode i) i.dest := by
  have htail : State.reset.tail < State.reset.rob.length := by decide
  rw [← i.profile_dest]
  exact allocate_robAt_tail htail _ _ _ _

theorem firstIssued_busy (i : Instr) : ((firstIssued i).rsAt i.cls 0).busy = true := by
  have hslot := reset_freeSlot i.profile.cls
  rw [← i.profile_cls]
  exact allocate_rsAt_busy (freeSlot_spec hslot).1 _ _

theorem exec_firstState {i : Instr} (hwf : i.wf = true) : exec i (firstState i) = .next (firstIssued i) := by
  have hroom : State.reset.robFull = false := by decide
  exact exec_issue_allocates rfl (firstState_iq i) hroom hwf (reset_freeSlot i.cls)

/-- After issue the fetch buffer is empty, so decode waits and fetch takes an item (R128, R123). -/
theorem firstIssued_frontEnd (i : Instr) :
    decodeStage (firstIssued i) = .next (firstIssued i)
      ∧ ∃ raw, fetchStage (firstIssued i) = .next ((firstIssued i).fetched raw) := by
  have hready : (firstIssued i).FetchReady := ⟨rfl, rfl, Nat.zero_lt_two⟩
  obtain ⟨raw, hraw⟩ : ∃ raw, (firstIssued i).ifetch (firstIssued i).specPc = .item raw := ifetch_launch rfl rfl
  refine ⟨decodeStage_of_empty rfl, raw, ?_⟩
  rw [fetchStage_ready hready, hraw]
  rfl

/-- The first step is issue, then a fetch; the cycle ends without a fatal. -/
theorem step_firstState {i : Instr} (hwf : i.wf = true) :
    ∃ raw, step (firstState i) = .next (endCycle ((firstIssued i).fetched raw)) := by
  obtain ⟨hdecode, raw, hfetch⟩ := firstIssued_frontEnd i
  have hrun : andThen (andThen (exec i (firstState i)) decodeStage) fetchStage = .next ((firstIssued i).fetched raw) := by
    have hf : (firstIssued i).fatal.isSome = false := rfl
    simp [exec_firstState hwf, andThen, hf, hdecode, hfetch]
  refine ⟨raw, ?_⟩
  rw [stepRunsDecodedInstruction (firstState i) i _ [] rfl rfl (firstState_backIdle i) (firstState_iq i) (decodeOfEncode i), hrun]

/-- Settles O40: issue fills ROB slot 0 and station 0, and the fetch and the end of the cycle touch neither. -/
theorem firstStepIssues : Obligations.FirstStepIssues := by
  intro i hwf
  obtain ⟨raw, hstep⟩ := step_firstState hwf
  have hentry : (endCycle ((firstIssued i).fetched raw)).robAt 0 = .issued 0#32 (encode i) i.dest := firstIssued_robAt i
  refine ⟨_, hstep, rfl, rfl, rfl, rfl, ?_, ?_, ?_, firstIssued_busy i, rfl, rfl⟩ <;> rw [hentry] <;> rfl

end Sys2Proof.Machine
end

section
/-! PROOFS. Execute (R162 to R178): what each micro-op does when its station is started, by the rule of a start that pushes a record
(`exec_of_startPush`) or of one that queues a load; then the check that lets a load go to memory, and its access. -/

namespace Sys2Proof.Machine

/-! The start of an entry. -/

/-- A start that answers `t` dispatches the entry in `t` (R160, R178). -/
theorem exec_of_started {i : Instr} {s t : State} {c : FuClass} {j : Nat} (ha : s.act = .start c j)
    (hs : i.profile.start (s.started c j) s = some t) : exec i s = .next (t.dispatched c j) := by
  rw [exec_of_start i ha, startUop, hs]

/-- A start that answers nothing is the stall of a full load queue (R172). -/
theorem exec_of_notStarted {i : Instr} {s : State} {c : FuClass} {j : Nat} (ha : s.act = .start c j)
    (hs : i.profile.start (s.started c j) s = none) : exec i s = .next s.stallLqFull := by
  rw [exec_of_start i ha, startUop, hs]

/-- A start that ends in a push, after an update that leaves the stations alone (R164). -/
theorem exec_of_startPush {i : Instr} {s t : State} {c : FuClass} {j latency : Nat} {r : BusRecord} (ha : s.act = .start c j)
    (hs : i.profile.start (s.started c j) s = startPush r latency t) (hrs : t.rs = s.rs) :
    exec i s = .next { t with dly := t.dly ++ [{ record := r, ctr := latency }], rs := s.startedSets c j } := by
  rw [exec_of_started ha hs]
  unfold State.startedSets State.rsAt
  rw [← hrs]
  rfl

/-! ALU, ALUCMP and MUL. -/

/-- Settles O8: both kinds start with `startAlu`, which pushes one record. -/
theorem aluStart : Obligations.AluStart := by
  intro i s c j sub hkind ha
  obtain ⟨hstart, -, -⟩ := alu_profile hkind
  exact exec_of_startPush (t := s) ha (by rw [hstart]; rfl) rfl

/-- The flags of a multiply, with Z read off the integer product (R167). -/
theorem flagBit_mulFlags_all (r : Word) :
    flagBit (mulFlags r) .n = r.msb ∧ flagBit (mulFlags r) .z = decide (r.toNat = 0) ∧ flagBit (mulFlags r) .c = false
      ∧ flagBit (mulFlags r) .v = false := by
  obtain ⟨hn, hz⟩ := flagBit_mulFlags r
  have hzero : r = 0#32 ↔ r.toNat = 0 := BitVec.toNat_inj.symm
  exact ⟨hn, hz.trans (decide_eq_decide.mpr hzero), flagBit_flagRecord .., flagBit_flagRecord ..⟩

/-- Settles O9: the record of `startMul` carries the product and `mulFlags` of it. -/
theorem mulStart : Obligations.MulStart := by
  intro s c j rd rn o fw pi ha
  exact ⟨_, _, exec_of_startPush (t := s) ha rfl rfl, BitVec.toNat_mul _ _, flagBit_mulFlags_all _⟩

/-! Loads and stores. -/

/-- Settles O10: `startLoad` looks at the room in the load queue, and nothing else decides whether the load is queued. -/
theorem loadStart : Obligations.LoadStart := by
  intro i s c j size signed hload hacc ha
  obtain ⟨rd, rn, off, hprofile⟩ := load_profile hload hacc
  have hstart : i.profile.start = startLoad size signed := by rw [hprofile]; rfl
  refine ⟨fun hroom => ⟨_, BitVec.toNat_add _ _, ?queued⟩, fun hfull => ?stalled⟩
  case queued =>
    exact exec_of_started (t := { s with lq := s.lq ++ [_] }) ha (by rw [hstart, startLoad, if_neg (by omega)]; rfl)
  case stalled => exact exec_of_notStarted ha (by rw [hstart, startLoad, if_pos hfull])

/-- A micro-op of kind STORE has a size (R84, R87). -/
theorem access_of_isStore {i : Instr} (h : i.isStore = true) : ∃ size sg, i.access = some (size, sg) := by
  cases i with
  | stb | sth | stw => exact ⟨_, _, rfl⟩
  | _ => exact absurd h (by simp [Instr.isStore, Instr.kind])

/-- Settles O11: `startStore` writes the data operand into the ROB entry and pushes the address. -/
theorem storeStart : Obligations.StoreStart := by
  intro i s c j hstore ha
  obtain ⟨size, sg, hacc⟩ := access_of_isStore hstore
  obtain ⟨ra, rn, off, hprofile⟩ := store_profile hstore hacc
  exact ⟨_, BitVec.toNat_add _ _, exec_of_startPush (t := s.setRob _ _) ha (by rw [hprofile]; rfl) rfl⟩

/-! Branches and supervisor calls. -/

/-- Settles O12: B and BL start with `startRelative` on "taken", the branches to a register with `startExchange`. -/
theorem branchStart : Obligations.BranchStart := by
  rintro i s c j target (⟨simm, pi, rfl | rfl, rfl⟩ | ⟨rn, pi, rfl | rfl | rfl, rfl⟩) ha <;>
    exact exec_of_startPush (t := s) ha rfl rfl

/-- Settles O15: a print pushes its record after the event, HALT pushes one with the halt flag. -/
theorem supervisorStart : Obligations.SupervisorStart := by
  intro s c j rn pi ha
  exact ⟨exec_of_startPush (t := s.emitOut (.puts (s.rsAt c j).op0.word)) ha rfl rfl,
    exec_of_startPush (t := s.emitOut (.puti (s.rsAt c j).op0.word)) ha rfl rfl, exec_of_startPush (t := s) ha rfl rfl⟩

/-! The load queue: when a load may go (R176), and its access (R177). -/

theorem distance_eq_natAbs (a b : Word) : distance a b = ((a.toNat : Int) - (b.toNat : Int)).natAbs := by
  unfold distance
  omega

/-- What an older entry must not be for a load to go (R176). -/
theorem letsLoadGo_iff (d : Dest) (addr : Word) :
    letsLoadGo d addr = true ↔
      d ≠ .awaiting ∧ ∀ a, d = .resolved a → 4 ≤ ((a.toNat : Int) - (addr.toNat : Int)).natAbs := by
  cases d with
  | awaiting | discard | register => simp [letsLoadGo]
  | resolved a => simp [letsLoadGo, distance_eq_natAbs, Config.overlap]

/-- Settles O18: `mayIssue` asks `letsLoadGo` of every entry from the head up to the load. -/
theorem loadOrderingCheck : Obligations.LoadOrderingCheck := by
  intro s l
  simp only [State.mayIssue, List.all_eq_true, List.mem_range, letsLoadGo_iff]

/-- A memory access whose read answers pushes the extended integer (R65, R177). -/
theorem memAccess_of_read {l : LqEntry} {s : State} {m : Word} (h : s.memRead l.addr l.size.bytes = some m) :
    memAccess l s = s.push { p := l.dest, val := extendLoad l.size l.signed m, tgt := none, fl := 0#4, halt := false }
      s.cfg.latLoad := by
  rw [memAccess, h]

theorem memAccess_of_fail {l : LqEntry} {s : State} (h : s.memRead l.addr l.size.bytes = none) :
    memAccess l s = s.raise .memLoad (s.robAt l.dest).pc (.word l.addr) := by
  rw [memAccess, h]

/-- Settles O20: `extendLoad` keeps the integer read, which is below `2^(8n)`, or sign-extends its low `8n` bits. -/
theorem loadAccess : Obligations.LoadAccess := by
  intro i s l _ _ ha
  refine ⟨fun m hm => ⟨extendLoad l.size l.signed m, ?record, fun hu => ?unsigned, fun hs => ?signed⟩, fun hfail => ?fatal⟩
  case record => rw [exec_of_access i ha, memAccess_of_read hm]; rfl
  case unsigned => rw [hu, extendLoad_toNat (memRead_lt l.size.bytes_le hm)]
  case signed => rw [hs, extendLoad_toInt]
  case fatal => rw [exec_of_access i ha, memAccess_of_fail hfail]; rfl

end Sys2Proof.Machine
end

section
/-! PROOFS. Selection (R160, R161, R179): the candidates of a class in the order of their ages, and the quota of a selection pass
(`State.StartsAtMost`). -/

namespace Sys2Proof.Machine

/-- Settles O16: the candidates are a sorted rearrangement of the ready slots (`sortByAge_perm`, `sortByAge_sorted`). -/
theorem selectionByAge : Obligations.SelectionByAge := fun s c =>
  ⟨candidates_nodup s c, fun _ => mem_candidates, sortByAge_sorted _ _⟩

/-- The number of entries of a class that execute has started and that are still in their stations (R34, R179). -/
def State.startedCount (s : State) (c : FuClass) : Nat := ((s.rs.get c).filter (·.disp)).length

/-- A start leaves the configuration and the stations alone (R164). -/
theorem start_keepsStations {i : Instr} {st : Started} {s t : State} (h : i.profile.start st s = some t) :
    t.cfg = s.cfg ∧ t.rs = s.rs := by
  rcases start_cases h with ⟨r, n, _, rfl⟩ | ⟨o, r, n, _, rfl⟩ | ⟨v, r, n, _, rfl⟩ | ⟨l, _, _, rfl⟩ <;> exact ⟨rfl, rfl⟩

/-- A turn of the selection loop dispatches the entry it looks at, or leaves every station as it is (R160, R172). -/
theorem startUop_stations (i : Instr) (c : FuClass) (j : Nat) (s : State) :
    (startUop i.profile c j s).cfg = s.cfg
      ∧ ((startUop i.profile c j s).rs = s.rs ∨ (startUop i.profile c j s).rs = s.startedSets c j) := by
  rcases startUop_cases i c j s with h | ⟨t, ht, h⟩ <;> rw [h]
  · exact ⟨rfl, .inl rfl⟩
  · obtain ⟨hcfg, hrs⟩ := start_keepsStations ht
    exact ⟨hcfg, .inr (by simp only [State.dispatched_rs, State.startedSets, State.rsAt, hrs])⟩

/-- Replacing one entry of a set adds at most one to the dispatched ones. -/
theorem startedCount_set_le (es : List RsEntry) (j : Nat) (e : RsEntry) :
    ((es.set j e).filter (·.disp)).length ≤ (es.filter (·.disp)).length + 1 := by
  simp only [← List.countP_eq_length_filter]
  by_cases hj : j < es.length
  · rw [List.countP_set hj]
    split <;> split <;> omega
  · rw [List.set_eq_of_length_le (by omega)]
    omega

/-- A turn adds to the started entries of its class at most one, and only when the loop counts it (R160). -/
theorem startUop_startedCount (i : Instr) (c : FuClass) (j : Nat) (s : State) :
    (startUop i.profile c j s).startedCount c
      ≤ s.startedCount c + if ((startUop i.profile c j s).rsAt c j).disp then 1 else 0 := by
  unfold State.startedCount State.rsAt
  rcases (startUop_stations i c j s).2 with h | h <;> rw [h]
  · exact Nat.le_add_right _ _
  · simp only [State.startedSets, PerClass.get_set, if_pos]
    by_cases hj : j < (s.rs.get c).length
    · simpa [hj] using startedCount_set_le (s.rs.get c) j { s.rsAt c j with disp := true }
    · rw [List.set_eq_of_length_le (by omega)]
      exact Nat.le_add_right _ _

/-- `t` has the stations of `s`, but for at most `quota` entries of class `c` that have been started in between (R160, R179). -/
structure State.StartsAtMost (s t : State) (c : FuClass) (quota : Nat) : Prop where
  others : ∀ d, d ≠ c → t.rs.get d = s.rs.get d
  started : t.startedCount c ≤ s.startedCount c + quota

theorem State.StartsAtMost.refl (s : State) (c : FuClass) (quota : Nat) : s.StartsAtMost s c quota :=
  ⟨fun _ _ => rfl, Nat.le_add_right _ _⟩

theorem State.StartsAtMost.trans {s t u : State} {c : FuClass} {m n : Nat} (h : s.StartsAtMost t c m) (k : t.StartsAtMost u c n) :
    s.StartsAtMost u c (m + n) :=
  ⟨fun d hd => (k.others d hd).trans (h.others d hd), by have := h.started; have := k.started; omega⟩

theorem State.StartsAtMost.mono {s t : State} {c : FuClass} {m n : Nat} (h : s.StartsAtMost t c m) (hmn : m ≤ n) :
    s.StartsAtMost t c n :=
  ⟨h.others, h.started.trans (Nat.add_le_add_left hmn _)⟩

/-- Which stage action is due has nothing to do with the stations. -/
theorem State.StartsAtMost.of_doing {s t : State} {a : Activity} {c : FuClass} {quota : Nat}
    (h : (s.doing a).StartsAtMost t c quota) : s.StartsAtMost t c quota :=
  ⟨h.others, h.started⟩

/-- One turn of the selection loop starts as many entries as the loop counts for it. -/
theorem startUop_startsAtMost (i : Instr) (c : FuClass) (j : Nat) (s : State) :
    s.StartsAtMost (startUop i.profile c j s) c (if ((startUop i.profile c j s).rsAt c j).disp then 1 else 0) := by
  refine ⟨fun d hd => ?_, startUop_startedCount i c j s⟩
  rcases (startUop_stations i c j s).2 with h | h <;> rw [h]
  rw [State.startedSets, PerClass.get_set, if_neg hd]

/-- The selection loop, with `n` entries started so far, starts at most the rest of the quota. -/
theorem startEntries_startsAtMost (c : FuClass) (js : List Nat) (n : Nat) {s t : State} (h : startEntries c js n s = .next t) :
    s.StartsAtMost t c (s.cfg.units.get c - n) := by
  induction js generalizing n s with
  | nil =>
    cases h
    exact .refl _ c _
  | cons j js ih =>
    unfold startEntries at h
    split at h
    · cases h
      exact .refl _ c _
    · next hquota =>
      cases hd : decode (s.rsAt c j).uop with
      | error r => simp [execRecord, hd, andThen] at h
      | ok i =>
        have hturn := (startUop_startsAtMost i c j (s.doing (.start c j))).of_doing
        have hcfg : (startUop i.profile c j (s.doing (.start c j))).cfg = s.cfg := (startUop_stations i c j _).1
        rw [execRecord_ok hd] at h
        change andThen (.next (startUop i.profile c j (s.doing (.start c j)))) _ = _ at h
        simp only [andThen] at h
        split at h
        · cases h
          exact hturn.mono (by split <;> omega)
        · have hrest := ih _ h
          rw [hcfg] at hrest
          exact (hturn.trans hrest).mono (by split <;> omega)

/-- Settles O17: the selection loop over the candidates begins with the whole quota. -/
theorem selectionQuota : Obligations.SelectionQuota := by
  intro s t c h
  obtain ⟨hothers, hstarted⟩ := startEntries_startsAtMost c (s.candidates c) 0 h
  exact ⟨hothers, hstarted⟩

end Sys2Proof.Machine
end

section
/-! PROOFS. What one broadcast writes (R194 to R199): the producer's ROB entry, and the operand slots of the busy stations, which a
wake-up changes by the same function of the operand in every station. -/

namespace Sys2Proof.Machine

/-! Wake-ups of one operand. -/

theorem Operand.wake_absent (p : Nat) (q : Slot) (w : Word) : Operand.absent.wake p q w = .absent := rfl

theorem Operand.wake_value (p : Nat) (q : Slot) (v w : Word) : (Operand.value v).wake p q w = .value v := rfl

theorem Operand.wake_pending (n p : Nat) (x q : Slot) (w : Word) :
    (Operand.pending n x).wake p q w = if n = p ∧ x = q then .value w else .pending n x := by
  simp [Operand.wake]

/-- One operand slot after the register wake-up of R197. -/
def Operand.wakeDest (o : Operand) (d : Dest) (p : Nat) (w : Word) : Operand :=
  match d.slot with
  | some q => o.wake p q w
  | none => o

/-- One operand slot after the wake-ups of the flags in the list that are in the mask (R197). -/
def Operand.wakeMasked (o : Operand) (fs : List Flag) (fw fl : BitVec 4) (p : Nat) : Operand :=
  fs.foldl (fun o f => if flagBit fw f then o.wake p (.flag f) (flagWord (flagBit fl f)) else o) o

theorem Operand.wakeMasked_cons (o : Operand) (f : Flag) (fs : List Flag) (fw fl : BitVec 4) (p : Nat) :
    o.wakeMasked (f :: fs) fw fl p
      = (if flagBit fw f then o.wake p (.flag f) (flagWord (flagBit fl f)) else o).wakeMasked fs fw fl p := rfl

/-- The flag wake-ups leave an operand alone that waits for no flag of the mask. -/
theorem Operand.wakeMasked_of_ne {o : Operand} {fw : BitVec 4} {p : Nat} {fs : List Flag}
    (h : ∀ f ∈ fs, flagBit fw f = true → o ≠ .pending p (.flag f)) (fl : BitVec 4) : o.wakeMasked fs fw fl p = o := by
  induction fs with
  | nil => rfl
  | cons f fs ih =>
    have hf : (if flagBit fw f then o.wake p (.flag f) (flagWord (flagBit fl f)) else o) = o := by
      split
      · next hb => exact if_neg (h f (by simp) hb)
      · rfl
    rw [wakeMasked_cons, hf]
    exact ih fun g hg => h g (by simp [hg])

/-- An operand that waits for a flag of the mask receives it. -/
theorem Operand.wakeMasked_pending {f : Flag} {fw : BitVec 4} (hb : flagBit fw f = true) (fl : BitVec 4) (p : Nat)
    {fs : List Flag} (hf : f ∈ fs) :
    (Operand.pending p (.flag f)).wakeMasked fs fw fl p = .value (flagWord (flagBit fl f)) := by
  induction fs with
  | nil => cases hf
  | cons g gs ih =>
    rw [wakeMasked_cons]
    by_cases hg : f = g
    · subst hg
      rw [if_pos hb, wake_pending, if_pos ⟨rfl, rfl⟩]
      exact wakeMasked_of_ne (by simp) fl
    · have hskip : (if flagBit fw g then (Operand.pending p (.flag f)).wake p (.flag g) (flagWord (flagBit fl g))
          else .pending p (.flag f)) = .pending p (.flag f) := by
        simp [wake_pending, hg]
      rw [hskip]
      exact ih ((List.mem_cons.mp hf).resolve_left hg)

/-- Every flag has its turn in slot order (R22). -/
theorem mem_allFlags (f : Flag) : f ∈ allFlags := by cases f <;> decide

/-- A ROB entry's descriptor names no flag (R30). -/
theorem Dest.slot_ne_flag (d : Dest) (f : Flag) : d.slot ≠ some (.flag f) := by cases d <;> simp [Dest.slot]

theorem Operand.wakeDest_pending (n : Nat) (x : Slot) (d : Dest) (p : Nat) (w : Word) :
    (Operand.pending n x).wakeDest d p w = if n = p ∧ d.slot = some x then .value w else .pending n x := by
  unfold Operand.wakeDest
  split
  · next q hq => simp [wake_pending, hq, eq_comm]
  · next hq => simp [hq]

theorem Operand.wakeDest_of_not_pending {o : Operand} (h : ∀ n x, o ≠ .pending n x) (d : Dest) (p : Nat) (w : Word) :
    o.wakeDest d p w = o := by
  unfold Operand.wakeDest
  split
  · exact if_neg (h _ _)
  · rfl

/-- The register wake-up and then the flag wake-ups of a broadcast are the function `woken` of the operand (R197). -/
theorem Operand.wakes_eq_woken (o : Operand) (r : BusRecord) (d : Dest) (fw : BitVec 4) :
    (o.wakeDest d r.p r.val).wakeMasked allFlags fw r.fl r.p = woken r d fw o := by
  cases o with
  | absent =>
    rw [wakeDest_of_not_pending (by simp), wakeMasked_of_ne (by simp)]
    rfl
  | value v =>
    rw [wakeDest_of_not_pending (by simp), wakeMasked_of_ne (by simp)]
    rfl
  | pending n x =>
    cases x with
    | reg g =>
      rw [wakeDest_pending, wakeMasked_of_ne (fun _ _ _ => by split <;> simp)]
      rfl
    | flag f =>
      rw [wakeDest_pending, if_neg (fun h => d.slot_ne_flag f h.2)]
      show _ = if n = r.p ∧ flagBit fw f = true then Operand.value (flagWord (flagBit r.fl f)) else .pending n (.flag f)
      split
      · next h =>
        obtain ⟨rfl, hb⟩ := h
        exact wakeMasked_pending hb r.fl r.p (mem_allFlags f)
      · next h => exact wakeMasked_of_ne (fun g _ hg he => h (by cases he; exact ⟨rfl, hg⟩)) r.fl

/-! Wake-ups of the stations. -/

/-- A busy entry with one function applied to its operands. -/
def RsEntry.mapOperands (g : Operand → Operand) (e : RsEntry) : RsEntry :=
  if e.busy then { e with op0 := g e.op0, op1 := g e.op1, op2 := g e.op2 } else e

theorem RsEntry.mapOperands_id (e : RsEntry) : e.mapOperands id = e := by
  unfold mapOperands
  split <;> rfl

theorem RsEntry.mapOperands_comp (f g : Operand → Operand) (e : RsEntry) :
    (e.mapOperands f).mapOperands g = e.mapOperands (g ∘ f) := by
  unfold mapOperands
  split <;> simp_all

/-- The stations of `t` are those of `s`, the operands of every busy entry changed by `g`. -/
def State.OperandsMapped (g : Operand → Operand) (s t : State) : Prop :=
  ∀ c, t.rs.get c = (s.rs.get c).map (·.mapOperands g)

theorem State.OperandsMapped.refl (s : State) : s.OperandsMapped id s := fun c => by
  simp [RsEntry.mapOperands_id]

theorem State.OperandsMapped.trans {f g : Operand → Operand} {s t u : State} (h : s.OperandsMapped f t)
    (k : t.OperandsMapped g u) : s.OperandsMapped (g ∘ f) u := fun c => by
  rw [k c, h c, List.map_map]
  exact List.map_congr_left fun e _ => e.mapOperands_comp f g

theorem operandsMapped_wake (s : State) (p : Nat) (q : Slot) (w : Word) :
    s.OperandsMapped (·.wake p q w) (s.wake p q w) := fun c => by
  rw [State.wake_rs, PerClass.get_map]
  rfl

theorem operandsMapped_wakeDest (s : State) (d : Dest) (p : Nat) (w : Word) :
    s.OperandsMapped (·.wakeDest d p w) (s.wakeDest d p w) := by
  unfold Operand.wakeDest State.wakeDest
  cases d.slot with
  | none => exact .refl s
  | some q => exact operandsMapped_wake s p q w

theorem operandsMapped_wakeFlags (s : State) (fw fl : BitVec 4) (p : Nat) :
    s.OperandsMapped (·.wakeMasked allFlags fw fl p) (s.wakeFlags fw fl p) := by
  unfold State.wakeFlags
  generalize allFlags = fs
  induction fs generalizing s with
  | nil => exact .refl s
  | cons f fs ih =>
    rw [List.foldl_cons]
    simp only [Operand.wakeMasked_cons]
    cases flagBit fw f with
    | false => exact ih s
    | true => exact (operandsMapped_wake s p (.flag f) (flagWord (flagBit fl f))).trans (ih _)

/-- The wake-ups of a broadcast change every operand slot of every busy station by `woken` (R194, R197). -/
theorem operandsMapped_wakes (s : State) (r : BusRecord) (d : Dest) (fw : BitVec 4) :
    s.OperandsMapped (woken r d fw) ((s.wakeDest d r.p r.val).wakeFlags fw r.fl r.p) := by
  have hmap : woken r d fw = (·.wakeMasked allFlags fw r.fl r.p) ∘ (·.wakeDest d r.p r.val) :=
    funext fun o => (o.wakes_eq_woken r d fw).symm
  rw [hmap]
  exact (operandsMapped_wakeDest s d r.p r.val).trans (operandsMapped_wakeFlags _ fw r.fl r.p)

/-! The whole broadcast. -/

/-- What a broadcast leaves of the ROB entry of its producer, field by field (R194, R196). -/
theorem RobEntry.receive_eq (e : RobEntry) (r : BusRecord) :
    e.receive r = { e with
      value := if e.dest = .awaiting then e.value else r.val
      target := r.tgt.getD e.target
      flags := r.fl
      halt := r.halt
      ready := true
      dest := if e.dest = .awaiting then .resolved r.val else e.dest } := by
  unfold RobEntry.receive
  cases e.dest <;> rfl

/-- `woken` looks at the descriptor only for the slot it names. -/
theorem woken_congr {d d' : Dest} (h : d.slot = d'.slot) (r : BusRecord) (fw : BitVec 4) : woken r d fw = woken r d' fw := by
  funext o
  unfold woken
  rw [h]

/-- The stations of a class after a broadcast (R194, R197, R198). -/
theorem broadcastUop_rs (pr : Profile) (r : BusRecord) (s : State) (c : FuClass) :
    (broadcastUop pr r s).rs.get c = (s.rs.get c).map (fun e =>
      if e.busy then { e.mapOperands (woken r (s.robAt r.p).dest pr.fw) with
        busy := !(decide (c = pr.cls) && decide (e.dest = r.p)) } else e) := by
  obtain ⟨_, _, _, hslot⟩ := (s.robAt r.p).receive_keeps r
  have hwoken := operandsMapped_wakes (s.setRob r.p ((s.robAt r.p).receive r)) r ((s.robAt r.p).receive r).dest pr.fw c
  rw [woken_congr hslot] at hwoken
  simp only [broadcastUop, State.freeRs_rs]
  rw [PerClass.get_set]
  by_cases hc : c = pr.cls
  · subst hc
    rw [if_pos rfl, hwoken, freeEntries, List.map_map]
    refine List.map_congr_left fun e _ => ?_
    by_cases hd : e.dest = r.p <;> cases hb : e.busy <;> simp [RsEntry.mapOperands, hb, hd]
  · rw [if_neg hc, hwoken]
    refine List.map_congr_left fun e _ => ?_
    cases hb : e.busy <;> simp [RsEntry.mapOperands, hb, hc]

/-- Settles O24: the frame is `broadcastUop_eq`, the producer's entry `RobEntry.receive_eq`, the stations `broadcastUop_rs`. -/
theorem broadcastEffect : Obligations.BroadcastEffect := by
  intro i s r ha
  obtain ⟨sets, hsets⟩ := broadcastUop_eq i.profile r s
  refine ⟨sets, ?state, fun c => ?stations⟩
  case state =>
    rw [exec_of_broadcast i ha, hsets, RobEntry.receive_eq]
    rfl
  case stations =>
    have hrs : sets.get c = (broadcastUop i.profile r s).rs.get c := by rw [hsets]
    rw [hrs, broadcastUop_rs, i.profile_cls, i.profile_fw]
    refine List.map_congr_left fun e _ => ?_
    cases hb : e.busy <;> simp [RsEntry.mapOperands, hb]

end Sys2Proof.Machine
end

section
/-! PROOFS. Writeback (R190 to R192): the countdown as two filters of the delay list, and the broadcasts of a cycle as one relation
between states (`State.Broadcasts`), which a single broadcast meets and which composes. -/

namespace Sys2Proof.Machine

/-! The countdown. -/

/-- Of counts that are at least 1, those that reach zero are the ones (R190). -/
theorem completed_eq {ds : List Delayed} (h : ∀ d ∈ ds, 1 ≤ d.ctr) :
    completed ds = (ds.filter (fun d => d.ctr = 1)).map (·.record) := by
  induction ds with
  | nil => rfl
  | cons d ds ih =>
    obtain ⟨hd, hds⟩ := List.forall_mem_cons.mp h
    unfold completed
    by_cases h1 : d.ctr = 1
    · simp [h1, ih hds]
    · simp [h1, ih hds, show d.ctr - 1 ≠ 0 by omega]

theorem countedDown_eq {ds : List Delayed} (h : ∀ d ∈ ds, 1 ≤ d.ctr) :
    countedDown ds = (ds.filter (fun d => d.ctr ≠ 1)).map (fun d => { d with ctr := d.ctr - 1 }) := by
  induction ds with
  | nil => rfl
  | cons d ds ih =>
    obtain ⟨hd, hds⟩ := List.forall_mem_cons.mp h
    unfold countedDown
    by_cases h1 : d.ctr = 1
    · simpa [h1] using ih hds
    · simpa [h1, show d.ctr - 1 ≠ 0 by omega] using ih hds

/-! The broadcasts. -/

/-- No busy station of the class belongs to the micro-op in ROB slot `p`. -/
def State.NoStation (s : State) (c : FuClass) (p : Nat) : Prop := ∀ e ∈ s.rs.get c, e.busy = true → e.dest ≠ p

/-- Stations changed entry by entry do not come to belong to another micro-op. -/
theorem State.NoStation.of_sameEntries {s t : State} {c : FuClass} {p : Nat} (h : s.NoStation c p)
    (hsame : SameEntries (s.rs.get c) (t.rs.get c)) : t.NoStation c p := by
  intro f hf hb
  obtain ⟨e, he, hef⟩ := hsame.mem hf
  rw [hef.dest]
  exact h e he (hef.busy hb)

/-- `t` is a state that the broadcasts of the records leave of `s` (R194, R198): which producers are ready, which stations are free,
and what is as before. -/
structure State.Broadcasts (rs : List BusRecord) (s t : State) : Prop where
  fatal : t.fatal = s.fatal
  dly : t.dly = s.dly
  uop : ∀ p, (t.robAt p).uop = (s.robAt p).uop
  staysReady : ∀ p, (s.robAt p).ready = true → (t.robAt p).ready = true
  staysFree : ∀ c p, s.NoStation c p → t.NoStation c p
  ready : ∀ r ∈ rs, (t.robAt r.p).ready = true
  free : ∀ r ∈ rs, ∀ i, decode (s.robAt r.p).uop = .ok i → t.NoStation i.cls r.p
  others : ∀ k, (∀ r ∈ rs, r.p ≠ k) → t.robAt k = s.robAt k

theorem State.Broadcasts.nil (s : State) : s.Broadcasts [] s where
  fatal := rfl
  dly := rfl
  uop _ := rfl
  staysReady _ h := h
  staysFree _ _ h := h
  ready := nofun
  free := nofun
  others _ _ := rfl

theorem State.Broadcasts.append {xs ys : List BusRecord} {s t u : State} (h : s.Broadcasts xs t) (k : t.Broadcasts ys u) :
    s.Broadcasts (xs ++ ys) u where
  fatal := k.fatal.trans h.fatal
  dly := k.dly.trans h.dly
  uop p := (k.uop p).trans (h.uop p)
  staysReady p hp := k.staysReady p (h.staysReady p hp)
  staysFree c p hp := k.staysFree c p (h.staysFree c p hp)
  ready r hr := (List.mem_append.mp hr).elim (fun hx => k.staysReady _ (h.ready r hx)) (k.ready r)
  free r hr i hi := (List.mem_append.mp hr).elim (fun hx => k.staysFree _ _ (h.free r hx i hi))
    (fun hy => k.free r hy i ((h.uop r.p).symm ▸ hi))
  others j hj := (k.others j fun r hr => hj r (List.mem_append_right xs hr)).trans
    (h.others j fun r hr => hj r (List.mem_append_left ys hr))

/-- A slot that holds a micro-op is a slot of the ROB: outside it, a slot reads as a free entry, whose record is none. -/
theorem robAt_lt_of_decode {s : State} {p : Nat} {i : Instr} (h : decode (s.robAt p).uop = .ok i) : p < s.rob.length := by
  by_contra hp
  have hfree : decode RobEntry.free.uop ≠ .ok i := by
    have herr : (decode RobEntry.free.uop).toOption = none := by decide
    intro hok
    rw [hok] at herr
    cases herr
  rw [s.robAt_of_le (by omega)] at h
  exact hfree h

/-- One record taken off the completion queue and broadcast. -/
theorem broadcasts_broadcastUop {s : State} {r : BusRecord} {i : Instr} (hi : decode (s.robAt r.p).uop = .ok i)
    (q : List BusRecord) (a : Activity) :
    s.Broadcasts [r] (broadcastUop i.profile r { s with cq := q, act := a }) := by
  obtain ⟨rs, hrs⟩ := broadcastUop_eq i.profile r { s with cq := q, act := a }
  have hat : ∀ k, (broadcastUop i.profile r { s with cq := q, act := a }).robAt k
      = if k = r.p then (s.robAt r.p).receive r else s.robAt k := fun k => by
    rw [hrs]
    exact s.robAt_setRob r.p k _ (robAt_lt_of_decode hi)
  obtain ⟨_, huop, _, _⟩ := (s.robAt r.p).receive_keeps r
  exact {
    fatal := by rw [hrs]; rfl
    dly := by rw [hrs]; rfl
    uop := fun p => by
      rw [hat]
      split
      · next hp => rw [hp, huop]
      · rfl
    staysReady := fun p hp => by
      rw [hat]
      split
      · exact RobEntry.receive_ready _ r
      · exact hp
    staysFree := fun c p hp => hp.of_sameEntries (broadcastUop_same i.profile r { s with cq := q, act := a } c)
    ready := fun x hx => by
      rw [List.mem_singleton.mp hx, hat, if_pos rfl]
      exact RobEntry.receive_ready _ r
    free := fun x hx j hj => by
      obtain rfl := List.mem_singleton.mp hx
      obtain rfl : i = j := by simpa [hi] using hj
      rw [← i.profile_cls]
      exact broadcastUop_frees i.profile x { s with cq := q, act := a }
    others := fun k hk => by rw [hat, if_neg fun h => hk r (by simp) h.symm] }

theorem broadcastUop_cq (pr : Profile) (r : BusRecord) (s : State) : (broadcastUop pr r s).cq = s.cq := by
  obtain ⟨rs, hrs⟩ := broadcastUop_eq pr r s
  rw [hrs]
  rfl

/-- One turn of the loop of R190, on a record of a micro-op. -/
theorem drain_cons {s : State} {r : BusRecord} {rest : List BusRecord} {i : Instr} (hf : s.fatal = none)
    (hq : s.cq = r :: rest) (hi : decode (s.robAt r.p).uop = .ok i) (k : Nat) :
    drain (k + 1) s = drain k (broadcastUop i.profile r { s with cq := rest, act := .broadcast r }) := by
  have hnf : (broadcastUop i.profile r { s with cq := rest, act := .broadcast r }).fatal.isSome = false := by
    rw [(broadcasts_broadcastUop hi rest (.broadcast r)).fatal, hf]
    rfl
  rw [drain, hq]
  simp only [execRecord_ok hi]
  show andThen (.next (broadcastUop i.profile r { s with cq := rest, act := .broadcast r })) (drain k) = _
  simp only [andThen, hnf, Bool.false_eq_true, if_false]

/-- With micro-ops of the table in the queue and no fatal, the loop of R190 broadcasts the first `k` records. -/
theorem drain_broadcasts (k : Nat) {s : State} (hf : s.fatal = none) (hknown : ∀ r ∈ s.cq, knownRecord (s.robAt r.p).uop) :
    ∃ t, drain k s = .next t ∧ t.cq = s.cq.drop k ∧ s.Broadcasts (s.cq.take k) t := by
  induction k generalizing s with
  | zero => exact ⟨s, rfl, rfl, .nil s⟩
  | succ k ih =>
    cases hq : s.cq with
    | nil => exact ⟨s, drain_empty _ hq, hq, .nil s⟩
    | cons r rest =>
      obtain ⟨⟨i, hi⟩, hrest⟩ := List.forall_mem_cons.mp (hq ▸ hknown)
      have hone := broadcasts_broadcastUop hi rest (.broadcast r)
      have hcq := broadcastUop_cq i.profile r { s with cq := rest, act := .broadcast r }
      obtain ⟨t, ht, htcq, hmore⟩ := ih (hone.fatal.trans hf) fun x hx => by
        rw [hone.uop]
        exact hrest x (by rwa [hcq] at hx)
      rw [hcq] at htcq hmore
      exact ⟨t, (drain_cons hf hq hi k).trans ht, htcq, hone.append hmore⟩

/-- Settles O25: the countdown queues what `completed` lists, then `drain_broadcasts`. -/
theorem writebackDrains : Obligations.WritebackDrains := by
  intro s hf hctr hdly hcq
  have hqueue : s.ageDelays.cq = s.cq ++ (s.dly.filter (fun d => d.ctr = 1)).map (·.record) := by
    rw [State.ageDelays_cq, completed_eq hctr]
  have hknown : ∀ r ∈ s.ageDelays.cq, knownRecord (s.ageDelays.robAt r.p).uop := by
    intro r hr
    rw [hqueue] at hr
    rcases List.mem_append.mp hr with hold | hnew
    · exact hcq r hold
    · obtain ⟨d, hd, rfl⟩ := List.mem_map.mp hnew
      exact hdly d (List.mem_of_mem_filter hd)
  obtain ⟨t, ht, htcq, hb⟩ := drain_broadcasts s.cfg.cdbWidth (s := s.ageDelays) hf hknown
  refine ⟨t, ht, ?delays, s.ageDelays.cq, hqueue, htcq, fun r hr => ⟨hb.ready r hr, hb.free r hr⟩, hb.others⟩
  case delays => rw [hb.dly, State.ageDelays_dly, countedDown_eq hctr]

end Sys2Proof.Machine
end

section
/-! PROOFS. The commit of each kind of micro-op (R210 to R220): one rule for a commit whose destination write succeeds
(`exec_of_commit_ok`), one for what the architectural writes leave of `RST` (`commitFlags_rst`), and the retirement of each kind. -/

namespace Sys2Proof.Machine

/-! What commit finds at the head. -/

theorem commitGate_of_executing {s : State} (h : (s.robAt s.head).status = .executing) :
    s.commitGate = if (s.robAt s.head).ready then .go else .idle := by
  unfold State.commitGate
  rw [h]

theorem commitGate_of_empty {s : State} (h : (s.robAt s.head).status = .empty) : s.commitGate = .idle := by
  unfold State.commitGate
  rw [h]

theorem commitGate_of_exception {s : State} {k : Nat} (h : (s.robAt s.head).status = .exception k) :
    s.commitGate = .internal := by
  unfold State.commitGate
  rw [h]

theorem commitStage_internal {s : State} (h : s.commitGate = .internal) : commitStage s = .next s.raiseInternal := by
  unfold commitStage
  rw [h]

/-! The three ends of a commit that is due. -/

section

variable {i : Instr} {s x : State}

/-- A destination write that succeeds is followed by the flag writes and the retirement (R210). -/
theorem exec_of_commit_ok (ha : s.act = .commit) (hg : s.commitGate = .go)
    (hh : (s.robAt s.head).halt = false) (hx : commitDest i.profile.size (s.robAt s.head) s = .ok x) :
    exec i s = .next (commitRetire i.profile.retire (s.robAt s.head) (commitFlags i.fw (s.robAt s.head) x)) := by
  rw [exec_of_commit i ha, commitUop_ok i.profile hg hh hx, i.profile_fw]

/-- A destination write that fails ends the commit with its fatal (R211, R215). -/
theorem exec_of_commit_error (ha : s.act = .commit) (hg : s.commitGate = .go)
    (hh : (s.robAt s.head).halt = false) (hx : commitDest i.profile.size (s.robAt s.head) s = .error x) : exec i s = .next x := by
  rw [exec_of_commit i ha, commitUop_error i.profile hg hh hx]

/-- The head entry asks for a halt (R213). -/
theorem exec_of_commit_halt (ha : s.act = .commit) (hg : s.commitGate = .go)
    (hh : (s.robAt s.head).halt = true) : exec i s = .next (commitHalt (s.robAt s.head) s) := by
  rw [exec_of_commit i ha, commitUop_halt i.profile hg hh]

/-- A micro-op with an empty flag mask retires right after its destination write. -/
theorem exec_of_commit_noFlags (ha : s.act = .commit) (hg : s.commitGate = .go)
    (hh : (s.robAt s.head).halt = false) (hx : commitDest i.profile.size (s.robAt s.head) s = .ok x) (hfw : i.fw = 0#4) :
    exec i s = .next (commitRetire i.profile.retire (s.robAt s.head) x) := by
  rw [exec_of_commit_ok ha hg hh hx, hfw, commitFlags_none]

/-- A control micro-op writes nothing at commit: it only retires (R281, R282). -/
theorem exec_of_commit_control (ha : s.act = .commit) (hg : s.commitGate = .go)
    (hh : (s.robAt s.head).halt = false) (hd : (s.robAt s.head).dest = .discard) (hfw : i.fw = 0#4) :
    exec i s = .next (commitRetire i.profile.retire (s.robAt s.head) s) :=
  exec_of_commit_noFlags ha hg hh (commitDest_discard _ hd s) hfw

end

/-! ALU, ALUCMP, MUL and LOAD. -/

/-- A destination write that clears the slot of the descriptor, then the flag writes: together they clear the slots that the head entry
writes and that name it, and no others (R214, R216). -/
theorem commitFlags_rst {s x : State} {d : Dest} (e : RobEntry) (fw : BitVec 4) (hhead : x.head = s.head)
    (hx : ∀ q, x.rst.get q = if s.rst.get q = some s.head ∧ d.slot = some q then none else s.rst.get q) (q : Slot) :
    (commitFlags fw e x).rst.get q =
      if s.rst.get q = some s.head ∧ writesSlot d fw q = true then none else s.rst.get q := by
  obtain ⟨-, hflag, hreg⟩ := commitFlags_get fw e x
  cases q with
  | reg r => simp [hreg, hx, writesSlot]
  | flag f => simp [hflag, hx, hhead, writesSlot, d.slot_ne_flag f, and_comm]

/-- The commit of a micro-op that resolves no branch, from a destination write of a register or of nothing. -/
theorem exec_of_commit_plain {i : Instr} {s x : State} (ha : s.act = .commit) (hg : s.commitGate = .go)
    (hh : (s.robAt s.head).halt = false) (hx : commitDest i.profile.size (s.robAt s.head) s = .ok x)
    (hret : i.profile.retire = .plain) (hframe : x = { s with regs := x.regs, rst := x.rst })
    (hrst : ∀ q, x.rst.get q = if s.rst.get q = some s.head ∧ (s.robAt s.head).dest.slot = some q then none else s.rst.get q) :
    ∃ flags rst, exec i s = .next (s.retired x.regs flags rst s.mem) ∧ s.flagsAfter i.fw flags
      ∧ ∀ q, rst.get q =
          if s.rst.get q = some s.head ∧ writesSlot (s.robAt s.head).dest i.fw q = true then none else s.rst.get q := by
  obtain ⟨flags, rst, hf⟩ := commitFlags_eq i.fw (s.robAt s.head) x
  obtain ⟨hflags, -, -⟩ := commitFlags_get i.fw (s.robAt s.head) x
  have hhead : x.head = s.head := by rw [hframe]
  have hflags0 : x.flags = s.flags := by rw [hframe]
  have htable := commitFlags_rst (s.robAt s.head) i.fw hhead hrst
  rw [hf] at hflags htable
  rw [hflags0] at hflags
  refine ⟨flags, rst, ?state, hflags, htable⟩
  case state =>
    rw [exec_of_commit_ok ha hg hh hx, hret, hf, hframe]
    rfl

/-- ALU, MUL and LOAD resolve no branch (R84, R210). -/
theorem retire_of_register {i : Instr} (h : i.kind = 1#5 ∨ i.kind = 3#5 ∨ i.kind = 4#5) : i.profile.retire = .plain := by
  cases i with
  | alu | mul | ldb | ldsb | ldh | ldsh | ldw | ldsw => rfl
  | _ => exact absurd h (by simp [Instr.kind])

/-- Settles O26: `exec_of_commit_plain` on the register write of `commitDest_register`. -/
theorem commitRegister : Obligations.CommitRegister := by
  intro i s rd uf hkind ha hg hh hd
  obtain ⟨flags, rst, hexec, hflags, hrst⟩ := exec_of_commit_plain ha hg hh (commitDest_register _ hd s) (retire_of_register hkind) rfl
    fun q => by
      rw [hd]
      simp [Rst.get_release, Dest.slot, and_comm, eq_comm]
  rw [hd] at hrst
  exact ⟨_, flags, rst, hexec, fun r => s.getReg_setReg rd r _, hflags, hrst⟩

/-- Settles O27: `exec_of_commit_plain` with nothing written before the flags. -/
theorem commitCompare : Obligations.CommitCompare := by
  intro s sub a o cin fw pi ha hg hh hd
  obtain ⟨flags, rst, hexec, hflags, hrst⟩ := exec_of_commit_plain (i := .cmp sub a o cin fw pi) ha hg hh
    (commitDest_discard _ hd s) rfl rfl fun q => by simp [hd, Dest.slot]
  rw [hd] at hrst
  exact ⟨flags, rst, hexec, hflags, hrst⟩

/-! STORE. -/

theorem commitDest_refused {size : Size} {e : RobEntry} {s : State} {a : Word} (hd : e.dest = .resolved a)
    (hm : s.memWrite a size.bytes e.value = none) : commitDest size e s = .error (s.raise .memStore e.pc (.word a)) := by
  simp [commitDest, hd, hm]

/-- Settles O28: the destination write is `memWrite` at the resolved address, accepted or refused. -/
theorem commitStore : Obligations.CommitStore := by
  intro i s size sg a hstore hacc ha hg hh hd
  obtain ⟨ra, rn, off, hprofile⟩ := store_profile hstore hacc
  have hsize : i.profile.size = size := by rw [hprofile]; rfl
  have hret : i.profile.retire = .plain := by rw [hprofile]; rfl
  have hfw : i.fw = 0#4 := by rw [← i.profile_fw, hprofile]; rfl
  refine ⟨fun m hm => ⟨?accepted, fun hwf x hx => ?frame⟩, fun hm => ?refused⟩
  case accepted =>
    rw [exec_of_commit_noFlags ha hg hh (commitDest_resolved hd (hsize ▸ hm)) hfw, hret]
    rfl
  case frame => exact memWrite_frame (size.bytes_le.trans (by decide)) hm hwf hx
  case refused => exact exec_of_commit_error ha hg hh (commitDest_refused hd (hsize ▸ hm))

/-! B, BL and BCOND. -/

/-- B, BL and BCOND retire as relative branches with their increment, and write no flag (R217, R281). -/
theorem retire_of_relative {i : Instr} (h : i.kind = 6#5 ∨ i.kind = 7#5 ∨ i.kind = 8#5) :
    i.profile.retire = .relative (pcIncrement i.pcInc) ∧ i.fw = 0#4 := by
  cases i with
  | b | bcond | bl => exact ⟨rfl, rfl⟩
  | _ => exact absurd h (by simp [Instr.kind])

/-- The comparison of R217 as commit makes it: the outcome is the one `POLICY` predicts. -/
theorem goesAsPredicted_iff (e : RobEntry) (cfg : Cfg) :
    decide (e.value ≠ 0#32) = predictedTaken cfg ↔ (e.value ≠ 0#32 ↔ cfg.policy = .alwaysTaken) := decide_eq_decide

/-- Settles O29: the two branches of `resolveBranch` on a relative branch. -/
theorem commitRelative : Obligations.CommitRelative := by
  intro i s hkind ha hg hh hd
  obtain ⟨hret, hfw⟩ := retire_of_relative hkind
  have hexec := exec_of_commit_control ha hg hh hd hfw
  rw [hret] at hexec
  refine ⟨fun hpred => ?correct, fun hpred => ?mispredicted⟩
  case correct =>
    rw [hexec, commitRetire, resolveBranch, if_pos ((goesAsPredicted_iff _ _).mpr hpred)]
    rfl
  case mispredicted =>
    rw [hexec, commitRetire, resolveBranch, if_neg (mt (goesAsPredicted_iff _ _).mp hpred)]
    rfl

/-! BX, BLX and SETPC. -/

/-- Settles O30: an exchange-style branch recovers without a comparison. -/
theorem commitExchange : Obligations.CommitExchange := by
  rintro i s rn pi (rfl | rfl | rfl) ha hg hh hd <;> exact exec_of_commit_control ha hg hh hd rfl

/-! Recovery at commit. -/

/-- Whether the ROB is empty, and its count, depend on its pointers, its entries and its capacity only (R27). -/
theorem robEmpty_congr {s t : State} (hcfg : t.cfg = s.cfg) (hrob : t.rob = s.rob) (hhead : t.head = s.head)
    (htail : t.tail = s.tail) : t.robEmpty = s.robEmpty ∧ t.robCount = s.robCount := by
  simp [State.robEmpty, State.robCount, State.robFull, State.robAge, State.robAt, hcfg, hrob, hhead, htail]

/-- A commit that recovers leaves the ROB empty, whatever it counts and traces (R232). -/
theorem robEmpty_of_recovery {s y : State} (hs : s.Fifo) (hg : s.commitGate = .go) (target : Word)
    (hy : y = { s.recover target with counters := y.counters, trace := y.trace }) :
    y.releaseHead.robEmpty = true ∧ y.releaseHead.robCount = 0 := by
  obtain ⟨hempty, hcount⟩ := recover_releaseHead_empty hs (commitGate_go hg).1 target
  obtain ⟨hsameEmpty, hsameCount⟩ := robEmpty_congr (s := (s.recover target).releaseHead) (t := y.releaseHead)
    (by rw [hy]; rfl) (by rw [hy]; rfl) (by rw [hy]; rfl) (by rw [hy]; rfl)
  exact ⟨hsameEmpty.trans hempty, hsameCount.trans hcount⟩

/-- Settles O34: both kinds of redirect answer a recovered state that then releases its head. -/
theorem robEmptyAfterRedirect : Obligations.RobEmptyAfterRedirect := by
  rintro i s hs ha hg hh hd (⟨rn, pi, hexchange⟩ | ⟨hkind, hpred⟩)
  · exact ⟨_, commitExchange i s rn pi hexchange ha hg hh hd, robEmpty_of_recovery hs hg _ rfl⟩
  · obtain ⟨-, hmispredicted⟩ := commitRelative i s hkind ha hg hh hd
    exact ⟨_, hmispredicted hpred, robEmpty_of_recovery hs hg _ rfl⟩

/-! Supervisor calls. -/

/-- Settles O31: a print retires and lets fetch go on, a halt takes the path of R213. -/
theorem commitSupervisor : Obligations.CommitSupervisor := by
  intro s rn pi ha hg hd
  refine ⟨fun hh => ⟨?puts, ?puti⟩, fun hh => ?halt⟩
  case puts => exact exec_of_commit_control ha hg hh hd rfl
  case puti => exact exec_of_commit_control ha hg hh hd rfl
  case halt => exact exec_of_commit_halt ha hg hh

/-! Nothing to commit, and the fatal `INTERNAL`. -/

theorem commitDest_awaiting (size : Size) {e : RobEntry} (hd : e.dest = .awaiting) (s : State) :
    commitDest size e s = .error s.raiseInternal := by
  simp [commitDest, hd]

/-- Settles O32: the three answers of `commitGate`, and the descriptor that no destination write takes. -/
theorem commitWaits : Obligations.CommitWaits := by
  intro s
  refine ⟨?idle, fun k hst => ?exception, fun i hst hready hh hd hi => ?awaiting⟩
  case idle =>
    rintro (hst | ⟨hst, hready⟩)
    · exact commitStage_idle (commitGate_of_empty hst)
    · exact commitStage_idle (by rw [commitGate_of_executing hst, hready]; rfl)
  case exception => exact commitStage_internal (commitGate_of_exception hst)
  case awaiting =>
    have hg : s.commitGate = .go := by rw [commitGate_of_executing hst, hready]; rfl
    rw [commitStage_eq_exec hg hi]
    exact exec_of_commit_error (s := s.doing .commit) rfl hg hh (commitDest_awaiting _ hd _)

end Sys2Proof.Machine
end

section
/-! PROOFS. What a recovery leaves of the reservation stations, and that nothing left names a flushed slot (R230 to R238). -/

namespace Sys2Proof.Machine

/-- The head is the oldest entry, and a recovery flushes younger ones only (R232). -/
theorem head_not_mem_flushed (s : State) (hh : s.head < s.cfg.robCapacity) : s.head ∉ s.flushed := by
  have hage : s.robAge s.head = 0 := by simp [robAge_eq s hh hh]
  simp [mem_flushed s hh hh, hage]

/-- A busy station after a recovery was there before, and its producer was not flushed (R234). -/
theorem recover_station {s : State} {target : Word} {c : FuClass} {e : RsEntry} (he : e ∈ (s.recover target).rs.get c)
    (hb : e.busy = true) : e ∈ s.rs.get c ∧ e.dest ∉ s.flushed := by
  have hget : (s.recover target).rs.get c = _ := PerClass.get_map s.rs _ c
  rw [hget] at he
  obtain ⟨x, hx, rfl⟩ := List.mem_map.mp he
  split at hb
  · cases hb
  · next hkept =>
    rw [if_neg hkept]
    exact ⟨hx, fun hmem => hkept (by simp [hb, hmem])⟩

/-- A flushed slot is empty after the recovery, and no busy station and no slot of `RST` names it (R232 to R234). -/
theorem recover_frees {s : State} {i : Nat} (hi : i ∈ s.flushed) (target : Word) :
    ((s.recover target).robAt i).status = .empty
    ∧ (∀ c, ∀ e ∈ (s.recover target).rs.get c, e.busy = true → e.dest ≠ i)
    ∧ (∀ r, (s.recover target).rst.get r ≠ some i) := by
  refine ⟨?slot, fun c e he hb hdest => ?station, fun r hr => (recover_rst hr).2 hi⟩
  case slot => rw [recover_robAt, if_pos hi]
  case station => exact (recover_station he hb).2 (hdest ▸ hi)

/-- Settles O33: the fields by their laws; the head is not flushed, every younger slot in use is. -/
theorem recoveryFlushes : Obligations.RecoveryFlushes := by
  intro s target _ hh
  have hhead : (s.recover target).robAt s.head = s.robAt s.head := by
    rw [recover_robAt, if_neg (head_not_mem_flushed s hh)]
  exact ⟨rfl, rfl, rfl, rfl, rfl, rfl, rfl, rfl, rfl, rfl, rfl, rfl, rfl, rfl, rfl, rfl, rfl, rfl, rfl, hhead,
    fun i hi hyounger hused => recover_frees ((mem_flushed s hi hh).mpr ⟨hyounger, hused⟩) target⟩

end Sys2Proof.Machine
end

section
/-! PROOFS. The conditional branch: the condition table (R276), and what a started BCOND puts on the delay list (R271). The operands carry
the flags of `CondReads`, so the outcome is that of the condition on the flags themselves (`condHolds_reads`). -/

namespace Sys2Proof.Machine

/-- Settles O13: row by row, the condition in terms of the flags of its row. -/
theorem conditionTable : Obligations.ConditionTable := by
  have hclear : ∀ b : Bool, (!b) = true ↔ b = false := fun b => iff_of_eq (Bool.not_eq_true' b)
  refine ⟨⟨rfl, rfl, rfl, rfl, rfl, rfl, rfl, rfl, rfl, rfl, rfl, rfl, rfl, rfl⟩, fun f =>
    ⟨Iff.rfl, hclear _, Iff.rfl, hclear _, Iff.rfl, hclear _, Iff.rfl, hclear _, ?hi, ?ls, beq_iff_eq, bne_iff_ne, ?gt, ?le⟩⟩
  case hi | ls | gt | le => simp [condHolds]

/-- Operand slots that hold the flags of `CondReads` in its order, and nothing beyond, give those flags as the first operand words
(R162, R271). -/
theorem operandWords_reads (c : Cond) (fl : PerFlag Bool) {o0 o1 o2 : Operand}
    (h0 : o0 = (((condReads c)[0]?).map (fun g => Operand.value (flagWord (fl.get g)))).getD .absent)
    (h1 : o1 = (((condReads c)[1]?).map (fun g => Operand.value (flagWord (fl.get g)))).getD .absent)
    (h2 : o2 = (((condReads c)[2]?).map (fun g => Operand.value (flagWord (fl.get g)))).getD .absent) :
    ∃ rest, [o0.word, o1.word, o2.word] = (condReads c).map (fun g => flagWord (fl.get g)) ++ rest := by
  subst h0 h1 h2
  cases c <;> exact ⟨_, rfl⟩

/-- A BCOND starts as a relative branch on the outcome of its condition on the flags in its operands (R271). -/
theorem startCond_reads {cond : Cond} {fl : PerFlag Bool} {st : Started} {rest : List Word} (simm : Word) (s : State)
    (h : [st.v0, st.v1, st.v2] = (condReads cond).map (fun g => flagWord (fl.get g)) ++ rest) :
    startCond cond simm st s = startRelative simm (condHolds cond fl) st s := by
  rw [startCond, h, condHolds_reads]

/-- Settles O14: the operands carry the flags, so the start is `startRelative` on the outcome of the condition. -/
theorem condBranchStart : Obligations.CondBranchStart := by
  intro s c j cond simm pi f _ ha h0 h1 h2
  obtain ⟨rest, hwords⟩ := operandWords_reads cond f h0 h1 h2
  exact exec_of_startPush (t := s) ha (startCond_reads (st := s.started c j) simm s hwords) rfl

end Sys2Proof.Machine
end
